-- ==== Sys2Proof/Word.lean ====
section
/-! DEFINITION. The plain words of the block: bytes, nibbles, I2C addresses and bits (00_scope R9). Every value is
unsigned; the block has no signed arithmetic. -/

namespace Sys2Proof

/-- A byte: bits 7..0 (R9). -/
abbrev Byte := BitVec 8

/-- A nibble of the GFF code (R97). -/
abbrev Nibble := BitVec 4

/-- A 7-bit I2C device address (R51). -/
abbrev Addr7 := BitVec 7

/-- One bit of a line, a stream or an acknowledge slot; `true` is 1 and `false` is 0 (R82: 0 = ACK, 1 = NACK). -/
abbrev Bit := Bool

end Sys2Proof
end

