-- ==== Sys2Proof/Config.lean ====
section
/-! DEFINITION. What an implementation fixes (00_scope R8) and the free values (R10 `draw`): every OPEN parameter and
every value the environment supplies of its own is an opaque constant, so that no proof can see what it is. -/

namespace Sys2Proof

/-- The timeouts a bounded wait can carry (R8, 43_isp_engine R216, R224). They differ only as names: time is not
modelled (R318). -/
inductive Timeout where
  | stretch
  | ci
  | ciErase
  | busy
  | crc
  deriving DecidableEq, Repr

/-- The transport error kinds a native backend can report (42_transport R190). -/
inductive XferErr where
  | noAck
  | ioError
  | busStuck
  deriving DecidableEq, Repr

/-- The two values the spec names for GFF_Z6_END (R8, 92_eei D31): `r = 1`, the literal reading, and `r < 8`. -/
inductive Z6Rule where
  | exactlyOne
  | fewerThanEight
  deriving DecidableEq, Repr

/-- The parameters of R8 that a rule reads, as plain data. -/
structure Params where
  /-- MASTER_RX_ACK (D6) -/
  masterRxAck : Bool
  /-- RESET_ROUND_LIMIT (D10) -/
  resetRoundLimit : Option Nat
  /-- GFF_Z6_END (D31) -/
  z6 : Z6Rule
  /-- chip_size - 1, so that 1 ≤ chip_size ≤ 2^24 by construction (R53, D27) -/
  lastFlashAddr : BitVec 24
  /-- CT_WREN_WRSR (D20) -/
  ctWrenWrsr : BitVec 3
  /-- CT_ERASE (D20) -/
  ctErase : BitVec 3
  /-- CT_READ (D20) -/
  ctRead : BitVec 3
  /-- OP_WRSR (D20) -/
  opWrsr : Byte
  /-- OP_ERASE (D20) -/
  opErase : Byte
  /-- OP_READ (D20) -/
  opRead : Byte
  /-- SIZE_ENC(1), …, SIZE_ENC(128) (D22) -/
  sizeEnc : Vector Byte 128
  deriving DecidableEq, Repr

/-- chip_size (R8, R53). -/
def Params.chipSize (p : Params) : Nat := p.lastFlashAddr.toNat + 1

/-! The OPEN parameters of R8 (assumption log 8). -/

opaque Config.ctWrenWrsr : BitVec 3
opaque Config.ctErase : BitVec 3
opaque Config.ctRead : BitVec 3
opaque Config.opWrsr : Byte
opaque Config.opErase : Byte
opaque Config.opRead : Byte
opaque Config.sizeEnc : Vector Byte 128
opaque Config.lastFlashAddr : BitVec 24
/-- POLL_INTERVAL in microseconds (D41); no rule reads it. -/
opaque Config.pollIntervalMicros : Nat
/-- BUSY_TIMEOUT in microseconds (D41); no rule reads it. -/
opaque Config.busyTimeoutMicros : Nat
/-- CRC_TIMEOUT in microseconds (D41); no rule reads it. -/
opaque Config.crcTimeoutMicros : Nat

/-- T_HALF, 5 µs (R321, D37). -/
def Config.tHalfMicros : Nat := 5

/-- The timeouts' nominal values in microseconds (R321); no rule reads them. -/
def Config.timeoutMicros : Timeout → Nat
  | .stretch => 2000000
  | .ci => 2000000
  | .ciErase => 20000000
  | .busy => Config.busyTimeoutMicros
  | .crc => Config.crcTimeoutMicros

/-- The parameters of the machine after reset: the stated defaults (D6, D10, D31) and the OPEN ones. -/
def Config.params : Params where
  masterRxAck := true
  resetRoundLimit := none
  z6 := .exactlyOne
  lastFlashAddr := Config.lastFlashAddr
  ctWrenWrsr := Config.ctWrenWrsr
  ctErase := Config.ctErase
  ctRead := Config.ctRead
  opWrsr := Config.opWrsr
  opErase := Config.opErase
  opRead := Config.opRead
  sizeEnc := Config.sizeEnc

/-! The free values of the environment, each applied to the draw counter `Env.draws` (assumption log 5). -/

/-- The level of a released line (R23, R150). -/
opaque Config.level : Nat → Bit
/-- Whether a bounded wait has expired at a failing poll (R151, R223). -/
opaque Config.expired : Nat → Bool
/-- The outcome of a native write: `none` is Ok (R190). -/
opaque Config.writeFailure : Nat → Option XferErr
/-- The outcome of a native read: `none` is Ok (R190). -/
opaque Config.readFailure : Nat → Option XferErr
/-- A byte a native read returns (R190). -/
opaque Config.dataByte : Nat → Byte
/-- Whether the backend opens (R193). -/
opaque Config.opens : Nat → Bool
/-- The device map of `list_devices` (R195). -/
opaque Config.deviceList : Nat → List (List Byte × List Byte)
/-- How many failing polls, beyond those the environment's answers cover, a bounded wait survives before expiry is
true (R151, R223: finitely many); applied to the draw counter and the trace's length (assumption log 6). -/
opaque Config.expiryBound : Timeout → Nat → Nat → Nat
/-- How many recovery rounds a bus recovery without limit makes before the run counts as one that never ends
(R152, R294); applied to the draw counter and the trace's length (assumption log 6). -/
opaque Config.recoveryBound : Nat → Nat → Nat
/-- What the reference device answers for a flash address at or past chip_size (assumption log 10). -/
opaque Config.absentFlash : Nat → Byte

end Sys2Proof
end

