-- ==== Sys2Proof/Syntax.lean ====
section
/-! DEFINITION. The instructions: one constructor per row of spec/opcode_table.json, in the table's order, with the
operand types of the operations and encodings (30_encoding R102, 00_scope R13). -/

namespace Sys2Proof

/-- The two bus lines (R22). -/
inductive Line where
  | sda
  | scl
  deriving DecidableEq, Repr

/-- The register poll sites (R224). -/
inductive PollSite where
  | ci
  | busy
  | crc
  deriving DecidableEq, Repr

/-- What `BusStuck` carries: "the line or poll site" (R280); a native transport reports no place. -/
inductive StuckAt where
  | line (l : Line)
  | site (p : PollSite)
  | backend
  deriving DecidableEq, Repr

/-- What `NoAck` carries: the address or data byte j of a software-bus transaction, nothing on a native transport
(R280). -/
inductive NackAt where
  | address
  | data (j : Nat)
  | backend
  deriving DecidableEq, Repr

/-- The error kinds, in the order of R280's table (D33: no numeric codes). -/
inductive Err where
  | busStuck (at_ : StuckAt)
  | noAck (at_ : NackAt)
  | ioError
  | enterIspFailed
  | customInstructionTimeout
  | verificationFailed
  | decodeError
  | signatureMismatch
  | tooSmall
  deriving DecidableEq, Repr

/-- The `test` operand of `poll` (R223), a predicate on the byte read as plain data: some bit of a mask set, all bits
of a mask clear (the forms of R224), or any predicate at all as its table of 256 answers. -/
inductive PollTest where
  | anySet (mask : Byte)
  | allClear (mask : Byte)
  | table (answers : BitVec 256)
  deriving DecidableEq, Repr

/-- A BitStream (R26): the payload, the index of the current byte and the mask of the next bit. -/
structure BitStream where
  buf : List Byte
  idx : Nat
  mask : Byte
  deriving DecidableEq, Repr

/-- The two 3-byte flash address groups an A24 is written to (R92): 0x64..0x66 and 0x72..0x74. -/
inductive A24Reg where
  | target
  | crcEnd
  deriving DecidableEq, Repr

/-- The two forms of F-OPND (R88): the write operand of n bytes, the read result of n bytes, n in 0..3. -/
inductive OpndForm where
  | write (n : BitVec 2) (value : Nat)
  | read (n : BitVec 2)
  deriving DecidableEq, Repr

/-- The two ISP addresses (R51, R83): ISP_ADDR and ISP_ADDR_AI. -/
inductive IspAddr where
  | plain
  | autoinc
  deriving DecidableEq, Repr

/-- Why bytes are no call (the model's own; assumption log 2). -/
inductive DecodeError where
  | emptyCall
  | unknownRow (tag : Nat)
  | truncated
  | badOperand
  | wrongFixedBits
  | noTableRow
  deriving DecidableEq, Repr

/-- The instructions: the rows of spec/opcode_table.json in its order. -/
inductive Instr where
  -- GffCodec
  | bsReadBit (bs : BitStream)
  | decodeNibble (bs : BitStream)
  | checkHeader (file : List Byte)
  | decode (file : List Byte)
  | computeDecodedSize (file : List Byte)
  -- SoftwareI2CBus
  | drive (l : Line)
  | release (l : Line)
  | waitScl
  | busReset
  | pulseScl
  | start
  | stop
  | writeBit (b : Bit)
  | readBit
  | writeByte (x : Byte)
  | readByte
  | busWrite (address : Nat) (data : List Byte)
  | busRead (address : Nat) (count : Nat)
  -- I2CTransport
  | tWrite (a : Addr7) (bytes : List Byte)
  | tRead (a : Addr7) (n : Nat)
  | init (device settings : List Byte)
  | deinit
  | listDevices
  | detect (a : Addr7)
  -- IspProtocolEngine
  | regWrite (reg : Byte) (payload : List Byte) (seq : Bool)
  | regRead (reg : Byte) (n : Nat) (seq : Bool)
  | enterIsp
  | exitIsp
  | customInstruction (cmdType : Nat) (opcode : Byte) (readN writeN writeValue : Nat)
  | deviceCrc (first last : Nat)
  | hostCrc (data : List Byte)
  | poll (site : PollSite) (reg : Byte) (test : PollTest) (timeout : Timeout) (err : Err)
  -- FlashController
  | erase
  | program (img : List Byte)
  | flashRead (n : Nat)
  -- F-ADDR
  | addrW (a : Addr7)
  | addrR (a : Addr7)
  | ispAddrWrite
  | ispAddrRead
  | ispAddrAiWrite
  | ispAddrAiRead
  -- F-ACK
  | ack
  | nack
  -- F-CTRL, F-CMD, F-STAT, F-CTRL read, F-RBT
  | ctrl (cmdType : BitVec 3) (writeN readN : BitVec 2)
  | cmdEnterIsp
  | cmdCrc
  | cmdPageWrite
  | statIsp
  | statBusy
  | statCrcReady
  | ciPending
  | reboot
  -- F-A24, F-OPND, F-SIZE, F-REGW, F-REGR
  | a24 (reg : A24Reg) (addr : BitVec 24)
  | opnd (form : OpndForm)
  | size (lastIndex : Fin 128)
  | regw (a : IspAddr) (reg : Byte) (chunk : List Byte)
  | regr (reg : Byte) (k : Nat) (seq : Bool)
  -- F-GFF, F-NIB, F-PAIR
  | gffHeader (file : List Byte)
  | nib0
  | nibF
  | nib1
  | nib8
  | nib2
  | nib7
  | nibC
  | nib9
  | nib4
  | nib5
  | nibA
  | nibB
  | nib3
  | nibD
  | nibE
  | nib6
  | nibError
  | nibZ6
  | nibEndExhausted
  | pair (n1 n2 : Nibble)
  deriving DecidableEq, Repr

end Sys2Proof
end

