-- ==== Sys2Proof/WellFormed.lean ====
section
/-! DEFINITION. The static domain of every instruction's operands, as spec/opcode_table.json and the operations' rules
give it. A call outside it is one `exec` refuses by the reason 60_exceptions R293 lists, but for a BitStream, whose
form R26 fixes: bytes that name a malformed one are no call. -/

namespace Sys2Proof

/-- The legal masks of a BitStream (R26). -/
def BitStream.masks : List Byte := [0x80, 0x40, 0x20, 0x10, 0x08, 0x04, 0x02, 0x01]

/-- R26: `0 ≤ idx ≤ len(buf)`, and the mask is one of 0x80, …, 0x01. -/
def BitStream.valid (bs : BitStream) : Bool :=
  decide (bs.idx ≤ bs.buf.length) && BitStream.masks.contains bs.mask

/-- The operands have the form their types' rules fix, so that the instruction has call bytes. -/
def Instr.representable : Instr → Bool
  | .bsReadBit bs => bs.valid
  | .decodeNibble bs => bs.valid
  | _ => true

/-- F-OPND's write operand fits its bytes: `write_value < 2^(8·write_n)` when write_n > 0 (R215, R88). -/
def operandFits (writeN writeValue : Nat) : Bool :=
  decide (writeN = 0 ∨ writeValue < 2 ^ (8 * writeN))

/-- The operands lie in the ranges of the opcode table: a 7-bit address (R161, R162), a payload of at least one byte
(R210), at least one byte to read (R211), the field ranges of a custom instruction (R215), a CRC range (R218), an image
and a size of at least one byte and at most 2^24 (R262). -/
def Instr.wellFormed : Instr → Bool
  | .bsReadBit bs => bs.valid
  | .decodeNibble bs => bs.valid
  | .busWrite address _ => decide (address ≤ 127)
  | .busRead address _ => decide (address ≤ 127)
  | .regWrite _ payload _ => decide (payload ≠ [])
  | .regRead _ n _ => decide (1 ≤ n)
  | .customInstruction cmdType _ readN writeN writeValue =>
      decide (cmdType ≤ 7) && decide (readN ≤ 3) && decide (writeN ≤ 3) && operandFits writeN writeValue
  | .deviceCrc first last => decide (first ≤ last) && decide (last < 2 ^ 24)
  | .program img => decide (1 ≤ img.length) && decide (img.length ≤ 2 ^ 24)
  | .flashRead n => decide (1 ≤ n) && decide (n ≤ 2 ^ 24)
  | .opnd (.write n value) => operandFits n.toNat value
  | .regw _ _ chunk => decide (chunk ≠ [])
  | .regr _ k _ => decide (1 ≤ k)
  | _ => true

end Sys2Proof
end

