-- ==== Sys2Proof/Decode.lean ====
section
/-! DEFINITION. The encodings of 30_encoding as functions, the call bytes of the caller's program with their decoder
and encoder, and the decoder of a bare table word. The block has no instruction words of its own (00_scope R13): a call
is the row number of its opcode-table row followed by its operands, which is the model's own (assumption log 2); an
encoding row carries the spec's word itself. -/

namespace Sys2Proof

/-! ## Constants (00_scope R7) -/

/-- ISP_ADDR, 0x4A. -/
def ispAddr : Addr7 := 0x4A

/-- ISP_ADDR_AI, `0x4A | 1`. -/
def ispAddrAi : Addr7 := ispAddr ||| 1

/-- The I2C address an ISP address names (R83). -/
def IspAddr.addr : IspAddr → Addr7
  | .plain => ispAddr
  | .autoinc => ispAddrAi

/-! ## Bytes and values (R9) -/

/-- `be_bytes(v, n)`: the n low bytes of v, most significant first (R9; its rule uses it only for `v < 2^(8n)`). -/
def beBytes (v : Nat) : Nat → List Byte
  | 0 => []
  | n + 1 => beBytes (v / 256) n ++ [BitVec.ofNat 8 v]

/-- `be_value(L)` (R9). -/
def beValue (bytes : List Byte) : Nat :=
  bytes.foldl (fun v b => v * 256 + b.toNat) 0

/-! ## Wire formats -/

/-- F-ADDR: `address<<1 | rw`, WRITE = 0, READ = 1 (R81, D5). -/
def addressByte (a : Addr7) (rw : Bit) : Byte := (a.setWidth 8 <<< 1) ||| (if rw then 1 else 0)

/-- The address field of an F-ADDR byte, bits 7:1 (R81). -/
def addressField (b : Byte) : Addr7 := b.extractLsb' 1 7

/-- F-CTRL: `(cmd_type<<5)|(write_n<<3)|(read_n<<1)|1` (R86). -/
def controlByte (cmdType : BitVec 3) (writeN readN : BitVec 2) : Byte :=
  (cmdType.setWidth 8 <<< 5) ||| (writeN.setWidth 8 <<< 3) ||| (readN.setWidth 8 <<< 1) ||| 1

/-- The `cmd_type` field of an F-CTRL byte, bits 7:5 (R87). -/
def ctrlCmdType (b : Byte) : BitVec 3 := b.extractLsb' 5 3

/-- The `write_n` field of an F-CTRL byte, bits 4:3 (R87). -/
def ctrlWriteN (b : Byte) : BitVec 2 := b.extractLsb' 3 2

/-- The `read_n` field of an F-CTRL byte, bits 2:1 (R87). -/
def ctrlReadN (b : Byte) : BitVec 2 := b.extractLsb' 1 2

/-- The `go` bit of an F-CTRL byte, bit 0 (R87). -/
def ctrlGo (b : Byte) : Bit := b.getLsbD 0

/-- F-CMD: enter ISP mode (R89). -/
def cmdByteEnterIsp : Byte := 0x80
/-- F-CMD: start the device CRC (R89). -/
def cmdByteCrc : Byte := 0x84
/-- F-CMD: start the page write (R89). -/
def cmdBytePageWrite : Byte := 0xA0
/-- F-RBT (R91). -/
def rebootByte : Byte := 0x02

/-- The first register of the group an A24 is written to (R92). -/
def A24Reg.reg : A24Reg → Byte
  | .target => 0x64
  | .crcEnd => 0x72

/-- F-NIB: the codeword of each nibble value, first bit first (R97). -/
def nibbleCode (v : Nibble) : List Bit :=
  match v.toNat with
  | 0x0 => [true]
  | 0xF => [false, true, true]
  | 0x1 => [false, true, false]
  | 0x8 => [false, false, true, true]
  | 0x2 => [false, false, true, false]
  | 0x7 => [false, false, false, true, true]
  | 0xC => [false, false, false, true, false]
  | 0x9 => [false, false, false, false, true, true, true]
  | 0x4 => [false, false, false, false, true, true, false]
  | 0x5 => [false, false, false, false, true, false, true, true]
  | 0xA => [false, false, false, false, true, false, true, false]
  | 0xB => [false, false, false, false, true, false, false, true]
  | 0x3 => [false, false, false, false, true, false, false, false]
  | 0xD => [false, false, false, false, false, true, true, true]
  | 0xE => [false, false, false, false, false, true, true, false]
  | _ => [false, false, false, false, false, true, false, true]

/-- F-NIB: the codeword of the error marker, `00000100` (R97). -/
def errorCode : List Bit := [false, false, false, false, false, true, false, false]

/-- F-NIB: the escape `000000` (R97). -/
def z6Code : List Bit := [false, false, false, false, false, false]

/-- Stream bits as an integer, first bit most significant (the opcode table's `match_reads`). -/
def bitsValue (bits : List Bit) : Nat :=
  bits.foldl (fun v b => v * 2 + b.toNat) 0

/-! ## Operand codes of the call bytes (assumption log 2) -/

/-- A natural in groups of seven bits, least significant first, bit 7 set on all groups but the last; the fuel
bounds the number of further groups. -/
def encodeNatFuel : Nat → Nat → List Byte
  | 0, n => [BitVec.ofNat 8 (n % 128)]
  | f + 1, n =>
    if n < 128 then [BitVec.ofNat 8 n] else BitVec.ofNat 8 (128 + n % 128) :: encodeNatFuel f (n / 128)

/-- A natural of any size. -/
def encodeNat (n : Nat) : List Byte := encodeNatFuel n n

/-- A byte list: its length, then its bytes. -/
def encodeList (bytes : List Byte) : List Byte := encodeNat bytes.length ++ bytes

def encodeBool (b : Bool) : List Byte := [if b then 1 else 0]

def encodeStream (bs : BitStream) : List Byte := encodeList bs.buf ++ encodeNat bs.idx ++ [bs.mask]

def encodeLine : Line → List Byte
  | .sda => [0]
  | .scl => [1]

def encodeSite : PollSite → List Byte
  | .ci => [0]
  | .busy => [1]
  | .crc => [2]

def encodeTimeout : Timeout → List Byte
  | .stretch => [0]
  | .ci => [1]
  | .ciErase => [2]
  | .busy => [3]
  | .crc => [4]

def encodeTest : PollTest → List Byte
  | .anySet mask => [0, mask]
  | .allClear mask => [1, mask]
  | .table answers => 2 :: encodeNat answers.toNat

def encodeStuckAt : StuckAt → List Byte
  | .line .sda => [0]
  | .line .scl => [1]
  | .site .ci => [2]
  | .site .busy => [3]
  | .site .crc => [4]
  | .backend => [5]

def encodeNackAt : NackAt → List Byte
  | .address => [0]
  | .data j => 1 :: encodeNat j
  | .backend => [2]

/-- An error kind, numbered as R280's table orders it. -/
def encodeErr : Err → List Byte
  | .busStuck w => 0 :: encodeStuckAt w
  | .noAck w => 1 :: encodeNackAt w
  | .ioError => [2]
  | .enterIspFailed => [3]
  | .customInstructionTimeout => [4]
  | .verificationFailed => [5]
  | .decodeError => [6]
  | .signatureMismatch => [7]
  | .tooSmall => [8]

/-! ## Reading operands -/

/-- A reader of call bytes. -/
abbrev Parser (α : Type) := EStateM DecodeError (List Byte) α

def parseByte : Parser Byte := do
  match ← get with
  | [] => throw .truncated
  | b :: rest => set rest; return b

/-- The inverse of `encodeNat` on the front of a byte list. -/
def takeNat : List Byte → Option (Nat × List Byte)
  | [] => none
  | b :: rest =>
    if b.toNat < 128 then some (b.toNat, rest)
    else (takeNat rest).map fun (n, rest') => (b.toNat - 128 + 128 * n, rest')

def parseNat : Parser Nat := do
  match takeNat (← get) with
  | none => throw .truncated
  | some (n, rest) => set rest; return n

/-- The next n bytes. -/
def parseBytes (n : Nat) : Parser (List Byte) := do
  let bytes ← get
  if bytes.length < n then throw .truncated
  set (bytes.drop n)
  return bytes.take n

def parseList : Parser (List Byte) := do
  let n ← parseNat
  parseBytes n

def parseBool : Parser Bool := do
  match (← parseByte).toNat with
  | 0 => return false
  | 1 => return true
  | _ => throw .badOperand

def parseStream : Parser BitStream := do
  let buf ← parseList
  let idx ← parseNat
  let mask ← parseByte
  let bs : BitStream := { buf := buf, idx := idx, mask := mask }
  if bs.valid then return bs else throw .badOperand

def parseLine : Parser Line := do
  match (← parseByte).toNat with
  | 0 => return .sda
  | 1 => return .scl
  | _ => throw .badOperand

def parseSite : Parser PollSite := do
  match (← parseByte).toNat with
  | 0 => return .ci
  | 1 => return .busy
  | 2 => return .crc
  | _ => throw .badOperand

def parseTimeout : Parser Timeout := do
  match (← parseByte).toNat with
  | 0 => return .stretch
  | 1 => return .ci
  | 2 => return .ciErase
  | 3 => return .busy
  | 4 => return .crc
  | _ => throw .badOperand

def parseTest : Parser PollTest := do
  match (← parseByte).toNat with
  | 0 => return .anySet (← parseByte)
  | 1 => return .allClear (← parseByte)
  | 2 => return .table (BitVec.ofNat 256 (← parseNat))
  | _ => throw .badOperand

def parseStuckAt : Parser StuckAt := do
  match (← parseByte).toNat with
  | 0 => return .line .sda
  | 1 => return .line .scl
  | 2 => return .site .ci
  | 3 => return .site .busy
  | 4 => return .site .crc
  | 5 => return .backend
  | _ => throw .badOperand

def parseNackAt : Parser NackAt := do
  match (← parseByte).toNat with
  | 0 => return .address
  | 1 => return .data (← parseNat)
  | 2 => return .backend
  | _ => throw .badOperand

def parseErr : Parser Err := do
  match (← parseByte).toNat with
  | 0 => return .busStuck (← parseStuckAt)
  | 1 => return .noAck (← parseNackAt)
  | 2 => return .ioError
  | 3 => return .enterIspFailed
  | 4 => return .customInstructionTimeout
  | 5 => return .verificationFailed
  | 6 => return .decodeError
  | 7 => return .signatureMismatch
  | 8 => return .tooSmall
  | _ => throw .badOperand

/-- An address operand of seven bits. -/
def parseAddr7 : Parser Addr7 := do
  let b ← parseByte
  if b.toNat < 128 then return b.setWidth 7 else throw .badOperand

/-- A field of two bits. -/
def parseTwoBits : Parser (BitVec 2) := do
  let b ← parseByte
  if b.toNat < 4 then return b.setWidth 2 else throw .badOperand

/-- The word of an encoding row without fields: its masked bits are the row's match. -/
def parseWord (mask value : Byte) (i : Instr) : Parser Instr := do
  let b ← parseByte
  if b &&& mask = value then return i else throw .wrongFixedBits

/-- The byte of a codeword of R97, its bits in the low end of the byte. -/
def codewordByte (bits : List Bit) : Byte := BitVec.ofNat 8 (bitsValue bits)

/-- The mask of a codeword's bits. -/
def codewordMask (bits : List Bit) : Byte := BitVec.ofNat 8 (2 ^ bits.length - 1)

def parseCodeword (bits : List Bit) (i : Instr) : Parser Instr :=
  parseWord (codewordMask bits) (codewordByte bits) i

/-- The F-ADDR byte of an ISP write address (R83). -/
def parseIspAddr : Parser IspAddr := do
  let b ← parseByte
  if b = addressByte ispAddr false then return .plain
  if b = addressByte ispAddrAi false then return .autoinc
  throw .badOperand

def parseA24Reg : Parser A24Reg := do
  let b ← parseByte
  if b = A24Reg.target.reg then return .target
  if b = A24Reg.crcEnd.reg then return .crcEnd
  throw .badOperand

def parseOpnd : Parser OpndForm := do
  match (← parseByte).toNat with
  | 0 => return .write (← parseTwoBits) (← parseNat)
  | 1 => return .read (← parseTwoBits)
  | _ => throw .badOperand

/-! ## The rows -/

/-- Rows 0 to 17: GffCodec and SoftwareI2CBus. -/
def busRowParsers : List (Parser Instr) :=
  [ do return .bsReadBit (← parseStream),
    do return .decodeNibble (← parseStream),
    do return .checkHeader (← parseList),
    do return .decode (← parseList),
    do return .computeDecodedSize (← parseList),
    do return .drive (← parseLine),
    do return .release (← parseLine),
    return .waitScl,
    return .busReset,
    return .pulseScl,
    return .start,
    return .stop,
    do return .writeBit (← parseBool),
    return .readBit,
    do return .writeByte (← parseByte),
    return .readByte,
    do return .busWrite (← parseNat) (← parseList),
    do return .busRead (← parseNat) (← parseNat) ]

/-- Rows 18 to 34: I2CTransport, IspProtocolEngine and FlashController. -/
def engineRowParsers : List (Parser Instr) :=
  [ do return .tWrite (← parseAddr7) (← parseList),
    do return .tRead (← parseAddr7) (← parseNat),
    do return .init (← parseList) (← parseList),
    return .deinit,
    return .listDevices,
    do return .detect (← parseAddr7),
    do return .regWrite (← parseByte) (← parseList) (← parseBool),
    do return .regRead (← parseByte) (← parseNat) (← parseBool),
    return .enterIsp,
    return .exitIsp,
    do return .customInstruction (← parseNat) (← parseByte) (← parseNat) (← parseNat) (← parseNat),
    do return .deviceCrc (← parseNat) (← parseNat),
    do return .hostCrc (← parseList),
    do return .poll (← parseSite) (← parseByte) (← parseTest) (← parseTimeout) (← parseErr),
    return .erase,
    do return .program (← parseList),
    do return .flashRead (← parseNat) ]

/-- Rows 35 to 57: the wire encodings of the bus and the device registers, and the GFF file. -/
def wireRowParsers : List (Parser Instr) :=
  [ do
      let b ← parseByte
      if b.getLsbD 0 then throw .wrongFixedBits
      return .addrW (addressField b),
    do
      let b ← parseByte
      if !b.getLsbD 0 then throw .wrongFixedBits
      return .addrR (addressField b),
    parseWord 0xFF 0x94 .ispAddrWrite,
    parseWord 0xFF 0x95 .ispAddrRead,
    parseWord 0xFF 0x96 .ispAddrAiWrite,
    parseWord 0xFF 0x97 .ispAddrAiRead,
    parseWord 0x01 0x00 .ack,
    parseWord 0x01 0x01 .nack,
    do
      let b ← parseByte
      if !ctrlGo b then throw .wrongFixedBits
      return .ctrl (ctrlCmdType b) (ctrlWriteN b) (ctrlReadN b),
    parseWord 0xFF cmdByteEnterIsp .cmdEnterIsp,
    parseWord 0xFF cmdByteCrc .cmdCrc,
    parseWord 0xFF cmdBytePageWrite .cmdPageWrite,
    parseWord 0x80 0x80 .statIsp,
    parseWord 0x40 0x40 .statBusy,
    parseWord 0x02 0x02 .statCrcReady,
    parseWord 0x01 0x01 .ciPending,
    parseWord 0xFF rebootByte .reboot,
    do
      let r ← parseA24Reg
      return .a24 r (BitVec.ofNat 24 (beValue (← parseBytes 3))),
    do return .opnd (← parseOpnd),
    do
      let b ← parseByte
      if h : b.toNat < 128 then return .size ⟨b.toNat, h⟩ else throw .badOperand,
    do return .regw (← parseIspAddr) (← parseByte) (← parseList),
    do return .regr (← parseByte) (← parseNat) (← parseBool),
    do return .gffHeader (← parseList) ]

/-- Rows 58 to 77: the GFF codewords and pairs. -/
def nibRowParsers : List (Parser Instr) :=
  [ parseCodeword (nibbleCode 0x0) .nib0,
    parseCodeword (nibbleCode 0xF) .nibF,
    parseCodeword (nibbleCode 0x1) .nib1,
    parseCodeword (nibbleCode 0x8) .nib8,
    parseCodeword (nibbleCode 0x2) .nib2,
    parseCodeword (nibbleCode 0x7) .nib7,
    parseCodeword (nibbleCode 0xC) .nibC,
    parseCodeword (nibbleCode 0x9) .nib9,
    parseCodeword (nibbleCode 0x4) .nib4,
    parseCodeword (nibbleCode 0x5) .nib5,
    parseCodeword (nibbleCode 0xA) .nibA,
    parseCodeword (nibbleCode 0xB) .nibB,
    parseCodeword (nibbleCode 0x3) .nib3,
    parseCodeword (nibbleCode 0xD) .nibD,
    parseCodeword (nibbleCode 0xE) .nibE,
    parseCodeword (nibbleCode 0x6) .nib6,
    parseCodeword errorCode .nibError,
    parseCodeword z6Code .nibZ6,
    return .nibEndExhausted,
    do
      let b ← parseByte
      return .pair (b.extractLsb' 4 4) (b.extractLsb' 0 4) ]

/-- The operand reader of each row, in the table's order. -/
def rowParsers : List (Parser Instr) :=
  busRowParsers ++ engineRowParsers ++ wireRowParsers ++ nibRowParsers

/-! ## Bare table words (assumption log 26) -/

/-- The eight-bit rows whose bits are all fixed, by their word: the rows with more fixed bits first, then the table's
order, so that a word several formats share is read as the first of them. -/
def fixedRows : List (Nat × Instr) :=
  [ (0x94, .ispAddrWrite), (0x95, .ispAddrRead), (0x96, .ispAddrAiWrite), (0x97, .ispAddrAiRead),
    (0x80, .cmdEnterIsp), (0x84, .cmdCrc), (0xA0, .cmdPageWrite), (0x02, .reboot),
    (0x07, .nib9), (0x06, .nib4), (0x00, .nibZ6), (0x03, .nib7), (0x02, .nibC), (0x03, .nib8), (0x02, .nib2),
    (0x03, .nibF), (0x02, .nib1), (0x00, .ack), (0x01, .nack), (0x80, .statIsp), (0x40, .statBusy),
    (0x02, .statCrcReady), (0x01, .ciPending), (0x01, .nib0) ]

/-- The rows the table gives nine bits: the eight-bit codewords of R97, by their word. -/
def longCodeRows : List (Nat × Instr) :=
  [ (0x0B, .nib5), (0x0A, .nibA), (0x09, .nibB), (0x08, .nib3), (0x07, .nibD), (0x06, .nibE), (0x05, .nib6),
    (0x04, .nibError) ]

/-- The instruction a bare word of the opcode table stands for, its bits numbered as the table numbers them. Formats
share words, so this reading is a choice (assumption log 26): a word of a row without fields is that row; any other
eight-bit word is an address byte (F-ADDR). -/
def decodeTableWord (nbits w : Nat) : Option Instr :=
  if nbits = 16 then longCodeRows.lookup (w % 256)
  else if nbits = 8 ∧ w < 256 then
    match fixedRows.lookup w with
    | some i => some i
    | none =>
      let b : Byte := BitVec.ofNat 8 w
      some (if b.getLsbD 0 then .addrR (addressField b) else .addrW (addressField b))
  else none

/-! ## Calls -/

/-- What the decoder reads from the front of the call bytes. -/
inductive Decoded where
  | call (i : Instr) (rest : List Byte)
  | rejected (why : DecodeError)
  deriving DecidableEq, Repr

/-- The row number that announces a bare table word: its number of bits and its value follow. -/
def tableWordTag : Byte := 0xFF

def parseTableWord : Parser Instr := do
  let nbits ← parseNat
  let w ← parseNat
  match decodeTableWord nbits w with
  | some i => return i
  | none => throw .noTableRow

/-- Reads one call from the front of the bytes. -/
def decode (bytes : List Byte) : Decoded :=
  match bytes with
  | [] => .rejected .emptyCall
  | tag :: operands =>
    match (if tag = tableWordTag then some parseTableWord else rowParsers[tag.toNat]?) with
    | none => .rejected (.unknownRow tag.toNat)
    | some p =>
      match p operands with
      | .ok i rest => .call i rest
      | .error why _ => .rejected why

/-- The row of spec/opcode_table.json an instruction stands for, counted from 0. -/
def Instr.row : Instr → Nat
  | .bsReadBit _ => 0
  | .decodeNibble _ => 1
  | .checkHeader _ => 2
  | .decode _ => 3
  | .computeDecodedSize _ => 4
  | .drive _ => 5
  | .release _ => 6
  | .waitScl => 7
  | .busReset => 8
  | .pulseScl => 9
  | .start => 10
  | .stop => 11
  | .writeBit _ => 12
  | .readBit => 13
  | .writeByte _ => 14
  | .readByte => 15
  | .busWrite _ _ => 16
  | .busRead _ _ => 17
  | .tWrite _ _ => 18
  | .tRead _ _ => 19
  | .init _ _ => 20
  | .deinit => 21
  | .listDevices => 22
  | .detect _ => 23
  | .regWrite _ _ _ => 24
  | .regRead _ _ _ => 25
  | .enterIsp => 26
  | .exitIsp => 27
  | .customInstruction _ _ _ _ _ => 28
  | .deviceCrc _ _ => 29
  | .hostCrc _ => 30
  | .poll _ _ _ _ _ => 31
  | .erase => 32
  | .program _ => 33
  | .flashRead _ => 34
  | .addrW _ => 35
  | .addrR _ => 36
  | .ispAddrWrite => 37
  | .ispAddrRead => 38
  | .ispAddrAiWrite => 39
  | .ispAddrAiRead => 40
  | .ack => 41
  | .nack => 42
  | .ctrl _ _ _ => 43
  | .cmdEnterIsp => 44
  | .cmdCrc => 45
  | .cmdPageWrite => 46
  | .statIsp => 47
  | .statBusy => 48
  | .statCrcReady => 49
  | .ciPending => 50
  | .reboot => 51
  | .a24 _ _ => 52
  | .opnd _ => 53
  | .size _ => 54
  | .regw _ _ _ => 55
  | .regr _ _ _ => 56
  | .gffHeader _ => 57
  | .nib0 => 58
  | .nibF => 59
  | .nib1 => 60
  | .nib8 => 61
  | .nib2 => 62
  | .nib7 => 63
  | .nibC => 64
  | .nib9 => 65
  | .nib4 => 66
  | .nib5 => 67
  | .nibA => 68
  | .nibB => 69
  | .nib3 => 70
  | .nibD => 71
  | .nibE => 72
  | .nib6 => 73
  | .nibError => 74
  | .nibZ6 => 75
  | .nibEndExhausted => 76
  | .pair _ _ => 77

/-- The operand bytes of a call; an encoding row's are the spec's own word (R81 to R100). -/
def Instr.operands : Instr → List Byte
  | .bsReadBit bs => encodeStream bs
  | .decodeNibble bs => encodeStream bs
  | .checkHeader file => encodeList file
  | .decode file => encodeList file
  | .computeDecodedSize file => encodeList file
  | .drive l => encodeLine l
  | .release l => encodeLine l
  | .waitScl => []
  | .busReset => []
  | .pulseScl => []
  | .start => []
  | .stop => []
  | .writeBit b => encodeBool b
  | .readBit => []
  | .writeByte x => [x]
  | .readByte => []
  | .busWrite address data => encodeNat address ++ encodeList data
  | .busRead address count => encodeNat address ++ encodeNat count
  | .tWrite a bytes => a.setWidth 8 :: encodeList bytes
  | .tRead a n => a.setWidth 8 :: encodeNat n
  | .init device settings => encodeList device ++ encodeList settings
  | .deinit => []
  | .listDevices => []
  | .detect a => [a.setWidth 8]
  | .regWrite reg payload seq => reg :: (encodeList payload ++ encodeBool seq)
  | .regRead reg n seq => reg :: (encodeNat n ++ encodeBool seq)
  | .enterIsp => []
  | .exitIsp => []
  | .customInstruction cmdType opcode readN writeN writeValue =>
      encodeNat cmdType ++ (opcode :: (encodeNat readN ++ (encodeNat writeN ++ encodeNat writeValue)))
  | .deviceCrc first last => encodeNat first ++ encodeNat last
  | .hostCrc data => encodeList data
  | .poll site reg test timeout err =>
      encodeSite site ++ (reg :: (encodeTest test ++ (encodeTimeout timeout ++ encodeErr err)))
  | .erase => []
  | .program img => encodeList img
  | .flashRead n => encodeNat n
  | .addrW a => [addressByte a false]
  | .addrR a => [addressByte a true]
  | .ispAddrWrite => [0x94]
  | .ispAddrRead => [0x95]
  | .ispAddrAiWrite => [0x96]
  | .ispAddrAiRead => [0x97]
  | .ack => [0x00]
  | .nack => [0x01]
  | .ctrl cmdType writeN readN => [controlByte cmdType writeN readN]
  | .cmdEnterIsp => [cmdByteEnterIsp]
  | .cmdCrc => [cmdByteCrc]
  | .cmdPageWrite => [cmdBytePageWrite]
  | .statIsp => [0x80]
  | .statBusy => [0x40]
  | .statCrcReady => [0x02]
  | .ciPending => [0x01]
  | .reboot => [rebootByte]
  | .a24 r addr => r.reg :: beBytes addr.toNat 3
  | .opnd (.write n value) => 0 :: n.setWidth 8 :: encodeNat value
  | .opnd (.read n) => [1, n.setWidth 8]
  | .size lastIndex => [BitVec.ofNat 8 lastIndex.val]
  | .regw a reg chunk => addressByte a.addr false :: reg :: encodeList chunk
  | .regr reg k seq => reg :: (encodeNat k ++ encodeBool seq)
  | .gffHeader file => encodeList file
  | .nib0 => [codewordByte (nibbleCode 0x0)]
  | .nibF => [codewordByte (nibbleCode 0xF)]
  | .nib1 => [codewordByte (nibbleCode 0x1)]
  | .nib8 => [codewordByte (nibbleCode 0x8)]
  | .nib2 => [codewordByte (nibbleCode 0x2)]
  | .nib7 => [codewordByte (nibbleCode 0x7)]
  | .nibC => [codewordByte (nibbleCode 0xC)]
  | .nib9 => [codewordByte (nibbleCode 0x9)]
  | .nib4 => [codewordByte (nibbleCode 0x4)]
  | .nib5 => [codewordByte (nibbleCode 0x5)]
  | .nibA => [codewordByte (nibbleCode 0xA)]
  | .nibB => [codewordByte (nibbleCode 0xB)]
  | .nib3 => [codewordByte (nibbleCode 0x3)]
  | .nibD => [codewordByte (nibbleCode 0xD)]
  | .nibE => [codewordByte (nibbleCode 0xE)]
  | .nib6 => [codewordByte (nibbleCode 0x6)]
  | .nibError => [codewordByte errorCode]
  | .nibZ6 => [codewordByte z6Code]
  | .nibEndExhausted => []
  | .pair n1 n2 => [n1 ++ n2]

/-- The call bytes of an instruction. -/
def encode (i : Instr) : List Byte := BitVec.ofNat 8 i.row :: i.operands

/-- The call bytes of a bare table word. -/
def encodeTableWord (nbits w : Nat) : List Byte := tableWordTag :: (encodeNat nbits ++ encodeNat w)

end Sys2Proof
end

