-- ==== Sys2Proof/Machine/State.lean ====
section
/-! DEFINITION. The machine's state as plain data: the host engine's own state (10_state R22-R29, R44), the parameters
(00_scope R8), the environment with its answers (R20) and the device (R31-R43). -/

namespace Sys2Proof.Machine

/-- An output latch: pulled low by the master, or left floating (R22). -/
inductive Latch where
  | released
  | driven
  deriving DecidableEq, Repr

/-- The session states (R24). -/
inductive Session where
  | closed
  | initialized
  | ispActive
  deriving DecidableEq, Repr

/-- The implementation of the transport contract that the engine drives (R2, R164, R190). -/
inductive Backend where
  | softwareBus
  | native
  deriving DecidableEq, Repr

/-- The sites of a bounded wait, as `Expired(site)` names them (R28, R151, R223). -/
inductive WaitSite where
  | stretch
  | poll (p : PollSite)
  deriving DecidableEq, Repr

/-- The outcome of a transaction-level write (R190). -/
inductive WriteAnswer where
  | ok
  | failed (why : XferErr)
  deriving DecidableEq, Repr

/-- The outcome of a transaction-level read (R190). -/
inductive ReadAnswer where
  | ok (bytes : List Byte)
  | failed (why : XferErr)
  deriving DecidableEq, Repr

/-- The events of the observation trace (R28). -/
inductive Event where
  | drive (l : Line)
  | release (l : Line) (v : Bit)
  | tWrite (a : Addr7) (bytes : List Byte) (r : WriteAnswer)
  | tRead (a : Addr7) (n : Nat) (r : ReadAnswer)
  | progress (first last current : Nat)
  | expired (site : WaitSite)
  deriving DecidableEq, Repr

/-- The results of `decode_nibble` (R121). -/
inductive NibResult where
  | nib (v : Nibble)
  | endMarker
  | error
  | trunc
  deriving DecidableEq, Repr

/-- The values an operation answers. -/
inductive Value where
  | unit
  | bit (b : Bit)
  | bool (b : Bool)
  | byte (b : Byte)
  | bytes (bs : List Byte)
  | nat (n : Nat)
  | optBit (b : Option Bit)
  | optNat (n : Option Nat)
  | nibble (r : NibResult)
  | codeword (r : Option NibResult)
  | devices (map : List (List Byte × List Byte))
  deriving DecidableEq, Repr

/-- An operation's result: `Ok(v)` or `Err(E)` (R11). -/
inductive Result where
  | ok (v : Value)
  | err (e : Err)
  deriving DecidableEq, Repr

/-- Memory: the listed (address, byte) cells of a device space, in the canonical form `Memory.wf` says. -/
abbrev Memory := List Host.Cell

/-- The device's two byte spaces (R50). -/
inductive Space where
  | regs
  | flash
  deriving DecidableEq, Repr

/-- What an unlisted address reads as: a register 0x00 (D34), a flash byte ERASED (R7) (assumption log 9). -/
def Space.blank : Space → Byte
  | .regs => 0x00
  | .flash => 0xFF

/-- The device: its registers (R31-R42) and hidden state (R43). It answers only while the environment is the reference
device (assumption log 9, 10). -/
structure Device where
  regs : Memory
  pointer : Byte
  buffer : List Byte
  flash : Memory
  pos : Nat
  ispMode : Bool
  busy : Bool
  crcReady : Bool
  protection : Byte
  deriving DecidableEq, Repr

/-- How the environment answers native transactions: as an oracle (R20) or as the reference device of 92_eei D34. -/
inductive EnvMode where
  | oracle
  | reference
  deriving DecidableEq, Repr

/-- The environment's answers to come, each kind in its order; where a list is empty the answer is a free value
(assumption log 5). -/
structure Env where
  mode : EnvMode
  senses : List Bit
  /-- the lines that another agent holds low for ever, once the fixed levels are used up (R23, R294) -/
  held : List Line
  expiries : List Bool
  writes : List WriteAnswer
  reads : List ReadAnswer
  opens : List Bool
  listings : List (List (List Byte × List Byte))
  draws : Nat
  deriving DecidableEq, Repr

/-- The machine. -/
structure State where
  /-- `out[SDA]` (R22) -/
  sda : Latch
  /-- `out[SCL]` (R22) -/
  scl : Latch
  /-- the session state (R24) -/
  session : Session
  /-- the transport implementation (R2; assumption log 7) -/
  backend : Backend
  /-- `max_read`, 0 = unlimited (R25) -/
  maxRead : Nat
  /-- `max_write`, 0 = unlimited (R25) -/
  maxWrite : Nat
  /-- the parameters (R8) -/
  params : Params
  /-- the BitStream (R26) -/
  stream : BitStream
  /-- the CRC register (R27) -/
  crc : Byte
  /-- the observation trace, oldest event first (R28) -/
  trace : List Event
  /-- the last operation's result (R11, R14; assumption log 12) -/
  result : Option Result
  /-- the environment (R20) -/
  env : Env
  /-- the device (R31-R43) -/
  device : Device
  /-- the caller's calls not yet begun, as bytes (R13; assumption log 2) -/
  calls : List Byte
  deriving DecidableEq, Repr

/-- The machine stops with no next state. -/
inductive Fault where
  /-- Raised by a bus recovery (`reset`, and `start` and `stop` through it) that the environment keeps from ever ending,
  with RESET_ROUND_LIMIT = none only: the `stuck` of R294 and R289. Safe: the model stops where the hardware goes on
  without end (assumption log 6). -/
  | recoveryNeverEnds
  deriving DecidableEq, Repr

/-- A call with no meaning: the list of R293, and the model's own two. A refused call emits no event and changes no
state (R290). Safe: no next state is claimed. -/
inductive Refusal where
  /-- `write`/`read` of the bus with address > 127 (R161, R162) -/
  | addressRange
  /-- a transaction longer than a nonzero limit, issued directly to the transport (R190) -/
  | tooLong
  /-- a register write on a transport with `max_write = 1` (R191, R210) -/
  | transportTooSmall
  /-- a register write of no bytes (R210) -/
  | emptyPayload
  /-- a register read of no bytes (R211) -/
  | emptyRead
  /-- a custom instruction whose field is out of range (R215) -/
  | fieldRange
  /-- a write operand that does not fit its bytes (R215) -/
  | operandRange
  /-- a device CRC outside `start ≤ end < 2^24` (R218) -/
  | crcRange
  /-- an image outside `1 ≤ len ≤ chip_size` (R262) -/
  | imageSize
  /-- a read outside `1 ≤ size ≤ chip_size` (R262) -/
  | readSize
  /-- a call the session state does not allow (R192) -/
  | sessionState
  /-- raised by `step`: the bytes at the front of the call queue are no call (assumption log 2) -/
  | undecodable (why : DecodeError)
  /-- raised by an arm of `exec` whose instruction has no meaning yet -/
  | notModelled (mnemonic : String)
  deriving DecidableEq, Repr

/-- The BitStream of no decode: an empty payload at its start (R26, R44). -/
def noStream : BitStream := { buf := [], idx := 0, mask := 0x80 }

/-- The device before any access (assumption log 9: the spec gives it no reset values, R32). -/
def Device.initial : Device where
  regs := []
  pointer := 0
  buffer := []
  flash := []
  pos := 0
  ispMode := false
  busy := false
  crcReady := false
  protection := 0

/-- The environment before any answer: an oracle with nothing fixed (R20; assumption log 5). -/
def Env.initial : Env where
  mode := .oracle
  senses := []
  held := []
  expiries := []
  writes := []
  reads := []
  opens := []
  listings := []
  draws := 0

/-- The machine right after reset (R44, R310). -/
def State.reset : State where
  sda := .released
  scl := .released
  session := .closed
  backend := .softwareBus
  maxRead := 0
  maxWrite := 0
  params := Config.params
  stream := noStream
  crc := 0
  trace := []
  result := none
  env := Env.initial
  device := Device.initial
  calls := []

end Sys2Proof.Machine
end

