-- ==== Sys2Proof/Machine/Ops.lean ====
section
/-! DEFINITION. The named operations every meaning is written with: memory, the state's updates, the environment's
answers, the ways an operation ends (60_exceptions), and `invoke`, which runs an operation under its session gate. -/

namespace Sys2Proof.Machine

/-! ## Memory -/

/-- The byte at an address: the listed one, or the blank of the space. -/
def Memory.read (sp : Space) : Memory → Nat → Byte
  | [], _ => sp.blank
  | (k, v) :: m, a => if k = a then v else Memory.read sp m a

/-- Stores a byte, keeping the canonical form: the blank is never listed. -/
def Memory.write (sp : Space) : Memory → Nat → Byte → Memory
  | [], a, v => if v = sp.blank then [] else [(a, v)]
  | (k, w) :: m, a, v =>
    if a < k then (if v = sp.blank then (k, w) :: m else (a, v) :: (k, w) :: m)
    else if a = k then (if v = sp.blank then m else (a, v) :: m)
    else (k, w) :: Memory.write sp m a v

/-- Canonical from an address on: addresses strictly rising, none below it, no cell blank. -/
def Memory.wfFrom (sp : Space) : Nat → Memory → Bool
  | _, [] => true
  | lo, (k, v) :: m => decide (lo ≤ k) && decide (v ≠ sp.blank) && Memory.wfFrom sp (k + 1) m

/-- The canonical form. -/
def Memory.wf (sp : Space) (m : Memory) : Bool := Memory.wfFrom sp 0 m

/-! ## The state's updates -/

/-- `out[l]` (R22). -/
def State.latch (s : State) (l : Line) : Latch :=
  match l with
  | .sda => s.sda
  | .scl => s.scl

/-- `out[l] <- v` (R22). -/
def State.setLatch (s : State) (l : Line) (v : Latch) : State :=
  match l with
  | .sda => { s with sda := v }
  | .scl => { s with scl := v }

/-- `level(l)`, given whether some other agent holds the line low (R23). -/
def State.level (s : State) (l : Line) (heldLow : Bool) : Bit :=
  match s.latch l with
  | .driven => false
  | .released => !heldLow

/-- Appends an event to the trace (R10, R28). -/
def State.emit (s : State) (e : Event) : State := { s with trace := s.trace ++ [e] }

def State.setSession (s : State) (v : Session) : State := { s with session := v }

def State.setStream (s : State) (bs : BitStream) : State := { s with stream := bs }

def State.setCrc (s : State) (v : Byte) : State := { s with crc := v }

def State.setEnv (s : State) (e : Env) : State := { s with env := e }

def State.setDevice (s : State) (d : Device) : State := { s with device := d }

def State.setCalls (s : State) (bytes : List Byte) : State := { s with calls := bytes }

/-- An operation ends with `Ok(v)` (R11). -/
def State.complete (s : State) (v : Value) : State := { s with result := some (.ok v) }

/-- TAKING AN ERROR, the block's one trap mechanism (R281, R284): the operation ends with `Err(e)`. The trace, the
session and the latches stay as the failing step left them; nothing is restored and no cleanup runs (R285). There is no
cause register, no saved pc, no vector and no return (R284, R287). -/
def State.takeError (s : State) (e : Err) : State := { s with result := some (.err e) }

/-! ## Operations and how they end -/

/-- The ways an operation ends early: a raised error (R281), a refusal (R290), or a run that never ends (R294). -/
inductive Stop where
  | raised (e : Err)
  | refused (r : Refusal)
  | stuck (f : Fault)
  deriving DecidableEq, Repr

/-- An operation over the state; an early end keeps the state the failing step left. -/
abbrev M (α : Type) := EStateM Stop State α

/-- `raise E` (R10). -/
def raise {α : Type} (e : Err) : M α := throw (.raised e)

/-- `refuse(reason)` (R10). -/
def refuse {α : Type} (r : Refusal) : M α := throw (.refused r)

/-- A run that never ends (R294). -/
def hang {α : Type} : M α := throw (.stuck .recoveryNeverEnds)

/-- A precondition: a call that does not meet it is refused (R290). -/
def require (ok : Bool) (r : Refusal) : M Unit := if ok then return () else refuse r

/-- `if c then x` with nothing otherwise. -/
def whenever (c : Bool) (x : M Unit) : M Unit := if c then x else return ()

/-- `emit(event)` (R10). -/
def emit (e : Event) : M Unit := modify fun s => s.emit e

/-- Runs `x`; an error it raises that `p` accepts is caught, and `handler` goes on from the state the error left
(R282). Refusals and hangs are no errors and pass. -/
def catching {α : Type} (p : Err → Bool) (x handler : M α) : M α := fun s =>
  match x s with
  | .ok a t => .ok a t
  | .error (.raised e) t => if p e then handler t else .error (.raised e) t
  | .error (.refused r) t => .error (.refused r) t
  | .error (.stuck f) t => .error (.stuck f) t

/-- The outcome of a call: `Ok(v)`, an error taken, a refusal (which leaves no state, R290) or a hang. -/
def conclude : EStateM.Result Stop State Value → Host.Outcome State Fault Refusal
  | .ok v s => .next (s.complete v)
  | .error (.raised e) s => .next (s.takeError e)
  | .error (.refused r) _ => .refused r
  | .error (.stuck f) _ => .fault f

/-- A call: refused where the session state does not allow it (R192, R293), else run to its end. -/
def invoke (gate : Session → Bool) (op : M Value) (s : State) : Host.Outcome State Fault Refusal :=
  if gate s.session then conclude (op s) else .refused .sessionState

/-! ## Session gates (R192) -/

/-- "any". -/
def anySession : Session → Bool := fun _ => true

/-- "any but Closed"; also "Initialized, IspActive". -/
def openSession : Session → Bool
  | .closed => false
  | .initialized => true
  | .ispActive => true

def closedSession : Session → Bool
  | .closed => true
  | .initialized => false
  | .ispActive => false

def initializedSession : Session → Bool
  | .closed => false
  | .initialized => true
  | .ispActive => false

def ispSession : Session → Bool
  | .closed => false
  | .initialized => false
  | .ispActive => true

/-! ## The environment's answers (R20; assumption log 5) -/

/-- The next free value's number. -/
def nextDraw : M Nat := do
  let s ← get
  set (s.setEnv { s.env with draws := s.env.draws + 1 })
  return s.env.draws

/-- The level the environment gives a released line (R23, R150): the next one fixed, else low where another agent holds
the line for ever, else a free value. -/
def drawLevel (l : Line) : M Bit := do
  let s ← get
  match s.env.senses with
  | v :: rest =>
    set (s.setEnv { s.env with senses := rest })
    return v
  | [] =>
    if l ∈ s.env.held then return false
    else return Config.level (← nextDraw)

/-- `expired(site)` (R151, R223). -/
def drawExpired : M Bool := do
  let s ← get
  match s.env.expiries with
  | v :: rest =>
    set (s.setEnv { s.env with expiries := rest })
    return v
  | [] => return Config.expired (← nextDraw)

/-- Whether the backend opens (R193). -/
def drawOpens : M Bool := do
  let s ← get
  match s.env.opens with
  | v :: rest =>
    set (s.setEnv { s.env with opens := rest })
    return v
  | [] => return Config.opens (← nextDraw)

/-- The device map (R195). -/
def drawListing : M (List (List Byte × List Byte)) := do
  let s ← get
  match s.env.listings with
  | v :: rest =>
    set (s.setEnv { s.env with listings := rest })
    return v
  | [] => return Config.deviceList (← nextDraw)

/-- The outcome of a native write in the oracle environment (R190). -/
def drawWrite : M WriteAnswer := do
  let s ← get
  match s.env.writes with
  | r :: rest =>
    set (s.setEnv { s.env with writes := rest })
    return r
  | [] =>
    match Config.writeFailure (← nextDraw) with
    | none => return .ok
    | some why => return .failed why

/-- Exactly n bytes: those given, cut to n, then free values (R190: a native read returns exactly n bytes;
assumption log 18). -/
def fillBytes (bytes : List Byte) : Nat → M (List Byte)
  | 0 => return []
  | n + 1 => do
    match bytes with
    | b :: rest => return b :: (← fillBytes rest n)
    | [] =>
      let b := Config.dataByte (← nextDraw)
      return b :: (← fillBytes [] n)

/-- The outcome of a native read of n bytes in the oracle environment (R190). -/
def drawRead (n : Nat) : M ReadAnswer := do
  let s ← get
  match s.env.reads with
  | r :: rest =>
    set (s.setEnv { s.env with reads := rest })
    match r with
    | .ok bytes => return .ok (← fillBytes bytes n)
    | .failed why => return .failed why
  | [] =>
    match Config.readFailure (← nextDraw) with
    | none => return .ok (← fillBytes [] n)
    | some why => return .failed why

/-- How many answers the environment has fixed for waits to use up. -/
def Env.scripted (e : Env) : Nat :=
  e.senses.length + e.expiries.length + e.writes.length + e.reads.length

/-- After how many failing polls a wait that starts now has surely expired (R151, R223: finitely many; assumption
log 6). -/
def State.waitBound (s : State) (t : Timeout) : Nat :=
  Config.expiryBound t s.env.draws s.trace.length + s.env.scripted + 1

/-- How many rounds a recovery that starts now makes, and how deep it nests in its own STOP, before it counts as one
that never ends (R294, R289; assumption log 6): more than the environment has answers fixed. -/
def State.recoveryBound (s : State) : Nat :=
  Config.recoveryBound s.env.draws s.trace.length + s.env.scripted + 1

end Sys2Proof.Machine
end

