-- ==== Sys2Proof/Machine/Operands.lean ====
section
/-! DEFINITION. The operand forms and computed values the operations share: the CRC, the partition of payloads, the
parameters' lookups (20_memory, 30_encoding, 43_isp_engine R216, R222, 44_flash R252). -/

namespace Sys2Proof.Machine

/-! ## Device register addresses (R31) -/

def regCiCtrl : Byte := 0x60
def regCiOpcode : Byte := 0x61
def regAddr : Byte := 0x64
def regRop : Byte := 0x67
def regIspCtrl : Byte := 0x6F
def regData : Byte := 0x70
def regXferSize : Byte := 0x71
def regCrcEnd : Byte := 0x72
def regCrcResult : Byte := 0x75
def regReboot : Byte := 0xEE

/-! ## Constants of the flash layer (R7) -/

/-- PAGE_SIZE and READ_CHUNK. -/
def pageSize : Nat := 128

/-- ERASED. -/
def erasedByte : Byte := 0xFF

/-- UNPROTECT_SR. -/
def unprotectSr : Nat := 0x00

/-- PROTECT_SR. -/
def protectSr : Nat := 0x1C

/-- GFF_SIGNATURE, "GMI GFF V1.0" (R95). -/
def gffSignature : List Byte :=
  [0x47, 0x4D, 0x49, 0x20, 0x47, 0x46, 0x46, 0x20, 0x56, 0x31, 0x2E, 0x30]

/-- GFF_HEADER_LEN. -/
def gffHeaderLen : Nat := 256

/-! ## CRC-8 (R222) -/

/-- One of the eight inner steps. -/
def crcBit (crc : Byte) : Byte :=
  if crc &&& 0x80 ≠ 0 then (crc <<< 1) ^^^ 0x07 else crc <<< 1

/-- One byte into the register. -/
def crcByte (crc b : Byte) : Byte :=
  crcBit (crcBit (crcBit (crcBit (crcBit (crcBit (crcBit (crcBit (crc ^^^ b))))))))

/-- `crc_from(c, L)`. -/
def crcFrom (crc : Byte) (data : List Byte) : Byte := data.foldl crcByte crc

/-- `host_crc(data)`. -/
def hostCrc (data : List Byte) : Byte := crcFrom 0 data

/-! ## Partitions -/

/-- Consecutive pieces of c bytes, the last possibly shorter; the fuel bounds their number. -/
def chunksFuel (c : Nat) : Nat → List Byte → List (List Byte)
  | 0, _ => []
  | _ + 1, [] => []
  | f + 1, b :: bs => (b :: bs).take c :: chunksFuel c f ((b :: bs).drop c)

/-- The payload in chunks of at most c bytes (R210), an image in pages (R252). -/
def chunks (c : Nat) (bytes : List Byte) : List (List Byte) := chunksFuel c bytes.length bytes

/-- The pieces of a count: c each, the last possibly smaller; the fuel bounds their number. -/
def chunkSizesFuel (c : Nat) : Nat → Nat → List Nat
  | 0, _ => []
  | _ + 1, 0 => []
  | f + 1, n + 1 => min c (n + 1) :: chunkSizesFuel c f (n + 1 - c)

/-- The read sizes of n bytes in chunks of at most c (R211, R255). -/
def chunkSizes (c n : Nat) : List Nat := chunkSizesFuel c n n

/-- The register byte of the chunk at an offset: the port again, or the register the chunk's first byte belongs to
(R210, R211). -/
def chunkReg (reg : Byte) (off : Nat) : Byte :=
  if reg = regData then regData else reg + BitVec.ofNat 8 off

/-- The I2C address of a register access: 0x4B iff sequential and longer than one byte (R210, R211). -/
def accessAddr (seq : Bool) (n : Nat) : Addr7 :=
  if seq && decide (1 < n) then ispAddrAi else ispAddr

/-! ## Parameters -/

/-- SIZE_ENC(n) for 1 ≤ n ≤ 128 (R93). -/
def sizeEncoding (p : Params) (n : Nat) : Byte :=
  p.sizeEnc[(n - 1) % 128]'(Nat.mod_lt _ (by decide))

/-- IS_ERASE(ct, op) (R8, D20). -/
def isErase (p : Params) (cmdType : Nat) (opcode : Byte) : Bool :=
  decide (cmdType = p.ctErase.toNat) && decide (opcode = p.opErase)

/-- The timeout of a custom instruction (R216). -/
def ciTimeout (p : Params) (cmdType : Nat) (opcode : Byte) : Timeout :=
  if isErase p cmdType opcode then .ciErase else .ci

/-- GFF_Z6_END(r) (R8, D31). -/
def z6End (rule : Z6Rule) (r : Nat) : Bool :=
  match rule with
  | .exactlyOne => decide (r = 1)
  | .fewerThanEight => decide (r < 8)

/-- `x[7], …, x[0]`: a byte's bits in bus order (R55, R159). -/
def msbFirst (x : Byte) : List Bit :=
  [x.getLsbD 7, x.getLsbD 6, x.getLsbD 5, x.getLsbD 4, x.getLsbD 3, x.getLsbD 2, x.getLsbD 1, x.getLsbD 0]

end Sys2Proof.Machine
end

