-- ==== Sys2Proof/Machine/Flags.lean ====
section
/-! DEFINITION. The condition bits an operation tests (10_state R30): the block has no flag register, each bit is read
from a register or sampled in a slot when it is tested. -/

namespace Sys2Proof.Machine

/-- F-STAT bit 7: ISP mode entered (R37, R90). -/
def statusIsp (v : Byte) : Bool := decide (v &&& 0x80 ≠ 0)

/-- F-STAT bit 6: the device is busy (R37, R90). -/
def statusBusy (v : Byte) : Bool := decide (v &&& 0x40 ≠ 0)

/-- F-STAT bit 1: the device CRC is ready (R37, R90). -/
def statusCrcReady (v : Byte) : Bool := decide (v &&& 0x02 ≠ 0)

/-- Register 0x60 bit 0: a custom instruction is executing (R33). -/
def ciPendingBit (v : Byte) : Bool := decide (v &&& 0x01 ≠ 0)

/-- The ninth bit is a NACK: "0 = ACK, 1 = NACK" (R82). -/
def isNack (a : Bit) : Bool := a

/-- The master's ninth bit after byte j of `count`: ACK all but the last, NACK the last (R82, R162); here `left` is the
number of bytes still to come. -/
def masterAckBit (left : Nat) : Bit := decide (left = 0)

/-- The answer of a poll's test on the byte read (R223). -/
def pollAccepts : PollTest → Byte → Bool
  | .anySet mask, v => decide (v &&& mask ≠ 0)
  | .allClear mask, v => decide (v &&& mask = 0)
  | .table answers, v => answers.getLsbD v.toNat

/-- The CI site waits for 0x60 bit 0 clear (R224). -/
def testCiDone : PollTest := .allClear 0x01

/-- The BUSY site waits for 0x6F bit 6 clear (R224). -/
def testNotBusy : PollTest := .allClear 0x40

/-- The CRC site waits for 0x6F bit 1 set (R224). -/
def testCrcReady : PollTest := .anySet 0x02

end Sys2Proof.Machine
end

