-- ==== Sys2Proof/Machine/Device.lean ====
section
/-! DEFINITION. The reference device of 92_eei_decisions D34 at the transaction level: one admissible environment, not
normative. It gives the register map (10_state R31-R42) and the hidden device state (R43) one concrete reading; what
D34 leaves unsaid is assumption log 10. -/

namespace Sys2Proof.Machine

/-- The device acknowledges 0x4A and 0x4B and no other address. -/
def deviceAnswers (a : Addr7) : Bool := decide (a = ispAddr ∨ a = ispAddrAi)

/-! ## Registers and flash -/

/-- The F-STAT byte: ISP mode, busy and CRC-ready (R37, R90). -/
def Device.status (d : Device) : Byte :=
  (if d.ispMode then 0x80 else 0) ||| (if d.busy then 0x40 else 0) ||| (if d.crcReady then 0x02 else 0)

/-- What a register reads as. -/
def Device.readReg (d : Device) (r : Byte) : Byte :=
  if r = regIspCtrl then d.status else d.regs.read .regs r.toNat

/-- Stores a register's byte. -/
def Device.storeReg (d : Device) (r v : Byte) : Device := { d with regs := d.regs.write .regs r.toNat v }

/-- The registers r, r+1, … as one big-endian value (R54). -/
def Device.readValue (d : Device) (r : Byte) (n : Nat) : Nat :=
  beValue ((List.range n).map fun i => d.readReg (r + BitVec.ofNat 8 i))

/-- A flash byte; past chip_size there is none, and what is answered is a free value. -/
def Device.readFlash (p : Params) (d : Device) (a : Nat) : Byte :=
  if a < p.chipSize then d.flash.read .flash a else Config.absentFlash a

/-- n flash bytes. -/
def Device.readFlashRange (p : Params) (d : Device) (a n : Nat) : List Byte :=
  (List.range n).map fun i => d.readFlash p (a + i)

/-- Programs bytes from an address on: each becomes `old AND new` (D34); past chip_size nothing is written. -/
def programFlash (p : Params) : Memory → Nat → List Byte → Memory
  | m, _, [] => m
  | m, a, b :: bs =>
    programFlash p (if a < p.chipSize then m.write .flash a (m.read .flash a &&& b) else m) (a + 1) bs

/-! ## Commands -/

/-- Executes the custom instruction of a control byte (R33, D34); 0x60 then reads back with bit 0 clear. -/
def Device.runInstruction (p : Params) (d : Device) (c : Byte) : Device :=
  let op := d.readReg regCiOpcode
  let d1 : Device :=
    if ctrlCmdType c = p.ctErase ∧ op = p.opErase then { d with flash := [] }
    else if ctrlCmdType c = p.ctWrenWrsr ∧ op = p.opWrsr then
      if (ctrlWriteN c).toNat = 0 then d
      else { d with protection := BitVec.ofNat 8 (d.readValue regAddr (ctrlWriteN c).toNat) }
    else if ctrlCmdType c = p.ctRead ∧ op = p.opRead then
      (({ d with pos := d.readValue regAddr 3 }.storeReg regRop 0).storeReg (regRop + 1) 0).storeReg (regRop + 2) 0
    else d
  d1.storeReg regCiCtrl (c &&& 0xFE)

/-- Starts and finishes the device CRC over the flash from the start to the end address inclusive (R41, R219). -/
def Device.runCrc (p : Params) (d : Device) : Device :=
  let first := d.readValue regAddr 3
  let last := d.readValue regCrcEnd 3
  { d.storeReg regCrcResult (hostCrc (d.readFlashRange p first (last + 1 - first))) with crcReady := true }

/-- Programs the buffer at the target address and empties it (R37, D34). -/
def Device.runPageWrite (p : Params) (d : Device) : Device :=
  { d with flash := programFlash p d.flash (d.readValue regAddr 3) d.buffer, buffer := [] }

/-- One data byte written to a register, with the command it gives (R33, R37, R42, D34). -/
def Device.writeReg (p : Params) (d : Device) (r v : Byte) : Device :=
  if r = regCiCtrl then (if ctrlGo v then d.runInstruction p v else d.storeReg r v)
  else if r = regIspCtrl then
    if v = cmdByteEnterIsp then { d with ispMode := true }
    else if v = cmdByteCrc then d.runCrc p
    else if v = cmdBytePageWrite then d.runPageWrite p
    else d
  else if r = regReboot then
    if v = rebootByte then { d.storeReg r v with ispMode := false } else d.storeReg r v
  else d.storeReg r v

/-- Data bytes written to successive registers. -/
def Device.writeRegs (p : Params) (d : Device) (r : Byte) : List Byte → Device
  | [] => d
  | v :: vs => Device.writeRegs p (d.writeReg p r v) (r + 1) vs

/-! ## Transactions -/

/-- The register pointer, which stood at r, after data bytes written or read at address a: the autoincrement address
advances it by one for each, and not past the port 0x70 (R43; 90_conflicts C5; 92_eei_decisions D15). That 0x4A leaves it
is DEDUCED from R43, and that a transaction of one byte and a read advance it too is a DESIGN CHOICE (assumption
log 10). -/
def pointerAfter (a : Addr7) (r : Byte) : (n : Nat) → Byte
  | 0 => r
  | n + 1 => if a = ispAddrAi ∧ r ≠ regData then pointerAfter a (r + 1) n else r

/-- A write transaction's bytes at address a: the register byte, then data for it and the registers after it, or for the
programming buffer where it names the port 0x70 (R38, D34). The register byte sets the pointer, and the data move it
(R43). -/
def Device.receive (p : Params) (a : Addr7) (d : Device) : List Byte → Device
  | [] => d
  | r :: data =>
    let d1 := { d with pointer := pointerAfter a r data.length }
    if r = regData then { d1 with buffer := d1.buffer ++ data } else d1.writeRegs p r data

/-- A read transaction of k bytes at address a: the read stream where the pointer names the port 0x70, else the registers
from the pointer on (R38, D34), which moves it (R43). -/
def Device.send (p : Params) (a : Addr7) (d : Device) (k : Nat) : List Byte × Device :=
  if d.pointer = regData then (d.readFlashRange p d.pos k, { d with pos := d.pos + k })
  else ((List.range k).map fun i => d.readReg (d.pointer + BitVec.ofNat 8 i),
    { d with pointer := pointerAfter a d.pointer k })

end Sys2Proof.Machine
end

