-- ==== Sys2Proof/Machine/I2cBus.lean ====
section
/-! DEFINITION. SoftwareI2CBus (41_i2c_bus): the line primitives, the clock-stretch wait, bus recovery, START and STOP,
bits, bytes and transactions, and the F-ADDR and F-ACK rows of the opcode table. -/

namespace Sys2Proof.Machine

/-! ## Line primitives (R150) -/

/-- `DRIVE(l)`. -/
def driveLine (l : Line) : M Unit :=
  modify fun s => (s.setLatch l .driven).emit (.drive l)

/-- `RELEASE(l)`: the sensed bit is the line's level after the release (R23), where the environment says whether some
other agent holds it low. -/
def releaseLine (l : Line) : M Bit := do
  modify fun s => s.setLatch l .released
  let highOtherwise ← drawLevel l
  let v := (← get).level l (!highOtherwise)
  emit (.release l v)
  return v

/-! ## The clock-stretch wait (R151) -/

/-- The expiry of the clock-stretch wait. -/
def expireStretch : M Unit := do
  emit (.expired .stretch)
  raise (.busStuck (.line .scl))

/-- The polls of `wait_scl`; after `left` more failing polls the wait has surely expired. -/
def waitSclLoop : (left : Nat) → M Unit
  | 0 => do
    if ← releaseLine .scl then return ()
    expireStretch
  | left + 1 => do
    if ← releaseLine .scl then return ()
    if ← drawExpired then expireStretch else waitSclLoop left

/-- `wait_scl()`. -/
def waitScl : M Unit := do
  waitSclLoop ((← get).waitBound .stretch)

/-! ## Bus recovery, START and STOP (R152-R155) -/

/-- `pulse_scl()` (R153). -/
def pulseScl : M Unit := do
  driveLine .scl
  let _ ← releaseLine .scl

/-- n pulses. -/
def pulses : Nat → M Unit
  | 0 => return ()
  | n + 1 => do
    pulseScl
    pulses n

/-- Whether RESET_ROUND_LIMIT stops the recovery after this many rounds (R152). -/
def roundLimitReached (p : Params) (rounds : Nat) : Bool :=
  match p.resetRoundLimit with
  | none => false
  | some m => decide (rounds ≥ m)

/-- The recovery rounds of `reset()`, of which `rounds` have been made; the run counts as one that never ends when
`left` is used up, which a RESET_ROUND_LIMIT prevents (R294). -/
def recoveryRounds : (left rounds : Nat) → M Unit
  | 0, _ => hang
  | left + 1, rounds => do
    pulses 9
    if ← releaseLine .sda then return ()
    if roundLimitReached (← get).params (rounds + 1) then raise (.busStuck (.line .sda))
    else recoveryRounds left (rounds + 1)

/-- How many rounds the recovery may make: with a limit m, m rounds and at least one; without, the free bound. -/
def State.roundFuel (s : State) : Nat :=
  match s.params.resetRoundLimit with
  | some m => m + 1
  | none => s.recoveryBound

/-- `reset()` up to the wait of its STOP (R152, R155). -/
def recoverOnce : M Unit := do
  let _ ← releaseLine .sda
  recoveryRounds (← get).roundFuel 0
  driveLine .scl
  driveLine .sda
  waitScl

/-- `RELEASE(SDA)` at a STOP where the environment has no choice left: SDA reads high. -/
def releaseSdaHigh : M Unit :=
  modify fun s => (s.setLatch .sda .released).emit (.release .sda true)

/-- `reset()` (R152) with its STOP written out, since the STOP recovers again while SDA reads low (R155, R289); `left`
bounds that nesting. Used up under RESET_ROUND_LIMIT = none it counts as a run that never ends (R294). With a limit the
recursion ends, as R289 says: the environment then lets SDA read high at the STOP (assumption log 6). -/
def recover : (left : Nat) → M Unit
  | 0 => do
    whenever (← get).params.resetRoundLimit.isNone hang
    recoverOnce
    releaseSdaHigh
  | left + 1 => do
    recoverOnce
    if ← releaseLine .sda then return ()
    recover left

/-- `reset()` (R152). -/
def resetBus : M Unit := do
  recover (← get).recoveryBound

/-- `stop()` (R155). -/
def stopCondition : M Unit := do
  waitScl
  if ← releaseLine .sda then return ()
  resetBus

/-- `start()` (R154). -/
def startCondition : M Unit := do
  whenever (!(← releaseLine .sda)) resetBus
  waitScl
  driveLine .sda
  driveLine .scl

/-! ## Bits and bytes (R156-R160) -/

/-- The data phase of `write_bit(b)`: SDA released for a 1, driven for a 0. -/
def placeBit (b : Bit) : M Unit :=
  if b then do
    let _ ← releaseLine .sda
  else driveLine .sda

/-- `write_bit(b)` (R156). -/
def sendBit (b : Bit) : M Unit := do
  placeBit b
  waitScl
  driveLine .scl
  driveLine .sda

/-- `read_bit()` (R157). -/
def recvBit : M Bit := do
  let _ ← releaseLine .sda
  waitScl
  let v ← releaseLine .sda
  driveLine .scl
  driveLine .sda
  return v

/-- The bits of a list in order. -/
def sendBits : List Bit → M Unit
  | [] => return ()
  | b :: bs => do
    sendBit b
    sendBits bs

/-- `write_byte(x)`: its result is the acknowledge bit (R159). -/
def sendByte (x : Byte) : M Bit := do
  sendBits (msbFirst x)
  recvBit

/-- n bits read onto the end of v: `v <- (v << 1) | read_bit()` (R160). -/
def recvBits : Nat → Byte → M Byte
  | 0, v => return v
  | n + 1, v => do
    let b ← recvBit
    recvBits n ((v <<< 1) ||| (if b then 1 else 0))

/-- `read_byte()` (R160). -/
def recvByte : M Byte := recvBits 8 0

/-- The master's ninth bit, sent only under MASTER_RX_ACK (R82, R162). -/
def sendMasterAck (b : Bit) : M Unit := do
  whenever (← get).params.masterRxAck (sendBit b)

/-! ## Transactions (R161, R162) -/

/-- A NACK: STOP, then the error (R161, D7). -/
def nackStop (w : NackAt) : M Unit := do
  stopCondition
  raise (.noAck w)

/-- The data bytes of a write, from byte j on. -/
def sendData : (j : Nat) → List Byte → M Unit
  | _, [] => return ()
  | j, b :: bs => do
    whenever (isNack (← sendByte b)) (nackStop (.data j))
    sendData (j + 1) bs

/-- `write(address, data)` (R161). -/
def busWrite (address : Nat) (data : List Byte) : M Unit := do
  require (decide (address ≤ 127)) .addressRange
  startCondition
  whenever (isNack (← sendByte (addressByte (BitVec.ofNat 7 address) false))) (nackStop .address)
  sendData 0 data
  stopCondition

/-- n bytes from the slave, each followed by the master's ninth bit. -/
def recvData : Nat → M (List Byte)
  | 0 => return []
  | n + 1 => do
    let b ← recvByte
    sendMasterAck (masterAckBit n)
    return b :: (← recvData n)

/-- `read(address, count)` (R162). -/
def busRead (address count : Nat) : M (List Byte) := do
  require (decide (address ≤ 127)) .addressRange
  startCondition
  whenever (isNack (← sendByte (addressByte (BitVec.ofNat 7 address) true))) (nackStop .address)
  let out ← recvData count
  stopCondition
  return out

/-- An operation without a result, as a call's value. -/
def asUnit (x : M Unit) : M Value := do
  x
  return .unit

/-- An operation with a bit as its result. -/
def asBit (x : M Bit) : M Value := return .bit (← x)

/-! ## Meanings -/

def execDrive (l : Line) (s : State) : Host.Outcome State Fault Refusal :=
  invoke openSession (asUnit (driveLine l)) s

def execRelease (l : Line) (s : State) : Host.Outcome State Fault Refusal :=
  invoke openSession (asBit (releaseLine l)) s

def execWaitScl (s : State) : Host.Outcome State Fault Refusal :=
  invoke openSession (asUnit waitScl) s

def execBusReset (s : State) : Host.Outcome State Fault Refusal :=
  invoke openSession (asUnit resetBus) s

def execPulseScl (s : State) : Host.Outcome State Fault Refusal :=
  invoke openSession (asUnit pulseScl) s

def execStart (s : State) : Host.Outcome State Fault Refusal :=
  invoke openSession (asUnit startCondition) s

def execStop (s : State) : Host.Outcome State Fault Refusal :=
  invoke openSession (asUnit stopCondition) s

def execWriteBit (b : Bit) (s : State) : Host.Outcome State Fault Refusal :=
  invoke openSession (asUnit (sendBit b)) s

def execReadBit (s : State) : Host.Outcome State Fault Refusal :=
  invoke openSession (asBit recvBit) s

def execWriteByte (x : Byte) (s : State) : Host.Outcome State Fault Refusal :=
  invoke openSession (asBit (sendByte x)) s

def execReadByte (s : State) : Host.Outcome State Fault Refusal :=
  invoke openSession (do return .byte (← recvByte)) s

def execBusWrite (address : Nat) (data : List Byte) (s : State) : Host.Outcome State Fault Refusal :=
  invoke openSession (asUnit (busWrite address data)) s

def execBusRead (address count : Nat) (s : State) : Host.Outcome State Fault Refusal :=
  invoke openSession (do return .bytes (← busRead address count)) s

/-- F-ADDR with rw = WRITE (R81): the address byte is sent, the ACK bit answered (assumption log 3). -/
def execAddrW (a : Addr7) (s : State) : Host.Outcome State Fault Refusal :=
  invoke openSession (asBit (sendByte (addressByte a false))) s

/-- F-ADDR with rw = READ (R81). -/
def execAddrR (a : Addr7) (s : State) : Host.Outcome State Fault Refusal :=
  invoke openSession (asBit (sendByte (addressByte a true))) s

/-- F-ADDR 0x94 (R83). -/
def execIspAddrWrite (s : State) : Host.Outcome State Fault Refusal :=
  invoke openSession (asBit (sendByte (addressByte ispAddr false))) s

/-- F-ADDR 0x95 (R83). -/
def execIspAddrRead (s : State) : Host.Outcome State Fault Refusal :=
  invoke openSession (asBit (sendByte (addressByte ispAddr true))) s

/-- F-ADDR 0x96 (R83). -/
def execIspAddrAiWrite (s : State) : Host.Outcome State Fault Refusal :=
  invoke openSession (asBit (sendByte (addressByte ispAddrAi false))) s

/-- F-ADDR 0x97 (R83). -/
def execIspAddrAiRead (s : State) : Host.Outcome State Fault Refusal :=
  invoke openSession (asBit (sendByte (addressByte ispAddrAi true))) s

/-- F-ACK 0, written by the host when MASTER_RX_ACK holds (R82). -/
def execAck (s : State) : Host.Outcome State Fault Refusal :=
  invoke openSession (asUnit (sendMasterAck false)) s

/-- F-ACK 1, written by the host when MASTER_RX_ACK holds (R82). -/
def execNack (s : State) : Host.Outcome State Fault Refusal :=
  invoke openSession (asUnit (sendMasterAck true)) s

end Sys2Proof.Machine
end

