-- ==== Sys2Proof/Machine/Transport.lean ====
section
/-! DEFINITION. The I2CTransport contract (42_transport): the transaction primitives over either backend, the session
calls and `detect`, and the F-REGW and F-REGR rows of the opcode table. -/

namespace Sys2Proof.Machine

/-- A native backend's error as the error kind it is; it carries no place (R280). -/
def xferError : XferErr → Err
  | .noAck => .noAck .backend
  | .ioError => .ioError
  | .busStuck => .busStuck .backend

/-- The environment's answer to a native write (R190). -/
def answerWrite (a : Addr7) (bytes : List Byte) : M WriteAnswer := do
  let s ← get
  match s.env.mode with
  | .oracle => drawWrite
  | .reference =>
    if deviceAnswers a then
      set (s.setDevice (s.device.receive s.params a bytes))
      return .ok
    else return .failed .noAck

/-- The environment's answer to a native read (R190). -/
def answerRead (a : Addr7) (n : Nat) : M ReadAnswer := do
  let s ← get
  match s.env.mode with
  | .oracle => drawRead n
  | .reference =>
    if deviceAnswers a then
      let (bytes, d) := s.device.send s.params a n
      set (s.setDevice d)
      return .ok bytes
    else return .failed .noAck

/-- `T.write(a, L)` of a native transport (R190). -/
def nativeWrite (a : Addr7) (bytes : List Byte) : M Unit := do
  let r ← answerWrite a bytes
  emit (.tWrite a bytes r)
  match r with
  | .ok => return ()
  | .failed why => raise (xferError why)

/-- `T.read(a, n)` of a native transport (R190). -/
def nativeRead (a : Addr7) (n : Nat) : M (List Byte) := do
  let r ← answerRead a n
  emit (.tRead a n r)
  match r with
  | .ok bytes => return bytes
  | .failed why => raise (xferError why)

/-- A transaction of n bytes fits the limit; 0 = unlimited (R190, R191). -/
def fitsLimit (limit n : Nat) : Bool := decide (limit = 0 ∨ n ≤ limit)

/-- `T.write(a, L)` (R190, R164). -/
def transWrite (a : Addr7) (bytes : List Byte) : M Unit := do
  let s ← get
  require (fitsLimit s.maxWrite bytes.length) .tooLong
  match s.backend with
  | .softwareBus => busWrite a.toNat bytes
  | .native => nativeWrite a bytes

/-- `T.read(a, n)` (R190, R164). -/
def transRead (a : Addr7) (n : Nat) : M (List Byte) := do
  let s ← get
  require (fitsLimit s.maxRead n) .tooLong
  match s.backend with
  | .softwareBus => busRead a.toNat n
  | .native => nativeRead a n

/-- The transport error kinds, the bounded set of `detect` (R196, D36). -/
def isTransportError : Err → Bool
  | .noAck _ => true
  | .ioError => true
  | .busStuck _ => true
  | .enterIspFailed => false
  | .customInstructionTimeout => false
  | .verificationFailed => false
  | .decodeError => false
  | .signatureMismatch => false
  | .tooSmall => false

/-- `init(device, settings)` (R193); both operands are opaque to the block. -/
def openTransport : M Unit := do
  if ← drawOpens then modify fun s => s.setSession .initialized
  else raise .ioError

/-- `detect(address)` (R196). -/
def detectDevice (a : Addr7) : M Bool :=
  catching isTransportError
    (do
      let _ ← transRead a 1
      return true)
    (return false)

/-! ## Meanings -/

def execTWrite (a : Addr7) (bytes : List Byte) (s : State) : Host.Outcome State Fault Refusal :=
  invoke openSession (asUnit (transWrite a bytes)) s

def execTRead (a : Addr7) (n : Nat) (s : State) : Host.Outcome State Fault Refusal :=
  invoke openSession (do return .bytes (← transRead a n)) s

/-- `init` (R192, R193). -/
def execInit (_device _settings : List Byte) (s : State) : Host.Outcome State Fault Refusal :=
  invoke closedSession (asUnit openTransport) s

/-- `deinit` (R192, R194). -/
def execDeinit (s : State) : Host.Outcome State Fault Refusal :=
  invoke openSession (asUnit (modify fun t => t.setSession .closed)) s

/-- `list_devices` (R195). -/
def execListDevices (s : State) : Host.Outcome State Fault Refusal :=
  invoke anySession (do return .devices (← drawListing)) s

def execDetect (a : Addr7) (s : State) : Host.Outcome State Fault Refusal :=
  invoke openSession (do return .bool (← detectDevice a)) s

/-- F-REGW (R84): one write transaction `[reg] ++ chunk` (assumption log 3, 21). -/
def execRegw (a : IspAddr) (reg : Byte) (chunk : List Byte) (s : State) : Host.Outcome State Fault Refusal :=
  invoke openSession (do
    require (decide (chunk ≠ [])) .emptyPayload
    require (decide (s.maxWrite ≠ 1)) .transportTooSmall
    transWrite a.addr (reg :: chunk)
    return .unit) s

/-- F-REGR (R85): the register address is written to ISP_ADDR, then k bytes are read from ISP_ADDR_AI if sequential,
else from ISP_ADDR (assumption log 3, 21). -/
def execRegr (reg : Byte) (k : Nat) (seq : Bool) (s : State) : Host.Outcome State Fault Refusal :=
  invoke openSession (do
    require (decide (k ≠ 0)) .emptyRead
    require (fitsLimit s.maxRead k) .tooLong
    transWrite ispAddr [reg]
    let bytes ← transRead (if seq then ispAddrAi else ispAddr) k
    return .bytes bytes) s

end Sys2Proof.Machine
end

