-- ==== Sys2Proof/Machine/IspEngine.lean ====
section
/-! DEFINITION. IspProtocolEngine (43_isp_engine): register access, polling, ISP mode, custom instructions, the CRCs,
and the register-format rows of the opcode table. -/

namespace Sys2Proof.Machine

/-! ## Register access (R210, R211) -/

/-- The write transactions of a payload's chunks, the first at an offset. -/
def writeChunks (a : Addr7) (reg : Byte) : (off : Nat) → List (List Byte) → M Unit
  | _, [] => return ()
  | off, c :: cs => do
    transWrite a (chunkReg reg off :: c)
    writeChunks a reg (off + c.length) cs

/-- The chunk size of a register write: `max_write - 1`, or the whole payload (R210). -/
def writeChunkSize (maxWrite n : Nat) : Nat := if maxWrite = 0 then n else maxWrite - 1

/-- `reg_write(reg, payload, seq)` (R210). -/
def regWrite (reg : Byte) (payload : List Byte) (seq : Bool) : M Unit := do
  require (decide (payload ≠ [])) .emptyPayload
  let s ← get
  require (decide (s.maxWrite ≠ 1)) .transportTooSmall
  writeChunks (accessAddr seq payload.length) reg 0 (chunks (writeChunkSize s.maxWrite payload.length) payload)

/-- The register-address writes and reads of a read's chunks, the first at an offset. -/
def readChunks (a : Addr7) (reg : Byte) : (off : Nat) → List Nat → M (List Byte)
  | _, [] => return []
  | off, k :: ks => do
    transWrite ispAddr [chunkReg reg off]
    let bytes ← transRead a k
    return bytes ++ (← readChunks a reg (off + k) ks)

/-- The chunk size of a register read: `max_read`, or the whole count (R211). -/
def readChunkSize (maxRead n : Nat) : Nat := if maxRead = 0 then n else maxRead

/-- `reg_read(reg, n, seq)` (R211). It runs on a transport with `max_write = 1` too, since its register-byte write fits
there and R211 and R293 refuse `reg_write` only, though R191 says that the engine refuses to run there: DESIGN CHOICE,
assumption log 28. -/
def regRead (reg : Byte) (n : Nat) (seq : Bool) : M (List Byte) := do
  require (decide (n ≠ 0)) .emptyRead
  let s ← get
  readChunks (accessAddr seq n) reg 0 (chunkSizes (readChunkSize s.maxRead n) n)

/-- `reg_write8(r, v)` (R104). -/
def regWrite8 (reg v : Byte) : M Unit := regWrite reg [v] false

/-- `reg_read8(r)` (R104). -/
def regRead8 (reg : Byte) : M Byte := do
  return (← regRead reg 1 false).headD 0

/-! ## Polling (R223, R224) -/

/-- The expiry of a register poll. -/
def expirePoll (site : PollSite) (err : Err) : M Byte := do
  emit (.expired (.poll site))
  raise err

/-- The reads of `poll`; after `left` more failing reads the poll has surely expired. -/
def pollLoop (site : PollSite) (reg : Byte) (test : PollTest) (err : Err) : (left : Nat) → M Byte
  | 0 => do
    let v ← regRead8 reg
    if pollAccepts test v then return v
    expirePoll site err
  | left + 1 => do
    let v ← regRead8 reg
    if pollAccepts test v then return v
    if ← drawExpired then expirePoll site err else pollLoop site reg test err left

/-- `poll(site, reg, test, timeout, err)` (R223). -/
def pollReg (site : PollSite) (reg : Byte) (test : PollTest) (timeout : Timeout) (err : Err) : M Byte := do
  pollLoop site reg test err ((← get).waitBound timeout)

/-- `wait_not_busy()` (R104). -/
def waitNotBusy : M Unit := do
  let _ ← pollReg .busy regIspCtrl testNotBusy .busy (.busStuck (.site .busy))

/-- `set_addr(r, a)` (R104). -/
def setAddr (reg : Byte) (a : Nat) : M Unit := regWrite reg (beBytes a 3) true

/-! ## ISP mode (R213, R214) -/

/-- What `enter_isp` catches (R213, R282). -/
def isNoAckOrIo : Err → Bool
  | .noAck _ => true
  | .ioError => true
  | .busStuck _ => false
  | .enterIspFailed => false
  | .customInstructionTimeout => false
  | .verificationFailed => false
  | .decodeError => false
  | .signatureMismatch => false
  | .tooSmall => false

/-- `enter_isp()` (R213). -/
def enterIsp : M Unit := do
  catching isNoAckOrIo (regWrite8 regIspCtrl cmdByteEnterIsp) (return ())
  let v ← catching isNoAckOrIo (regRead8 regIspCtrl) (raise .enterIspFailed)
  whenever (!statusIsp v) (raise .enterIspFailed)
  modify fun s => s.setSession .ispActive

/-- `exit_isp()` (R214): every error of the reboot write is swallowed. -/
def exitIsp : M Unit := do
  catching (fun _ => true) (regWrite8 regReboot rebootByte) (return ())
  modify fun s => s.setSession .initialized

/-! ## Custom instructions (R215) -/

/-- `custom_instruction(cmd_type, opcode, read_n, write_n, write_value)`. -/
def customInstruction (cmdType : Nat) (opcode : Byte) (readN writeN writeValue : Nat) : M (Option Nat) := do
  require (decide (cmdType ≤ 7 ∧ readN ≤ 3 ∧ writeN ≤ 3)) .fieldRange
  require (operandFits writeN writeValue) .operandRange
  whenever (decide (writeN > 0)) (regWrite regAddr (beBytes writeValue writeN) true)
  regWrite8 regCiOpcode opcode
  regWrite8 regCiCtrl (controlByte (BitVec.ofNat 3 cmdType) (BitVec.ofNat 2 writeN) (BitVec.ofNat 2 readN))
  let s ← get
  let _ ← pollReg .ci regCiCtrl testCiDone (ciTimeout s.params cmdType opcode) .customInstructionTimeout
  if readN > 0 then
    let bytes ← regRead regRop readN true
    return some (beValue bytes)
  else return none

/-- `unprotect()` and `protect()`: write-enable and write-status-register with a value (R104). -/
def writeStatusRegister (value : Nat) : M Unit := do
  let p := (← get).params
  let _ ← customInstruction p.ctWrenWrsr.toNat p.opWrsr 0 1 value

/-! ## Device CRC (R218) -/

/-- `device_crc(start, end)`. -/
def deviceCrc (first last : Nat) : M Byte := do
  require (decide (first ≤ last ∧ last < 2 ^ 24)) .crcRange
  setAddr regAddr first
  setAddr regCrcEnd last
  regWrite8 regIspCtrl cmdByteCrc
  let _ ← pollReg .crc regIspCtrl testCrcReady .crc (.busStuck (.site .crc))
  regRead8 regCrcResult

/-! ## Host CRC (R222) -/

/-- `host_crc(data)`, computed in the CRC register (R27). -/
def computeHostCrc (data : List Byte) : M Byte := do
  modify fun s => s.setCrc 0
  modify fun s => s.setCrc (crcFrom s.crc data)
  return (← get).crc

/-! ## Meanings of the operations -/

def execRegWrite (reg : Byte) (payload : List Byte) (seq : Bool) (s : State) : Host.Outcome State Fault Refusal :=
  invoke openSession (asUnit (regWrite reg payload seq)) s

def execRegRead (reg : Byte) (n : Nat) (seq : Bool) (s : State) : Host.Outcome State Fault Refusal :=
  invoke openSession (do return .bytes (← regRead reg n seq)) s

def execEnterIsp (s : State) : Host.Outcome State Fault Refusal :=
  invoke initializedSession (asUnit enterIsp) s

def execExitIsp (s : State) : Host.Outcome State Fault Refusal :=
  invoke ispSession (asUnit exitIsp) s

def execCustomInstruction (cmdType : Nat) (opcode : Byte) (readN writeN writeValue : Nat) (s : State) :
    Host.Outcome State Fault Refusal :=
  invoke ispSession (do return .optNat (← customInstruction cmdType opcode readN writeN writeValue)) s

def execDeviceCrc (first last : Nat) (s : State) : Host.Outcome State Fault Refusal :=
  invoke ispSession (do return .byte (← deviceCrc first last)) s

def execHostCrc (data : List Byte) (s : State) : Host.Outcome State Fault Refusal :=
  invoke anySession (do return .byte (← computeHostCrc data)) s

def execPoll (site : PollSite) (reg : Byte) (test : PollTest) (timeout : Timeout) (err : Err) (s : State) :
    Host.Outcome State Fault Refusal :=
  invoke openSession (do return .byte (← pollReg site reg test timeout err)) s

/-! ## Meanings of the register-format rows (assumption log 3) -/

/-- Reads a register and answers whether the test accepts it (R33, R90). -/
def testReg (reg : Byte) (test : Byte → Bool) : M Value := do
  let v ← regRead8 reg
  return .bool (test v)

/-- F-CTRL written to 0x60 (R86). -/
def execCtrl (cmdType : BitVec 3) (writeN readN : BitVec 2) (s : State) : Host.Outcome State Fault Refusal :=
  invoke openSession (asUnit (regWrite8 regCiCtrl (controlByte cmdType writeN readN))) s

/-- F-CMD 0x80 written to 0x6F (R89). -/
def execCmdEnterIsp (s : State) : Host.Outcome State Fault Refusal :=
  invoke openSession (asUnit (regWrite8 regIspCtrl cmdByteEnterIsp)) s

/-- F-CMD 0x84 written to 0x6F (R89). -/
def execCmdCrc (s : State) : Host.Outcome State Fault Refusal :=
  invoke openSession (asUnit (regWrite8 regIspCtrl cmdByteCrc)) s

/-- F-CMD 0xA0 written to 0x6F (R89). -/
def execCmdPageWrite (s : State) : Host.Outcome State Fault Refusal :=
  invoke openSession (asUnit (regWrite8 regIspCtrl cmdBytePageWrite)) s

/-- F-STAT bit 7 of 0x6F (R90). -/
def execStatIsp (s : State) : Host.Outcome State Fault Refusal :=
  invoke openSession (testReg regIspCtrl statusIsp) s

/-- F-STAT bit 6 of 0x6F (R90). -/
def execStatBusy (s : State) : Host.Outcome State Fault Refusal :=
  invoke openSession (testReg regIspCtrl statusBusy) s

/-- F-STAT bit 1 of 0x6F (R90). -/
def execStatCrcReady (s : State) : Host.Outcome State Fault Refusal :=
  invoke openSession (testReg regIspCtrl statusCrcReady) s

/-- Bit 0 of 0x60 on read (R33, R87). -/
def execCiPending (s : State) : Host.Outcome State Fault Refusal :=
  invoke openSession (testReg regCiCtrl ciPendingBit) s

/-- F-RBT written to 0xEE (R91). -/
def execReboot (s : State) : Host.Outcome State Fault Refusal :=
  invoke openSession (asUnit (regWrite8 regReboot rebootByte)) s

/-- F-A24 written to 0x64..0x66 or 0x72..0x74 (R92). -/
def execA24 (r : A24Reg) (addr : BitVec 24) (s : State) : Host.Outcome State Fault Refusal :=
  invoke openSession (asUnit (setAddr r.reg addr.toNat)) s

/-- F-OPND (R88): the write operand goes to 0x64.., the read result comes from 0x67... -/
def execOpnd (form : OpndForm) (s : State) : Host.Outcome State Fault Refusal :=
  invoke openSession (do
    match form with
    | .write n value =>
      require (operandFits n.toNat value) .operandRange
      whenever (decide (n.toNat > 0)) (regWrite regAddr (beBytes value n.toNat) true)
      return .unit
    | .read n =>
      if n.toNat = 0 then return .optNat none
      else
        let bytes ← regRead regRop n.toNat true
        return .optNat (some (beValue bytes))) s

/-- F-SIZE: SIZE_ENC(n) written to 0x71, here `n = lastIndex + 1` (R93). -/
def execSize (lastIndex : Fin 128) (s : State) : Host.Outcome State Fault Refusal :=
  invoke openSession (do
    regWrite8 regXferSize (sizeEncoding (← get).params (lastIndex.val + 1))
    return .unit) s

end Sys2Proof.Machine
end

