-- ==== Sys2Proof/Machine/FlashController.lean ====
section
/-! DEFINITION. FlashController (44_flash): whole-chip erase, page-wise program, bulk read, and their verification. -/

namespace Sys2Proof.Machine

/-- `progress(s, e, c)` (R259). -/
def progress (first last current : Nat) : M Unit := emit (.progress first last current)

/-- `erase()` (R250). -/
def eraseFlash : M Unit := do
  writeStatusRegister unprotectSr
  let p := (← get).params
  let _ ← customInstruction p.ctErase.toNat p.opErase 0 0 0
  writeStatusRegister protectSr

/-- `verify(data, n)` (R257). -/
def verifyFlash (data : List Byte) (n : Nat) : M Unit := do
  let h ← computeHostCrc data
  let d ← deviceCrc 0 (n - 1)
  progress 0 n n
  whenever (decide (h ≠ d)) (raise .verificationFailed)

/-- Every byte of the page is 0xFF (R258). -/
def isBlankPage (page : List Byte) : Bool := page.all fun b => decide (b = erasedByte)

/-- The page write sequence (R254). -/
def writePage (p : Nat) (page : List Byte) : M Unit := do
  waitNotBusy
  regWrite8 regXferSize (sizeEncoding (← get).params page.length)
  setAddr regAddr (pageSize * p)
  regWrite regData page true
  regWrite8 regIspCtrl cmdBytePageWrite

/-- The pages of an image of n bytes, from page p on (R251, R252). -/
def programPages (n : Nat) : (p : Nat) → List (List Byte) → M Unit
  | _, [] => return ()
  | p, page :: rest => do
    progress 0 n (pageSize * p)
    whenever (!isBlankPage page) (writePage p page)
    programPages n (p + 1) rest

/-- `program(img)` (R251). -/
def programFlashImage (img : List Byte) : M Unit := do
  let n := img.length
  let s ← get
  require (decide (1 ≤ n ∧ n ≤ s.params.chipSize)) .imageSize
  writeStatusRegister unprotectSr
  programPages n 0 (chunks pageSize img)
  waitNotBusy
  writeStatusRegister protectSr
  verifyFlash img n

/-- The data reads of `read`, with the bytes collected so far (R255). -/
def collectFlash (n : Nat) : List Nat → List Byte → M (List Byte)
  | [], out => return out
  | k :: ks, out => do
    progress 0 n out.length
    let bytes ← regRead regData k true
    collectFlash n ks (out ++ bytes)

/-- `read(size)` (R255, R256). -/
def readFlashImage (n : Nat) : M (List Byte) := do
  let s ← get
  require (decide (1 ≤ n ∧ n ≤ s.params.chipSize)) .readSize
  let _ ← customInstruction s.params.ctRead.toNat s.params.opRead 3 3 0
  waitNotBusy
  let out ← collectFlash n (chunkSizes pageSize n) []
  verifyFlash out n
  return out

/-! ## Meanings -/

def execErase (s : State) : Host.Outcome State Fault Refusal :=
  invoke ispSession (asUnit eraseFlash) s

def execProgram (img : List Byte) (s : State) : Host.Outcome State Fault Refusal :=
  invoke ispSession (asUnit (programFlashImage img)) s

def execFlashRead (n : Nat) (s : State) : Host.Outcome State Fault Refusal :=
  invoke ispSession (do return .bytes (← readFlashImage n)) s

end Sys2Proof.Machine
end

