-- ==== Sys2Proof/Machine/Gff.lean ====
section
/-! DEFINITION. GffCodec (40_gff_codec): the bit reader, the nibble decoder, the header check, the decoder and the
size walk, and the GFF rows of the opcode table. None touches the bus, the session or the trace. -/

namespace Sys2Proof.Machine

/-! ## The bit reader (R26, R120, R122) -/

/-- `has_data()` (R26). -/
def hasData (bs : BitStream) : Bool := decide (bs.idx < bs.buf.length)

/-- The BitStream after one bit (R120): the mask moves right; past bit 0 it returns to 0x80 and the index moves on. -/
def advanceBit (bs : BitStream) : BitStream :=
  if bs.mask >>> 1 = 0 then { bs with mask := 0x80, idx := bs.idx + 1 } else { bs with mask := bs.mask >>> 1 }

/-- `bs_read_bit(bs)`; past the end it is `None` (R120). -/
def readStreamBit (bs : BitStream) : Option Bit × BitStream :=
  if hasData bs then (some (decide (bs.buf.getD bs.idx 0 &&& bs.mask ≠ 0)), advanceBit bs) else (none, bs)

/-- `remaining(bs)`: the number of unconsumed bits (R122). -/
def remaining (bs : BitStream) : Nat :=
  if bs.idx ≥ bs.buf.length then 0 else (Nat.log2 bs.mask.toNat + 1) + 8 * (bs.buf.length - bs.idx - 1)

/-! ## The nibble decoder (R121) -/

/-- How the count of leading zeros ends. -/
inductive ZeroCount where
  /-- the stream was exhausted while counting -/
  | exhausted (bs : BitStream)
  /-- z zeros and the terminating 1 were read -/
  | found (z : Nat) (bs : BitStream)
  /-- six zeros were read -/
  | six (bs : BitStream)
  deriving DecidableEq, Repr

/-- The zero-counting loop from z on; `left` is `6 - z`. -/
def countZeros : (left z : Nat) → BitStream → ZeroCount
  | 0, _, bs => .six bs
  | left + 1, z, bs =>
    match readStreamBit bs with
    | (none, bs') => .exhausted bs'
    | (some true, bs') => .found z bs'
    | (some false, bs') => countZeros left (z + 1) bs'

/-- `next()`: one more bit, or `Trunc` where the stream ends inside the codeword. -/
def nextBit (bs : BitStream) (k : Bit → BitStream → NibResult × BitStream) : NibResult × BitStream :=
  match readStreamBit bs with
  | (none, bs') => (.trunc, bs')
  | (some b, bs') => k b bs'

/-- `next() = 1 ? Nib(v1) : Nib(v0)`. -/
def pickNibble (v1 v0 : Nibble) (bs : BitStream) : NibResult × BitStream :=
  nextBit bs fun b bs' => (.nib (if b then v1 else v0), bs')

/-- The bits after z zeros and the terminating 1. -/
def decodeTail (z : Nat) (bs : BitStream) : NibResult × BitStream :=
  match z with
  | 0 => (.nib 0x0, bs)
  | 1 => pickNibble 0xF 0x1 bs
  | 2 => pickNibble 0x8 0x2 bs
  | 3 => pickNibble 0x7 0xC bs
  | 4 =>
    nextBit bs fun b bs1 =>
      if b then pickNibble 0x9 0x4 bs1
      else nextBit bs1 fun c bs2 => if c then pickNibble 0x5 0xA bs2 else pickNibble 0xB 0x3 bs2
  | _ =>
    nextBit bs fun a bs1 =>
      nextBit bs1 fun c bs2 =>
        match a, c with
        | true, true => (.nib 0xD, bs2)
        | true, false => (.nib 0xE, bs2)
        | false, true => (.nib 0x6, bs2)
        | false, false => (.error, bs2)

/-- `decode_nibble(bs)` (R121). -/
def decodeNib (rule : Z6Rule) (bs : BitStream) : NibResult × BitStream :=
  match countZeros 6 0 bs with
  | .exhausted bs' => (.endMarker, bs')
  | .six bs' => (if z6End rule (remaining bs') then .endMarker else .error, bs')
  | .found z bs' => decodeTail z bs'

/-! ## The file (R123-R125) -/

/-- `check_header(file)` (R123). -/
def headerPayload (file : List Byte) : Except Err (List Byte) :=
  if file.length < gffHeaderLen then .error .tooSmall
  else if file.take 12 ≠ gffSignature then .error .signatureMismatch
  else .ok (file.drop gffHeaderLen)

/-- The BitStream of a decode (R26): the payload at bit 7 of byte 0. -/
def openStream (payload : List Byte) : BitStream := { buf := payload, idx := 0, mask := 0x80 }

/-- F-PAIR: the first nibble is the high one (R100). -/
def pairByte (n1 n2 : Nibble) : Byte := (n1.setWidth 8 <<< 4) ||| n2.setWidth 8

/-- The pair loop of `decode` (R124), with the bytes decoded so far. Each turn consumes at least one bit or returns, so
fuel above the number of unread bits is never used up. -/
def walkPairs (rule : Z6Rule) : (fuel : Nat) → BitStream → List Byte → Except Err (List Byte)
  | 0, _, _ => .error .decodeError
  | f + 1, bs, out =>
    match decodeNib rule bs with
    | (.endMarker, _) => .ok out
    | (.error, _) => .error .decodeError
    | (.trunc, _) => .error .decodeError
    | (.nib n1, bs1) =>
      match decodeNib rule bs1 with
      | (.nib n2, bs2) => walkPairs rule f bs2 (out ++ [pairByte n1 n2])
      | (.endMarker, _) => .error .decodeError
      | (.error, _) => .error .decodeError
      | (.trunc, _) => .error .decodeError

/-- `decode(file)` (R124). -/
def gffDecode (rule : Z6Rule) (file : List Byte) : Except Err (List Byte) :=
  match headerPayload file with
  | .error e => .error e
  | .ok payload => walkPairs rule (8 * payload.length + 1) (openStream payload) []

/-- The walk of `compute_decoded_size` (R125): the pair loop without output, counting the pairs; 0 on any error. -/
def countPairs (rule : Z6Rule) : (fuel : Nat) → BitStream → Nat → Nat
  | 0, _, _ => 0
  | f + 1, bs, count =>
    match decodeNib rule bs with
    | (.endMarker, _) => count
    | (.error, _) => 0
    | (.trunc, _) => 0
    | (.nib _, bs1) =>
      match decodeNib rule bs1 with
      | (.nib _, bs2) => countPairs rule f bs2 (count + 1)
      | (.endMarker, _) => 0
      | (.error, _) => 0
      | (.trunc, _) => 0

/-- `compute_decoded_size(file)` (R125). -/
def gffSize (rule : Z6Rule) (file : List Byte) : Nat :=
  match headerPayload file with
  | .error _ => 0
  | .ok payload => countPairs rule (8 * payload.length + 1) (openStream payload) 0

/-! ## Codewords at the cursor (R97; assumption log 4) -/

/-- The stream past a codeword, where the stream's next bits are that codeword. -/
def takeCode : List Bit → BitStream → Option BitStream
  | [], bs => some bs
  | c :: cs, bs =>
    match readStreamBit bs with
    | (some b, bs') => if b = c then takeCode cs bs' else none
    | (none, _) => none

/-- The stream's end, where at most n zero bits and nothing else are left. -/
def takeLastZeros : Nat → BitStream → Option BitStream
  | n, bs =>
    match readStreamBit bs with
    | (none, bs') => some bs'
    | (some true, _) => none
    | (some false, bs') =>
      match n with
      | 0 => none
      | k + 1 => takeLastZeros k bs'

/-- Recognises a codeword at the stream's cursor: consumes it and answers what it stands for, or answers none and
leaves the stream. -/
def recognise (take : BitStream → Option BitStream) (meaning : State → BitStream → NibResult) : M Value := do
  let s ← get
  match take s.stream with
  | some bs =>
    set (s.setStream bs)
    return .codeword (some (meaning s bs))
  | none => return .codeword none

/-- A nibble's row (R97). -/
def recogniseNibble (v : Nibble) : M Value := recognise (takeCode (nibbleCode v)) fun _ _ => .nib v

/-- A value result: `Ok(v)` or `Err(e)` returned as the operation's last step (R281). -/
def valueResult (r : Except Err Value) : M Value :=
  match r with
  | .ok v => return v
  | .error e => raise e

/-! ## Meanings -/

/-- `bs_read_bit` (R120). -/
def execBsReadBit (bs : BitStream) (s : State) : Host.Outcome State Fault Refusal :=
  invoke anySession (do
    let (b, bs') := readStreamBit bs
    modify fun t => t.setStream bs'
    return .optBit b) s

/-- `decode_nibble` (R121). -/
def execDecodeNibble (bs : BitStream) (s : State) : Host.Outcome State Fault Refusal :=
  invoke anySession (do
    let (r, bs') := decodeNib s.params.z6 bs
    modify fun t => t.setStream bs'
    return .nibble r) s

/-- `check_header` (R123). -/
def execCheckHeader (file : List Byte) (s : State) : Host.Outcome State Fault Refusal :=
  invoke anySession (valueResult ((headerPayload file).map .bytes)) s

/-- `decode` (R124); its BitStream is discarded at the end (R26). -/
def execDecode (file : List Byte) (s : State) : Host.Outcome State Fault Refusal :=
  invoke anySession (do
    modify fun t => t.setStream noStream
    valueResult ((gffDecode s.params.z6 file).map .bytes)) s

/-- `compute_decoded_size` (R125). -/
def execComputeDecodedSize (file : List Byte) (s : State) : Host.Outcome State Fault Refusal :=
  invoke anySession (do
    modify fun t => t.setStream noStream
    return .nat (gffSize s.params.z6 file)) s

/-- F-GFF (R95): the header is checked and the stream opened on the payload (assumption log 4). -/
def execGffHeader (file : List Byte) (s : State) : Host.Outcome State Fault Refusal :=
  invoke anySession (do
    match headerPayload file with
    | .error e => raise e
    | .ok payload =>
      modify fun t => t.setStream (openStream payload)
      return .bytes payload) s

/-- F-NIB `1` (R97). -/
def execNib0 (s : State) : Host.Outcome State Fault Refusal := invoke anySession (recogniseNibble 0x0) s
/-- F-NIB `011` (R97). -/
def execNibF (s : State) : Host.Outcome State Fault Refusal := invoke anySession (recogniseNibble 0xF) s
/-- F-NIB `010` (R97). -/
def execNib1 (s : State) : Host.Outcome State Fault Refusal := invoke anySession (recogniseNibble 0x1) s
/-- F-NIB `0011` (R97). -/
def execNib8 (s : State) : Host.Outcome State Fault Refusal := invoke anySession (recogniseNibble 0x8) s
/-- F-NIB `0010` (R97). -/
def execNib2 (s : State) : Host.Outcome State Fault Refusal := invoke anySession (recogniseNibble 0x2) s
/-- F-NIB `00011` (R97). -/
def execNib7 (s : State) : Host.Outcome State Fault Refusal := invoke anySession (recogniseNibble 0x7) s
/-- F-NIB `00010` (R97). -/
def execNibC (s : State) : Host.Outcome State Fault Refusal := invoke anySession (recogniseNibble 0xC) s
/-- F-NIB `0000111` (R97). -/
def execNib9 (s : State) : Host.Outcome State Fault Refusal := invoke anySession (recogniseNibble 0x9) s
/-- F-NIB `0000110` (R97). -/
def execNib4 (s : State) : Host.Outcome State Fault Refusal := invoke anySession (recogniseNibble 0x4) s
/-- F-NIB `00001011` (R97). -/
def execNib5 (s : State) : Host.Outcome State Fault Refusal := invoke anySession (recogniseNibble 0x5) s
/-- F-NIB `00001010` (R97). -/
def execNibA (s : State) : Host.Outcome State Fault Refusal := invoke anySession (recogniseNibble 0xA) s
/-- F-NIB `00001001` (R97). -/
def execNibB (s : State) : Host.Outcome State Fault Refusal := invoke anySession (recogniseNibble 0xB) s
/-- F-NIB `00001000` (R97). -/
def execNib3 (s : State) : Host.Outcome State Fault Refusal := invoke anySession (recogniseNibble 0x3) s
/-- F-NIB `00000111` (R97). -/
def execNibD (s : State) : Host.Outcome State Fault Refusal := invoke anySession (recogniseNibble 0xD) s
/-- F-NIB `00000110` (R97). -/
def execNibE (s : State) : Host.Outcome State Fault Refusal := invoke anySession (recogniseNibble 0xE) s
/-- F-NIB `00000101` (R97). -/
def execNib6 (s : State) : Host.Outcome State Fault Refusal := invoke anySession (recogniseNibble 0x6) s

/-- F-NIB `00000100`, the error marker (R97). -/
def execNibError (s : State) : Host.Outcome State Fault Refusal :=
  invoke anySession (recognise (takeCode errorCode) fun _ _ => .error) s

/-- F-NIB `000000`: the end marker if GFF_Z6_END(remaining bits), else the error marker (R97). -/
def execNibZ6 (s : State) : Host.Outcome State Fault Refusal :=
  invoke anySession (recognise (takeCode z6Code) fun t bs =>
    if z6End t.params.z6 (remaining bs) then .endMarker else .error) s

/-- F-NIB: 0 to 5 zero bits and then the end of the stream, the end marker (R97). -/
def execNibEndExhausted (s : State) : Host.Outcome State Fault Refusal :=
  invoke anySession (recognise (takeLastZeros 5) fun _ _ => .endMarker) s

/-- F-PAIR (R100). -/
def execPair (n1 n2 : Nibble) (s : State) : Host.Outcome State Fault Refusal :=
  invoke anySession (return .byte (pairByte n1 n2)) s

end Sys2Proof.Machine
end

