-- ==== Sys2Proof/Machine/Dispatch.lean ====
section
/-! DEFINITION. One arm per instruction: a direct call of its meaning. -/

namespace Sys2Proof.Machine

def exec (i : Instr) (s : State) : Host.Outcome State Fault Refusal :=
  match i with
  | .bsReadBit bs => Sys2Proof.Machine.execBsReadBit bs s
  | .decodeNibble bs => Sys2Proof.Machine.execDecodeNibble bs s
  | .checkHeader file => Sys2Proof.Machine.execCheckHeader file s
  | .decode file => Sys2Proof.Machine.execDecode file s
  | .computeDecodedSize file => Sys2Proof.Machine.execComputeDecodedSize file s
  | .drive l => Sys2Proof.Machine.execDrive l s
  | .release l => Sys2Proof.Machine.execRelease l s
  | .waitScl => Sys2Proof.Machine.execWaitScl s
  | .busReset => Sys2Proof.Machine.execBusReset s
  | .pulseScl => Sys2Proof.Machine.execPulseScl s
  | .start => Sys2Proof.Machine.execStart s
  | .stop => Sys2Proof.Machine.execStop s
  | .writeBit b => Sys2Proof.Machine.execWriteBit b s
  | .readBit => Sys2Proof.Machine.execReadBit s
  | .writeByte x => Sys2Proof.Machine.execWriteByte x s
  | .readByte => Sys2Proof.Machine.execReadByte s
  | .busWrite address data => Sys2Proof.Machine.execBusWrite address data s
  | .busRead address count => Sys2Proof.Machine.execBusRead address count s
  | .tWrite a bytes => Sys2Proof.Machine.execTWrite a bytes s
  | .tRead a n => Sys2Proof.Machine.execTRead a n s
  | .init device settings => Sys2Proof.Machine.execInit device settings s
  | .deinit => Sys2Proof.Machine.execDeinit s
  | .listDevices => Sys2Proof.Machine.execListDevices s
  | .detect a => Sys2Proof.Machine.execDetect a s
  | .regWrite reg payload seq => Sys2Proof.Machine.execRegWrite reg payload seq s
  | .regRead reg n seq => Sys2Proof.Machine.execRegRead reg n seq s
  | .enterIsp => Sys2Proof.Machine.execEnterIsp s
  | .exitIsp => Sys2Proof.Machine.execExitIsp s
  | .customInstruction cmdType opcode readN writeN writeValue => Sys2Proof.Machine.execCustomInstruction cmdType opcode readN writeN writeValue s
  | .deviceCrc first last => Sys2Proof.Machine.execDeviceCrc first last s
  | .hostCrc data => Sys2Proof.Machine.execHostCrc data s
  | .poll site reg test timeout err => Sys2Proof.Machine.execPoll site reg test timeout err s
  | .erase => Sys2Proof.Machine.execErase s
  | .program img => Sys2Proof.Machine.execProgram img s
  | .flashRead n => Sys2Proof.Machine.execFlashRead n s
  | .addrW a => Sys2Proof.Machine.execAddrW a s
  | .addrR a => Sys2Proof.Machine.execAddrR a s
  | .ispAddrWrite => Sys2Proof.Machine.execIspAddrWrite s
  | .ispAddrRead => Sys2Proof.Machine.execIspAddrRead s
  | .ispAddrAiWrite => Sys2Proof.Machine.execIspAddrAiWrite s
  | .ispAddrAiRead => Sys2Proof.Machine.execIspAddrAiRead s
  | .ack => Sys2Proof.Machine.execAck s
  | .nack => Sys2Proof.Machine.execNack s
  | .ctrl cmdType writeN readN => Sys2Proof.Machine.execCtrl cmdType writeN readN s
  | .cmdEnterIsp => Sys2Proof.Machine.execCmdEnterIsp s
  | .cmdCrc => Sys2Proof.Machine.execCmdCrc s
  | .cmdPageWrite => Sys2Proof.Machine.execCmdPageWrite s
  | .statIsp => Sys2Proof.Machine.execStatIsp s
  | .statBusy => Sys2Proof.Machine.execStatBusy s
  | .statCrcReady => Sys2Proof.Machine.execStatCrcReady s
  | .ciPending => Sys2Proof.Machine.execCiPending s
  | .reboot => Sys2Proof.Machine.execReboot s
  | .a24 reg addr => Sys2Proof.Machine.execA24 reg addr s
  | .opnd form => Sys2Proof.Machine.execOpnd form s
  | .size lastIndex => Sys2Proof.Machine.execSize lastIndex s
  | .regw a reg chunk => Sys2Proof.Machine.execRegw a reg chunk s
  | .regr reg k seq => Sys2Proof.Machine.execRegr reg k seq s
  | .gffHeader file => Sys2Proof.Machine.execGffHeader file s
  | .nib0 => Sys2Proof.Machine.execNib0 s
  | .nibF => Sys2Proof.Machine.execNibF s
  | .nib1 => Sys2Proof.Machine.execNib1 s
  | .nib8 => Sys2Proof.Machine.execNib8 s
  | .nib2 => Sys2Proof.Machine.execNib2 s
  | .nib7 => Sys2Proof.Machine.execNib7 s
  | .nibC => Sys2Proof.Machine.execNibC s
  | .nib9 => Sys2Proof.Machine.execNib9 s
  | .nib4 => Sys2Proof.Machine.execNib4 s
  | .nib5 => Sys2Proof.Machine.execNib5 s
  | .nibA => Sys2Proof.Machine.execNibA s
  | .nibB => Sys2Proof.Machine.execNibB s
  | .nib3 => Sys2Proof.Machine.execNib3 s
  | .nibD => Sys2Proof.Machine.execNibD s
  | .nibE => Sys2Proof.Machine.execNibE s
  | .nib6 => Sys2Proof.Machine.execNib6 s
  | .nibError => Sys2Proof.Machine.execNibError s
  | .nibZ6 => Sys2Proof.Machine.execNibZ6 s
  | .nibEndExhausted => Sys2Proof.Machine.execNibEndExhausted s
  | .pair n1 n2 => Sys2Proof.Machine.execPair n1 n2 s

end Sys2Proof.Machine
end

