-- ==== Sys2Proof/Machine/Step.lean ====
section
/-! DEFINITION. One step of the machine: the call at the front of the caller's queue is decoded and run to its end
(00_scope R13, R14; assumption log 1, 2). -/

namespace Sys2Proof.Machine

/-- One step. With no call pending the block idles: nothing happens until the caller invokes an operation (R6). -/
def step (s : State) : Host.Outcome State Fault Refusal :=
  match s.calls with
  | [] => .next s
  | b :: bs =>
    match decode (b :: bs) with
    | .call i rest => exec i (s.setCalls rest)
    | .rejected why => .refused (.undecodable why)

/-- A bare table word as the caller's only call. -/
def State.withFetchWord (s : State) (nbits w : Nat) : State := s.setCalls (encodeTableWord nbits w)

end Sys2Proof.Machine
end

