-- ==== Sys2Proof/Safety.lean ====
section
/-! DEFINITION. The terms in which statements about the machine are made: the invariant, the frames, the session
table, the domain of every call, the bus without stretching, the reference environment and the GFF encoder of R127. -/

namespace Sys2Proof.Machine

/-! ## The invariant -/

/-- The device's memories are in canonical form and list no address outside their space (R50). -/
def Device.canonical (p : Params) (d : Device) : Bool :=
  d.regs.wf .regs && d.flash.wf .flash && d.regs.all (fun c => decide (c.1 < 256)) &&
    d.flash.all (fun c => decide (c.1 < p.chipSize))

/-- What every step keeps: canonical device memory, a BitStream as R26 says, and no limits on a software-bus transport
(R25). -/
structure State.Inv (s : State) : Prop where
  canonical : s.device.canonical s.params = true
  stream : s.stream.valid = true
  software : s.backend = .softwareBus → s.maxRead = 0 ∧ s.maxWrite = 0

/-! ## Frames -/

/-- What no operation changes: the transport constants (R25), the parameters (R8), the kind of environment and the lines
it holds low for ever, and the caller's queue; and the trace only grows (R28). -/
structure Constant (s t : State) : Prop where
  backend : t.backend = s.backend
  maxRead : t.maxRead = s.maxRead
  maxWrite : t.maxWrite = s.maxWrite
  params : t.params = s.params
  mode : t.env.mode = s.env.mode
  held : t.env.held = s.env.held
  calls : t.calls = s.calls
  trace : s.trace <+: t.trace

/-- What a bus operation leaves (R312): all but the latches, the trace and the environment's answers. -/
structure LineFrame (s t : State) : Prop extends Constant s t where
  session : t.session = s.session
  stream : t.stream = s.stream
  crc : t.crc = s.crc
  device : t.device = s.device
  result : t.result = s.result

/-- What a register access leaves: all but the latches, the trace, the environment's answers and the device. -/
structure AccessFrame (s t : State) : Prop extends Constant s t where
  session : t.session = s.session
  stream : t.stream = s.stream
  crc : t.crc = s.crc
  result : t.result = s.result
  canonical : s.device.canonical s.params = true → t.device.canonical t.params = true

/-! ## The session table (R192) -/

/-- The operations R192's table lists. -/
def inSessionTable : Instr → Bool
  | .init _ _ | .detect _ | .regWrite _ _ _ | .regRead _ _ _ | .enterIsp | .customInstruction _ _ _ _ _
  | .deviceCrc _ _ | .erase | .program _ | .flashRead _ | .exitIsp | .deinit | .decode _ | .computeDecodedSize _
  | .hostCrc _ | .drive _ | .release _ | .waitScl | .busReset | .pulseScl | .start | .stop | .writeBit _ | .readBit
  | .writeByte _ | .readByte | .busWrite _ _ | .busRead _ _ => true
  | _ => false

/-- The session states in which a call is allowed: R192's table for the operations it lists, R195 for `list_devices`;
for the others the model's choice (assumption log 14). -/
def sessionGate : Instr → Session → Bool
  | .init _ _ => closedSession
  | .enterIsp => initializedSession
  | .customInstruction _ _ _ _ _ | .deviceCrc _ _ | .erase | .program _ | .flashRead _ | .exitIsp => ispSession
  | .bsReadBit _ | .decodeNibble _ | .checkHeader _ | .decode _ | .computeDecodedSize _ | .hostCrc _ | .listDevices
  | .gffHeader _ | .nib0 | .nibF | .nib1 | .nib8 | .nib2 | .nib7 | .nibC | .nib9 | .nib4 | .nib5 | .nibA | .nibB
  | .nib3 | .nibD | .nibE | .nib6 | .nibError | .nibZ6 | .nibEndExhausted | .pair _ _ => anySession
  | _ => openSession

/-- The session state after an allowed call, by whether its result is Ok (R192). -/
def sessionAfter (i : Instr) (s : Session) (ok : Bool) : Session :=
  match i with
  | .init _ _ => if ok then .initialized else .closed
  | .enterIsp => if ok then .ispActive else .initialized
  | .exitIsp => .initialized
  | .deinit => .closed
  | _ => s

/-- The last result is Ok. -/
def State.endedOk (s : State) : Bool :=
  match s.result with
  | some (.ok _) => true
  | _ => false

/-! ## The conditions of the refusals (R293) -/

/-- The call makes a register write on every path, one that needs `max_write ≠ 1` (R191, R210). The calls that only read
registers are not among them (assumption log 28). -/
def writesRegister : Instr → Bool
  | .regWrite _ _ _ | .enterIsp | .exitIsp | .customInstruction _ _ _ _ _ | .deviceCrc _ _ | .erase | .program _
  | .flashRead _ | .ctrl _ _ _ | .cmdEnterIsp | .cmdCrc | .cmdPageWrite | .reboot | .a24 _ _ | .size _
  | .regw _ _ _ => true
  | .opnd (.write n _) => decide (n ≠ 0)
  | _ => false

/-- R293's condition for each reason. -/
def refusalCondition (r : Refusal) (i : Instr) (s : State) : Bool :=
  match r with
  | .addressRange => match i with
    | .busWrite address _ | .busRead address _ => decide (127 < address)
    | _ => false
  | .tooLong => match i with
    | .tWrite _ bytes => decide (s.maxWrite ≠ 0 ∧ s.maxWrite < bytes.length)
    | .tRead _ n | .regr _ n _ => decide (s.maxRead ≠ 0 ∧ s.maxRead < n)
    | .regw _ _ chunk => decide (s.maxWrite ≠ 0 ∧ s.maxWrite < chunk.length + 1)
    | _ => false
  | .transportTooSmall => writesRegister i && decide (s.maxWrite = 1)
  | .emptyPayload => match i with
    | .regWrite _ payload _ | .regw _ _ payload => decide (payload = [])
    | _ => false
  | .emptyRead => match i with
    | .regRead _ n _ | .regr _ n _ => decide (n = 0)
    | _ => false
  | .fieldRange => match i with
    | .customInstruction cmdType _ readN writeN _ => decide (7 < cmdType ∨ 3 < readN ∨ 3 < writeN)
    | _ => false
  | .operandRange => match i with
    | .customInstruction _ _ _ writeN value => decide (0 < writeN ∧ 2 ^ (8 * writeN) ≤ value)
    | .opnd (.write n value) => decide (n ≠ 0 ∧ 2 ^ (8 * n.toNat) ≤ value)
    | _ => false
  | .crcRange => match i with
    | .deviceCrc first last => decide (last < first ∨ 2 ^ 24 ≤ last)
    | _ => false
  | .imageSize => match i with
    | .program img => decide (img.length = 0 ∨ s.params.chipSize < img.length)
    | _ => false
  | .readSize => match i with
    | .flashRead n => decide (n = 0 ∨ s.params.chipSize < n)
    | _ => false
  | .sessionState => !sessionGate i s.session
  | _ => false

/-! ## A bus without stretching (R163)

The environment's line answers for an operation, and the events it then emits. Every wait finds SCL high at its first
poll. The level of a released SDA that the host ignores is `echo i` for the i-th bit of the operation. -/

/-- SCL is released and found high. -/
def sclHigh : Event := .release .scl true

/-- The end of every bit: SCL low, then SDA low. -/
def bitEnd : List Event := [.drive .scl, .drive .sda]

/-- The end of START: SDA low, then SCL low. -/
def startEnd : List Event := [.drive .sda, .drive .scl]

/-- The line answers of sent bits, from bit number i on. -/
def sentSenses (echo : Nat → Bit) : Nat → List Bit → List Bit
  | _, [] => []
  | i, true :: bs => echo i :: true :: sentSenses echo (i + 1) bs
  | i, false :: bs => true :: sentSenses echo (i + 1) bs

/-- The events of sent bits. -/
def sentEvents (echo : Nat → Bit) : Nat → List Bit → List Event
  | _, [] => []
  | i, true :: bs => .release .sda (echo i) :: sclHigh :: bitEnd ++ sentEvents echo (i + 1) bs
  | i, false :: bs => .drive .sda :: sclHigh :: bitEnd ++ sentEvents echo (i + 1) bs

/-- The line answers of received bits. -/
def recvSenses (echo : Nat → Bit) : Nat → List Bit → List Bit
  | _, [] => []
  | i, b :: bs => echo i :: true :: b :: recvSenses echo (i + 1) bs

/-- The events of received bits. -/
def recvEvents (echo : Nat → Bit) : Nat → List Bit → List Event
  | _, [] => []
  | i, b :: bs => .release .sda (echo i) :: sclHigh :: .release .sda b :: bitEnd ++ recvEvents echo (i + 1) bs

/-- The line answers of a byte sent and its ACK slot. -/
def byteSenses (echo : Nat → Bit) (i : Nat) (x : Byte) (ack : Bit) : List Bit :=
  sentSenses echo i (msbFirst x) ++ recvSenses echo (i + 8) [ack]

/-- The events of a byte sent and its ACK slot. -/
def byteEvents (echo : Nat → Bit) (i : Nat) (x : Byte) (ack : Bit) : List Event :=
  sentEvents echo i (msbFirst x) ++ recvEvents echo (i + 8) [ack]

/-- The line answers of acknowledged bytes. -/
def bytesSenses (echo : Nat → Bit) : Nat → List Byte → List Bit
  | _, [] => []
  | i, x :: xs => byteSenses echo i x false ++ bytesSenses echo (i + 9) xs

/-- The events of acknowledged bytes. -/
def bytesEvents (echo : Nat → Bit) : Nat → List Byte → List Event
  | _, [] => []
  | i, x :: xs => byteEvents echo i x false ++ bytesEvents echo (i + 9) xs

/-- The master's ninth bits, none without MASTER_RX_ACK. -/
def masterBits (rxAck : Bool) (left : Nat) : List Bit := if rxAck then [masterAckBit left] else []

/-- The line answers of bytes read, the last of them followed by the master's NACK. -/
def dataSenses (rxAck : Bool) (echo : Nat → Bit) : Nat → List Byte → List Bit
  | _, [] => []
  | i, x :: xs =>
    recvSenses echo i (msbFirst x) ++ sentSenses echo (i + 8) (masterBits rxAck xs.length) ++
      dataSenses rxAck echo (i + 9) xs

/-- The events of bytes read. -/
def dataEvents (rxAck : Bool) (echo : Nat → Bit) : Nat → List Byte → List Event
  | _, [] => []
  | i, x :: xs =>
    recvEvents echo i (msbFirst x) ++ sentEvents echo (i + 8) (masterBits rxAck xs.length) ++
      dataEvents rxAck echo (i + 9) xs

/-- The line answers of START and STOP: both lines high. -/
def bothHigh : List Bit := [true, true]

/-- The events of START on an idle bus (R154). -/
def startEvents : List Event := [.release .sda true, sclHigh, .drive .sda, .drive .scl]

/-- The events of STOP (R155). -/
def stopEvents : List Event := [sclHigh, .release .sda true]

/-- The state after an operation that used up line answers and emitted events. -/
def State.afterLine (s : State) (sda scl : Latch) (rest : List Bit) (events : List Event) : State :=
  { s with sda := sda, scl := scl, env := { s.env with senses := rest }, trace := s.trace ++ events }

/-- The operation completes and emits n events. -/
def State.emits (s : State) (i : Instr) (n : Nat) : Prop :=
  ∃ t, exec i s = .next t ∧ t.trace.length = s.trace.length + n

/-! ## The clock-stretch wait (R151) -/

/-- The line answers of a wait that finds SCL low k times, then high. -/
def stretchSenses (k : Nat) : List Bit := List.replicate k false ++ [true]

/-- The events of that wait. -/
def stretchEvents (k : Nat) : List Event := List.replicate k (.release .scl false) ++ [sclHigh]

/-- The line answers of a wait that expires at its k-th poll after the first. -/
def stuckSenses (k : Nat) : List Bit := List.replicate (k + 1) false

/-- The events of that wait. -/
def stuckEvents (k : Nat) : List Event := List.replicate (k + 1) (.release .scl false) ++ [.expired .stretch]

/-- The state after a bus operation that used up line answers and expiry answers and emitted events. -/
def State.afterWait (s : State) (sda scl : Latch) (rest : List Bit) (expiries : List Bool) (events : List Event) : State :=
  { s with sda := sda, scl := scl, env := { s.env with senses := rest, expiries := expiries }, trace := s.trace ++ events }

/-! ## Bus recovery (R152, R153, R155, R289) -/

/-- The line answers of one recovery round: what its pulses sense, which the host ignores (R153), and the level of SDA
after them. -/
def roundSenses (pulses : List Bit) (v : Bit) : List Bit := pulses ++ [v]

/-- The events of one recovery round. -/
def roundEvents (pulses : List Bit) (v : Bit) : List Event :=
  (pulses.flatMap fun p => [.drive .scl, .release .scl p]) ++ [.release .sda v]

/-- The line answers of recovery rounds that find SDA low, by what their pulses sense. -/
def lowSenses (low : List (List Bit)) : List Bit := low.flatMap fun pulses => roundSenses pulses false

/-- The events of recovery rounds that find SDA low. -/
def lowEvents (low : List (List Bit)) : List Event := low.flatMap fun pulses => roundEvents pulses false

/-- Every round has nine pulses (R152). -/
def roundsOfNine (low : List (List Bit)) : Prop := ∀ pulses ∈ low, pulses.length = 9

/-- One recovery that gets SDA high: the level of its first release of SDA, what the pulses sense in its rounds that find
SDA low and in its last one, and the number of polls that find SCL low in the wait of its STOP. -/
structure Recovery where
  first : Bit
  low : List (List Bit)
  high : List Bit
  stretch : Nat
  deriving DecidableEq, Repr

/-- Nine pulses a round, and no more rounds that find SDA low than RESET_ROUND_LIMIT lets pass (R152: a limit m raises
after a round that is the m-th or later). -/
structure Recovery.Fits (p : Params) (r : Recovery) : Prop where
  low : roundsOfNine r.low
  high : r.high.length = 9
  limit : ∀ m, p.resetRoundLimit = some m → r.low.length < max m 1

/-- The line answers of a recovery up to its STOP. -/
def Recovery.senses (r : Recovery) : List Bit := r.first :: lowSenses r.low ++ roundSenses r.high true

/-- The events of a recovery up to its STOP. -/
def Recovery.events (r : Recovery) : List Event :=
  .release .sda r.first :: lowEvents r.low ++ roundEvents r.high true ++ [.drive .scl, .drive .sda]

/-- The line answers of a recovery and of its STOP, where SDA reads v. -/
def Recovery.stopSenses (r : Recovery) (v : Bit) : List Bit := r.senses ++ stretchSenses r.stretch ++ [v]

/-- The events of a recovery and of its STOP. -/
def Recovery.stopEvents (r : Recovery) (v : Bit) : List Event :=
  r.events ++ stretchEvents r.stretch ++ [.release .sda v]

/-- The expiry answers of the wait of its STOP. -/
def Recovery.stopExpiries (r : Recovery) : List Bool := List.replicate r.stretch false

/-- The runs of `reset()`: the line answers and the expiry answers they use up, their events, and the line they get stuck
on, if any. -/
inductive RecoveryRun (p : Params) : List Bit → List Bool → List Event → Option Line → Prop where
  /-- SDA reads high at the STOP -/
  | ends (r : Recovery) (h : r.Fits p) : RecoveryRun p (r.stopSenses true) r.stopExpiries (r.stopEvents true) none
  /-- SDA reads low at the STOP, which recovers again -/
  | again {senses expiries events stuck} (r : Recovery) (h : r.Fits p)
      (next : RecoveryRun p senses expiries events stuck) :
      RecoveryRun p (r.stopSenses false ++ senses) (r.stopExpiries ++ expiries) (r.stopEvents false ++ events) stuck
  /-- the wait of the STOP expires at its j-th poll after the first -/
  | expires (r : Recovery) (h : r.Fits p) (j : Nat) :
      RecoveryRun p (r.senses ++ stuckSenses j) (List.replicate j false ++ [true]) (r.events ++ stuckEvents j)
        (some .scl)
  /-- RESET_ROUND_LIMIT = m ends the rounds -/
  | limit (m : Nat) (hm : p.resetRoundLimit = some m) (first : Bit) (low : List (List Bit)) (h : roundsOfNine low)
      (hl : low.length = max m 1) :
      RecoveryRun p (first :: lowSenses low) [] (.release .sda first :: lowEvents low) (some .sda)

/-- The answers that a recovery uses up before another agent holds SDA low for ever: none, or some rounds that find SDA
low, after any number of whole recoveries. -/
inductive StartOfEndless (p : Params) : List Bit → List Bool → Prop where
  | now : StartOfEndless p [] []
  | rounds (first : Bit) (low : List (List Bit)) (h : roundsOfNine low) :
      StartOfEndless p (first :: lowSenses low) []
  | again {senses expiries} (r : Recovery) (h : r.Fits p) (next : StartOfEndless p senses expiries) :
      StartOfEndless p (r.stopSenses false ++ senses) (r.stopExpiries ++ expiries)

/-- The state after a run of `reset()`. A wait that expires leaves SDA driven. -/
def State.afterRecovery (s : State) (rest : List Bit) (expiries : List Bool) (events : List Event)
    (stuck : Option Line) : State :=
  s.afterWait (if stuck = some .scl then .driven else .released) .released rest expiries events

/-- A call ends Ok, or with BusStuck on a line. -/
def State.endOn (s : State) : Option Line → State
  | none => s.complete .unit
  | some l => s.takeError (.busStuck (.line l))

/-- How `reset`, `start` and `stop` end in every environment, with these latches where they end Ok (R151, R152, R289,
R294). -/
def EndsOrHangs (i : Instr) (s : State) (sda scl : Latch) : Prop :=
  (exec i s = .fault .recoveryNeverEnds ∧ s.params.resetRoundLimit = none) ∨
  ∃ t : State, LineFrame s t ∧
    ((exec i s = .next (t.complete .unit) ∧ t.sda = sda ∧ t.scl = scl) ∨
     (exec i s = .next (t.takeError (.busStuck (.line .scl))) ∧ t.scl = .released) ∨
     (exec i s = .next (t.takeError (.busStuck (.line .sda))) ∧ s.params.resetRoundLimit ≠ none))

/-! ## SDA while SCL is released (R158) -/

/-- The events that change the SDA latch while the SCL latch is released, in the events from given latches on. -/
def sdaChanges : (sda scl : Latch) → List Event → List Event
  | _, _, [] => []
  | sda, scl, .drive .sda :: es =>
    (if scl = .released ∧ sda = .released then [.drive .sda] else []) ++ sdaChanges .driven scl es
  | sda, scl, .release .sda v :: es =>
    (if scl = .released ∧ sda = .driven then [.release .sda v] else []) ++ sdaChanges .released scl es
  | sda, _, .drive .scl :: es => sdaChanges sda .driven es
  | sda, _, .release .scl _ :: es => sdaChanges sda .released es
  | sda, scl, _ :: es => sdaChanges sda scl es

/-! ## Scripts of a native transport (R190, R223)

What an operation does on a native transport whose answers are fixed: its events, and the expiry answers its polls use
up, in order. -/

/-- One thing an operation does. -/
inductive Act where
  /-- an event -/
  | saw (e : Event)
  /-- the expiry answer of a poll site, after a read its test rejects -/
  | waited (site : PollSite) (expired : Bool)
  deriving DecidableEq, Repr

/-- The events of a script. -/
def eventsOf (script : List Act) : List Event :=
  script.filterMap fun
    | .saw e => some e
    | .waited _ _ => none

/-- The write answers of a script. -/
def writesOf (script : List Act) : List WriteAnswer :=
  script.filterMap fun
    | .saw (.tWrite _ _ r) => some r
    | _ => none

/-- The read answers of a script. -/
def readsOf (script : List Act) : List ReadAnswer :=
  script.filterMap fun
    | .saw (.tRead _ _ r) => some r
    | _ => none

/-- The expiry answers of a script. -/
def expiriesOf (script : List Act) : List Bool :=
  script.filterMap fun
    | .waited _ x => some x
    | .saw _ => none

/-- A native transport answered by an oracle (R20, R190), able to carry register writes (R191). -/
structure State.OnOracle (s : State) : Prop where
  native : s.backend = .native
  oracle : s.env.mode = .oracle
  wide : s.maxWrite ≠ 1

/-- The environment's next answers are the script's; behind them stand those given. -/
structure State.Answers (s : State) (script : List Act) (writes : List WriteAnswer) (reads : List ReadAnswer)
    (expiries : List Bool) : Prop where
  writes : s.env.writes = writesOf script ++ writes
  reads : s.env.reads = readsOf script ++ reads
  expiries : s.env.expiries = expiriesOf script ++ expiries

/-- The state after an operation on a native transport: the answers left, and the trace with the operation's events. -/
def State.afterAnswers (s : State) (writes : List WriteAnswer) (reads : List ReadAnswer) (expiries : List Bool)
    (events : List Event) : State :=
  { s with env := { s.env with writes := writes, reads := reads, expiries := expiries }, trace := s.trace ++ events }

/-- How many pieces of at most c bytes n bytes make: ⌈n / c⌉ (R212). -/
def pieceCount (c n : Nat) : Nat := (n + c - 1) / c

/-- The byte lists of the write transactions of a register write, the k-th from offset c·k on (R210). -/
def writeTransactions (maxWrite : Nat) (reg : Byte) (payload : List Byte) : List (List Byte) :=
  let c := if maxWrite = 0 then payload.length else maxWrite - 1
  (List.range (pieceCount c payload.length)).map fun k => chunkReg reg (c * k) :: (payload.drop (c * k)).take c

/-- The script of a register write (R210). -/
def writeScript (maxWrite : Nat) (reg : Byte) (payload : List Byte) (seq : Bool) : List Act :=
  (writeTransactions maxWrite reg payload).map fun bytes => .saw (.tWrite (accessAddr seq payload.length) bytes .ok)

/-- The script of a register read that answers `out`, the k-th transaction pair from offset c·k on (R211). -/
def readScript (maxRead : Nat) (reg : Byte) (out : List Byte) (seq : Bool) : List Act :=
  let c := if maxRead = 0 then out.length else maxRead
  (List.range (pieceCount c out.length)).flatMap fun k =>
    let piece := (out.drop (c * k)).take c
    [.saw (.tWrite ispAddr [chunkReg reg (c * k)] .ok),
      .saw (.tRead (accessAddr seq out.length) piece.length (.ok piece))]

/-- The script of a read of one byte. -/
def byteScript (reg v : Byte) : List Act := [.saw (.tWrite ispAddr [reg] .ok), .saw (.tRead ispAddr 1 (.ok [v]))]

/-- What a poll reads: bytes, and then a last one. -/
structure PollReads where
  failing : List Byte
  last : Byte
  deriving DecidableEq, Repr

/-- The poll's test rejects all bytes but the last, which it accepts (R223). -/
structure PollReads.Passes (test : Byte → Bool) (p : PollReads) : Prop where
  failing : ∀ u ∈ p.failing, test u = false
  accepted : test p.last = true

/-- The poll's test rejects every byte. -/
structure PollReads.FailsAll (test : Byte → Bool) (p : PollReads) : Prop where
  failing : ∀ u ∈ p.failing, test u = false
  rejected : test p.last = false

/-- The script of a poll whose wait does not expire (R223). -/
def pollScript (site : PollSite) (reg : Byte) (p : PollReads) : List Act :=
  (p.failing.flatMap fun u => byteScript reg u ++ [.waited site false]) ++ byteScript reg p.last

/-- The script of a poll that expires after its last byte (R223). -/
def expiryScript (site : PollSite) (reg : Byte) (p : PollReads) : List Act :=
  pollScript site reg p ++ [.waited site true, .saw (.expired (.poll site))]

/-- The register writes of a custom instruction (R215). -/
def commandScript (maxWrite cmdType : Nat) (opcode : Byte) (readN writeN value : Nat) : List Act :=
  (if writeN = 0 then [] else writeScript maxWrite 0x64 (beBytes value writeN) true) ++
    writeScript maxWrite 0x61 [opcode] false ++
    writeScript maxWrite 0x60 [BitVec.ofNat 8 (32 * cmdType + 8 * writeN + 2 * readN + 1)] false

/-- The script of a custom instruction without a result (R215). -/
def instructionScript (maxWrite cmdType : Nat) (opcode : Byte) (readN writeN value : Nat) (ci : PollReads) : List Act :=
  commandScript maxWrite cmdType opcode readN writeN value ++ pollScript .ci 0x60 ci

/-- The register writes of the device CRC (R218). -/
def crcCommandScript (maxWrite first last : Nat) : List Act :=
  writeScript maxWrite 0x64 (beBytes first 3) true ++ writeScript maxWrite 0x72 (beBytes last 3) true ++
    writeScript maxWrite 0x6F [0x84] false

/-- The script of a device CRC that answers d (R218). -/
def crcScript (maxWrite first last : Nat) (crc : PollReads) (d : Byte) : List Act :=
  crcCommandScript maxWrite first last ++ pollScript .crc 0x6F crc ++ byteScript 0x75 d

/-- The script of `unprotect` and `protect`: write-status-register with a value (R104). -/
def statusScript (p : Params) (maxWrite value : Nat) (ci : PollReads) : List Act :=
  instructionScript maxWrite p.ctWrenWrsr.toNat p.opWrsr 0 1 value ci

/-- The script of `erase` (R250). -/
def eraseScript (p : Params) (maxWrite : Nat) (ci1 ci2 ci3 : PollReads) : List Act :=
  statusScript p maxWrite 0x00 ci1 ++ instructionScript maxWrite p.ctErase.toNat p.opErase 0 0 0 ci2 ++
    statusScript p maxWrite 0x1C ci3

/-- Page k of an image (R252). -/
def imagePage (img : List Byte) (k : Nat) : List Byte := (img.drop (128 * k)).take 128

/-- The script of page k of an image: its progress call and, unless every byte is 0xFF, its write sequence (R251, R254,
R258). -/
def pageScript (p : Params) (maxWrite : Nat) (img : List Byte) (busy : Nat → PollReads) (k : Nat) : List Act :=
  .saw (.progress 0 img.length (128 * k)) ::
    if (imagePage img k).all (fun b => decide (b = 0xFF)) then []
    else pollScript .busy 0x6F (busy k) ++
      writeScript maxWrite 0x71 [sizeEncoding p (imagePage img k).length] false ++
      writeScript maxWrite 0x64 (beBytes (128 * k) 3) true ++ writeScript maxWrite 0x70 (imagePage img k) true ++
      writeScript maxWrite 0x6F [0xA0] false

/-- The script of the verification of n bytes (R257). -/
def verifyScript (maxWrite n : Nat) (crc : PollReads) (d : Byte) : List Act :=
  crcScript maxWrite 0 (n - 1) crc d ++ [.saw (.progress 0 n n)]

/-- The script of `program` up to its verification (R251, R253). -/
def programScript (p : Params) (maxWrite : Nat) (img : List Byte) (ci1 ci2 : PollReads) (busy : Nat → PollReads) :
    List Act :=
  statusScript p maxWrite 0x00 ci1 ++
    (List.range (pieceCount 128 img.length)).flatMap (pageScript p maxWrite img busy) ++
    pollScript .busy 0x6F (busy (pieceCount 128 img.length)) ++
    statusScript p maxWrite 0x1C ci2

/-- The script of `read` up to its verification: the priming instruction and its three result bytes, the busy poll, and
the chunks (R255, R256). -/
def flashReadScript (p : Params) (maxWrite maxRead : Nat) (out primed : List Byte) (ci busy : PollReads) : List Act :=
  instructionScript maxWrite p.ctRead.toNat p.opRead 3 3 0 ci ++ readScript maxRead 0x67 primed true ++
    pollScript .busy 0x6F busy ++
    (List.range (pieceCount 128 out.length)).flatMap fun k =>
      .saw (.progress 0 out.length (128 * k)) :: readScript maxRead 0x70 (imagePage out k) true

/-- The error of each register poll site (R224). -/
def pollError : PollSite → Err
  | .ci => .customInstructionTimeout
  | .busy => .busStuck (.site .busy)
  | .crc => .busStuck (.site .crc)

/-- A script cut short by an error: a transaction that fails, or a poll that expires, whose error the site gives; with the
error (R260, R284). -/
inductive CutShort (errors : PollSite → Err) (script : List Act) : List Act → Err → Prop where
  | write (done later : List Act) (a : Addr7) (bytes : List Byte) (why : XferErr)
      (h : script = done ++ .saw (.tWrite a bytes .ok) :: later) :
      CutShort errors script (done ++ [.saw (.tWrite a bytes (.failed why))]) (xferError why)
  | read (done later : List Act) (a : Addr7) (bytes : List Byte) (why : XferErr)
      (h : script = done ++ .saw (.tRead a bytes.length (.ok bytes)) :: later) :
      CutShort errors script (done ++ [.saw (.tRead a bytes.length (.failed why))]) (xferError why)
  | expiry (done later : List Act) (site : PollSite) (h : script = done ++ .waited site false :: later) :
      CutShort errors script (done ++ [.waited site true, .saw (.expired (.poll site))]) (errors site)

/-- Every byte of a payload is stored in the register it is written to, or goes to the port 0x70: no byte reaches a
register that takes commands, and none reaches 0x70 from a register below it (assumption log 27). -/
def storesPlainly (reg : Byte) (n : Nat) : Bool :=
  decide (reg = 0x70) || (List.range n).all fun k =>
    !([0x60, 0x6F, 0x70, 0xEE].contains (reg + BitVec.ofNat 8 k))

/-- The register write that a row of the opcode table stands for: its register and its bytes (R86, R88, R89, R91-R93). -/
def registerWriteOf (p : Params) : Instr → Option (Byte × List Byte)
  | .ctrl c w r => some (0x60, [BitVec.ofNat 8 (32 * c.toNat + 8 * w.toNat + 2 * r.toNat + 1)])
  | .cmdEnterIsp => some (0x6F, [0x80])
  | .cmdCrc => some (0x6F, [0x84])
  | .cmdPageWrite => some (0x6F, [0xA0])
  | .reboot => some (0xEE, [0x02])
  | .size lastIndex => some (0x71, [sizeEncoding p (lastIndex.val + 1)])
  | .a24 .target addr => some (0x64, beBytes addr.toNat 3)
  | .a24 .crcEnd addr => some (0x72, beBytes addr.toNat 3)
  | .opnd (.write n value) =>
    if n ≠ 0 ∧ value < 2 ^ (8 * n.toNat) then some (0x64, beBytes value n.toNat) else none
  | _ => none

/-- The 0x60 test of a custom instruction's poll: bit 0 clear (R224). -/
def ciDone (v : Byte) : Bool := !v.getLsbD 0

/-- The 0x6F test of the busy poll: bit 6 clear (R224). -/
def notBusy (v : Byte) : Bool := !v.getLsbD 6

/-- The 0x6F test of the CRC poll: bit 1 set (R224). -/
def crcDone (v : Byte) : Bool := v.getLsbD 1

/-- A script of a flash or engine operation that meets no error (R215, R218, R250, R251, R255). -/
def runsAs (s : State) : Instr → List Act → Prop
  | .customInstruction cmdType opcode readN writeN value, script =>
    cmdType ≤ 7 ∧ readN ≤ 3 ∧ writeN ≤ 3 ∧ (0 < writeN → value < 2 ^ (8 * writeN)) ∧
      ∃ ci : PollReads, ∃ out : List Byte, ci.Passes ciDone ∧ out.length = readN ∧
        script = instructionScript s.maxWrite cmdType opcode readN writeN value ci ++ readScript s.maxRead 0x67 out true
  | .deviceCrc first last, script =>
    first ≤ last ∧ last < 2 ^ 24 ∧
      ∃ crc : PollReads, ∃ d, crc.Passes crcDone ∧ script = crcScript s.maxWrite first last crc d
  | .erase, script =>
    ∃ ci1 ci2 ci3 : PollReads, ci1.Passes ciDone ∧ ci2.Passes ciDone ∧ ci3.Passes ciDone ∧
      script = eraseScript s.params s.maxWrite ci1 ci2 ci3
  | .program img, script =>
    1 ≤ img.length ∧ img.length ≤ s.params.chipSize ∧
      ∃ ci1 ci2 crc : PollReads, ∃ busy : Nat → PollReads, ∃ d, ci1.Passes ciDone ∧ ci2.Passes ciDone ∧
        crc.Passes crcDone ∧ (∀ k, (busy k).Passes notBusy) ∧
        script = programScript s.params s.maxWrite img ci1 ci2 busy ++ verifyScript s.maxWrite img.length crc d
  | .flashRead n, script =>
    1 ≤ n ∧ n ≤ s.params.chipSize ∧
      ∃ out primed : List Byte, ∃ ci busy crc : PollReads, ∃ d, out.length = n ∧ primed.length = 3 ∧
        ci.Passes ciDone ∧ busy.Passes notBusy ∧ crc.Passes crcDone ∧
        script = flashReadScript s.params s.maxWrite s.maxRead out primed ci busy ++ verifyScript s.maxWrite n crc d
  | _, _ => False

/-! ## The reference environment (D34) -/

/-- A native transport answered by the reference device, able to carry register writes (R191). -/
structure State.OnReference (s : State) : Prop where
  native : s.backend = .native
  reference : s.env.mode = .reference
  wide : s.maxWrite ≠ 1

/-- No two of the three flash instructions share type and opcode, so that the device tells them apart. -/
structure State.DistinctInstructions (s : State) : Prop where
  eraseWrsr : ¬(s.params.ctErase = s.params.ctWrenWrsr ∧ s.params.opErase = s.params.opWrsr)
  eraseRead : ¬(s.params.ctErase = s.params.ctRead ∧ s.params.opErase = s.params.opRead)
  wrsrRead : ¬(s.params.ctWrenWrsr = s.params.ctRead ∧ s.params.opWrsr = s.params.opRead)

/-- The state after an operation on the reference device: only the trace and the device differ. -/
def State.afterAccess (s : State) (events : List Event) (d : Device) : State :=
  { s with trace := s.trace ++ events, device := d }

/-- Where the register pointer stands after a transaction of n data bytes at address a that began at register r: past
them at 0x4B, but not past the port 0x70 (R43, 90_conflicts C5); at r at 0x4A (assumption log 10). -/
structure PointerMoves (a : Addr7) (r : Byte) (n : Nat) (after : Byte) : Prop where
  plain : a = 0x4A → after = r
  past : a = 0x4B → (∀ k, k < n → r + BitVec.ofNat 8 k ≠ 0x70) → after = r + BitVec.ofNat 8 n
  port : a = 0x4B → ∀ k, k < n → r + BitVec.ofNat 8 k = 0x70 → after = 0x70

/-! ## The progress calls (R259) -/

/-- The event is a progress call. -/
def isProgress : Event → Bool
  | .progress _ _ _ => true
  | _ => false

/-- The progress calls of a program or read of n bytes: before each page or chunk, then the final one. -/
def progressCalls (n : Nat) : List Event :=
  ((List.range ((n + 127) / 128)).map fun p => Event.progress 0 n (128 * p)) ++ [.progress 0 n n]

/-! ## Bit strings (R96) -/

/-- The bits of bytes, first byte first, bit 7 of each byte first (R96). -/
def byteBits (bytes : List Byte) : List Bit := bytes.flatMap msbFirst

/-- The bits of a stream that are still to be read. -/
def unread (bs : BitStream) : List Bit := (byteBits (bs.buf.drop bs.idx)).drop (7 - Nat.log2 bs.mask.toNat)

/-- The bits at which a decoder finds the end marker: at most five zeros and nothing else, or six zeros followed by a
number of bits that GFF_Z6_END accepts (R97). -/
def endsStream (rule : Z6Rule) (tail : List Bit) : Prop :=
  (∃ k, k ≤ 5 ∧ tail = List.replicate k false) ∨
    ∃ left, tail = List.replicate 6 false ++ left ∧ z6End rule left.length = true

/-- The row of each nibble's codeword (R97). -/
def nibRow (v : Nibble) : Instr :=
  match v.toNat with
  | 0x0 => .nib0
  | 0xF => .nibF
  | 0x1 => .nib1
  | 0x8 => .nib8
  | 0x2 => .nib2
  | 0x7 => .nib7
  | 0xC => .nibC
  | 0x9 => .nib9
  | 0x4 => .nib4
  | 0x5 => .nib5
  | 0xA => .nibA
  | 0xB => .nibB
  | 0x3 => .nib3
  | 0xD => .nibD
  | 0xE => .nibE
  | _ => .nib6

/-! ## CRC-8 bit by bit (R222) -/

/-- One message bit into the CRC register: the register moves left, and the polynomial 0x07 is added where the bit that
leaves differs from the message bit. -/
def crcMessageBit (crc : Byte) (b : Bit) : Byte :=
  if crc.getLsbD 7 = b then crc <<< 1 else (crc <<< 1) ^^^ 0x07

/-! ## The GFF encoder of R127 -/

/-- `codes(b)`: the codewords of the nibbles of each byte, high nibble first. -/
def gffCodes (bytes : List Byte) : List Bit :=
  bytes.flatMap fun b => nibbleCode (b.extractLsb' 4 4) ++ nibbleCode (b.extractLsb' 0 4)

/-- Bits as bytes, the first bit of each byte as its bit 7, the last byte filled with zeros; the fuel bounds the number
of bytes. -/
def packBits : Nat → List Bit → List Byte
  | 0, _ => []
  | _ + 1, [] => []
  | f + 1, b :: bs =>
    let first := (b :: bs).take 8
    BitVec.ofNat 8 (bitsValue (first ++ List.replicate (8 - first.length) false)) :: packBits f ((b :: bs).drop 8)

/-- `enc(b)`. -/
def gffEncode (bytes : List Byte) : List Byte := packBits (gffCodes bytes).length (gffCodes bytes)

/-- A GFF file: the signature, the 244 reserved bytes, the payload (R95). -/
def gffFile (reserved payload : List Byte) : List Byte := gffSignature ++ reserved ++ payload

end Sys2Proof.Machine
end

