-- ==== Sys2Proof/Certificates/Slice0/Obligations.lean ====
section
/-! DEFINITION. The statements for the provers. Each names the rules of spec/ it rests on; where a clause is the model's
own choice, its docstring names the assumption log. -/

open Sys2Proof Sys2Proof.Machine

/-! ## Encodings -/

/-- Every well-formed call decodes from its own bytes, whatever bytes follow: no operand bit is dropped (the call bytes
are the model's own, assumption log 2). -/
def Obligations.DecodeEncode : Prop :=
  ∀ (i : Instr) (rest : List Byte), i.representable = true → decode (encode i ++ rest) = .call i rest

/-- A step runs the call decoded from the front of the queue, on the state without it; it idles on an empty queue and
refuses bytes that are no call (assumption log 2). -/
def Obligations.StepRunsDecodedCall : Prop :=
  ∀ s : State,
    (∀ i rest, decode s.calls = .call i rest → step s = exec i (s.setCalls rest)) ∧
    (s.calls = [] → step s = .next s) ∧
    (∀ why, s.calls ≠ [] → decode s.calls = .rejected why → step s = .refused (.undecodable why))

/-- Words written out from the spec's encodings decode to the instructions they stand for. -/
def Obligations.SpecWordsDecode : Prop :=
  decodeTableWord 8 0x90 = some (.addrW 0x48) ∧ decodeTableWord 8 0x91 = some (.addrR 0x48) ∧
  decodeTableWord 8 0x94 = some .ispAddrWrite ∧ decodeTableWord 8 0x97 = some .ispAddrAiRead ∧
  decodeTableWord 8 0xA0 = some .cmdPageWrite ∧ decodeTableWord 8 0x84 = some .cmdCrc ∧
  decodeTableWord 16 0x0B = some .nib5 ∧
  decode [35, 0x94] = .call (.addrW 0x4A) [] ∧
  decode [43, 0x27] = .call (.ctrl 1 0 3) [] ∧
  decode [43, 0x49] = .call (.ctrl 2 1 0) [] ∧
  decode [51, 0x02] = .call .reboot [] ∧
  decode [52, 0x64, 0x00, 0x01, 0x80] = .call (.a24 .target 0x000180) [] ∧
  decode [67, 0x0B] = .call .nib5 [] ∧
  decode [77, 0xAB] = .call (.pair 0xA 0xB) []

/-- The address byte is the 7-bit address followed by the direction bit; the control byte holds its three fields and the
go bit, and each field is read back from it. -/
def Obligations.WireBytes : Prop :=
  (∀ (a : Addr7) (rw : Bit),
    (addressByte a rw).toNat = 2 * a.toNat + rw.toNat ∧ addressField (addressByte a rw) = a ∧
      (addressByte a rw).getLsbD 0 = rw) ∧
  ∀ (cmdType : BitVec 3) (writeN readN : BitVec 2),
    (controlByte cmdType writeN readN).toNat = 32 * cmdType.toNat + 8 * writeN.toNat + 2 * readN.toNat + 1 ∧
      ctrlCmdType (controlByte cmdType writeN readN) = cmdType ∧ ctrlWriteN (controlByte cmdType writeN readN) = writeN ∧
      ctrlReadN (controlByte cmdType writeN readN) = readN ∧ ctrlGo (controlByte cmdType writeN readN) = true

/-- Big-endian bytes: byte i of the n-byte list of v is `(v >> 8(n-1-i)) & 0xFF`, and list and value are inverse. -/
def Obligations.BigEndianBytes : Prop :=
  (∀ n v : Nat, v < 2 ^ (8 * n) →
    (beBytes v n).length = n ∧
      (∀ i, i < n → (beBytes v n)[i]? = some (BitVec.ofNat 8 (v / 2 ^ (8 * (n - 1 - i)) % 256))) ∧
      beValue (beBytes v n) = v) ∧
  ∀ bytes : List Byte, beBytes (beValue bytes) bytes.length = bytes ∧ beValue bytes < 2 ^ (8 * bytes.length)

/-! ## Reset and invariants -/

/-- After reset: both latches released, the session closed, the BitStream at bit 7 of byte 0, the CRC register 0, the
trace empty, the software bus without limits, and the default parameters. The empty payload, the transport, the CRC value
outside a computation and the stated defaults are the model's (assumption log 4, 7, 19, 25). -/
def Obligations.ResetState : Prop :=
  State.reset.sda = .released ∧ State.reset.scl = .released ∧ State.reset.session = .closed ∧
  State.reset.stream = { buf := [], idx := 0, mask := 0x80 } ∧ State.reset.crc = 0 ∧ State.reset.trace = [] ∧
  State.reset.backend = .softwareBus ∧ State.reset.maxRead = 0 ∧ State.reset.maxWrite = 0 ∧
  State.reset.params.masterRxAck = true ∧ State.reset.params.resetRoundLimit = none ∧
  State.reset.params.z6 = .exactlyOne

/-- The invariant holds after reset. -/
def Obligations.ResetInv : Prop := State.reset.Inv

/-- Every step keeps the invariant: canonical device memory, a BitStream of R26's form, and no limits on a software-bus
transport (R25). -/
def Obligations.StepKeepsInv : Prop := ∀ s t : State, s.Inv → step s = .next t → t.Inv

/-- No operation writes the transport constants, the parameters or the caller's remaining calls, and the trace only
grows. -/
def Obligations.ExecKeepsConstants : Prop := ∀ (i : Instr) (s t : State), exec i s = .next t → Constant s t

/-! ## Sessions and refusals -/

/-- R192's table: a call in a session state the table does not allow is refused; an allowed one leads to the table's next
state, on Ok and on Err; and `exit_isp` never fails. That the session is the reason named also where another of R293's
conditions holds is the model's choice (assumption log 15). -/
def Obligations.SessionTable : Prop :=
  (∀ (i : Instr) (s : State), inSessionTable i = true →
    (sessionGate i s.session = false → exec i s = .refused .sessionState) ∧
    (∀ t, exec i s = .next t → sessionGate i s.session = true ∧ t.session = sessionAfter i s.session t.endedOk)) ∧
  ∀ s t : State, exec .exitIsp s = .next t → t.endedOk = true

/-- The rows R192 does not list: `T.write`, `T.read`, `poll` and the wire encodings need an open session, the GFF rows and
`list_devices` none (the model's choice, assumption log 14; R195 for `list_devices`). A row is refused where the session it
needs is not there, and where it ends in a next state the session was there and is unchanged. That the rows are not
refused there stands in `OperationRefusals` and `RowRefusals`, and for the rows that run in Closed too in `BsReadBit`,
`DecodeNibble`, `CodewordRows`, `CheckHeader` and `SessionCalls`. That the session is the reason named also where another
of R293's conditions holds is the model's choice too (assumption log 15). -/
def Obligations.UnlistedSessions : Prop :=
  ∀ (i : Instr) (s : State), inSessionTable i = false →
    (sessionGate i s.session = false → exec i s = .refused .sessionState) ∧
    (∀ t, exec i s = .next t → sessionGate i s.session = true ∧ t.session = s.session)

/-- A call of an operation is refused exactly where one of R293's conditions holds, and only for a reason whose condition
holds. The condition on `max_write = 1` holds for every operation that makes a register write on each of its paths (R191,
R210); that the operations that only read registers run there is the model's choice (assumption log 28). `T.write`,
`T.read` and `poll`, which R192 does not list, are taken in an open session, and that they are not refused there, nor the
GffCodec operations R192 does not list, is the model's choice (assumption log 14). -/
def Obligations.OperationRefusals : Prop :=
  ∀ (i : Instr) (s : State), i.row < 35 → (inSessionTable i = true ∨ s.session ≠ .closed) →
    ((∃ r, exec i s = .refused r) ↔ ∃ r, refusalCondition r i s = true) ∧
    ∀ r, exec i s = .refused r → refusalCondition r i s = true

/-- The same for the encoding rows, each of which is the smallest action of the spec that produces or decodes its
encoding: their conditions are those of the register access or transaction they make (assumption log 3, 14, 21). That
the rows that only read a register run with `max_write = 1` is the model's choice (assumption log 28). -/
def Obligations.RowRefusals : Prop :=
  ∀ (i : Instr) (s : State), 35 ≤ i.row →
    ((∃ r, exec i s = .refused r) ↔ ∃ r, refusalCondition r i s = true) ∧
    ∀ r, exec i s = .refused r → refusalCondition r i s = true

/-- The errors an operation can end with. `exit_isp` and `detect` end with none and `enter_isp` with no NoAck or IoError,
the three places where an error is caught (R282); every other engine and flash operation returns the transport's errors
unchanged, or one of its own; and the GFF operations answer the value errors of R280. -/
def Obligations.ErrorKinds : Prop :=
  ∀ (s t : State) (e : Err), t.result = some (.err e) →
    exec .exitIsp s ≠ .next t ∧
    (∀ a, exec (.detect a) s ≠ .next t) ∧
    (exec .enterIsp s = .next t → e = .enterIspFailed ∨ ∃ w, e = .busStuck w) ∧
    (∀ reg payload seq, exec (.regWrite reg payload seq) s = .next t → isTransportError e = true) ∧
    (∀ reg n seq, exec (.regRead reg n seq) s = .next t → isTransportError e = true) ∧
    (∀ c op r w v, exec (.customInstruction c op r w v) s = .next t →
      isTransportError e = true ∨ e = .customInstructionTimeout) ∧
    (∀ first last, exec (.deviceCrc first last) s = .next t → isTransportError e = true) ∧
    (exec .erase s = .next t → isTransportError e = true ∨ e = .customInstructionTimeout) ∧
    (∀ img, exec (.program img) s = .next t →
      isTransportError e = true ∨ e = .customInstructionTimeout ∨ e = .verificationFailed) ∧
    (∀ n, exec (.flashRead n) s = .next t →
      isTransportError e = true ∨ e = .customInstructionTimeout ∨ e = .verificationFailed) ∧
    (∀ file, exec (.decode file) s = .next t → e = .decodeError ∨ e = .signatureMismatch ∨ e = .tooSmall) ∧
    (∀ file, exec (.checkHeader file) s = .next t → e = .signatureMismatch ∨ e = .tooSmall)

/-! ## GffCodec -/

/-- `remaining` counts the bits of R96's bit string that are still unread. -/
def Obligations.RemainingBits : Prop :=
  ∀ bs : BitStream, bs.valid = true →
    remaining bs = (unread bs).length ∧
    remaining bs = (if bs.idx ≥ bs.buf.length then 0
      else Nat.log2 bs.mask.toNat + 1 + 8 * (bs.buf.length - bs.idx - 1))

/-- `bs_read_bit`: past the end None and the stream unchanged; else the bit under the mask, and the mask moved right, or
back to 0x80 with the next byte. The bit is the first unread one. Nothing else changes; that the stream is stored is the
model's choice (assumption log 4). -/
def Obligations.BsReadBit : Prop :=
  ∀ (bs : BitStream) (s : State),
    (bs.buf.length ≤ bs.idx → exec (.bsReadBit bs) s = .next ({ s with stream := bs }.complete (.optBit none))) ∧
    (∀ b, bs.buf[bs.idx]? = some b →
      exec (.bsReadBit bs) s = .next ({ s with stream :=
        { buf := bs.buf,
          idx := if bs.mask >>> 1 = 0 then bs.idx + 1 else bs.idx,
          mask := if bs.mask >>> 1 = 0 then 0x80 else bs.mask >>> 1 } }.complete
            (.optBit (some (decide (b &&& bs.mask ≠ 0)))))) ∧
    (bs.valid = true → ∃ bs', bs'.valid = true ∧ unread bs' = (unread bs).tail ∧
      exec (.bsReadBit bs) s = .next ({ s with stream := bs' }.complete (.optBit (unread bs).head?)))

/-- `decode_nibble` by what the unread bits begin with: a codeword of R97 gives its nibble, `00000100` the error marker,
`000000` the end marker where GFF_Z6_END accepts the number of bits left and the error marker elsewhere; at most five
zeros and the stream's end give the end marker; anything else is truncated. The codeword's bits and no others are
consumed. That the stream is stored is the model's choice (assumption log 4). -/
def Obligations.DecodeNibble : Prop :=
  ∀ (bs : BitStream) (s : State), bs.valid = true →
    ∃ r bs', bs'.valid = true ∧ bs'.buf = bs.buf ∧
      exec (.decodeNibble bs) s = .next ({ s with stream := bs' }.complete (.nibble r)) ∧
      (∀ v rest, unread bs = nibbleCode v ++ rest → r = .nib v ∧ unread bs' = rest) ∧
      (∀ rest, unread bs = errorCode ++ rest → r = .error ∧ unread bs' = rest) ∧
      (∀ rest, unread bs = z6Code ++ rest →
        r = (if z6End s.params.z6 rest.length then .endMarker else .error) ∧ unread bs' = rest) ∧
      (∀ k, k ≤ 5 → unread bs = List.replicate k false → r = .endMarker ∧ unread bs' = []) ∧
      ((∀ v, ¬ nibbleCode v <+: unread bs) → ¬ errorCode <+: unread bs → ¬ z6Code <+: unread bs →
        (∀ k, k ≤ 5 → unread bs ≠ List.replicate k false) → r = .trunc)

/-- The codeword rows: a row takes its codeword from the cursor and answers its value, and answers none and leaves the
stream where the unread bits do not begin with it; so do the rows of the error marker, of the escape `000000` and of the
exhausted stream (the rows' reading as recognisers is the model's, assumption log 4). -/
def Obligations.CodewordRows : Prop :=
  ∀ s : State, s.stream.valid = true →
    (∀ v : Nibble,
      (∀ rest, unread s.stream = nibbleCode v ++ rest →
        ∃ bs', bs'.valid = true ∧ bs'.buf = s.stream.buf ∧ unread bs' = rest ∧
          exec (nibRow v) s = .next ({ s with stream := bs' }.complete (.codeword (some (.nib v))))) ∧
      (¬ nibbleCode v <+: unread s.stream → exec (nibRow v) s = .next (s.complete (.codeword none)))) ∧
    (∀ rest, unread s.stream = errorCode ++ rest →
      ∃ bs', bs'.valid = true ∧ bs'.buf = s.stream.buf ∧ unread bs' = rest ∧
        exec .nibError s = .next ({ s with stream := bs' }.complete (.codeword (some .error)))) ∧
    (¬ errorCode <+: unread s.stream → exec .nibError s = .next (s.complete (.codeword none))) ∧
    (∀ rest, unread s.stream = z6Code ++ rest →
      ∃ bs', bs'.valid = true ∧ bs'.buf = s.stream.buf ∧ unread bs' = rest ∧
        exec .nibZ6 s = .next ({ s with stream := bs' }.complete
          (.codeword (some (if z6End s.params.z6 rest.length then .endMarker else .error))))) ∧
    (¬ z6Code <+: unread s.stream → exec .nibZ6 s = .next (s.complete (.codeword none))) ∧
    (∀ k, k ≤ 5 → unread s.stream = List.replicate k false →
      ∃ bs', bs'.valid = true ∧ bs'.buf = s.stream.buf ∧ unread bs' = [] ∧
        exec .nibEndExhausted s = .next ({ s with stream := bs' }.complete (.codeword (some .endMarker)))) ∧
    ((∀ k, k ≤ 5 → unread s.stream ≠ List.replicate k false) →
      exec .nibEndExhausted s = .next (s.complete (.codeword none)))

/-- `check_header`: TooSmall below 256 bytes whatever the content, then SignatureMismatch, else the payload from byte 256
on; bytes 12 to 255 are never examined. The F-GFF row answers the same and opens the stream on the payload (assumption
log 4). Nothing else changes. -/
def Obligations.CheckHeader : Prop :=
  ∀ (file : List Byte) (s : State),
    (file.length < 256 → exec (.checkHeader file) s = .next (s.takeError .tooSmall) ∧
      exec (.gffHeader file) s = .next (s.takeError .tooSmall)) ∧
    (256 ≤ file.length → file.take 12 ≠ [0x47, 0x4D, 0x49, 0x20, 0x47, 0x46, 0x46, 0x20, 0x56, 0x31, 0x2E, 0x30] →
      exec (.checkHeader file) s = .next (s.takeError .signatureMismatch) ∧
        exec (.gffHeader file) s = .next (s.takeError .signatureMismatch)) ∧
    (256 ≤ file.length → file.take 12 = [0x47, 0x4D, 0x49, 0x20, 0x47, 0x46, 0x46, 0x20, 0x56, 0x31, 0x2E, 0x30] →
      exec (.checkHeader file) s = .next (s.complete (.bytes (file.drop 256))) ∧
        exec (.gffHeader file) s =
          .next ({ s with stream := { buf := file.drop 256, idx := 0, mask := 0x80 } }.complete (.bytes (file.drop 256))))

/-- `decode`: a file with a good header decodes to `out` exactly where its payload's bits are the codewords of the bytes
of `out`, high nibble first, and then an end of the stream; every other file with a good header gives DecodeError. The
BitStream is discarded (assumption log 4); nothing else changes. -/
def Obligations.DecodeFile : Prop :=
  ∀ (file : List Byte) (s : State),
    (file.length < 256 → exec (.decode file) s = .next ({ s with stream := noStream }.takeError .tooSmall)) ∧
    (256 ≤ file.length → file.take 12 ≠ gffSignature →
      exec (.decode file) s = .next ({ s with stream := noStream }.takeError .signatureMismatch)) ∧
    (256 ≤ file.length → file.take 12 = gffSignature →
      (∀ out tail, byteBits (file.drop 256) = gffCodes out ++ tail → endsStream s.params.z6 tail →
        exec (.decode file) s = .next ({ s with stream := noStream }.complete (.bytes out))) ∧
      ((∀ out tail, byteBits (file.drop 256) = gffCodes out ++ tail → ¬ endsStream s.params.z6 tail) →
        exec (.decode file) s = .next ({ s with stream := noStream }.takeError .decodeError)))

/-- `compute_decoded_size` agrees with `decode`: the number of bytes where it answers bytes, 0 where it answers an error;
so 0 means an error or an empty result. It discards the stream (assumption log 4) and changes nothing else. -/
def Obligations.SizeAgreement : Prop :=
  ∀ (file : List Byte) (s : State), ∃ t : State, ∃ n, exec (.decode file) s = .next t ∧
    exec (.computeDecodedSize file) s = .next ({ s with stream := noStream }.complete (.nat n)) ∧
    (∀ out, t.result = some (.ok (.bytes out)) → n = out.length) ∧
    (∀ e, t.result = some (.err e) → n = 0) ∧
    (n = 0 → t.result = some (.ok (.bytes [])) ∨ ∃ e, t.result = some (.err e))

/-- The round trip of R127: `enc(b)` is the codewords of b filled with zeros to whole bytes; it decodes to b unless the
codewords fill 2 bits of the last byte under the literal GFF_Z6_END, and then no payload at all decodes to b, of which
[0x00] is an example; under `r < 8` it always decodes to b. -/
def Obligations.RoundTrip : Prop :=
  ∀ (s : State) (b reserved : List Byte), reserved.length = 244 →
    byteBits (gffEncode b) =
      gffCodes b ++ List.replicate ((8 - (gffCodes b).length % 8) % 8) false ∧
    ((gffCodes b).length % 8 ≠ 2 → ∃ t, exec (.decode (gffFile reserved (gffEncode b))) s = .next t ∧
      t.result = some (.ok (.bytes b))) ∧
    ((gffCodes b).length % 8 = 2 → s.params.z6 = .exactlyOne → ∀ payload t,
      exec (.decode (gffFile reserved payload)) s = .next t → t.result ≠ some (.ok (.bytes b))) ∧
    (gffCodes [0x00]).length = 2 ∧
    (s.params.z6 = .fewerThanEight → ∃ t, exec (.decode (gffFile reserved (gffEncode b))) s = .next t ∧
      t.result = some (.ok (.bytes b)))

/-- F-PAIR: the first nibble is the high one. Nothing else changes. -/
def Obligations.PairRow : Prop :=
  ∀ (n1 n2 : Nibble) (s : State),
    ∃ b : Byte, b.toNat = 16 * n1.toNat + n2.toNat ∧ exec (.pair n1 n2) s = .next (s.complete (.byte b))

/-! ## Host CRC -/

/-- `host_crc`: the answer and the CRC register are the remainder of the message bits, most significant first, by
x^8 + x^2 + x + 1 from 0; nothing else changes (that the register keeps the value is the model's, assumption log 25). It
is 0 of the empty sequence and of zero bytes, 0xF4 of "123456789", and continues: the CRC of `a ++ b` is that of b
continued from that of a. -/
def Obligations.HostCrc : Prop :=
  (∀ (data : List Byte) (s : State),
    hostCrc data = (byteBits data).foldl crcMessageBit 0 ∧
      exec (.hostCrc data) s = .next ({ s with crc := hostCrc data }.complete (.byte (hostCrc data)))) ∧
  (∀ n, hostCrc (List.replicate n 0x00) = 0) ∧
  hostCrc [0x31, 0x32, 0x33, 0x34, 0x35, 0x36, 0x37, 0x38, 0x39] = 0xF4 ∧ hostCrc [0xAB, 0xCD] = 0xE2 ∧
  ∀ (c : Byte) (a b : List Byte), crcFrom c (a ++ b) = crcFrom (crcFrom c a) b

/-! ## SoftwareI2CBus -/

/-- DRIVE and RELEASE: the latch, the event, and the sensed level as the result; `pulse_scl` is `DRIVE(SCL);
RELEASE(SCL)`, its sensed level ignored; nothing else changes. A release senses the level the environment gives: the next
one fixed, then 0 of a line that another agent holds low for ever, and some level in every environment; the other latch
stays as it was. The environment's form is the model's (assumption log 5). -/
def Obligations.LinePrimitives : Prop :=
  ∀ s : State, s.session ≠ .closed →
    exec (.drive .sda) s = .next ((s.afterLine .driven s.scl s.env.senses [.drive .sda]).complete .unit) ∧
    exec (.drive .scl) s = .next ((s.afterLine s.sda .driven s.env.senses [.drive .scl]).complete .unit) ∧
    (∀ v rest, s.env.senses = v :: rest →
      exec (.release .sda) s = .next ((s.afterLine .released s.scl rest [.release .sda v]).complete (.bit v)) ∧
      exec (.release .scl) s = .next ((s.afterLine s.sda .released rest [.release .scl v]).complete (.bit v)) ∧
      exec .pulseScl s =
        .next ((s.afterLine s.sda .released rest [.drive .scl, .release .scl v]).complete .unit)) ∧
    (s.env.senses = [] → .sda ∈ s.env.held → exec (.release .sda) s =
      .next ((s.afterLine .released s.scl [] [.release .sda false]).complete (.bit false))) ∧
    (s.env.senses = [] → .scl ∈ s.env.held →
      exec (.release .scl) s = .next ((s.afterLine s.sda .released [] [.release .scl false]).complete (.bit false)) ∧
      exec .pulseScl s =
        .next ((s.afterLine s.sda .released [] [.drive .scl, .release .scl false]).complete .unit)) ∧
    (∀ l, ∃ v t, exec (.release l) s = .next (t.complete (.bit v)) ∧ t.latch l = .released ∧
      (∀ other, other ≠ l → t.latch other = s.latch other) ∧ t.trace = s.trace ++ [.release l v] ∧ LineFrame s t) ∧
    ∃ v t, exec .pulseScl s = .next (t.complete .unit) ∧ t.trace = s.trace ++ [.drive .scl, .release .scl v] ∧
      t.sda = s.sda ∧ t.scl = .released ∧ LineFrame s t

/-- `wait_scl`: k polls that read 0 and do not expire, then one that reads 1, give Ok; a poll that reads 0 and expires
gives BusStuck(SCL) after its Expired event. In every environment the wait ends in one of the two ways, with SCL released
and SDA as it was: it never blocks. -/
def Obligations.WaitScl : Prop :=
  ∀ s : State, s.session ≠ .closed →
    (∀ k rest xs, s.env.senses = stretchSenses k ++ rest → s.env.expiries = List.replicate k false ++ xs →
      exec .waitScl s = .next ((s.afterWait s.sda .released rest xs (stretchEvents k)).complete .unit)) ∧
    (∀ k rest xs, s.env.senses = stuckSenses k ++ rest →
      s.env.expiries = List.replicate k false ++ true :: xs →
      exec .waitScl s = .next ((s.afterWait s.sda .released rest xs
        (stuckEvents k)).takeError (.busStuck (.line .scl)))) ∧
    ∃ t, t.sda = s.sda ∧ t.scl = .released ∧ LineFrame s t ∧
      ((exec .waitScl s = .next (t.complete .unit) ∧ ∃ k, t.trace = s.trace ++ stretchEvents k) ∨
       (exec .waitScl s = .next (t.takeError (.busStuck (.line .scl))) ∧
         ∃ k, t.trace = s.trace ++ stuckEvents k))

/-- `reset`: SDA released; rounds of nine pulses, whose sensed levels are ignored, until SDA reads high; SCL and SDA
driven; then the STOP, whose wait may be stretched or expire (BusStuck(SCL), with SCL released and SDA driven), and which
recovers again where SDA reads low. With RESET_ROUND_LIMIT m, m rounds that find SDA low (and at least one) end it with
BusStuck(SDA). Without a limit, another agent that holds SDA low for ever keeps it from ending. In every environment it
ends in one of these ways: it runs for ever without a limit only, where the model stops (assumption log 6), and raises
BusStuck(SDA) with one only. -/
def Obligations.BusReset : Prop :=
  ∀ s : State, s.session ≠ .closed →
    (∀ senses expiries events stuck rest xs, RecoveryRun s.params senses expiries events stuck →
      s.env.senses = senses ++ rest → s.env.expiries = expiries ++ xs →
      exec .busReset s = .next ((s.afterRecovery rest xs events stuck).endOn stuck)) ∧
    (∀ senses expiries xs, s.params.resetRoundLimit = none → .sda ∈ s.env.held →
      StartOfEndless s.params senses expiries → s.env.senses = senses → s.env.expiries = expiries ++ xs →
      exec .busReset s = .fault .recoveryNeverEnds) ∧
    EndsOrHangs .busReset s .released .released

/-- `start`: SDA released, recovery first where it reads low, the wait, then SDA and SCL driven. `stop`: the wait, SDA
released, recovery where it reads low. The waits find SCL high after j polls that read 0, or expire (BusStuck(SCL), and
no later step runs). The recovery is any run of `reset`: where it gets stuck on a line, so do they; where another agent
holds SDA low for ever and no RESET_ROUND_LIMIT is set, they never end. In every environment they end in one of these
ways (where the recovery never ends the model stops, assumption log 6). -/
def Obligations.StartStop : Prop :=
  ∀ s : State, s.session ≠ .closed →
    EndsOrHangs .start s .driven .driven ∧ EndsOrHangs .stop s .released .released ∧
    ∀ (j : Nat) (rest : List Bit) (xs : List Bool),
    (s.env.expiries = List.replicate j false ++ xs →
      (s.env.senses = true :: stretchSenses j ++ rest →
        exec .start s = .next ((s.afterWait .driven .driven rest xs
          (Event.release .sda true :: (stretchEvents j ++ startEnd))).complete .unit)) ∧
      (s.env.senses = stretchSenses j ++ true :: rest →
        exec .stop s = .next ((s.afterWait .released .released rest xs
          (stretchEvents j ++ [Event.release .sda true])).complete .unit))) ∧
    (s.env.expiries = List.replicate j false ++ true :: xs →
      (s.env.senses = true :: stuckSenses j ++ rest →
        exec .start s = .next ((s.afterWait .released .released rest xs
          (Event.release .sda true :: stuckEvents j)).takeError (.busStuck (.line .scl)))) ∧
      (s.env.senses = stuckSenses j ++ rest →
        exec .stop s = .next ((s.afterWait s.sda .released rest xs
          (stuckEvents j)).takeError (.busStuck (.line .scl))))) ∧
    (∀ senses expiries events stuck, RecoveryRun s.params senses expiries events stuck →
      (s.env.senses = stretchSenses j ++ false :: senses ++ rest →
        s.env.expiries = List.replicate j false ++ expiries ++ xs →
        exec .stop s = .next ((s.afterRecovery rest xs
          (stretchEvents j ++ Event.release .sda false :: events) stuck).endOn stuck)) ∧
      (stuck ≠ none → s.env.senses = false :: senses ++ rest → s.env.expiries = expiries ++ xs →
        exec .start s = .next ((s.afterRecovery rest xs (Event.release .sda false :: events) stuck).endOn stuck)) ∧
      (stuck = none → s.env.senses = false :: senses ++ stretchSenses j ++ rest →
        s.env.expiries = expiries ++ List.replicate j false ++ xs →
        exec .start s = .next ((s.afterWait .driven .driven rest xs
          (Event.release .sda false :: (events ++ stretchEvents j ++ startEnd))).complete .unit)) ∧
      (stuck = none → s.env.senses = false :: senses ++ stuckSenses j ++ rest →
        s.env.expiries = expiries ++ List.replicate j false ++ true :: xs →
        exec .start s = .next ((s.afterWait .released .released rest xs
          (Event.release .sda false :: (events ++ stuckEvents j))).takeError (.busStuck (.line .scl))))) ∧
    (s.params.resetRoundLimit = none → .sda ∈ s.env.held →
      (s.env.senses = [] → exec .start s = .fault .recoveryNeverEnds) ∧
      (s.env.senses = stretchSenses j → s.env.expiries = List.replicate j false ++ xs →
        exec .stop s = .fault .recoveryNeverEnds) ∧
      ∀ senses expiries, StartOfEndless s.params senses expiries →
        (s.env.senses = false :: senses → s.env.expiries = expiries ++ xs →
          exec .start s = .fault .recoveryNeverEnds) ∧
        (s.env.senses = stretchSenses j ++ false :: senses →
          s.env.expiries = List.replicate j false ++ expiries ++ xs → exec .stop s = .fault .recoveryNeverEnds))

/-- `write_bit` and `read_bit` over a wait of j polls that read 0: the events in their order, both lines driven at the
end, and the sampled level as the result of `read_bit`; the level of SDA before the wait is ignored. Where the wait
expires, no later step of the bit runs: BusStuck(SCL), with SCL released and SDA as the bit left it. Nothing else
changes. -/
def Obligations.WriteReadBit : Prop :=
  ∀ (s : State) (j : Nat) (rest : List Bit) (xs : List Bool), s.session ≠ .closed →
    (s.env.expiries = List.replicate j false ++ xs →
      (s.env.senses = stretchSenses j ++ rest →
        exec (.writeBit false) s = .next ((s.afterWait .driven .driven rest xs
          (Event.drive .sda :: (stretchEvents j ++ bitEnd))).complete .unit)) ∧
      (∀ u, s.env.senses = u :: stretchSenses j ++ rest →
        exec (.writeBit true) s = .next ((s.afterWait .driven .driven rest xs
          (Event.release .sda u :: (stretchEvents j ++ bitEnd))).complete .unit)) ∧
      ∀ u v, s.env.senses = u :: stretchSenses j ++ v :: rest →
        exec .readBit s = .next ((s.afterWait .driven .driven rest xs
          (Event.release .sda u :: (stretchEvents j ++ Event.release .sda v :: bitEnd))).complete (.bit v))) ∧
    (s.env.expiries = List.replicate j false ++ true :: xs →
      (s.env.senses = stuckSenses j ++ rest →
        exec (.writeBit false) s = .next ((s.afterWait .driven .released rest xs
          (Event.drive .sda :: stuckEvents j)).takeError
            (.busStuck (.line .scl)))) ∧
      ∀ u, s.env.senses = u :: stuckSenses j ++ rest →
        exec (.writeBit true) s = .next ((s.afterWait .released .released rest xs
          (Event.release .sda u :: stuckEvents j)).takeError
            (.busStuck (.line .scl))) ∧
        exec .readBit s = .next ((s.afterWait .released .released rest xs
          (Event.release .sda u :: stuckEvents j)).takeError
            (.busStuck (.line .scl))))

/-- `write_byte` and `read_byte` on a bus without stretching: eight bits, most significant first, and for `write_byte`
the ACK slot, whose level is the result. The address rows send `(a << 1) | rw` in the same way; that a row is the byte
and its ACK slot is the model's reading (assumption log 3). Nothing but the latches, the answers and the trace changes. -/
def Obligations.Bytes : Prop :=
  ∀ (s : State) (echo : Nat → Bit) (rest : List Bit), s.session ≠ .closed →
    (∀ (x : Byte) (ack : Bit), s.env.senses = byteSenses echo 0 x ack ++ rest →
      exec (.writeByte x) s =
        .next ((s.afterLine .driven .driven rest (byteEvents echo 0 x ack)).complete (.bit ack))) ∧
    (∀ x : Byte, s.env.senses = recvSenses echo 0 (msbFirst x) ++ rest →
      exec .readByte s =
        .next ((s.afterLine .driven .driven rest (recvEvents echo 0 (msbFirst x))).complete (.byte x))) ∧
    (∀ (a : Addr7) (ack : Bit), s.env.senses = byteSenses echo 0 (BitVec.ofNat 8 (2 * a.toNat)) ack ++ rest →
      exec (.addrW a) s = .next ((s.afterLine .driven .driven rest
        (byteEvents echo 0 (BitVec.ofNat 8 (2 * a.toNat)) ack)).complete (.bit ack))) ∧
    (∀ (a : Addr7) (ack : Bit), s.env.senses = byteSenses echo 0 (BitVec.ofNat 8 (2 * a.toNat + 1)) ack ++ rest →
      exec (.addrR a) s = .next ((s.afterLine .driven .driven rest
        (byteEvents echo 0 (BitVec.ofNat 8 (2 * a.toNat + 1)) ack)).complete (.bit ack))) ∧
    ∀ ack : Bit,
      (s.env.senses = byteSenses echo 0 0x94 ack ++ rest → exec .ispAddrWrite s =
        .next ((s.afterLine .driven .driven rest (byteEvents echo 0 0x94 ack)).complete (.bit ack))) ∧
      (s.env.senses = byteSenses echo 0 0x95 ack ++ rest → exec .ispAddrRead s =
        .next ((s.afterLine .driven .driven rest (byteEvents echo 0 0x95 ack)).complete (.bit ack))) ∧
      (s.env.senses = byteSenses echo 0 0x96 ack ++ rest → exec .ispAddrAiWrite s =
        .next ((s.afterLine .driven .driven rest (byteEvents echo 0 0x96 ack)).complete (.bit ack))) ∧
      (s.env.senses = byteSenses echo 0 0x97 ack ++ rest → exec .ispAddrAiRead s =
        .next ((s.afterLine .driven .driven rest (byteEvents echo 0 0x97 ack)).complete (.bit ack)))

/-- The ACK and NACK rows as the master's ninth bit: sent as 0 and 1 under MASTER_RX_ACK, and nothing happens without it
(that the rows are the master's bit is the model's reading, assumption log 3). -/
def Obligations.MasterAckRows : Prop :=
  ∀ (s : State) (rest : List Bit), s.session ≠ .closed →
    (s.params.masterRxAck = true → s.env.senses = true :: rest →
      exec .ack s = .next ((s.afterLine .driven .driven rest
        [.drive .sda, .release .scl true, .drive .scl, .drive .sda]).complete .unit)) ∧
    (∀ u, s.params.masterRxAck = true → s.env.senses = u :: true :: rest →
      exec .nack s = .next ((s.afterLine .driven .driven rest
        [.release .sda u, .release .scl true, .drive .scl, .drive .sda]).complete .unit)) ∧
    (s.params.masterRxAck = false →
      exec .ack s = .next (s.complete .unit) ∧ exec .nack s = .next (s.complete .unit))

/-- `write` on a bus without stretching: all bytes acknowledged; or the address byte not; or data byte j not, after which
no byte is sent. A NACK is followed by the STOP and then the error. -/
def Obligations.BusWrite : Prop :=
  ∀ (s : State) (echo : Nat → Bit) (a : Addr7) (rest : List Bit), s.session ≠ .closed →
    (∀ data, s.env.senses =
        bothHigh ++ byteSenses echo 0 (addressByte a false) false ++ bytesSenses echo 9 data ++ bothHigh ++ rest →
      exec (.busWrite a.toNat data) s = .next ((s.afterLine .released .released rest
        (startEvents ++ byteEvents echo 0 (addressByte a false) false ++ bytesEvents echo 9 data ++
          stopEvents)).complete .unit)) ∧
    (∀ data, s.env.senses = bothHigh ++ byteSenses echo 0 (addressByte a false) true ++ bothHigh ++ rest →
      exec (.busWrite a.toNat data) s = .next ((s.afterLine .released .released rest
        (startEvents ++ byteEvents echo 0 (addressByte a false) true ++ stopEvents)).takeError (.noAck .address))) ∧
    ∀ acked x unsent, s.env.senses =
        bothHigh ++ byteSenses echo 0 (addressByte a false) false ++ bytesSenses echo 9 acked ++
          byteSenses echo (9 + 9 * acked.length) x true ++ bothHigh ++ rest →
      exec (.busWrite a.toNat (acked ++ x :: unsent)) s = .next ((s.afterLine .released .released rest
        (startEvents ++ byteEvents echo 0 (addressByte a false) false ++ bytesEvents echo 9 acked ++
          byteEvents echo (9 + 9 * acked.length) x true ++ stopEvents)).takeError (.noAck (.data acked.length)))

/-- `read` on a bus without stretching: the bytes the slave sends, each followed under MASTER_RX_ACK by the master's ACK,
the last by its NACK; or an address byte that is not acknowledged. -/
def Obligations.BusRead : Prop :=
  ∀ (s : State) (echo : Nat → Bit) (a : Addr7) (rest : List Bit), s.session ≠ .closed →
    (∀ data, s.env.senses =
        bothHigh ++ byteSenses echo 0 (addressByte a true) false ++ dataSenses s.params.masterRxAck echo 9 data ++
          bothHigh ++ rest →
      exec (.busRead a.toNat data.length) s = .next ((s.afterLine .released .released rest
        (startEvents ++ byteEvents echo 0 (addressByte a true) false ++ dataEvents s.params.masterRxAck echo 9 data ++
          stopEvents)).complete (.bytes data))) ∧
    ∀ count, s.env.senses = bothHigh ++ byteSenses echo 0 (addressByte a true) true ++ bothHigh ++ rest →
      exec (.busRead a.toNat count) s = .next ((s.afterLine .released .released rest
        (startEvents ++ byteEvents echo 0 (addressByte a true) true ++ stopEvents)).takeError (.noAck .address))

/-- The event counts of R163, for runs without stretching and with SDA high at every START and STOP check. -/
def Obligations.EventCounts : Prop :=
  ∀ (s : State) (echo : Nat → Bit) (rest : List Bit), s.session ≠ .closed →
    (s.env.senses = true :: true :: rest → s.emits .start 4 ∧ s.emits .stop 2) ∧
    (∀ b, s.env.senses = sentSenses echo 0 [b] ++ rest → s.emits (.writeBit b) 4) ∧
    (∀ b, s.env.senses = recvSenses echo 0 [b] ++ rest → s.emits .readBit 5) ∧
    (∀ x ack, s.env.senses = byteSenses echo 0 x ack ++ rest → s.emits (.writeByte x) 37) ∧
    (∀ x, s.env.senses = recvSenses echo 0 (msbFirst x) ++ rest → s.emits .readByte 40) ∧
    (∀ (a : Addr7) data, s.env.senses =
        bothHigh ++ byteSenses echo 0 (addressByte a false) false ++ bytesSenses echo 9 data ++ bothHigh ++ rest →
      s.emits (.busWrite a.toNat data) (43 + 37 * data.length)) ∧
    (∀ (a : Addr7) data, s.env.senses =
        bothHigh ++ byteSenses echo 0 (addressByte a true) false ++ dataSenses s.params.masterRxAck echo 9 data ++
          bothHigh ++ rest →
      s.emits (.busRead a.toNat data.length) (43 + (if s.params.masterRxAck then 44 else 40) * data.length)) ∧
    (∀ v, s.env.senses = v :: List.replicate 9 true ++ [true, true, true] ++ rest → s.emits .busReset 24)

/-- How a bus transaction ends in every environment: Ok or NoAck with both lines released; BusStuck(SCL) with SCL
released; BusStuck(SDA), under a RESET_ROUND_LIMIT only; or a recovery that never ends, without that limit only, where the
model stops (assumption log 6). Only the latches, the answers, the trace and the result change. -/
def Obligations.BusOutcomes : Prop :=
  ∀ (s : State) (i : Instr), s.session ≠ .closed →
    ((∃ a data, a ≤ 127 ∧ i = .busWrite a data) ∨ (∃ a count, a ≤ 127 ∧ i = .busRead a count)) →
    (exec i s = .fault .recoveryNeverEnds ∧ s.params.resetRoundLimit = none) ∨ ∃ t, LineFrame s t ∧
      ((∃ v, exec i s = .next (t.complete v) ∧ t.sda = .released ∧ t.scl = .released) ∨
       (∃ w, exec i s = .next (t.takeError (.noAck w)) ∧ t.sda = .released ∧ t.scl = .released) ∨
       (exec i s = .next (t.takeError (.busStuck (.line .scl))) ∧ t.scl = .released) ∨
       (exec i s = .next (t.takeError (.busStuck (.line .sda))) ∧ s.params.resetRoundLimit ≠ none))

/-- R158 for transactions that begin on an idle bus, without stretching and with SDA high at every START and STOP check,
whether every byte is acknowledged, the address byte is not, or a data byte is not: SDA changes while SCL is released at
START, falling, and at STOP, rising, and nowhere else. -/
def Obligations.BusConditions : Prop :=
  ∀ (s : State) (echo : Nat → Bit) (a : Addr7) (rest : List Bit), s.session ≠ .closed →
    s.sda = .released → s.scl = .released →
    (∀ data, s.env.senses =
        bothHigh ++ byteSenses echo 0 (addressByte a false) false ++ bytesSenses echo 9 data ++ bothHigh ++ rest →
      ∃ t es, exec (.busWrite a.toNat data) s = .next t ∧ t.trace = s.trace ++ es ∧
        sdaChanges .released .released es = [.drive .sda, .release .sda true]) ∧
    (∀ data, s.env.senses = bothHigh ++ byteSenses echo 0 (addressByte a false) true ++ bothHigh ++ rest →
      ∃ t es, exec (.busWrite a.toNat data) s = .next t ∧ t.trace = s.trace ++ es ∧
        sdaChanges .released .released es = [.drive .sda, .release .sda true]) ∧
    (∀ acked x unsent, s.env.senses =
        bothHigh ++ byteSenses echo 0 (addressByte a false) false ++ bytesSenses echo 9 acked ++
          byteSenses echo (9 + 9 * acked.length) x true ++ bothHigh ++ rest →
      ∃ t es, exec (.busWrite a.toNat (acked ++ x :: unsent)) s = .next t ∧ t.trace = s.trace ++ es ∧
        sdaChanges .released .released es = [.drive .sda, .release .sda true]) ∧
    (∀ data, s.env.senses =
        bothHigh ++ byteSenses echo 0 (addressByte a true) false ++ dataSenses s.params.masterRxAck echo 9 data ++
          bothHigh ++ rest →
      ∃ t es, exec (.busRead a.toNat data.length) s = .next t ∧ t.trace = s.trace ++ es ∧
        sdaChanges .released .released es = [.drive .sda, .release .sda true]) ∧
    (∀ count, s.env.senses = bothHigh ++ byteSenses echo 0 (addressByte a true) true ++ bothHigh ++ rest →
      ∃ t es, exec (.busRead a.toNat count) s = .next t ∧ t.trace = s.trace ++ es ∧
        sdaChanges .released .released es = [.drive .sda, .release .sda true])

/-! ## I2CTransport -/

/-- `init` in Closed draws whether the backend opens, and goes to Initialized or stays in Closed with IoError; `deinit`
closes the session; `list_devices` answers the environment's map in every session state. The answer is the next one fixed,
and there is one in every environment. Nothing but the session, the answers and the result changes; in another session
state `init` and `deinit` are refused. -/
def Obligations.SessionCalls : Prop :=
  ∀ s : State,
    (∀ device settings,
      (s.session ≠ .closed → exec (.init device settings) s = .refused .sessionState) ∧
      (s.session = .closed → ∃ ok : Bool, ∃ e : Env, e.mode = s.env.mode ∧ e.held = s.env.held ∧
        (∀ v rest, s.env.opens = v :: rest → ok = v ∧ e = { s.env with opens := rest }) ∧
        exec (.init device settings) s = .next (if ok then { s with session := .initialized, env := e }.complete .unit
          else { s with env := e }.takeError .ioError))) ∧
    (s.session = .closed → exec .deinit s = .refused .sessionState) ∧
    (s.session ≠ .closed → exec .deinit s = .next ({ s with session := .closed }.complete .unit)) ∧
    ∃ map, ∃ e : Env, e.mode = s.env.mode ∧ e.held = s.env.held ∧
      (∀ m rest, s.env.listings = m :: rest → map = m ∧ e = { s.env with listings := rest }) ∧
      exec .listDevices s = .next ({ s with env := e }.complete (.devices map))

/-- `T.write` and `T.read` on a native transport within its limits: the drawn outcome, one event, and the outcome as the
result, an error unchanged; a read returns exactly n bytes. In every oracle environment there is such an outcome, and only
the answers, the trace and the result change. -/
def Obligations.NativeTransactions : Prop :=
  ∀ (s : State) (a : Addr7), s.session ≠ .closed → s.backend = .native → s.env.mode = .oracle →
    (∀ bytes ws, (s.maxWrite = 0 ∨ bytes.length ≤ s.maxWrite) →
      (s.env.writes = .ok :: ws → exec (.tWrite a bytes) s =
        .next ((s.afterAnswers ws s.env.reads s.env.expiries [.tWrite a bytes .ok]).complete .unit)) ∧
      (∀ why, s.env.writes = .failed why :: ws → exec (.tWrite a bytes) s =
        .next ((s.afterAnswers ws s.env.reads s.env.expiries [.tWrite a bytes (.failed why)]).takeError
          (xferError why))) ∧
      ∃ t : State, ∃ r, LineFrame s t ∧ t.sda = s.sda ∧ t.scl = s.scl ∧ t.trace = s.trace ++ [.tWrite a bytes r] ∧
        exec (.tWrite a bytes) s = .next (match r with
          | .ok => t.complete .unit
          | .failed why => t.takeError (xferError why))) ∧
    ∀ n rs, (s.maxRead = 0 ∨ n ≤ s.maxRead) →
      (∀ bytes, bytes.length = n → s.env.reads = .ok bytes :: rs → exec (.tRead a n) s =
        .next ((s.afterAnswers s.env.writes rs s.env.expiries [.tRead a n (.ok bytes)]).complete (.bytes bytes))) ∧
      (∀ why, s.env.reads = .failed why :: rs → exec (.tRead a n) s =
        .next ((s.afterAnswers s.env.writes rs s.env.expiries [.tRead a n (.failed why)]).takeError (xferError why))) ∧
      ∃ t : State, ∃ r, LineFrame s t ∧ t.sda = s.sda ∧ t.scl = s.scl ∧ t.trace = s.trace ++ [.tRead a n r] ∧
        (∀ bytes, r = .ok bytes → bytes.length = n) ∧
        exec (.tRead a n) s = .next (match r with
          | .ok bytes => t.complete (.bytes bytes)
          | .failed why => t.takeError (xferError why))

/-- The software bus as a transport: `T.write(a, L) = write(a, L)` and `T.read(a, n) = read(a, n)`, whatever the state.
That the error keeps its place is the model's (assumption log 16). -/
def Obligations.SoftwareTransport : Prop :=
  ∀ (s : State) (a : Addr7), s.backend = .softwareBus → s.maxRead = 0 → s.maxWrite = 0 →
    (∀ bytes, exec (.tWrite a bytes) s = exec (.busWrite a.toNat bytes) s) ∧
    ∀ n, exec (.tRead a n) s = exec (.busRead a.toNat n) s

/-- `detect` attempts a read of one byte and answers whether it was Ok: every transport error gives false. -/
def Obligations.Detect : Prop :=
  ∀ (s : State) (a : Addr7), s.session ≠ .closed →
    (∀ t, exec (.tRead a 1) s = .next t → exec (.detect a) s = .next (t.complete (.bool t.endedOk))) ∧
    (∀ r rs, s.backend = .native → s.env.mode = .oracle → s.env.reads = r :: rs →
      (∀ bytes, r = .ok bytes → bytes.length = 1) →
      exec (.detect a) s = .next ((s.afterAnswers s.env.writes rs s.env.expiries [.tRead a 1 r]).complete
        (.bool (match r with
          | .ok _ => true
          | .failed _ => false))))

/-! ## IspProtocolEngine -/

/-- `reg_write` on a native transport: ⌈len / C⌉ write transactions, C = max_write - 1 or the whole payload; chunk k
names the register its first byte belongs to, or the port 0x70 again; the address is 0x4B only for sequential payloads
of more than one byte. The first transaction that fails ends it with its error, and no later one is made. -/
def Obligations.RegWrite : Prop :=
  ∀ (s : State) (reg : Byte) (payload : List Byte) (seq : Bool) (ws : List WriteAnswer),
    s.session ≠ .closed → s.OnOracle → payload ≠ [] →
    let sent := writeTransactions s.maxWrite reg payload
    let event := fun r bytes => Event.tWrite (if seq = true ∧ 1 < payload.length then 0x4B else 0x4A) bytes r
    (s.env.writes = List.replicate sent.length .ok ++ ws →
      exec (.regWrite reg payload seq) s =
        .next ((s.afterAnswers ws s.env.reads s.env.expiries (sent.map (event .ok))).complete .unit)) ∧
    ∀ done bytes later why, sent = done ++ bytes :: later →
      s.env.writes = List.replicate done.length .ok ++ .failed why :: ws →
      exec (.regWrite reg payload seq) s =
        .next ((s.afterAnswers ws s.env.reads s.env.expiries
          (done.map (event .ok) ++ [event (.failed why) bytes])).takeError (xferError why))

/-- `reg_read` on a native transport: for each chunk of at most max_read bytes, the register byte written to 0x4A, then
the read from 0x4B, or 0x4A where the read is not sequential or of one byte; the bytes come back in order. A failing
transaction ends it with its error. -/
def Obligations.RegRead : Prop :=
  ∀ (s : State) (reg : Byte) (out : List Byte) (seq : Bool) (ws : List WriteAnswer) (rs : List ReadAnswer)
    (xs : List Bool), s.session ≠ .closed → s.OnOracle → out ≠ [] →
    (s.Answers (readScript s.maxRead reg out seq) ws rs xs →
      exec (.regRead reg out.length seq) s =
        .next ((s.afterAnswers ws rs xs (eventsOf (readScript s.maxRead reg out seq))).complete (.bytes out))) ∧
    ∀ script e, CutShort pollError (readScript s.maxRead reg out seq) script e → s.Answers script ws rs xs →
      exec (.regRead reg out.length seq) s = .next ((s.afterAnswers ws rs xs (eventsOf script)).takeError e)

/-- Chunking invariance on the reference device. `reg_write` leaves the same registers, programming buffer and flash for
every max_write other than 1; only the number of transactions differs: ⌈len / (max_write - 1)⌉, or 1 without a limit. A
payload that gives no command ends up in its registers, or in the buffer. `reg_read` answers the same bytes and leaves the
same device for every max_read: the registers from reg on, or at the port 0x70 the flash from the read position on, which
advances; the transactions are two for each of the ⌈n / max_read⌉ chunks. Every byte goes to or comes from the port 0x70,
or none reaches it from a register below (assumption log 27); where the pointer then stands may differ (assumption
log 10). -/
def Obligations.ChunkingInvariance : Prop :=
  ∀ (s : State) (reg : Byte) (seq : Bool) (m : Nat), s.session ≠ .closed → s.OnReference →
    s.device.canonical s.params = true →
    (∀ payload : List Byte, m ≠ 1 → payload ≠ [] →
      (reg = 0x70 ∨ ∀ k, k < payload.length → reg + BitVec.ofNat 8 k ≠ 0x70) →
      ∃ t u : State, exec (.regWrite reg payload seq) s = .next (t.complete .unit) ∧
        exec (.regWrite reg payload seq) { s with maxWrite := m } = .next (u.complete .unit) ∧
        u.device = { t.device with pointer := u.device.pointer } ∧
        t.trace.length = s.trace.length +
          (if s.maxWrite = 0 then 1 else (payload.length + s.maxWrite - 2) / (s.maxWrite - 1)) ∧
        u.trace.length = s.trace.length + (if m = 0 then 1 else (payload.length + m - 2) / (m - 1)) ∧
        (reg = 0x70 → t.device.buffer = s.device.buffer ++ payload) ∧
        (reg ≠ 0x70 → storesPlainly reg payload.length = true → ∀ k, k < payload.length →
          some (t.device.readReg (reg + BitVec.ofNat 8 k)) = payload[k]?)) ∧
    ∀ n : Nat, n ≠ 0 → (reg = 0x70 ∨ ∀ k, k < n → reg + BitVec.ofNat 8 k ≠ 0x70) →
      ∃ t u : State, ∃ bytes : List Byte,
        bytes = (List.range n).map (fun k =>
          if reg = 0x70 then s.device.readFlash s.params (s.device.pos + k)
          else s.device.readReg (reg + BitVec.ofNat 8 k)) ∧
        exec (.regRead reg n seq) s = .next (t.complete (.bytes bytes)) ∧
        exec (.regRead reg n seq) { s with maxRead := m } = .next (u.complete (.bytes bytes)) ∧
        t.device = { s.device with
          pointer := t.device.pointer, pos := if reg = 0x70 then s.device.pos + n else s.device.pos } ∧
        u.device = { t.device with pointer := u.device.pointer } ∧
        t.trace.length = s.trace.length + 2 * (if s.maxRead = 0 then 1 else (n + s.maxRead - 1) / s.maxRead) ∧
        u.trace.length = s.trace.length + 2 * (if m = 0 then 1 else (n + m - 1) / m)

/-- `enter_isp`: the command write's outcome is ignored unless it is BusStuck; the read-back decides: Ok and IspActive
with bit 7 set, EnterIspFailed with it clear or on a NoAck or IoError; BusStuck comes through. -/
def Obligations.EnterIsp : Prop :=
  ∀ (s : State) (r : WriteAnswer) (ws : List WriteAnswer), s.session = .initialized → s.OnOracle →
    let command := Event.tWrite 0x4A [0x6F, 0x80] r
    (r ≠ .failed .busStuck → ∀ v rs, s.env.writes = r :: .ok :: ws → s.env.reads = .ok [v] :: rs →
      let t := s.afterAnswers ws rs s.env.expiries [command, .tWrite 0x4A [0x6F] .ok, .tRead 0x4A 1 (.ok [v])]
      exec .enterIsp s = .next (if v &&& 0x80 ≠ 0 then { t with session := .ispActive }.complete .unit
        else t.takeError .enterIspFailed)) ∧
    (r ≠ .failed .busStuck → ∀ why, s.env.writes = r :: .failed why :: ws →
      exec .enterIsp s = .next ((s.afterAnswers ws s.env.reads s.env.expiries
        [command, .tWrite 0x4A [0x6F] (.failed why)]).takeError
          (if why = .busStuck then .busStuck .backend else .enterIspFailed))) ∧
    (r ≠ .failed .busStuck → ∀ why rs, s.env.writes = r :: .ok :: ws → s.env.reads = .failed why :: rs →
      exec .enterIsp s = .next ((s.afterAnswers ws rs s.env.expiries
        [command, .tWrite 0x4A [0x6F] .ok, .tRead 0x4A 1 (.failed why)]).takeError
          (if why = .busStuck then .busStuck .backend else .enterIspFailed))) ∧
    (r = .failed .busStuck → s.env.writes = r :: ws →
      exec .enterIsp s = .next ((s.afterAnswers ws s.env.reads s.env.expiries [command]).takeError
        (.busStuck .backend)))

/-- `exit_isp`: one write of 0x02 to 0xEE, whose outcome does not matter, and the session back in Initialized. In every
environment it ends Ok, unless a recovery of the software bus never ends, without RESET_ROUND_LIMIT only (the model then
stops, assumption log 6). -/
def Obligations.ExitIsp : Prop :=
  ∀ s : State, s.session = .ispActive → s.maxWrite ≠ 1 →
    (∀ r ws, s.OnOracle → s.env.writes = r :: ws →
      exec .exitIsp s = .next ({ s.afterAnswers ws s.env.reads s.env.expiries [.tWrite 0x4A [0xEE, 0x02] r] with
        session := .initialized }.complete .unit)) ∧
    (exec .exitIsp s = .fault .recoveryNeverEnds ∧ s.backend = .softwareBus ∧ s.params.resetRoundLimit = none ∨
      ∃ t : State, t.session = .initialized ∧ AccessFrame s { t with session := s.session } ∧
        exec .exitIsp s = .next (t.complete .unit))

/-- `poll`: reads that the test rejects and whose wait does not expire, then one it accepts, whose byte is the result; or
one that it rejects and whose wait expires, after which the Expired event and the given error. A failing read ends it
with the transport's error. -/
def Obligations.Poll : Prop :=
  ∀ (s : State) (site : PollSite) (reg : Byte) (test : PollTest) (timeout : Timeout) (err : Err) (p : PollReads)
    (ws : List WriteAnswer) (rs : List ReadAnswer) (xs : List Bool), s.session ≠ .closed → s.OnOracle →
    (p.Passes (pollAccepts test) → s.Answers (pollScript site reg p) ws rs xs →
      exec (.poll site reg test timeout err) s =
        .next ((s.afterAnswers ws rs xs (eventsOf (pollScript site reg p))).complete (.byte p.last))) ∧
    (p.FailsAll (pollAccepts test) → s.Answers (expiryScript site reg p) ws rs xs →
      exec (.poll site reg test timeout err) s =
        .next ((s.afterAnswers ws rs xs (eventsOf (expiryScript site reg p))).takeError err)) ∧
    ∀ script e, p.Passes (pollAccepts test) → CutShort (fun _ => err) (pollScript site reg p) script e →
      s.Answers script ws rs xs →
      exec (.poll site reg test timeout err) s = .next ((s.afterAnswers ws rs xs (eventsOf script)).takeError e)

/-- `custom_instruction`: the operand, opcode and control writes, the poll of 0x60 until bit 0 is clear, and the result
registers as one big-endian value, or None; CustomInstructionTimeout where the poll expires. -/
def Obligations.CustomInstruction : Prop :=
  ∀ (s : State) (cmdType : Nat) (opcode : Byte) (writeN value : Nat) (ci : PollReads) (ws : List WriteAnswer)
    (rs : List ReadAnswer) (xs : List Bool), s.session = .ispActive → s.OnOracle → cmdType ≤ 7 → writeN ≤ 3 →
    (0 < writeN → value < 2 ^ (8 * writeN)) →
    (ci.Passes ciDone →
      (∀ script, script = instructionScript s.maxWrite cmdType opcode 0 writeN value ci → s.Answers script ws rs xs →
        exec (.customInstruction cmdType opcode 0 writeN value) s =
          .next ((s.afterAnswers ws rs xs (eventsOf script)).complete (.optNat none))) ∧
      (∀ script out, 0 < out.length → out.length ≤ 3 →
        script = instructionScript s.maxWrite cmdType opcode out.length writeN value ci ++
          readScript s.maxRead 0x67 out true → s.Answers script ws rs xs →
        exec (.customInstruction cmdType opcode out.length writeN value) s =
          .next ((s.afterAnswers ws rs xs (eventsOf script)).complete (.optNat (some (beValue out)))))) ∧
    (ci.FailsAll ciDone → ∀ readN script, readN ≤ 3 →
      script = commandScript s.maxWrite cmdType opcode readN writeN value ++ expiryScript .ci 0x60 ci →
      s.Answers script ws rs xs →
      exec (.customInstruction cmdType opcode readN writeN value) s =
        .next ((s.afterAnswers ws rs xs (eventsOf script)).takeError .customInstructionTimeout))

/-- `device_crc`: start to 0x64.., end to 0x72.., the command 0x84, the poll of 0x6F until bit 1 is set, and the byte of
0x75, whatever it is; BusStuck(CRC) where the poll expires. -/
def Obligations.DeviceCrc : Prop :=
  ∀ (s : State) (first last : Nat) (crc : PollReads) (d : Byte) (ws : List WriteAnswer) (rs : List ReadAnswer)
    (xs : List Bool), s.session = .ispActive → s.OnOracle → first ≤ last → last < 2 ^ 24 →
    (crc.Passes crcDone → s.Answers (crcScript s.maxWrite first last crc d) ws rs xs →
      exec (.deviceCrc first last) s = .next ((s.afterAnswers ws rs xs
        (eventsOf (crcScript s.maxWrite first last crc d))).complete (.byte d))) ∧
    (crc.FailsAll crcDone → ∀ script,
      script = crcCommandScript s.maxWrite first last ++ expiryScript .crc 0x6F crc → s.Answers script ws rs xs →
      exec (.deviceCrc first last) s =
        .next ((s.afterAnswers ws rs xs (eventsOf script)).takeError (.busStuck (.site .crc))))

/-- The rows that write a register, as the register write that produces their encoding (assumption log 3): F-CTRL to
0x60, F-CMD to 0x6F, F-RBT to 0xEE, F-SIZE to 0x71, F-A24 to 0x64.. or 0x72.., and F-OPND's operand to 0x64...; and
F-OPND's result, read from 0x67... A failing transaction ends them with its error, and no later one is made. -/
def Obligations.RegisterRows : Prop :=
  ∀ (s : State) (ws : List WriteAnswer) (rs : List ReadAnswer) (xs : List Bool), s.session ≠ .closed → s.OnOracle →
    (∀ i reg payload, registerWriteOf s.params i = some (reg, payload) →
      (s.Answers (writeScript s.maxWrite reg payload true) ws rs xs →
        exec i s = .next ((s.afterAnswers ws rs xs
          (eventsOf (writeScript s.maxWrite reg payload true))).complete .unit)) ∧
      ∀ script e, CutShort pollError (writeScript s.maxWrite reg payload true) script e → s.Answers script ws rs xs →
        exec i s = .next ((s.afterAnswers ws rs xs (eventsOf script)).takeError e)) ∧
    (∀ value, exec (.opnd (.write 0 value)) s = .next (s.complete .unit)) ∧
    exec (.opnd (.read 0)) s = .next (s.complete (.optNat none)) ∧
    ∀ (n : BitVec 2) (out : List Byte), n ≠ 0 → out.length = n.toNat →
      (s.Answers (readScript s.maxRead 0x67 out true) ws rs xs →
        exec (.opnd (.read n)) s = .next ((s.afterAnswers ws rs xs
          (eventsOf (readScript s.maxRead 0x67 out true))).complete (.optNat (some (beValue out))))) ∧
      ∀ script e, CutShort pollError (readScript s.maxRead 0x67 out true) script e → s.Answers script ws rs xs →
        exec (.opnd (.read n)) s = .next ((s.afterAnswers ws rs xs (eventsOf script)).takeError e)

/-- The rows that test a bit, as a read of the register and the bit's value (assumption log 3): bits 7, 6 and 1 of 0x6F,
and bit 0 of 0x60. A failing read ends them with its error. -/
def Obligations.StatusRows : Prop :=
  ∀ (s : State) (v : Byte) (ws : List WriteAnswer) (rs : List ReadAnswer) (xs : List Bool), s.session ≠ .closed →
    s.OnOracle →
    ∀ i reg k, (i, reg, k) ∈ [(Instr.statIsp, (0x6F : Byte), 7), (.statBusy, 0x6F, 6), (.statCrcReady, 0x6F, 1),
        (.ciPending, 0x60, 0)] →
      (s.Answers (byteScript reg v) ws rs xs →
        exec i s = .next ((s.afterAnswers ws rs xs (eventsOf (byteScript reg v))).complete (.bool (v.getLsbD k)))) ∧
      ∀ script e, CutShort pollError (byteScript reg v) script e → s.Answers script ws rs xs →
        exec i s = .next ((s.afterAnswers ws rs xs (eventsOf script)).takeError e)

/-- F-REGW and F-REGR as transactions (assumption log 3, 21): one write of the register byte and the chunk to 0x4A or
0x4B; the register byte written to 0x4A and then one read, from 0x4B if sequential. A failing transaction ends them with
its error, and after a failing write F-REGR reads nothing. -/
def Obligations.TransactionRows : Prop :=
  ∀ (s : State) (reg : Byte) (ws : List WriteAnswer) (rs : List ReadAnswer), s.session ≠ .closed → s.OnOracle →
    (∀ (a : IspAddr) chunk r, chunk ≠ [] → (s.maxWrite = 0 ∨ chunk.length + 1 ≤ s.maxWrite) → s.env.writes = r :: ws →
      exec (.regw a reg chunk) s =
        let t := s.afterAnswers ws s.env.reads s.env.expiries
          [.tWrite (if a = .autoinc then 0x4B else 0x4A) (reg :: chunk) r]
        .next (match r with
          | .ok => t.complete .unit
          | .failed why => t.takeError (xferError why))) ∧
    (∀ n seq why, n ≠ 0 → (s.maxRead = 0 ∨ n ≤ s.maxRead) → s.env.writes = .failed why :: ws →
      exec (.regr reg n seq) s = .next ((s.afterAnswers ws s.env.reads s.env.expiries
        [.tWrite 0x4A [reg] (.failed why)]).takeError (xferError why))) ∧
    (∀ n seq why, n ≠ 0 → (s.maxRead = 0 ∨ n ≤ s.maxRead) → s.env.writes = .ok :: ws →
      s.env.reads = .failed why :: rs →
      exec (.regr reg n seq) s = .next ((s.afterAnswers ws rs s.env.expiries
        [.tWrite 0x4A [reg] .ok, .tRead (if seq then 0x4B else 0x4A) n (.failed why)]).takeError (xferError why))) ∧
    ∀ out seq, out ≠ [] → (s.maxRead = 0 ∨ out.length ≤ s.maxRead) → s.env.writes = .ok :: ws →
      s.env.reads = .ok out :: rs →
      exec (.regr reg out.length seq) s = .next ((s.afterAnswers ws rs s.env.expiries
        [.tWrite 0x4A [reg] .ok, .tRead (if seq then 0x4B else 0x4A) out.length (.ok out)]).complete (.bytes out))

/-! ## FlashController -/

/-- The pages of an image: ⌈n / 128⌉ of them, page p the bytes from 128p on, all of 128 bytes but the last, which has 1
to 128; together they are the image. -/
def Obligations.PagePartition : Prop :=
  ∀ img : List Byte,
    chunks 128 img = (List.range (pieceCount 128 img.length)).map (imagePage img) ∧
    (chunks 128 img).flatten = img ∧
    (∀ k, k + 1 < pieceCount 128 img.length → (imagePage img k).length = 128) ∧
    (∀ k, k + 1 = pieceCount 128 img.length → (imagePage img k).length = img.length - 128 * k ∧
      1 ≤ (imagePage img k).length ∧ (imagePage img k).length ≤ 128)

/-- `erase`: unprotect, the erase instruction, protect, each with its own poll of 0x60; no busy poll and no progress
call. -/
def Obligations.Erase : Prop :=
  ∀ (s : State) (ci1 ci2 ci3 : PollReads) (ws : List WriteAnswer) (rs : List ReadAnswer) (xs : List Bool),
    s.session = .ispActive → s.OnOracle → (∀ ci ∈ [ci1, ci2, ci3], ci.Passes ciDone) →
    s.Answers (eraseScript s.params s.maxWrite ci1 ci2 ci3) ws rs xs →
    exec .erase s = .next ((s.afterAnswers ws rs xs
      (eventsOf (eraseScript s.params s.maxWrite ci1 ci2 ci3))).complete .unit)

/-- `program`: unprotect; for each page its progress call and, unless every byte is 0xFF, the busy poll, the size, the
address, the data and the page write; a last busy poll; protect; then the host CRC of the image against the device CRC of
addresses 0 to n - 1, a last progress call, and Ok or VerificationFailed. That the CRC register keeps the host CRC is the
model's (assumption log 25). -/
def Obligations.Program : Prop :=
  ∀ (s : State) (img : List Byte) (ci1 ci2 crc : PollReads) (busy : Nat → PollReads) (d : Byte)
    (ws : List WriteAnswer) (rs : List ReadAnswer) (xs : List Bool) (script : List Act),
    s.session = .ispActive → s.OnOracle → 1 ≤ img.length → img.length ≤ s.params.chipSize →
    (∀ ci ∈ [ci1, ci2], ci.Passes ciDone) → (∀ k, (busy k).Passes notBusy) →
    crc.Passes crcDone →
    script = programScript s.params s.maxWrite img ci1 ci2 busy ++ verifyScript s.maxWrite img.length crc d →
    s.Answers script ws rs xs →
    exec (.program img) s =
      let t := { s.afterAnswers ws rs xs (eventsOf script) with crc := hostCrc img }
      .next (if hostCrc img = d then t.complete .unit else t.takeError .verificationFailed)

/-- `read`: the priming instruction, whose three result bytes are read and not used; the busy poll; the chunks of 128
bytes from the port 0x70, each after its progress call; and the verification of the bytes read, which are the result only
where it succeeds. -/
def Obligations.FlashRead : Prop :=
  ∀ (s : State) (out primed : List Byte) (ci busy crc : PollReads) (d : Byte)
    (ws : List WriteAnswer) (rs : List ReadAnswer) (xs : List Bool) (script : List Act),
    s.session = .ispActive → s.OnOracle → 1 ≤ out.length → out.length ≤ s.params.chipSize → primed.length = 3 →
    ci.Passes ciDone → busy.Passes notBusy → crc.Passes crcDone →
    script = flashReadScript s.params s.maxWrite s.maxRead out primed ci busy ++
      verifyScript s.maxWrite out.length crc d →
    s.Answers script ws rs xs →
    exec (.flashRead out.length) s =
      let t := { s.afterAnswers ws rs xs (eventsOf script) with crc := hostCrc out }
      .next (if hostCrc out = d then t.complete (.bytes out) else t.takeError .verificationFailed)

/-- The failure policy: where an operation's script is cut short by a failing transaction or an expiring poll, the
operation ends with that error, and no later step runs. -/
def Obligations.FailurePolicy : Prop :=
  ∀ (s : State) (i : Instr) (script cut : List Act) (e : Err) (ws : List WriteAnswer) (rs : List ReadAnswer)
    (xs : List Bool), s.session = .ispActive → s.OnOracle → runsAs s i script → CutShort pollError script cut e →
    s.Answers cut ws rs xs →
    ∃ c, exec i s = .next ({ s.afterAnswers ws rs xs (eventsOf cut) with crc := c }.takeError e) ∧
      (c = s.crc ∨ (∃ img, i = .program img ∧ c = hostCrc img) ∨ ∃ n, i = .flashRead n)

/-- The progress calls of `program` and `read`, in every environment: ⌈n/128⌉ + 1 of them, before each page or chunk and
once more at the end, where the operation ends Ok or with VerificationFailed, and an initial part of them otherwise;
`erase` makes none. -/
def Obligations.ProgressCalls : Prop :=
  ∀ (s t : State) (es : List Event), t.trace = s.trace ++ es →
    (exec .erase s = .next t → es.filter isProgress = []) ∧
    ∀ i n, (∃ img, i = .program img ∧ n = img.length) ∨ i = .flashRead n → exec i s = .next t →
      es.filter isProgress <+: progressCalls n ∧
      ((t.endedOk = true ∨ t.result = some (.err .verificationFailed)) → es.filter isProgress = progressCalls n)

/-! ## The reference device -/

/-- What a transaction does to the reference device at 0x4A or 0x4B (D34; assumption log 10). A write: registers, the
port 0x70, and the commands of 0x6F and 0xEE; every register the write does not name reads as before, but 0x6F, which
shows the status bits, and 0x75, which takes the CRC. A read: the registers from the pointer on, or at the port 0x70 the
flash from the read position on, which advances. The register byte of a write sets the pointer, and the data of a write or
read at 0x4B advance it, but not past 0x70 (R43, 90_conflicts C5; at 0x4A they leave it, assumption log 10). Any other
address gets no acknowledge. -/
def Obligations.DeviceTransactions : Prop :=
  ∀ (s : State) (a : Addr7), s.session ≠ .closed → s.OnReference → s.maxWrite = 0 → s.maxRead = 0 →
    s.device.canonical s.params = true →
    let d := s.device
    (¬(a = 0x4A ∨ a = 0x4B) →
      (∀ bytes, exec (.tWrite a bytes) s =
        .next ((s.afterAccess [.tWrite a bytes (.failed .noAck)] d).takeError (.noAck .backend))) ∧
      ∀ n, exec (.tRead a n) s =
        .next ((s.afterAccess [.tRead a n (.failed .noAck)] d).takeError (.noAck .backend))) ∧
    ((a = 0x4A ∨ a = 0x4B) →
    (∀ n, d.pointer ≠ 0x70 → ∃ r' bytes, PointerMoves a d.pointer n r' ∧
      bytes = (List.range n).map (fun k => d.readReg (d.pointer + BitVec.ofNat 8 k)) ∧
      exec (.tRead a n) s =
        .next ((s.afterAccess [.tRead a n (.ok bytes)] { d with pointer := r' }).complete (.bytes bytes))) ∧
    (∀ n, d.pointer = 0x70 → ∃ bytes, bytes = (List.range n).map (fun k => d.readFlash s.params (d.pos + k)) ∧
      exec (.tRead a n) s = .next ((s.afterAccess [.tRead a n (.ok bytes)] { d with pos := d.pos + n }).complete
        (.bytes bytes))) ∧
    (∀ reg data, storesPlainly reg (data.length) = true → ∃ d', exec (.tWrite a (reg :: data)) s =
        .next ((s.afterAccess [.tWrite a (reg :: data) .ok] d').complete .unit) ∧
      PointerMoves a reg data.length d'.pointer ∧
      (reg = 0x70 → d' = { d with pointer := 0x70, buffer := d.buffer ++ data }) ∧
      (reg ≠ 0x70 → d' = { d with pointer := d'.pointer, regs := d'.regs } ∧
        (∀ k, k < data.length → some (d'.readReg (reg + BitVec.ofNat 8 k)) = data[k]?) ∧
        ∀ r : Byte, (∀ k, k < data.length → r ≠ reg + BitVec.ofNat 8 k) → d'.readReg r = d.readReg r)) ∧
    exec (.tWrite a [0x6F, 0x80]) s = .next ((s.afterAccess [.tWrite a [0x6F, 0x80] .ok]
      { d with pointer := if a = 0x4B then 0x70 else 0x6F, ispMode := true }).complete .unit) ∧
    (∃ d', exec (.tWrite a [0xEE, 0x02]) s = .next ((s.afterAccess [.tWrite a [0xEE, 0x02] .ok] d').complete .unit) ∧
      d' = { d with pointer := if a = 0x4B then 0xEF else 0xEE, ispMode := false, regs := d'.regs } ∧ d'.readReg 0xEE = 0x02 ∧
      ∀ r : Byte, r ≠ 0xEE → r ≠ 0x6F → d'.readReg r = d.readReg r) ∧
    (∃ d', exec (.tWrite a [0x6F, 0xA0]) s = .next ((s.afterAccess [.tWrite a [0x6F, 0xA0] .ok] d').complete .unit) ∧
      d' = { d with pointer := if a = 0x4B then 0x70 else 0x6F, buffer := [], flash := d'.flash } ∧
      (∀ x, s.params.chipSize ≤ x → d'.flash.read .flash x = d.flash.read .flash x) ∧
      ∀ x, x < s.params.chipSize → d'.flash.read .flash x =
        match d.buffer[x - d.readValue 0x64 3]? with
        | some b => if d.readValue 0x64 3 ≤ x then d.flash.read .flash x &&& b else d.flash.read .flash x
        | none => d.flash.read .flash x) ∧
    ∃ d', exec (.tWrite a [0x6F, 0x84]) s = .next ((s.afterAccess [.tWrite a [0x6F, 0x84] .ok] d').complete .unit) ∧
      d' = { d with pointer := if a = 0x4B then 0x70 else 0x6F, crcReady := true, regs := d'.regs } ∧
      d'.readReg 0x75 = hostCrc (d.readFlashRange s.params (d.readValue 0x64 3)
        (d.readValue 0x72 3 + 1 - d.readValue 0x64 3)) ∧
      ∀ r : Byte, r ≠ 0x75 → r ≠ 0x6F → d'.readReg r = d.readReg r)

/-- What the instructions started at 0x60 do to the reference device: erase, write-status-register and read by the
parameters' codes, and nothing for the others; 0x60 then reads back with bit 0 clear. Erase blanks the flash;
write-status-register takes an operand of write_n bytes as the protection byte (D34 says so of one byte; none leaves it,
and of more the lowest counts: assumption log 10); read sets the read position and clears the three result registers.
At 0x4A the pointer then names 0x60, and nothing else changes. -/
def Obligations.DeviceInstructions : Prop :=
  ∀ (s : State) (c : Byte), s.session ≠ .closed → s.OnReference → s.maxWrite = 0 → s.DistinctInstructions →
    s.device.canonical s.params = true → c.getLsbD 0 = true →
    let d := s.device
    let p := s.params
    let op := d.readReg 0x61
    let cmdType := c.extractLsb' 5 3
    let writeN := c.extractLsb' 3 2
    ∃ d', exec (.tWrite 0x4A [0x60, c]) s = .next ((s.afterAccess [.tWrite 0x4A [0x60, c] .ok] d').complete .unit) ∧
      d' = { d with
        pointer := 0x60, regs := d'.regs, flash := d'.flash, protection := d'.protection, pos := d'.pos } ∧
      d'.readReg 0x60 = c &&& 0xFE ∧
      (cmdType = p.ctErase → op = p.opErase →
        d'.flash = [] ∧ d'.protection = d.protection ∧ d'.pos = d.pos ∧
        ∀ r : Byte, r ≠ 0x60 → d'.readReg r = d.readReg r) ∧
      (cmdType = p.ctWrenWrsr → op = p.opWrsr →
        (writeN = 0 → d'.protection = d.protection) ∧ (writeN = 1 → d'.protection = d.readReg 0x64) ∧
        (writeN ≠ 0 → d'.protection = BitVec.ofNat 8 (d.readValue 0x64 writeN.toNat)) ∧
        d'.flash = d.flash ∧ d'.pos = d.pos ∧ ∀ r : Byte, r ≠ 0x60 → d'.readReg r = d.readReg r) ∧
      (cmdType = p.ctRead → op = p.opRead →
        d'.pos = d.readValue 0x64 3 ∧ d'.readReg 0x67 = 0 ∧ d'.readReg 0x68 = 0 ∧ d'.readReg 0x69 = 0 ∧
        d'.flash = d.flash ∧ d'.protection = d.protection ∧
        ∀ r : Byte, r ≠ 0x60 → r ≠ 0x67 → r ≠ 0x68 → r ≠ 0x69 → d'.readReg r = d.readReg r) ∧
      (¬(cmdType = p.ctErase ∧ op = p.opErase) → ¬(cmdType = p.ctWrenWrsr ∧ op = p.opWrsr) →
        ¬(cmdType = p.ctRead ∧ op = p.opRead) →
        d'.flash = d.flash ∧ d'.protection = d.protection ∧ d'.pos = d.pos ∧
        ∀ r : Byte, r ≠ 0x60 → d'.readReg r = d.readReg r)

/-- The round-trip law on the reference device: where every page of the image that is all 0xFF is erased, and so is the
rest of the image's range, `program` ends Ok and the `read` after it answers the image. The device's corners are the
model's (assumption log 10). -/
def Obligations.ProgramThenRead : Prop :=
  ∀ (s : State) (img : List Byte), s.session = .ispActive → s.OnReference → s.DistinctInstructions →
    s.device.canonical s.params = true → s.device.busy = false → s.device.buffer = [] →
    1 ≤ img.length → img.length ≤ s.params.chipSize → (∀ a, a < img.length → s.device.flash.read .flash a = 0xFF) →
    ∃ t u : State, exec (.program img) s = .next (t.complete .unit) ∧
      exec (.flashRead img.length) (t.complete .unit) = .next (u.complete (.bytes img)) ∧
      t.session = .ispActive ∧ (∀ a, a < img.length → some (t.device.flash.read .flash a) = img[a]?) ∧
      ∀ a, img.length ≤ a → t.device.flash.read .flash a = s.device.flash.read .flash a
end

