-- ==== Sys2Proof/Laws/Coding.lean ====
section
/-! SUPPORT. Reading operands: each reader gives back what its encoder wrote and leaves the bytes after it. -/

namespace Sys2Proof

variable {α β : Type}

/-! ## Running a reader -/

@[simp] theorem Parser.pure_run (a : α) (bytes : List Byte) : (pure a : Parser α) bytes = .ok a bytes := rfl

@[simp] theorem Parser.bind_run (x : Parser α) (f : α → Parser β) (bytes : List Byte) :
    (x >>= f) bytes = match x bytes with
      | .ok a rest => f a rest
      | .error e rest => .error e rest := by
  change EStateM.bind x f bytes = _
  unfold EStateM.bind
  cases x bytes <;> rfl

@[simp] theorem Parser.map_run (f : α → β) (x : Parser α) (bytes : List Byte) :
    (f <$> x) bytes = match x bytes with
      | .ok a rest => .ok (f a) rest
      | .error e rest => .error e rest := by
  change EStateM.map f x bytes = _
  unfold EStateM.map
  cases x bytes <;> rfl

@[simp] theorem Parser.get_run (bytes : List Byte) : (get : Parser (List Byte)) bytes = .ok bytes bytes := rfl

@[simp] theorem Parser.set_run (rest bytes : List Byte) : (set rest : Parser PUnit) bytes = .ok () rest := rfl

@[simp] theorem Parser.throw_run (e : DecodeError) (bytes : List Byte) :
    (throw e : Parser α) bytes = .error e bytes := rfl

@[simp] theorem Parser.ite_run (c : Prop) [Decidable c] (x y : Parser α) (bytes : List Byte) :
    (if c then x else y) bytes = if c then x bytes else y bytes := by split <;> rfl

/-! ## Naturals and lists -/

@[simp] theorem parseByte_cons (b : Byte) (rest : List Byte) : parseByte (b :: rest) = .ok b rest := rfl

theorem takeNat_encodeNatFuel (fuel n : Nat) (rest : List Byte) (h : n ≤ fuel) :
    takeNat (encodeNatFuel fuel n ++ rest) = some (n, rest) := by
  induction fuel generalizing n with
  | zero =>
    obtain rfl : n = 0 := by omega
    simp [encodeNatFuel, takeNat]
  | succ fuel ih =>
    by_cases hn : n < 128
    · have : n % 256 = n := by omega
      simp [encodeNatFuel, hn, takeNat, this]
    · have e : (BitVec.ofNat 8 (128 + n % 128)).toNat = 128 + n % 128 := by
        rw [BitVec.toNat_ofNat]; omega
      have h128 : ¬ 128 + n % 128 < 128 := by omega
      simp only [encodeNatFuel, hn, if_false, List.cons_append, takeNat, e, h128, ih (n / 128) (by omega),
        Option.map_some]
      congr 2
      omega

@[simp] theorem parseNat_encode (n : Nat) (rest : List Byte) : parseNat (encodeNat n ++ rest) = .ok n rest := by
  have h : takeNat (encodeNat n ++ rest) = some (n, rest) := takeNat_encodeNatFuel n n rest (Nat.le_refl n)
  simp [parseNat, h]

@[simp] theorem parseBytes_append (bytes rest : List Byte) : parseBytes bytes.length (bytes ++ rest) = .ok bytes rest := by
  simp [parseBytes]

@[simp] theorem parseList_encode (bytes rest : List Byte) : parseList (encodeList bytes ++ rest) = .ok bytes rest := by
  simp [parseList, encodeList, List.append_assoc]

/-! ## Operands -/

@[simp] theorem parseBool_encode (b : Bool) (rest : List Byte) : parseBool (encodeBool b ++ rest) = .ok b rest := by
  cases b <;> rfl

theorem parseStream_encode (bs : BitStream) (rest : List Byte) (h : bs.valid = true) :
    parseStream (encodeStream bs ++ rest) = .ok bs rest := by
  simp [parseStream, encodeStream, List.append_assoc, h]

@[simp] theorem parseLine_encode (l : Line) (rest : List Byte) : parseLine (encodeLine l ++ rest) = .ok l rest := by
  cases l <;> rfl

@[simp] theorem parseSite_encode (p : PollSite) (rest : List Byte) : parseSite (encodeSite p ++ rest) = .ok p rest := by
  cases p <;> rfl

@[simp] theorem parseTimeout_encode (t : Timeout) (rest : List Byte) :
    parseTimeout (encodeTimeout t ++ rest) = .ok t rest := by cases t <;> rfl

@[simp] theorem parseTest_encode (t : PollTest) (rest : List Byte) : parseTest (encodeTest t ++ rest) = .ok t rest := by
  cases t with
  | anySet mask => rfl
  | allClear mask => rfl
  | table answers => simp [parseTest, encodeTest]

@[simp] theorem parseStuckAt_encode (w : StuckAt) (rest : List Byte) :
    parseStuckAt (encodeStuckAt w ++ rest) = .ok w rest := by
  cases w with
  | line l => cases l <;> rfl
  | site p => cases p <;> rfl
  | backend => rfl

@[simp] theorem parseNackAt_encode (w : NackAt) (rest : List Byte) :
    parseNackAt (encodeNackAt w ++ rest) = .ok w rest := by
  cases w with
  | address => rfl
  | data j => simp [parseNackAt, encodeNackAt]
  | backend => rfl

@[simp] theorem parseErr_encode (e : Err) (rest : List Byte) : parseErr (encodeErr e ++ rest) = .ok e rest := by
  cases e with
  | busStuck w => simp [parseErr, encodeErr]
  | noAck w => simp [parseErr, encodeErr]
  | ioError => rfl
  | enterIspFailed => rfl
  | customInstructionTimeout => rfl
  | verificationFailed => rfl
  | decodeError => rfl
  | signatureMismatch => rfl
  | tooSmall => rfl

@[simp] theorem parseAddr7_cons (a : Addr7) (rest : List Byte) : parseAddr7 (a.setWidth 8 :: rest) = .ok a rest := by
  have h1 : ∀ a : Addr7, (a.setWidth 8).toNat < 128 := by decide
  have h2 : ∀ a : Addr7, (a.setWidth 8).setWidth 7 = a := by decide
  simp only [parseAddr7, Parser.bind_run, parseByte_cons, Parser.ite_run, h1 a, if_true, Parser.pure_run, h2 a]

@[simp] theorem parseTwoBits_cons (n : BitVec 2) (rest : List Byte) :
    parseTwoBits (n.setWidth 8 :: rest) = .ok n rest := by
  have h1 : ∀ n : BitVec 2, (n.setWidth 8).toNat < 4 := by decide
  have h2 : ∀ n : BitVec 2, (n.setWidth 8).setWidth 2 = n := by decide
  simp only [parseTwoBits, Parser.bind_run, parseByte_cons, Parser.ite_run, h1 n, if_true, Parser.pure_run, h2 n]

/-- A word whose fixed bits are the row's. -/
theorem parseWord_cons (mask value b : Byte) (i : Instr) (rest : List Byte) (h : b &&& mask = value) :
    parseWord mask value i (b :: rest) = .ok i rest := by
  simp only [parseWord, Parser.bind_run, parseByte_cons, Parser.ite_run, h, if_true, Parser.pure_run]

theorem parseIspAddr_cons (a : IspAddr) (rest : List Byte) :
    parseIspAddr (addressByte a.addr false :: rest) = .ok a rest := by cases a <;> rfl

theorem parseA24Reg_cons (r : A24Reg) (rest : List Byte) : parseA24Reg (r.reg :: rest) = .ok r rest := by
  cases r <;> rfl

/-! ## Big-endian bytes (R9) -/

@[simp] theorem beBytes_length (v n : Nat) : (beBytes v n).length = n := by
  induction n generalizing v with
  | zero => rfl
  | succ n ih => simp [beBytes, ih]

theorem beValue_append (xs : List Byte) (b : Byte) : beValue (xs ++ [b]) = beValue xs * 256 + b.toNat := by
  simp [beValue]

theorem beValue_beBytes (v n : Nat) (h : v < 2 ^ (8 * n)) : beValue (beBytes v n) = v := by
  induction n generalizing v with
  | zero => simp at h; simp [beBytes, beValue, h]
  | succ n ih =>
    have hp : 2 ^ (8 * (n + 1)) = 2 ^ (8 * n) * 256 := by rw [Nat.mul_add, Nat.pow_add]
    rw [beBytes, beValue_append, ih (v / 256) (by omega), BitVec.toNat_ofNat]
    omega

/-- The 3-byte groups of F-A24 (R92). -/
theorem parseBytes_beBytes (v n : Nat) (rest : List Byte) : parseBytes n (beBytes v n ++ rest) = .ok (beBytes v n) rest := by
  have h := parseBytes_append (beBytes v n) rest
  rwa [beBytes_length] at h

end Sys2Proof
end

