-- ==== Sys2Proof/Laws/State.lean ====
section
/-! SUPPORT. One lemma per field per update of State, so that no later proof unfolds a record update. -/

namespace Sys2Proof.Machine

/-! ### setSession -/

@[simp] theorem State.setSession_sda (s : State) (v : Session) : (s.setSession v).sda = s.sda := rfl
@[simp] theorem State.setSession_scl (s : State) (v : Session) : (s.setSession v).scl = s.scl := rfl
@[simp] theorem State.setSession_session (s : State) (v : Session) : (s.setSession v).session = v := rfl
@[simp] theorem State.setSession_backend (s : State) (v : Session) : (s.setSession v).backend = s.backend := rfl
@[simp] theorem State.setSession_maxRead (s : State) (v : Session) : (s.setSession v).maxRead = s.maxRead := rfl
@[simp] theorem State.setSession_maxWrite (s : State) (v : Session) : (s.setSession v).maxWrite = s.maxWrite := rfl
@[simp] theorem State.setSession_params (s : State) (v : Session) : (s.setSession v).params = s.params := rfl
@[simp] theorem State.setSession_stream (s : State) (v : Session) : (s.setSession v).stream = s.stream := rfl
@[simp] theorem State.setSession_crc (s : State) (v : Session) : (s.setSession v).crc = s.crc := rfl
@[simp] theorem State.setSession_trace (s : State) (v : Session) : (s.setSession v).trace = s.trace := rfl
@[simp] theorem State.setSession_result (s : State) (v : Session) : (s.setSession v).result = s.result := rfl
@[simp] theorem State.setSession_env (s : State) (v : Session) : (s.setSession v).env = s.env := rfl
@[simp] theorem State.setSession_device (s : State) (v : Session) : (s.setSession v).device = s.device := rfl
@[simp] theorem State.setSession_calls (s : State) (v : Session) : (s.setSession v).calls = s.calls := rfl

/-! ### setStream -/

@[simp] theorem State.setStream_sda (s : State) (bs : BitStream) : (s.setStream bs).sda = s.sda := rfl
@[simp] theorem State.setStream_scl (s : State) (bs : BitStream) : (s.setStream bs).scl = s.scl := rfl
@[simp] theorem State.setStream_session (s : State) (bs : BitStream) : (s.setStream bs).session = s.session := rfl
@[simp] theorem State.setStream_backend (s : State) (bs : BitStream) : (s.setStream bs).backend = s.backend := rfl
@[simp] theorem State.setStream_maxRead (s : State) (bs : BitStream) : (s.setStream bs).maxRead = s.maxRead := rfl
@[simp] theorem State.setStream_maxWrite (s : State) (bs : BitStream) : (s.setStream bs).maxWrite = s.maxWrite := rfl
@[simp] theorem State.setStream_params (s : State) (bs : BitStream) : (s.setStream bs).params = s.params := rfl
@[simp] theorem State.setStream_stream (s : State) (bs : BitStream) : (s.setStream bs).stream = bs := rfl
@[simp] theorem State.setStream_crc (s : State) (bs : BitStream) : (s.setStream bs).crc = s.crc := rfl
@[simp] theorem State.setStream_trace (s : State) (bs : BitStream) : (s.setStream bs).trace = s.trace := rfl
@[simp] theorem State.setStream_result (s : State) (bs : BitStream) : (s.setStream bs).result = s.result := rfl
@[simp] theorem State.setStream_env (s : State) (bs : BitStream) : (s.setStream bs).env = s.env := rfl
@[simp] theorem State.setStream_device (s : State) (bs : BitStream) : (s.setStream bs).device = s.device := rfl
@[simp] theorem State.setStream_calls (s : State) (bs : BitStream) : (s.setStream bs).calls = s.calls := rfl

/-! ### setCrc -/

@[simp] theorem State.setCrc_sda (s : State) (v : Byte) : (s.setCrc v).sda = s.sda := rfl
@[simp] theorem State.setCrc_scl (s : State) (v : Byte) : (s.setCrc v).scl = s.scl := rfl
@[simp] theorem State.setCrc_session (s : State) (v : Byte) : (s.setCrc v).session = s.session := rfl
@[simp] theorem State.setCrc_backend (s : State) (v : Byte) : (s.setCrc v).backend = s.backend := rfl
@[simp] theorem State.setCrc_maxRead (s : State) (v : Byte) : (s.setCrc v).maxRead = s.maxRead := rfl
@[simp] theorem State.setCrc_maxWrite (s : State) (v : Byte) : (s.setCrc v).maxWrite = s.maxWrite := rfl
@[simp] theorem State.setCrc_params (s : State) (v : Byte) : (s.setCrc v).params = s.params := rfl
@[simp] theorem State.setCrc_stream (s : State) (v : Byte) : (s.setCrc v).stream = s.stream := rfl
@[simp] theorem State.setCrc_crc (s : State) (v : Byte) : (s.setCrc v).crc = v := rfl
@[simp] theorem State.setCrc_trace (s : State) (v : Byte) : (s.setCrc v).trace = s.trace := rfl
@[simp] theorem State.setCrc_result (s : State) (v : Byte) : (s.setCrc v).result = s.result := rfl
@[simp] theorem State.setCrc_env (s : State) (v : Byte) : (s.setCrc v).env = s.env := rfl
@[simp] theorem State.setCrc_device (s : State) (v : Byte) : (s.setCrc v).device = s.device := rfl
@[simp] theorem State.setCrc_calls (s : State) (v : Byte) : (s.setCrc v).calls = s.calls := rfl

/-! ### setEnv -/

@[simp] theorem State.setEnv_sda (s : State) (e : Env) : (s.setEnv e).sda = s.sda := rfl
@[simp] theorem State.setEnv_scl (s : State) (e : Env) : (s.setEnv e).scl = s.scl := rfl
@[simp] theorem State.setEnv_session (s : State) (e : Env) : (s.setEnv e).session = s.session := rfl
@[simp] theorem State.setEnv_backend (s : State) (e : Env) : (s.setEnv e).backend = s.backend := rfl
@[simp] theorem State.setEnv_maxRead (s : State) (e : Env) : (s.setEnv e).maxRead = s.maxRead := rfl
@[simp] theorem State.setEnv_maxWrite (s : State) (e : Env) : (s.setEnv e).maxWrite = s.maxWrite := rfl
@[simp] theorem State.setEnv_params (s : State) (e : Env) : (s.setEnv e).params = s.params := rfl
@[simp] theorem State.setEnv_stream (s : State) (e : Env) : (s.setEnv e).stream = s.stream := rfl
@[simp] theorem State.setEnv_crc (s : State) (e : Env) : (s.setEnv e).crc = s.crc := rfl
@[simp] theorem State.setEnv_trace (s : State) (e : Env) : (s.setEnv e).trace = s.trace := rfl
@[simp] theorem State.setEnv_result (s : State) (e : Env) : (s.setEnv e).result = s.result := rfl
@[simp] theorem State.setEnv_env (s : State) (e : Env) : (s.setEnv e).env = e := rfl
@[simp] theorem State.setEnv_device (s : State) (e : Env) : (s.setEnv e).device = s.device := rfl
@[simp] theorem State.setEnv_calls (s : State) (e : Env) : (s.setEnv e).calls = s.calls := rfl

/-! ### setDevice -/

@[simp] theorem State.setDevice_sda (s : State) (d : Device) : (s.setDevice d).sda = s.sda := rfl
@[simp] theorem State.setDevice_scl (s : State) (d : Device) : (s.setDevice d).scl = s.scl := rfl
@[simp] theorem State.setDevice_session (s : State) (d : Device) : (s.setDevice d).session = s.session := rfl
@[simp] theorem State.setDevice_backend (s : State) (d : Device) : (s.setDevice d).backend = s.backend := rfl
@[simp] theorem State.setDevice_maxRead (s : State) (d : Device) : (s.setDevice d).maxRead = s.maxRead := rfl
@[simp] theorem State.setDevice_maxWrite (s : State) (d : Device) : (s.setDevice d).maxWrite = s.maxWrite := rfl
@[simp] theorem State.setDevice_params (s : State) (d : Device) : (s.setDevice d).params = s.params := rfl
@[simp] theorem State.setDevice_stream (s : State) (d : Device) : (s.setDevice d).stream = s.stream := rfl
@[simp] theorem State.setDevice_crc (s : State) (d : Device) : (s.setDevice d).crc = s.crc := rfl
@[simp] theorem State.setDevice_trace (s : State) (d : Device) : (s.setDevice d).trace = s.trace := rfl
@[simp] theorem State.setDevice_result (s : State) (d : Device) : (s.setDevice d).result = s.result := rfl
@[simp] theorem State.setDevice_env (s : State) (d : Device) : (s.setDevice d).env = s.env := rfl
@[simp] theorem State.setDevice_device (s : State) (d : Device) : (s.setDevice d).device = d := rfl
@[simp] theorem State.setDevice_calls (s : State) (d : Device) : (s.setDevice d).calls = s.calls := rfl

/-! ### setCalls -/

@[simp] theorem State.setCalls_sda (s : State) (bytes : List Byte) : (s.setCalls bytes).sda = s.sda := rfl
@[simp] theorem State.setCalls_scl (s : State) (bytes : List Byte) : (s.setCalls bytes).scl = s.scl := rfl
@[simp] theorem State.setCalls_session (s : State) (bytes : List Byte) : (s.setCalls bytes).session = s.session := rfl
@[simp] theorem State.setCalls_backend (s : State) (bytes : List Byte) : (s.setCalls bytes).backend = s.backend := rfl
@[simp] theorem State.setCalls_maxRead (s : State) (bytes : List Byte) : (s.setCalls bytes).maxRead = s.maxRead := rfl
@[simp] theorem State.setCalls_maxWrite (s : State) (bytes : List Byte) : (s.setCalls bytes).maxWrite = s.maxWrite := rfl
@[simp] theorem State.setCalls_params (s : State) (bytes : List Byte) : (s.setCalls bytes).params = s.params := rfl
@[simp] theorem State.setCalls_stream (s : State) (bytes : List Byte) : (s.setCalls bytes).stream = s.stream := rfl
@[simp] theorem State.setCalls_crc (s : State) (bytes : List Byte) : (s.setCalls bytes).crc = s.crc := rfl
@[simp] theorem State.setCalls_trace (s : State) (bytes : List Byte) : (s.setCalls bytes).trace = s.trace := rfl
@[simp] theorem State.setCalls_result (s : State) (bytes : List Byte) : (s.setCalls bytes).result = s.result := rfl
@[simp] theorem State.setCalls_env (s : State) (bytes : List Byte) : (s.setCalls bytes).env = s.env := rfl
@[simp] theorem State.setCalls_device (s : State) (bytes : List Byte) : (s.setCalls bytes).device = s.device := rfl
@[simp] theorem State.setCalls_calls (s : State) (bytes : List Byte) : (s.setCalls bytes).calls = bytes := rfl

/-! ### emit -/

@[simp] theorem State.emit_sda (s : State) (e : Event) : (s.emit e).sda = s.sda := rfl
@[simp] theorem State.emit_scl (s : State) (e : Event) : (s.emit e).scl = s.scl := rfl
@[simp] theorem State.emit_session (s : State) (e : Event) : (s.emit e).session = s.session := rfl
@[simp] theorem State.emit_backend (s : State) (e : Event) : (s.emit e).backend = s.backend := rfl
@[simp] theorem State.emit_maxRead (s : State) (e : Event) : (s.emit e).maxRead = s.maxRead := rfl
@[simp] theorem State.emit_maxWrite (s : State) (e : Event) : (s.emit e).maxWrite = s.maxWrite := rfl
@[simp] theorem State.emit_params (s : State) (e : Event) : (s.emit e).params = s.params := rfl
@[simp] theorem State.emit_stream (s : State) (e : Event) : (s.emit e).stream = s.stream := rfl
@[simp] theorem State.emit_crc (s : State) (e : Event) : (s.emit e).crc = s.crc := rfl
@[simp] theorem State.emit_trace (s : State) (e : Event) : (s.emit e).trace = s.trace ++ [e] := rfl
@[simp] theorem State.emit_result (s : State) (e : Event) : (s.emit e).result = s.result := rfl
@[simp] theorem State.emit_env (s : State) (e : Event) : (s.emit e).env = s.env := rfl
@[simp] theorem State.emit_device (s : State) (e : Event) : (s.emit e).device = s.device := rfl
@[simp] theorem State.emit_calls (s : State) (e : Event) : (s.emit e).calls = s.calls := rfl

/-! ### complete -/

@[simp] theorem State.complete_sda (s : State) (v : Value) : (s.complete v).sda = s.sda := rfl
@[simp] theorem State.complete_scl (s : State) (v : Value) : (s.complete v).scl = s.scl := rfl
@[simp] theorem State.complete_session (s : State) (v : Value) : (s.complete v).session = s.session := rfl
@[simp] theorem State.complete_backend (s : State) (v : Value) : (s.complete v).backend = s.backend := rfl
@[simp] theorem State.complete_maxRead (s : State) (v : Value) : (s.complete v).maxRead = s.maxRead := rfl
@[simp] theorem State.complete_maxWrite (s : State) (v : Value) : (s.complete v).maxWrite = s.maxWrite := rfl
@[simp] theorem State.complete_params (s : State) (v : Value) : (s.complete v).params = s.params := rfl
@[simp] theorem State.complete_stream (s : State) (v : Value) : (s.complete v).stream = s.stream := rfl
@[simp] theorem State.complete_crc (s : State) (v : Value) : (s.complete v).crc = s.crc := rfl
@[simp] theorem State.complete_trace (s : State) (v : Value) : (s.complete v).trace = s.trace := rfl
@[simp] theorem State.complete_result (s : State) (v : Value) : (s.complete v).result = some (.ok v) := rfl
@[simp] theorem State.complete_env (s : State) (v : Value) : (s.complete v).env = s.env := rfl
@[simp] theorem State.complete_device (s : State) (v : Value) : (s.complete v).device = s.device := rfl
@[simp] theorem State.complete_calls (s : State) (v : Value) : (s.complete v).calls = s.calls := rfl

/-! ### takeError -/

@[simp] theorem State.takeError_sda (s : State) (e : Err) : (s.takeError e).sda = s.sda := rfl
@[simp] theorem State.takeError_scl (s : State) (e : Err) : (s.takeError e).scl = s.scl := rfl
@[simp] theorem State.takeError_session (s : State) (e : Err) : (s.takeError e).session = s.session := rfl
@[simp] theorem State.takeError_backend (s : State) (e : Err) : (s.takeError e).backend = s.backend := rfl
@[simp] theorem State.takeError_maxRead (s : State) (e : Err) : (s.takeError e).maxRead = s.maxRead := rfl
@[simp] theorem State.takeError_maxWrite (s : State) (e : Err) : (s.takeError e).maxWrite = s.maxWrite := rfl
@[simp] theorem State.takeError_params (s : State) (e : Err) : (s.takeError e).params = s.params := rfl
@[simp] theorem State.takeError_stream (s : State) (e : Err) : (s.takeError e).stream = s.stream := rfl
@[simp] theorem State.takeError_crc (s : State) (e : Err) : (s.takeError e).crc = s.crc := rfl
@[simp] theorem State.takeError_trace (s : State) (e : Err) : (s.takeError e).trace = s.trace := rfl
@[simp] theorem State.takeError_result (s : State) (e : Err) : (s.takeError e).result = some (.err e) := rfl
@[simp] theorem State.takeError_env (s : State) (e : Err) : (s.takeError e).env = s.env := rfl
@[simp] theorem State.takeError_device (s : State) (e : Err) : (s.takeError e).device = s.device := rfl
@[simp] theorem State.takeError_calls (s : State) (e : Err) : (s.takeError e).calls = s.calls := rfl

/-! ### setLatch -/

@[simp] theorem State.setLatch_sda_same (s : State) (v : Latch) : (s.setLatch .sda v).sda = v := rfl
@[simp] theorem State.setLatch_scl_same (s : State) (v : Latch) : (s.setLatch .scl v).scl = v := rfl
@[simp] theorem State.setLatch_sda_other (s : State) (v : Latch) : (s.setLatch .scl v).sda = s.sda := rfl
@[simp] theorem State.setLatch_scl_other (s : State) (v : Latch) : (s.setLatch .sda v).scl = s.scl := rfl
@[simp] theorem State.setLatch_session (s : State) (l : Line) (v : Latch) : (s.setLatch l v).session = s.session := by
  cases l <;> rfl
@[simp] theorem State.setLatch_backend (s : State) (l : Line) (v : Latch) : (s.setLatch l v).backend = s.backend := by
  cases l <;> rfl
@[simp] theorem State.setLatch_maxRead (s : State) (l : Line) (v : Latch) : (s.setLatch l v).maxRead = s.maxRead := by
  cases l <;> rfl
@[simp] theorem State.setLatch_maxWrite (s : State) (l : Line) (v : Latch) : (s.setLatch l v).maxWrite = s.maxWrite := by
  cases l <;> rfl
@[simp] theorem State.setLatch_params (s : State) (l : Line) (v : Latch) : (s.setLatch l v).params = s.params := by
  cases l <;> rfl
@[simp] theorem State.setLatch_stream (s : State) (l : Line) (v : Latch) : (s.setLatch l v).stream = s.stream := by
  cases l <;> rfl
@[simp] theorem State.setLatch_crc (s : State) (l : Line) (v : Latch) : (s.setLatch l v).crc = s.crc := by
  cases l <;> rfl
@[simp] theorem State.setLatch_trace (s : State) (l : Line) (v : Latch) : (s.setLatch l v).trace = s.trace := by
  cases l <;> rfl
@[simp] theorem State.setLatch_result (s : State) (l : Line) (v : Latch) : (s.setLatch l v).result = s.result := by
  cases l <;> rfl
@[simp] theorem State.setLatch_env (s : State) (l : Line) (v : Latch) : (s.setLatch l v).env = s.env := by
  cases l <;> rfl
@[simp] theorem State.setLatch_device (s : State) (l : Line) (v : Latch) : (s.setLatch l v).device = s.device := by
  cases l <;> rfl
@[simp] theorem State.setLatch_calls (s : State) (l : Line) (v : Latch) : (s.setLatch l v).calls = s.calls := by
  cases l <;> rfl

/-! ### Reading the latches -/

@[simp] theorem State.latch_sda (s : State) : s.latch .sda = s.sda := rfl
@[simp] theorem State.latch_scl (s : State) : s.latch .scl = s.scl := rfl
@[simp] theorem State.latch_setLatch (s : State) (l : Line) (v : Latch) : (s.setLatch l v).latch l = v := by
  cases l <;> rfl

/-- A released line reads what the other agents leave it at (R23). -/
theorem State.level_released (s : State) (l : Line) (v : Bit) (h : s.latch l = .released) :
    s.level l (!v) = v := by
  simp [State.level, h]

/-- A driven line is low (R23). -/
theorem State.level_driven (s : State) (l : Line) (held : Bit) (h : s.latch l = .driven) : s.level l held = false := by
  simp [State.level, h]

end Sys2Proof.Machine
end

