-- ==== Sys2Proof/Laws/Control.lean ====
section
/-! SUPPORT. How operations run: what each way of building an operation does to a state, and the two properties every
operation is described by: a relation it keeps between the state before and after, and the errors it can raise. -/

namespace Sys2Proof.Machine

variable {α β : Type}

/-! ## Running -/

@[simp] theorem M.pure_run (a : α) (s : State) : (pure a : M α) s = .ok a s := rfl

@[simp] theorem M.bind_run (x : M α) (f : α → M β) (s : State) :
    (x >>= f) s = match x s with
      | .ok a t => f a t
      | .error e t => .error e t := by
  change EStateM.bind x f s = _
  unfold EStateM.bind
  cases x s <;> rfl

@[simp] theorem M.map_run (f : α → β) (x : M α) (s : State) :
    (f <$> x) s = match x s with
      | .ok a t => .ok (f a) t
      | .error e t => .error e t := by
  change EStateM.map f x s = _
  unfold EStateM.map
  cases x s <;> rfl

@[simp] theorem M.get_run (s : State) : (get : M State) s = .ok s s := rfl

@[simp] theorem M.set_run (t s : State) : (set t : M PUnit) s = .ok () t := rfl

@[simp] theorem M.modify_run (f : State → State) (s : State) : (modify f : M PUnit) s = .ok () (f s) := rfl

@[simp] theorem M.ite_run (c : Prop) [Decidable c] (x y : M α) (s : State) :
    (if c then x else y) s = if c then x s else y s := by split <;> rfl

@[simp] theorem raise_run (e : Err) (s : State) : (raise e : M α) s = .error (.raised e) s := rfl

@[simp] theorem refuse_run (r : Refusal) (s : State) : (refuse r : M α) s = .error (.refused r) s := rfl

@[simp] theorem hang_run (s : State) : (hang : M α) s = .error (.stuck .recoveryNeverEnds) s := rfl

@[simp] theorem emit_run (e : Event) (s : State) : emit e s = .ok () (s.emit e) := rfl

@[simp] theorem require_true (r : Refusal) (s : State) : require true r s = .ok () s := rfl

@[simp] theorem require_false (r : Refusal) (s : State) : require false r s = .error (.refused r) s := rfl

@[simp] theorem whenever_true (x : M Unit) (s : State) : whenever true x s = x s := rfl

@[simp] theorem whenever_false (x : M Unit) (s : State) : whenever false x s = .ok () s := rfl

theorem catching_run (p : Err → Bool) (x handler : M α) (s : State) :
    catching p x handler s = match x s with
      | .ok a t => .ok a t
      | .error (.raised e) t => if p e then handler t else .error (.raised e) t
      | .error (.refused r) t => .error (.refused r) t
      | .error (.stuck f) t => .error (.stuck f) t := rfl

@[simp] theorem conclude_ok (v : Value) (s : State) : conclude (.ok v s) = .next (s.complete v) := rfl

@[simp] theorem conclude_raised (e : Err) (s : State) : conclude (.error (.raised e) s) = .next (s.takeError e) := rfl

@[simp] theorem conclude_refused (r : Refusal) (s : State) : conclude (.error (.refused r) s) = .refused r := rfl

@[simp] theorem conclude_stuck (f : Fault) (s : State) : conclude (.error (.stuck f) s) = .fault f := rfl

theorem invoke_open {gate : Session → Bool} {op : M Value} {s : State} (h : gate s.session = true) :
    invoke gate op s = conclude (op s) := by simp [invoke, h]

theorem invoke_closed {gate : Session → Bool} {op : M Value} {s : State} (h : gate s.session = false) :
    invoke gate op s = .refused .sessionState := by simp [invoke, h]

@[simp] theorem anySession_apply (v : Session) : anySession v = true := rfl

theorem openSession_iff (v : Session) : openSession v = true ↔ v ≠ .closed := by cases v <;> simp [openSession]

theorem closedSession_iff (v : Session) : closedSession v = true ↔ v = .closed := by cases v <;> simp [closedSession]

theorem initializedSession_iff (v : Session) : initializedSession v = true ↔ v = .initialized := by
  cases v <;> simp [initializedSession]

theorem ispSession_iff (v : Session) : ispSession v = true ↔ v = .ispActive := by cases v <;> simp [ispSession]

/-! ## What an operation keeps -/

/-- The state an operation leaves, however it ends. -/
def endState : EStateM.Result Stop State α → State
  | .ok _ t => t
  | .error _ t => t

/-- The operation relates every state to the state it leaves. -/
def Keeps (R : State → State → Prop) (x : M α) : Prop := ∀ s, R s (endState (x s))

section Keeps

variable {R : State → State → Prop}

theorem Keeps.of_ok {x : M α} {s t : State} {a : α} (h : Keeps R x) (e : x s = .ok a t) : R s t := by
  have := h s; rwa [e] at this

theorem Keeps.of_error {x : M α} {s t : State} {stop : Stop} (h : Keeps R x) (e : x s = .error stop t) : R s t := by
  have := h s; rwa [e] at this

theorem Keeps.pure (hr : ∀ s, R s s) (a : α) : Keeps R (Pure.pure a : M α) := fun s => hr s

theorem Keeps.raise (hr : ∀ s, R s s) (e : Err) : Keeps R (Machine.raise e : M α) := fun s => hr s

theorem Keeps.refuse (hr : ∀ s, R s s) (r : Refusal) : Keeps R (Machine.refuse r : M α) := fun s => hr s

theorem Keeps.hang (hr : ∀ s, R s s) : Keeps R (Machine.hang : M α) := fun s => hr s

theorem Keeps.update (f : State → State) (h : ∀ s, R s (f s)) : Keeps R (modify f : M PUnit) := fun s => h s

theorem Keeps.bind (ht : ∀ a b c, R a b → R b c → R a c) {x : M α} {f : α → M β} (hx : Keeps R x)
    (hf : ∀ a, Keeps R (f a)) : Keeps R (x >>= f) := by
  intro s
  have h := hx s
  rw [M.bind_run]
  cases e : x s with
  | ok a t => exact ht _ _ _ (hx.of_ok e) (hf a t)
  | error stop t => exact hx.of_error e

/-- Reading the state first. -/
theorem Keeps.getBind {f : State → M β} (hf : ∀ s, R s (endState (f s s))) :
    Keeps R ((get : M State) >>= f) := fun s => by simpa using hf s

theorem Keeps.ite (c : Prop) [Decidable c] {x y : M α} (hx : Keeps R x) (hy : Keeps R y) :
    Keeps R (if c then x else y) := by split <;> assumption

theorem Keeps.require (hr : ∀ s, R s s) (ok : Bool) (r : Refusal) : Keeps R (Machine.require ok r) := by
  cases ok <;> exact fun s => hr s

theorem Keeps.whenever (hr : ∀ s, R s s) (c : Bool) {x : M Unit} (hx : Keeps R x) : Keeps R (Machine.whenever c x) := by
  cases c
  · exact fun s => hr s
  · exact hx

theorem Keeps.catching (ht : ∀ a b c, R a b → R b c → R a c) (p : Err → Bool) {x handler : M α} (hx : Keeps R x)
    (hh : Keeps R handler) : Keeps R (Machine.catching p x handler) := by
  intro s
  have h := hx s
  rw [catching_run]
  cases e : x s with
  | ok a t => rw [e] at h; exact h
  | error stop t =>
    rw [e] at h
    cases stop with
    | raised er =>
      cases hp : p er
      · simpa [hp] using h
      · simpa [hp] using ht _ _ _ h (hh t)
    | refused r => exact h
    | stuck f => exact h

theorem Keeps.mono {R' : State → State → Prop} (h : ∀ s t, R s t → R' s t) {x : M α} (hx : Keeps R x) : Keeps R' x :=
  fun s => h _ _ (hx s)

end Keeps

/-! ## The ways an operation can end early -/

/-- Every early end of the operation, and the state it leaves, satisfies `P`. -/
def EndsEarly (P : Stop → State → Prop) (x : M α) : Prop := ∀ s stop t, x s = .error stop t → P stop t

section EndsEarly

variable {P : Stop → State → Prop}

theorem EndsEarly.pure (a : α) : EndsEarly P (Pure.pure a : M α) := by intro s stop t h; simp at h

theorem EndsEarly.update (f : State → State) : EndsEarly P (modify f : M PUnit) := by intro s stop t h; simp at h

theorem EndsEarly.raise {e : Err} (h : ∀ t, P (.raised e) t) : EndsEarly P (Machine.raise e : M α) := by
  intro s stop t e; simp at e; exact e.1 ▸ h t

theorem EndsEarly.refuse {r : Refusal} (h : ∀ t, P (.refused r) t) : EndsEarly P (Machine.refuse r : M α) := by
  intro s stop t e; simp at e; exact e.1 ▸ h t

theorem EndsEarly.bind {x : M α} {f : α → M β} (hx : EndsEarly P x) (hf : ∀ a, EndsEarly P (f a)) :
    EndsEarly P (x >>= f) := by
  intro s stop t h
  rw [M.bind_run] at h
  cases e : x s with
  | ok a u => rw [e] at h; exact hf a u stop t h
  | error st u =>
    rw [e] at h
    simp only [EStateM.Result.error.injEq] at h
    exact h.1 ▸ h.2 ▸ hx s st u e

theorem EndsEarly.getBind {f : State → M β} (hf : ∀ s, EndsEarly P (f s)) : EndsEarly P ((get : M State) >>= f) := by
  intro s stop t h; exact hf s s stop t (by simpa using h)

theorem EndsEarly.ite (c : Prop) [Decidable c] {x y : M α} (hx : EndsEarly P x) (hy : EndsEarly P y) :
    EndsEarly P (if c then x else y) := by split <;> assumption

theorem EndsEarly.whenever (c : Bool) {x : M Unit} (hx : EndsEarly P x) : EndsEarly P (Machine.whenever c x) := by
  cases c
  · exact EndsEarly.pure ()
  · exact hx

theorem EndsEarly.require {ok : Bool} {r : Refusal} (h : ok = false → ∀ t, P (.refused r) t) :
    EndsEarly P (Machine.require ok r) := by
  cases ok
  · exact EndsEarly.refuse (h rfl)
  · exact EndsEarly.pure ()

theorem EndsEarly.mono {P' : Stop → State → Prop} (h : ∀ st t, P st t → P' st t) {x : M α} (hx : EndsEarly P x) :
    EndsEarly P' x :=
  fun s stop t e => h _ _ (hx s stop t e)

end EndsEarly

/-! ## What a call does -/

/-- A call ends in a next state, which is the end state of its operation with the result set; or it is refused, or it
never ends. -/
theorem invoke_cases (gate : Session → Bool) (op : M Value) (s : State) :
    (gate s.session = false ∧ invoke gate op s = .refused .sessionState) ∨
    (gate s.session = true ∧
      ((∃ v t, op s = .ok v t ∧ invoke gate op s = .next (t.complete v)) ∨
       (∃ e t, op s = .error (.raised e) t ∧ invoke gate op s = .next (t.takeError e)) ∨
       (∃ r t, op s = .error (.refused r) t ∧ invoke gate op s = .refused r) ∨
       (∃ f t, op s = .error (.stuck f) t ∧ invoke gate op s = .fault f))) := by
  cases hg : gate s.session
  · exact .inl ⟨rfl, invoke_closed hg⟩
  · refine .inr ⟨rfl, ?_⟩
    rw [invoke_open hg]
    cases op s with
    | ok v t => exact .inl ⟨v, t, rfl, rfl⟩
    | error stop t =>
      cases stop with
      | raised e => exact .inr (.inl ⟨e, t, rfl, rfl⟩)
      | refused r => exact .inr (.inr (.inl ⟨r, t, rfl, rfl⟩))
      | stuck f => exact .inr (.inr (.inr ⟨f, t, rfl, rfl⟩))

/-- A call that answers a next state keeps what its operation keeps, up to the result. -/
theorem invoke_keeps {R : State → State → Prop} {gate : Session → Bool} {op : M Value} (hop : Keeps R op)
    (hc : ∀ s t v, R s t → R s (t.complete v)) (he : ∀ s t e, R s t → R s (t.takeError e)) {s t : State}
    (h : invoke gate op s = .next t) : R s t := by
  rcases invoke_cases gate op s with ⟨-, e⟩ | ⟨-, ⟨v, u, eu, e⟩ | ⟨er, u, eu, e⟩ | ⟨r, u, -, e⟩ | ⟨f, u, -, e⟩⟩ <;>
    rw [e] at h <;> simp only [Host.Outcome.next.injEq, reduceCtorEq] at h
  · exact h ▸ hc _ _ _ (hop.of_ok eu)
  · exact h ▸ he _ _ _ (hop.of_error eu)

end Sys2Proof.Machine
end

