-- ==== Sys2Proof/Laws/Frames.lean ====
section
/-! SUPPORT. The frames are reflexive and transitive, and hold over every update that stays inside them. -/

namespace Sys2Proof.Machine

theorem Constant.refl (s : State) : Constant s s := ⟨rfl, rfl, rfl, rfl, rfl, rfl, rfl, List.prefix_refl _⟩

theorem Constant.trans {a b c : State} (h : Constant a b) (k : Constant b c) : Constant a c :=
  ⟨k.backend.trans h.backend, k.maxRead.trans h.maxRead, k.maxWrite.trans h.maxWrite, k.params.trans h.params,
    k.mode.trans h.mode, k.held.trans h.held, k.calls.trans h.calls, h.trace.trans k.trace⟩

theorem LineFrame.refl (s : State) : LineFrame s s := ⟨Constant.refl s, rfl, rfl, rfl, rfl, rfl⟩

theorem LineFrame.trans {a b c : State} (h : LineFrame a b) (k : LineFrame b c) : LineFrame a c :=
  ⟨h.toConstant.trans k.toConstant, k.session.trans h.session, k.stream.trans h.stream, k.crc.trans h.crc,
    k.device.trans h.device, k.result.trans h.result⟩

theorem LineFrame.setLatch (s : State) (l : Line) (v : Latch) : LineFrame s (s.setLatch l v) := by
  cases l <;> exact ⟨⟨rfl, rfl, rfl, rfl, rfl, rfl, rfl, List.prefix_refl _⟩, rfl, rfl, rfl, rfl, rfl⟩

theorem LineFrame.emit (s : State) (e : Event) : LineFrame s (s.emit e) :=
  ⟨⟨rfl, rfl, rfl, rfl, rfl, rfl, rfl, List.prefix_append _ _⟩, rfl, rfl, rfl, rfl, rfl⟩

theorem LineFrame.setEnv (s : State) (e : Env) (h : e.mode = s.env.mode ∧ e.held = s.env.held) :
    LineFrame s (s.setEnv e) :=
  ⟨⟨rfl, rfl, rfl, rfl, h.1, h.2, rfl, List.prefix_refl _⟩, rfl, rfl, rfl, rfl, rfl⟩

theorem LineFrame.bind {α β : Type} {x : M α} {f : α → M β} (hx : Keeps LineFrame x) (hf : ∀ a, Keeps LineFrame (f a)) :
    Keeps LineFrame (x >>= f) := Keeps.bind (R := LineFrame) (fun _ _ _ => LineFrame.trans) hx hf

theorem LineFrame.pure {α : Type} (a : α) : Keeps LineFrame (Pure.pure a : M α) := Keeps.pure LineFrame.refl a

theorem LineFrame.raise {α : Type} (e : Err) : Keeps LineFrame (Machine.raise e : M α) := Keeps.raise LineFrame.refl e

theorem LineFrame.hang {α : Type} : Keeps LineFrame (Machine.hang : M α) := Keeps.hang LineFrame.refl

theorem AccessFrame.refl (s : State) : AccessFrame s s := ⟨Constant.refl s, rfl, rfl, rfl, rfl, id⟩

theorem AccessFrame.trans {a b c : State} (h : AccessFrame a b) (k : AccessFrame b c) : AccessFrame a c :=
  ⟨h.toConstant.trans k.toConstant, k.session.trans h.session, k.stream.trans h.stream, k.crc.trans h.crc,
    k.result.trans h.result, fun x => k.canonical (h.canonical x)⟩

theorem AccessFrame.bind {α β : Type} {x : M α} {f : α → M β} (hx : Keeps AccessFrame x)
    (hf : ∀ a, Keeps AccessFrame (f a)) : Keeps AccessFrame (x >>= f) :=
  Keeps.bind (R := AccessFrame) (fun _ _ _ => AccessFrame.trans) hx hf

theorem AccessFrame.pure {α : Type} (a : α) : Keeps AccessFrame (Pure.pure a : M α) := Keeps.pure AccessFrame.refl a

theorem AccessFrame.raise {α : Type} (e : Err) : Keeps AccessFrame (Machine.raise e : M α) :=
  Keeps.raise AccessFrame.refl e

theorem AccessFrame.require (ok : Bool) (r : Refusal) : Keeps AccessFrame (Machine.require ok r) :=
  Keeps.require AccessFrame.refl ok r

theorem AccessFrame.whenever (c : Bool) {x : M Unit} (hx : Keeps AccessFrame x) :
    Keeps AccessFrame (Machine.whenever c x) := Keeps.whenever AccessFrame.refl c hx

theorem AccessFrame.catching {α : Type} (p : Err → Bool) {x handler : M α} (hx : Keeps AccessFrame x)
    (hh : Keeps AccessFrame handler) : Keeps AccessFrame (Machine.catching p x handler) :=
  Keeps.catching (R := AccessFrame) (fun _ _ _ => AccessFrame.trans) p hx hh

theorem LineFrame.access {s t : State} (h : LineFrame s t) : AccessFrame s t :=
  ⟨h.toConstant, h.session, h.stream, h.crc, h.result, by rw [h.device, h.params]; exact id⟩

theorem AccessFrame.setDevice (s : State) (d : Device)
    (h : s.device.canonical s.params = true → d.canonical s.params = true) : AccessFrame s (s.setDevice d) :=
  ⟨⟨rfl, rfl, rfl, rfl, rfl, rfl, rfl, List.prefix_refl _⟩, rfl, rfl, rfl, rfl, h⟩

end Sys2Proof.Machine
end

