-- ==== Sys2Proof/Laws/Memory.lean ====
section
/-! SUPPORT. The laws of memory: a write is read back, leaves every other address alone, and keeps the canonical
form. -/

namespace Sys2Proof.Machine

/-- A byte written is read back. -/
theorem Memory.read_write_same (sp : Space) (m : Memory) (a : Nat) (v : Byte)
    (h : ∃ lo, Memory.wfFrom sp lo m = true) : (m.write sp a v).read sp a = v := by
  induction m with
  | nil =>
    by_cases hv : v = sp.blank <;> simp [Memory.write, Memory.read, hv]
  | cons c m ih =>
    obtain ⟨k, w⟩ := c
    obtain ⟨lo, h⟩ := h
    simp only [Memory.wfFrom, Bool.and_eq_true, decide_eq_true_eq] at h
    have hblank : ∀ (m : Memory) (l b : Nat), Memory.wfFrom sp l m = true → b < l → m.read sp b = sp.blank := by
      intro m
      induction m with
      | nil => intros; rfl
      | cons c m ih =>
        obtain ⟨k, w⟩ := c
        intro l b hw hb
        simp only [Memory.wfFrom, Bool.and_eq_true, decide_eq_true_eq] at hw
        have : k ≠ b := by omega
        simp only [Memory.read, this, if_false]
        exact ih (k + 1) b hw.2 (by omega)
    by_cases h1 : a < k
    · have : k ≠ a := by omega
      by_cases hv : v = sp.blank
      · simp only [Memory.write, h1, hv, if_true, Memory.read, this, if_false]
        exact hblank m (k + 1) a h.2 (by omega)
      · simp [Memory.write, h1, hv, Memory.read]
    · by_cases h2 : a = k
      · subst h2
        by_cases hv : v = sp.blank
        · simp only [Memory.write, lt_irrefl, if_false, hv, if_true]
          exact hblank m (a + 1) a h.2 (by omega)
        · simp [Memory.write, hv, Memory.read]
      · have : k ≠ a := fun e => h2 e.symm
        simp only [Memory.write, h1, if_false, h2, Memory.read, this]
        exact ih ⟨k + 1, h.2⟩

/-- A write leaves every other address alone. -/
theorem Memory.read_write_other (sp : Space) (m : Memory) (a b : Nat) (v : Byte) (h : b ≠ a) :
    (m.write sp a v).read sp b = m.read sp b := by
  have h' : a ≠ b := h.symm
  induction m with
  | nil => by_cases hv : v = sp.blank <;> simp [Memory.write, Memory.read, hv, h']
  | cons c m ih =>
    obtain ⟨k, w⟩ := c
    by_cases h1 : a < k
    · by_cases hv : v = sp.blank <;> simp [Memory.write, h1, hv, Memory.read, h']
    · by_cases h2 : a = k
      · subst h2
        by_cases hv : v = sp.blank <;> simp [Memory.write, hv, Memory.read, h']
      · simp only [Memory.write, h1, if_false, h2, Memory.read]
        split
        · rfl
        · exact ih

/-- A write keeps the canonical form from any address up to the written one. -/
theorem Memory.wfFrom_write (sp : Space) (m : Memory) (lo a : Nat) (v : Byte)
    (h : Memory.wfFrom sp lo m = true) (ha : lo ≤ a) : Memory.wfFrom sp lo (m.write sp a v) = true := by
  have mono : ∀ (m : Memory) (l l' : Nat), l ≤ l' → Memory.wfFrom sp l' m = true → Memory.wfFrom sp l m = true := by
    intro m l l' hl hm
    cases m with
    | nil => rfl
    | cons c m =>
      simp only [Memory.wfFrom, Bool.and_eq_true, decide_eq_true_eq] at hm ⊢
      exact ⟨⟨by omega, hm.1.2⟩, hm.2⟩
  induction m generalizing lo with
  | nil => by_cases hv : v = sp.blank <;> simp [Memory.write, Memory.wfFrom, hv, ha]
  | cons c m ih =>
    obtain ⟨k, w⟩ := c
    simp only [Memory.wfFrom, Bool.and_eq_true, decide_eq_true_eq] at h
    by_cases h1 : a < k
    · by_cases hv : v = sp.blank
      · simp [Memory.write, h1, hv, Memory.wfFrom, h]
      · simp only [Memory.write, h1, hv, if_true, if_false, Memory.wfFrom, Bool.and_eq_true, decide_eq_true_eq]
        exact ⟨⟨ha, hv⟩, ⟨by omega, h.1.2⟩, h.2⟩
    · by_cases h2 : a = k
      · subst h2
        by_cases hv : v = sp.blank
        · simp only [Memory.write, lt_irrefl, hv, if_true, if_false]
          exact mono m lo (a + 1) (by omega) h.2
        · simp only [Memory.write, lt_irrefl, hv, if_true, if_false, Memory.wfFrom, Bool.and_eq_true,
            decide_eq_true_eq]
          exact ⟨⟨ha, hv⟩, h.2⟩
      · simp only [Memory.write, h1, if_false, h2, Memory.wfFrom, Bool.and_eq_true, decide_eq_true_eq]
        exact ⟨h.1, ih (k + 1) h.2 (by omega)⟩

/-- A write keeps the canonical form. -/
theorem Memory.wf_write (sp : Space) (m : Memory) (a : Nat) (v : Byte) (h : m.wf sp = true) :
    (m.write sp a v).wf sp = true :=
  Memory.wfFrom_write sp m 0 a v h (Nat.zero_le a)

/-- In canonical memory a byte written is read back. -/
theorem Memory.read_write (sp : Space) (m : Memory) (a b : Nat) (v : Byte) (h : m.wf sp = true) :
    (m.write sp a v).read sp b = if b = a then v else m.read sp b := by
  by_cases hb : b = a
  · subst hb
    simpa using Memory.read_write_same sp m b v ⟨0, h⟩
  · simpa [hb] using Memory.read_write_other sp m a b v hb

/-- A write lists no address but its own and those listed before. -/
theorem Memory.all_write (sp : Space) (m : Memory) (a n : Nat) (v : Byte) (ha : a < n)
    (h : m.all (fun c => decide (c.1 < n)) = true) : (m.write sp a v).all (fun c => decide (c.1 < n)) = true := by
  induction m with
  | nil => by_cases hv : v = sp.blank <;> simp [Memory.write, hv, ha]
  | cons c m ih =>
    obtain ⟨k, w⟩ := c
    simp only [List.all_cons, Bool.and_eq_true, decide_eq_true_eq] at h
    by_cases h1 : a < k
    · by_cases hv : v = sp.blank
      · simp only [Memory.write, h1, hv, if_true, List.all_cons, Bool.and_eq_true, decide_eq_true_eq]
        exact h
      · simp only [Memory.write, h1, hv, if_true, if_false, List.all_cons, Bool.and_eq_true, decide_eq_true_eq]
        exact ⟨ha, h⟩
    · by_cases h2 : a = k
      · by_cases hv : v = sp.blank
        · simp only [Memory.write, if_false, h2, hv, if_true, lt_irrefl]
          exact h.2
        · subst h2
          simp only [Memory.write, lt_irrefl, if_false, hv, if_true, List.all_cons, Bool.and_eq_true,
            decide_eq_true_eq]
          exact ⟨ha, h.2⟩
      · simp only [Memory.write, h1, if_false, h2, List.all_cons, Bool.and_eq_true, decide_eq_true_eq]
        exact ⟨h.1, ih h.2⟩

/-- The memories of the reset state are canonical. -/
theorem State.reset_regs_wf : State.reset.device.regs.wf .regs = true := rfl
theorem State.reset_flash_wf : State.reset.device.flash.wf .flash = true := rfl

end Sys2Proof.Machine
end

