-- ==== Sys2Proof/Laws/Device.lean ====
section
/-! SUPPORT. The reference device keeps its memories canonical, and what a register access changes in it. -/

namespace Sys2Proof.Machine

theorem Device.canonical_iff (p : Params) (d : Device) :
    d.canonical p = true ↔ d.regs.wf .regs = true ∧ d.flash.wf .flash = true ∧
      d.regs.all (fun c => decide (c.1 < 256)) = true ∧ d.flash.all (fun c => decide (c.1 < p.chipSize)) = true := by
  simp only [Device.canonical, Bool.and_eq_true]
  tauto

/-- A stored register keeps the form. -/
theorem Device.canonical_storeReg {p : Params} {d : Device} (h : d.canonical p = true) (r v : Byte) :
    (d.storeReg r v).canonical p = true := by
  rw [Device.canonical_iff] at h ⊢
  exact ⟨Memory.wf_write _ _ _ _ h.1, h.2.1, Memory.all_write _ _ _ _ _ r.isLt h.2.2.1, h.2.2.2⟩

/-- A field that is no memory does not matter to the form. -/
theorem Device.canonical_of_eq {p : Params} {d e : Device} (h : d.canonical p = true) (hr : e.regs = d.regs)
    (hf : e.flash = d.flash) : e.canonical p = true := by
  rw [Device.canonical_iff] at h ⊢
  rwa [hr, hf]

theorem programFlash_canonical (p : Params) (m : Memory) (a : Nat) (bytes : List Byte) (hw : m.wf .flash = true)
    (ha : m.all (fun c => decide (c.1 < p.chipSize)) = true) :
    (programFlash p m a bytes).wf .flash = true ∧
      (programFlash p m a bytes).all (fun c => decide (c.1 < p.chipSize)) = true := by
  induction bytes generalizing m a with
  | nil => exact ⟨hw, ha⟩
  | cons b bs ih =>
    rw [programFlash]
    by_cases h : a < p.chipSize
    · simp only [h, if_true]
      exact ih _ _ (Memory.wf_write _ _ _ _ hw) (Memory.all_write _ _ _ _ _ h ha)
    · simp only [h, if_false]
      exact ih _ _ hw ha

theorem Device.canonical_runInstruction {p : Params} {d : Device} (h : d.canonical p = true) (c : Byte) :
    (d.runInstruction p c).canonical p = true := by
  unfold Device.runInstruction
  refine Device.canonical_storeReg ?_ _ _
  split
  · rw [Device.canonical_iff] at h ⊢
    exact ⟨h.1, rfl, h.2.2.1, rfl⟩
  · split
    · split
      · exact h
      · exact Device.canonical_of_eq h rfl rfl
    · split
      · exact Device.canonical_storeReg (Device.canonical_storeReg (Device.canonical_storeReg
          (Device.canonical_of_eq h rfl rfl) _ _) _ _) _ _
      · exact h

theorem Device.canonical_runCrc {p : Params} {d : Device} (h : d.canonical p = true) :
    (d.runCrc p).canonical p = true :=
  Device.canonical_of_eq (Device.canonical_storeReg h _ _) rfl rfl

theorem Device.canonical_runPageWrite {p : Params} {d : Device} (h : d.canonical p = true) :
    (d.runPageWrite p).canonical p = true := by
  rw [Device.canonical_iff] at h ⊢
  have hf := programFlash_canonical p d.flash (d.readValue regAddr 3) d.buffer h.2.1 h.2.2.2
  exact ⟨h.1, hf.1, h.2.2.1, hf.2⟩

theorem Device.canonical_writeReg {p : Params} {d : Device} (h : d.canonical p = true) (r v : Byte) :
    (d.writeReg p r v).canonical p = true := by
  unfold Device.writeReg
  split
  · split
    · exact Device.canonical_runInstruction h v
    · exact Device.canonical_storeReg h r v
  · split
    · split
      · exact Device.canonical_of_eq h rfl rfl
      · split
        · exact Device.canonical_runCrc h
        · split
          · exact Device.canonical_runPageWrite h
          · exact h
    · split
      · split
        · exact Device.canonical_of_eq (Device.canonical_storeReg h r v) rfl rfl
        · exact Device.canonical_storeReg h r v
      · exact Device.canonical_storeReg h r v

theorem Device.canonical_writeRegs {p : Params} {d : Device} (h : d.canonical p = true) (r : Byte) (bytes : List Byte) :
    (d.writeRegs p r bytes).canonical p = true := by
  induction bytes generalizing d r with
  | nil => exact h
  | cons v vs ih => exact ih (Device.canonical_writeReg h r v) (r + 1)

/-- A write transaction keeps the form. -/
theorem Device.canonical_receive {p : Params} {a : Addr7} {d : Device} (h : d.canonical p = true) (bytes : List Byte) :
    (d.receive p a bytes).canonical p = true := by
  cases bytes with
  | nil => exact h
  | cons r data =>
    simp only [Device.receive]
    split
    · exact Device.canonical_of_eq h rfl rfl
    · exact Device.canonical_writeRegs (d := { d with pointer := pointerAfter a r data.length })
        (Device.canonical_of_eq h rfl rfl) r data

/-- A read transaction keeps the form. -/
theorem Device.canonical_send {p : Params} {a : Addr7} {d : Device} (h : d.canonical p = true) (k : Nat) :
    (d.send p a k).2.canonical p = true := by
  unfold Device.send
  split <;> exact Device.canonical_of_eq h rfl rfl

/-! ## The register pointer -/

/-- A transaction at 0x4A leaves the pointer at its register. -/
@[simp] theorem pointerAfter_plain (r : Byte) (n : Nat) : pointerAfter ispAddr r n = r := by
  cases n <;> rfl

/-- The pointer does not move past the port 0x70. -/
@[simp] theorem pointerAfter_port (a : Addr7) (n : Nat) : pointerAfter a regData n = regData := by
  cases n with
  | zero => rfl
  | succ n => rw [pointerAfter, if_neg (by simp)]

/-- Register r + 1 + k is register r + (k + 1). -/
theorem regAfter_succ (r : Byte) (k : Nat) : r + 1 + BitVec.ofNat 8 k = r + BitVec.ofNat 8 (k + 1) := by
  rw [BitVec.add_assoc, BitVec.ofNat_add, BitVec.add_comm 1]; rfl

/-- Where the pointer stands after a transaction. -/
theorem pointerAfter_moves (a : Addr7) (r : Byte) (n : Nat) : PointerMoves a r n (pointerAfter a r n) := by
  refine ⟨?_, ?_, ?_⟩
  · rintro rfl; exact pointerAfter_plain r n
  all_goals
    intro ha
    have ha : a = ispAddrAi := ha
    induction n generalizing r with
    | zero => simp [pointerAfter]
    | succ n ih => ?_
  · intro h
    have h0 : r ≠ regData := by simpa [regData] using h 0 (by omega)
    rw [pointerAfter, if_pos ⟨ha, h0⟩, ← regAfter_succ]
    exact ih (r + 1) fun k hk => by rw [regAfter_succ]; exact h (k + 1) (by omega)
  · intro k hk hr
    by_cases h0 : r = regData
    · rw [h0]; exact pointerAfter_port a _
    · rw [pointerAfter, if_pos ⟨ha, h0⟩]
      cases k with
      | zero => exact absurd (by simpa [regData] using hr) h0
      | succ k => exact ih (r + 1) k (by omega) (by rw [regAfter_succ]; exact hr)

/-! ## Registers -/

/-- A stored register leaves every other one as it was. -/
theorem Device.readReg_storeReg_other (d : Device) {r x : Byte} (v : Byte) (h : x ≠ r) :
    (d.storeReg r v).readReg x = d.readReg x := by
  unfold Device.readReg
  split
  · rfl
  · exact Memory.read_write_other .regs d.regs r.toNat x.toNat v fun e => h (BitVec.eq_of_toNat_eq e)

/-- A stored register reads back, but 0x6F, which shows the status bits. -/
theorem Device.readReg_storeReg_same {p : Params} {d : Device} (hd : d.canonical p = true) {r : Byte} (v : Byte)
    (h : r ≠ regIspCtrl) : (d.storeReg r v).readReg r = v := by
  unfold Device.readReg
  rw [if_neg h, Device.storeReg, Memory.read_write .regs d.regs _ _ v ((Device.canonical_iff p d).1 hd).1, if_pos rfl]

/-- What a register reads as depends on the cells and the status bits alone. -/
theorem Device.readReg_congr {d e : Device} (hr : e.regs = d.regs) (hi : e.ispMode = d.ispMode) (hb : e.busy = d.busy)
    (hc : e.crcReady = d.crcReady) (x : Byte) : e.readReg x = d.readReg x := by
  simp only [Device.readReg, Device.status, hr, hi, hb, hc]

/-- Every register but 0x6F reads the same where the cells are the same. -/
theorem Device.readReg_cells {d e : Device} (hr : e.regs = d.regs) {x : Byte} (h : x ≠ regIspCtrl) :
    e.readReg x = d.readReg x := by
  simp only [Device.readReg, if_neg h, hr]

/-! ## What a write does -/

/-- A byte written to a register that takes no command is stored. -/
theorem Device.writeReg_plain (p : Params) (d : Device) {r : Byte} (v : Byte) (h1 : r ≠ regCiCtrl)
    (h2 : r ≠ regIspCtrl) (h3 : r ≠ regReboot) : d.writeReg p r v = d.storeReg r v := by
  unfold Device.writeReg
  rw [if_neg h1, if_neg h2, if_neg h3]

/-- A write transaction to the port 0x70 fills the programming buffer. -/
theorem Device.receive_port (p : Params) (a : Addr7) (d : Device) (data : List Byte) :
    d.receive p a (regData :: data) = { d with pointer := regData, buffer := d.buffer ++ data } := by
  simp [Device.receive]

/-- A write transaction to another register writes its bytes from there on. -/
theorem Device.receive_regs (p : Params) (a : Addr7) (d : Device) {r : Byte} (data : List Byte) (h : r ≠ regData) :
    d.receive p a (r :: data) = { d with pointer := pointerAfter a r data.length }.writeRegs p r data := by
  simp [Device.receive, h]

end Sys2Proof.Machine
end

