-- ==== Sys2Proof/Laws/Lines.lean ====
section
/-! SUPPORT. What the environment's answers and the bus operations can do, in every environment: the frame they keep,
how they can end, and where they leave the latches. -/

namespace Sys2Proof.Machine

/-! ## Answers -/

theorem nextDraw_run (s : State) :
    nextDraw s = .ok s.env.draws (s.setEnv { s.env with draws := s.env.draws + 1 }) := rfl

/-- Each answer is the next one fixed, or a free value; the level of a line held for ever is low. -/
theorem drawLevel_run (l : Line) (s : State) :
    drawLevel l s = match s.env.senses with
      | v :: rest => .ok v (s.setEnv { s.env with senses := rest })
      | [] =>
        if l ∈ s.env.held then .ok false s
        else .ok (Config.level s.env.draws) (s.setEnv { s.env with draws := s.env.draws + 1 }) := by
  cases h : s.env.senses <;>
    simp only [drawLevel, M.bind_run, M.get_run, M.set_run, M.pure_run, M.ite_run, nextDraw_run, h]

theorem drawExpired_run (s : State) :
    drawExpired s = match s.env.expiries with
      | v :: rest => .ok v (s.setEnv { s.env with expiries := rest })
      | [] => .ok (Config.expired s.env.draws) (s.setEnv { s.env with draws := s.env.draws + 1 }) := by
  cases h : s.env.expiries <;> simp only [drawExpired, M.bind_run, M.get_run, M.set_run, M.pure_run, nextDraw_run, h]

theorem drawOpens_run (s : State) :
    drawOpens s = match s.env.opens with
      | v :: rest => .ok v (s.setEnv { s.env with opens := rest })
      | [] => .ok (Config.opens s.env.draws) (s.setEnv { s.env with draws := s.env.draws + 1 }) := by
  cases h : s.env.opens <;> simp only [drawOpens, M.bind_run, M.get_run, M.set_run, M.pure_run, nextDraw_run, h]

theorem drawListing_run (s : State) :
    drawListing s = match s.env.listings with
      | v :: rest => .ok v (s.setEnv { s.env with listings := rest })
      | [] => .ok (Config.deviceList s.env.draws) (s.setEnv { s.env with draws := s.env.draws + 1 }) := by
  cases h : s.env.listings <;> simp only [drawListing, M.bind_run, M.get_run, M.set_run, M.pure_run, nextDraw_run, h]

theorem drawLevel_keeps (l : Line) : Keeps LineFrame (drawLevel l) := by
  intro s
  rw [drawLevel_run]
  cases s.env.senses with
  | cons v rest => exact LineFrame.setEnv s _ ⟨rfl, rfl⟩
  | nil => dsimp only; split <;> first | exact LineFrame.refl s | exact LineFrame.setEnv s _ ⟨rfl, rfl⟩

theorem drawExpired_keeps : Keeps LineFrame drawExpired := by
  intro s; rw [drawExpired_run]; cases s.env.expiries <;> exact LineFrame.setEnv s _ ⟨rfl, rfl⟩

theorem drawOpens_keeps : Keeps LineFrame drawOpens := by
  intro s; rw [drawOpens_run]; cases s.env.opens <;> exact LineFrame.setEnv s _ ⟨rfl, rfl⟩

theorem drawListing_keeps : Keeps LineFrame drawListing := by
  intro s; rw [drawListing_run]; cases s.env.listings <;> exact LineFrame.setEnv s _ ⟨rfl, rfl⟩

theorem drawExpired_ends (P : Stop → State → Prop) : EndsEarly P drawExpired := by
  intro s stop t h; rw [drawExpired_run] at h; split at h <;> simp at h

/-! ## Line primitives -/

theorem driveLine_run (l : Line) (s : State) : driveLine l s = .ok () ((s.setLatch l .driven).emit (.drive l)) := rfl

theorem releaseLine_of_draw (l : Line) (s : State) (v : Bit) (e : Env)
    (h : drawLevel l (s.setLatch l .released) = .ok v ((s.setLatch l .released).setEnv e)) :
    releaseLine l s = .ok v (((s.setLatch l .released).setEnv e).emit (.release l v)) := by
  have hl : ((s.setLatch l .released).setEnv e).level l (!v) = v := by
    cases l <;> simp [State.level, State.latch, State.setLatch, State.setEnv]
  simp only [releaseLine, M.bind_run, M.modify_run, M.get_run, M.pure_run, emit_run, h, hl]

/-- A release always succeeds: the latch is released, and one event shows the level sensed. -/
theorem releaseLine_cases (l : Line) (s : State) :
    ∃ v e, (e.mode = s.env.mode ∧ e.held = s.env.held) ∧
      releaseLine l s = .ok v (((s.setLatch l .released).setEnv e).emit (.release l v)) := by
  have hs : (s.setLatch l .released).env = s.env := by cases l <;> rfl
  obtain ⟨v, e, he, h⟩ : ∃ v e, (e.mode = s.env.mode ∧ e.held = s.env.held) ∧
      drawLevel l (s.setLatch l .released) = .ok v ((s.setLatch l .released).setEnv e) := by
    rw [drawLevel_run, hs]
    cases s.env.senses with
    | nil =>
      by_cases hl : l ∈ s.env.held
      · exact ⟨false, s.env, ⟨rfl, rfl⟩, by simp only [hl, if_true]; cases l <;> rfl⟩
      · exact ⟨Config.level s.env.draws, { s.env with draws := s.env.draws + 1 }, ⟨rfl, rfl⟩, by simp only [hl, if_false]⟩
    | cons v rest => exact ⟨_, { s.env with senses := rest }, ⟨rfl, rfl⟩, rfl⟩
  exact ⟨v, e, he, releaseLine_of_draw l s v e h⟩

/-- The level the environment has fixed is the one sensed. -/
theorem releaseLine_scripted (l : Line) (s : State) (v : Bit) (rest : List Bit) (h : s.env.senses = v :: rest) :
    releaseLine l s =
      .ok v (((s.setLatch l .released).setEnv { s.env with senses := rest }).emit (.release l v)) := by
  have hs : (s.setLatch l .released).env = s.env := by cases l <;> rfl
  refine releaseLine_of_draw l s v _ ?_
  rw [drawLevel_run, hs, h]

/-- Once the fixed levels are used up, a line that another agent holds low for ever reads low, and no answer is drawn. -/
theorem releaseLine_held (l : Line) (s : State) (h : s.env.senses = []) (hl : l ∈ s.env.held) :
    releaseLine l s = .ok false ((s.setLatch l .released).emit (.release l false)) := by
  have hs : (s.setLatch l .released).env = s.env := by cases l <;> rfl
  have he : (s.setLatch l .released).setEnv s.env = s.setLatch l .released := by cases l <;> rfl
  have := releaseLine_of_draw l s false s.env (by rw [drawLevel_run, hs, h]; simp only [hl, if_true, he])
  rwa [he] at this

/-- Once the fixed levels are used up, every release leaves none. -/
theorem releaseLine_spent (l : Line) (s : State) (h : s.env.senses = []) :
    ∃ v t, releaseLine l s = .ok v t ∧ t.env.senses = [] := by
  have hs : (s.setLatch l .released).env = s.env := by cases l <;> rfl
  by_cases hl : l ∈ s.env.held
  · exact ⟨_, _, releaseLine_held l s h hl, by cases l <;> exact h⟩
  · refine ⟨_, _, releaseLine_of_draw l s (Config.level s.env.draws) { s.env with draws := s.env.draws + 1 } ?_, h⟩
    rw [drawLevel_run, hs, h]; simp only [hl, if_false]

theorem driveLine_keeps (l : Line) : Keeps LineFrame (driveLine l) := fun s =>
  (LineFrame.setLatch s l .driven).trans (LineFrame.emit _ _)

theorem releaseLine_keeps (l : Line) : Keeps LineFrame (releaseLine l) := by
  intro s
  obtain ⟨v, e, he, h⟩ := releaseLine_cases l s
  rw [h]
  exact ((LineFrame.setLatch s l .released).trans (LineFrame.setEnv _ e (by cases l <;> exact he))).trans
    (LineFrame.emit _ _)

theorem driveLine_ends (P : Stop → State → Prop) (l : Line) : EndsEarly P (driveLine l) := by
  intro s stop t h; rw [driveLine_run] at h; cases h

theorem releaseLine_ends (P : Stop → State → Prop) (l : Line) : EndsEarly P (releaseLine l) := by
  intro s stop t h; obtain ⟨v, e, -, k⟩ := releaseLine_cases l s; rw [k] at h; cases h

/-! ## The clock-stretch wait -/

theorem expireStretch_run (s : State) :
    expireStretch s = .error (.raised (.busStuck (.line .scl))) (s.emit (.expired .stretch)) := rfl

theorem expireStretch_keeps : Keeps LineFrame expireStretch := fun s => LineFrame.emit s _

theorem waitSclLoop_keeps (left : Nat) : Keeps LineFrame (waitSclLoop left) := by
  induction left with
  | zero => exact LineFrame.bind (releaseLine_keeps .scl) fun v => Keeps.ite _ (LineFrame.pure ()) expireStretch_keeps
  | succ left ih =>
    exact LineFrame.bind (releaseLine_keeps .scl) fun v => Keeps.ite _ (LineFrame.pure ())
      (LineFrame.bind drawExpired_keeps fun x => Keeps.ite _ expireStretch_keeps ih)

theorem waitScl_keeps : Keeps LineFrame waitScl := Keeps.getBind fun s => waitSclLoop_keeps _ s

/-- However it ends, the wait leaves SCL released and SDA as it was (R288). -/
def SclReleased (s t : State) : Prop := t.scl = .released ∧ t.sda = s.sda

theorem releaseLine_scl (s : State) : SclReleased s (endState (releaseLine .scl s)) := by
  obtain ⟨v, e, -, h⟩ := releaseLine_cases .scl s; rw [h]; exact ⟨rfl, rfl⟩

theorem drawExpired_latches (s : State) :
    (endState (drawExpired s)).scl = s.scl ∧ (endState (drawExpired s)).sda = s.sda := by
  rw [drawExpired_run]; cases s.env.expiries <;> exact ⟨rfl, rfl⟩

theorem releaseThen_latches {k : M Unit} (hk : ∀ s : State, s.scl = .released → SclReleased s (endState (k s))) :
    Keeps SclReleased (releaseLine .scl >>= fun v => if v then pure () else k) := by
  intro s
  obtain ⟨v, e, -, h⟩ := releaseLine_cases .scl s
  cases v
  · simp only [M.bind_run, h, Bool.false_eq_true, if_false]
    exact hk ((State.setEnv (s.setLatch .scl .released) e).emit (.release .scl false)) rfl
  · simp only [M.bind_run, h, if_true]
    exact ⟨rfl, rfl⟩

theorem waitSclLoop_latches (left : Nat) : Keeps SclReleased (waitSclLoop left) := by
  have he : ∀ s : State, s.scl = .released → SclReleased s (endState (expireStretch s)) :=
    fun s hs => ⟨hs, rfl⟩
  induction left with
  | zero => exact releaseThen_latches he
  | succ left ih =>
    refine releaseThen_latches fun s hs => ?_
    have hd := drawExpired_latches s
    cases hx : drawExpired s with
    | error stop t => exact (drawExpired_ends (fun _ _ => False) s stop t hx).elim
    | ok x t =>
      rw [hx] at hd
      simp only [endState] at hd
      cases x
      · simp only [M.bind_run, hx, Bool.false_eq_true, if_false]
        exact ⟨(ih t).1, (ih t).2.trans hd.2⟩
      · simp only [M.bind_run, hx, if_true]
        exact ⟨hd.1.trans hs, hd.2⟩

theorem waitScl_latches : Keeps SclReleased waitScl := Keeps.getBind fun s => waitSclLoop_latches _ s

/-- The error of the clock-stretch wait, which leaves SCL released (R151, R288). -/
def SclStuck (st : Stop) (t : State) : Prop := st = .raised (.busStuck (.line .scl)) ∧ t.scl = .released

theorem waitSclLoop_raises (left : Nat) :
    EndsEarly (fun st _ => st = .raised (.busStuck (.line .scl))) (waitSclLoop left) := by
  have he : EndsEarly (fun st _ => st = .raised (.busStuck (.line .scl))) expireStretch := by
    intro s stop t h; rw [expireStretch_run] at h; cases h; rfl
  induction left with
  | zero => exact (releaseLine_ends _ _).bind fun v => EndsEarly.ite _ (EndsEarly.pure ()) he
  | succ left ih =>
    exact (releaseLine_ends _ _).bind fun v => EndsEarly.ite _ (EndsEarly.pure ())
      ((drawExpired_ends _).bind fun x => EndsEarly.ite _ he ih)

/-- The wait ends early only by expiry: it never blocks (R151). -/
theorem waitScl_ends : EndsEarly SclStuck waitScl := fun s stop t h =>
  ⟨(EndsEarly.getBind fun _ => waitSclLoop_raises _ : EndsEarly _ waitScl) s stop t h,
    (waitScl_latches.of_error h).1⟩

/-! ## Recovery, START and STOP -/

theorem pulseScl_keeps : Keeps LineFrame pulseScl :=
  LineFrame.bind (driveLine_keeps .scl) fun _ => LineFrame.bind (releaseLine_keeps .scl) fun _ => LineFrame.pure ()

theorem pulseScl_ends (P : Stop → State → Prop) : EndsEarly P pulseScl :=
  (driveLine_ends P .scl).bind fun _ => (releaseLine_ends P .scl).bind fun _ => EndsEarly.pure ()

theorem pulses_keeps (n : Nat) : Keeps LineFrame (pulses n) := by
  induction n with
  | zero => exact LineFrame.pure ()
  | succ n ih => exact LineFrame.bind pulseScl_keeps fun _ => ih

theorem pulses_ends (P : Stop → State → Prop) (n : Nat) : EndsEarly P (pulses n) := by
  induction n with
  | zero => exact EndsEarly.pure ()
  | succ n ih => exact (pulseScl_ends P).bind fun _ => ih

theorem recoveryRounds_keeps (left rounds : Nat) : Keeps LineFrame (recoveryRounds left rounds) := by
  induction left generalizing rounds with
  | zero => exact LineFrame.hang
  | succ left ih =>
    exact LineFrame.bind (pulses_keeps 9) fun _ => LineFrame.bind (releaseLine_keeps .sda) fun _ =>
      Keeps.ite _ (LineFrame.pure ()) (Keeps.getBind fun s => Keeps.ite _ (LineFrame.raise _) (ih _) s)

theorem recoverOnce_keeps : Keeps LineFrame recoverOnce :=
  LineFrame.bind (releaseLine_keeps .sda) fun _ => Keeps.getBind fun s =>
    LineFrame.bind (recoveryRounds_keeps _ 0) (fun _ => LineFrame.bind (driveLine_keeps .scl) fun _ =>
      LineFrame.bind (driveLine_keeps .sda) fun _ => waitScl_keeps) s

theorem releaseSdaHigh_keeps : Keeps LineFrame releaseSdaHigh := fun s =>
  (LineFrame.setLatch s .sda .released).trans (LineFrame.emit _ _)

theorem recover_keeps (left : Nat) : Keeps LineFrame (recover left) := by
  induction left with
  | zero =>
    exact Keeps.getBind fun s => LineFrame.bind (Keeps.whenever LineFrame.refl _ LineFrame.hang)
      (fun _ => LineFrame.bind recoverOnce_keeps fun _ => releaseSdaHigh_keeps) s
  | succ left ih =>
    exact LineFrame.bind recoverOnce_keeps fun _ => LineFrame.bind (releaseLine_keeps .sda) fun _ =>
      Keeps.ite _ (LineFrame.pure ()) ih

theorem resetBus_keeps : Keeps LineFrame resetBus := Keeps.getBind fun s => recover_keeps _ s

theorem stopCondition_keeps : Keeps LineFrame stopCondition :=
  LineFrame.bind waitScl_keeps fun _ => LineFrame.bind (releaseLine_keeps .sda) fun _ =>
    Keeps.ite _ (LineFrame.pure ()) resetBus_keeps

theorem startCondition_keeps : Keeps LineFrame startCondition :=
  LineFrame.bind (releaseLine_keeps .sda) fun _ =>
    LineFrame.bind (Keeps.whenever LineFrame.refl _ resetBus_keeps) fun _ =>
    LineFrame.bind waitScl_keeps fun _ => LineFrame.bind (driveLine_keeps .sda) fun _ => driveLine_keeps .scl

/-- How a bus operation below the transaction can end early: SCL stuck, and released (R151, R288); SDA stuck, under a RESET_ROUND_LIMIT only
(R152); a recovery that never ends, without that limit only (R289, R294). -/
def LinesStuck (st : Stop) (t : State) : Prop :=
  SclStuck st t ∨
  (st = .raised (.busStuck (.line .sda)) ∧ t.params.resetRoundLimit ≠ none) ∨
  (st = .stuck .recoveryNeverEnds ∧ t.params.resetRoundLimit = none)

theorem waitScl_stuck : EndsEarly LinesStuck waitScl := waitScl_ends.mono fun _ _ h => .inl h

/-- With a limit, the rounds allowed outlast those made until it is reached. -/
theorem recoveryRounds_stuck (left rounds : Nat) (s t : State) (stop : Stop)
    (hf : ∀ m, s.params.resetRoundLimit = some m → rounds ≤ m ∧ m < rounds + left)
    (h : recoveryRounds left rounds s = .error stop t) : LinesStuck stop t := by
  induction left generalizing rounds s with
  | zero =>
    simp only [recoveryRounds, hang_run, EStateM.Result.error.injEq] at h
    obtain ⟨rfl, rfl⟩ := h
    cases hm : s.params.resetRoundLimit with
    | none => exact .inr (.inr ⟨rfl, hm⟩)
    | some m => have := hf m hm; omega
  | succ left ih =>
    rw [recoveryRounds, M.bind_run] at h
    cases h1 : pulses 9 s with
    | error st u => exact (pulses_ends (fun _ _ => False) 9 s st u h1).elim
    | ok a u =>
      simp only [h1, M.bind_run] at h
      obtain ⟨v, e, -, h2⟩ := releaseLine_cases .sda u
      have hp : (endState (releaseLine .sda u)).params = s.params :=
        ((releaseLine_keeps .sda u).params).trans ((pulses_keeps 9).of_ok h1).params
      rw [h2] at hp h
      simp only [endState] at hp
      cases v with
      | true => simp at h
      | false =>
        simp only [Bool.false_eq_true, if_false, M.bind_run, M.get_run, M.ite_run, raise_run] at h
        rw [roundLimitReached] at h
        cases hm : s.params.resetRoundLimit with
        | none =>
          simp only [hp, hm, Bool.false_eq_true, if_false] at h
          exact ih (rounds + 1) _ (fun m k => by rw [hp, hm] at k; cases k) h
        | some m =>
          simp only [hp, hm] at h
          split at h
          · simp only [EStateM.Result.error.injEq] at h
            obtain ⟨rfl, rfl⟩ := h
            exact .inr (.inl ⟨rfl, by rw [hp, hm]; nofun⟩)
          · rename_i hr
            refine ih (rounds + 1) _ (fun n k => ?_) h
            rw [hp, hm] at k; cases k
            have := hf m hm
            simp only [decide_eq_true_eq] at hr
            omega

theorem recoverOnce_stuck : EndsEarly LinesStuck recoverOnce := by
  refine (releaseLine_ends _ .sda).bind fun _ => ?_
  intro s stop t h
  simp only [M.bind_run, M.get_run] at h
  cases h1 : recoveryRounds s.roundFuel 0 s with
  | error st u =>
    simp only [h1, EStateM.Result.error.injEq] at h
    obtain ⟨rfl, rfl⟩ := h
    exact recoveryRounds_stuck _ 0 s u st (fun m hm => by simp [State.roundFuel, hm]) h1
  | ok a u =>
    simp only [h1, driveLine_run] at h
    exact waitScl_stuck _ stop t h

theorem recover_stuck (left : Nat) : EndsEarly LinesStuck (recover left) := by
  induction left with
  | zero =>
    intro s stop t h
    simp only [recover, M.bind_run, M.get_run] at h
    cases hm : s.params.resetRoundLimit with
    | none =>
      simp only [hm, Option.isNone_none, whenever_true, hang_run, EStateM.Result.error.injEq] at h
      obtain ⟨rfl, rfl⟩ := h
      exact .inr (.inr ⟨rfl, hm⟩)
    | some m =>
      simp only [hm, Option.isNone_some, whenever_false] at h
      exact (recoverOnce_stuck.bind fun _ => EndsEarly.update _ : EndsEarly LinesStuck (recoverOnce >>= fun _ =>
        releaseSdaHigh)) s stop t (by simpa only [M.bind_run] using h)
  | succ left ih =>
    exact recoverOnce_stuck.bind fun _ => (releaseLine_ends _ .sda).bind fun _ => EndsEarly.ite _ (EndsEarly.pure ()) ih

theorem resetBus_stuck : EndsEarly LinesStuck resetBus := EndsEarly.getBind fun _ => recover_stuck _

theorem stopCondition_stuck : EndsEarly LinesStuck stopCondition :=
  waitScl_stuck.bind fun _ => (releaseLine_ends _ .sda).bind fun _ =>
    EndsEarly.ite _ (EndsEarly.pure ()) resetBus_stuck

theorem startCondition_stuck : EndsEarly LinesStuck startCondition :=
  (releaseLine_ends _ .sda).bind fun _ => (EndsEarly.whenever _ resetBus_stuck).bind fun _ =>
    waitScl_stuck.bind fun _ => (driveLine_ends _ .sda).bind fun _ => driveLine_ends _ .scl

/-- Both lines are released. -/
def IdleLines (s : State) : Prop := s.sda = .released ∧ s.scl = .released

/-- A release of SDA after the wait leaves both lines released. -/
theorem releaseSda_idle (s : State) (h : s.scl = .released) : IdleLines (endState (releaseLine .sda s)) := by
  obtain ⟨v, e, -, k⟩ := releaseLine_cases .sda s; rw [k]; exact ⟨rfl, h⟩

/-- The wait, then a release of SDA, then a continuation where SDA reads low: the shape of every STOP. -/
theorem stopShape_idle {k : M Unit} (hk : ∀ s t, k s = .ok () t → IdleLines t) {s t : State}
    (h : (waitScl >>= fun _ => releaseLine .sda >>= fun v => if v then pure () else k) s = .ok () t) : IdleLines t := by
  rw [M.bind_run] at h
  cases hw : waitScl s with
  | error stop u => simp [hw] at h
  | ok a u =>
    have hu := (waitScl_latches.of_ok hw).1
    have hi := releaseSda_idle u hu
    simp only [hw, M.bind_run] at h
    cases hr : releaseLine .sda u with
    | error stop w => simp [hr] at h
    | ok v w =>
      rw [hr] at hi h
      cases v
      · exact hk w t (by simpa using h)
      · simp only [if_true, M.pure_run, EStateM.Result.ok.injEq, true_and] at h
        exact h ▸ hi

/-- `recoverOnce` leaves SCL released where it ends Ok. -/
theorem recoverOnce_scl {s t : State} (h : recoverOnce s = .ok () t) : t.scl = .released := by
  obtain ⟨v, e, -, h1⟩ := releaseLine_cases .sda s
  simp only [recoverOnce, M.bind_run, h1, M.get_run] at h
  split at h
  · simp only [driveLine_run] at h
    exact (waitScl_latches.of_ok h).1
  · cases h

theorem recover_idle (left : Nat) : ∀ s t, recover left s = .ok () t → IdleLines t := by
  induction left with
  | zero =>
    intro s t h
    simp only [recover, M.bind_run, M.get_run] at h
    split at h
    · split at h
      · rename_i u h1
        have hu := recoverOnce_scl h1
        cases h
        exact ⟨rfl, hu⟩
      · cases h
    · cases h
  | succ left ih =>
    intro s t h
    rw [recover, M.bind_run] at h
    cases h1 : recoverOnce s with
    | error stop u => simp [h1] at h
    | ok a u =>
      have hi := releaseSda_idle u (recoverOnce_scl h1)
      obtain ⟨v, e, -, h2⟩ := releaseLine_cases .sda u
      simp only [h1, M.bind_run, h2] at h
      rw [h2] at hi
      cases v
      · exact ih _ t (by simpa using h)
      · simp only [if_true, M.pure_run, EStateM.Result.ok.injEq, true_and] at h
        exact h ▸ hi

theorem resetBus_idle {s t : State} (h : resetBus s = .ok () t) : IdleLines t :=
  recover_idle _ s t (by simpa [resetBus] using h)

/-- After a STOP both lines are released (R155, R288). -/
theorem stopCondition_idle {s t : State} (h : stopCondition s = .ok () t) : IdleLines t :=
  stopShape_idle (fun _ _ => resetBus_idle) h

/-! ## Bits and bytes -/

theorem placeBit_keeps (b : Bit) : Keeps LineFrame (placeBit b) :=
  Keeps.ite _ (LineFrame.bind (releaseLine_keeps .sda) fun _ => LineFrame.pure ()) (driveLine_keeps .sda)

theorem placeBit_ends (P : Stop → State → Prop) (b : Bit) : EndsEarly P (placeBit b) :=
  EndsEarly.ite _ ((releaseLine_ends P .sda).bind fun _ => EndsEarly.pure ()) (driveLine_ends P .sda)

theorem sendBit_keeps (b : Bit) : Keeps LineFrame (sendBit b) :=
  LineFrame.bind (placeBit_keeps b) fun _ => LineFrame.bind waitScl_keeps fun _ =>
    LineFrame.bind (driveLine_keeps .scl) fun _ => driveLine_keeps .sda

theorem sendBit_ends (b : Bit) : EndsEarly SclStuck (sendBit b) :=
  (placeBit_ends _ b).bind fun _ => waitScl_ends.bind fun _ => (driveLine_ends _ .scl).bind fun _ => driveLine_ends _ .sda

theorem recvBit_keeps : Keeps LineFrame recvBit :=
  LineFrame.bind (releaseLine_keeps .sda) fun _ => LineFrame.bind waitScl_keeps fun _ =>
    LineFrame.bind (releaseLine_keeps .sda) fun _ => LineFrame.bind (driveLine_keeps .scl) fun _ =>
    LineFrame.bind (driveLine_keeps .sda) fun _ => LineFrame.pure _

theorem recvBit_ends : EndsEarly SclStuck recvBit :=
  (releaseLine_ends _ .sda).bind fun _ => waitScl_ends.bind fun _ => (releaseLine_ends _ .sda).bind fun _ =>
    (driveLine_ends _ .scl).bind fun _ => (driveLine_ends _ .sda).bind fun _ => EndsEarly.pure _

theorem sendBits_keeps (bits : List Bit) : Keeps LineFrame (sendBits bits) := by
  induction bits with
  | nil => exact LineFrame.pure ()
  | cons b bs ih => exact LineFrame.bind (sendBit_keeps b) fun _ => ih

theorem sendBits_ends (bits : List Bit) : EndsEarly SclStuck (sendBits bits) := by
  induction bits with
  | nil => exact EndsEarly.pure ()
  | cons b bs ih => exact (sendBit_ends b).bind fun _ => ih

theorem sendByte_keeps (x : Byte) : Keeps LineFrame (sendByte x) :=
  LineFrame.bind (sendBits_keeps _) fun _ => recvBit_keeps

theorem sendByte_ends (x : Byte) : EndsEarly SclStuck (sendByte x) := (sendBits_ends _).bind fun _ => recvBit_ends

theorem recvBits_keeps (n : Nat) (v : Byte) : Keeps LineFrame (recvBits n v) := by
  induction n generalizing v with
  | zero => exact LineFrame.pure v
  | succ n ih => exact LineFrame.bind recvBit_keeps fun _ => ih _

theorem recvBits_ends (n : Nat) (v : Byte) : EndsEarly SclStuck (recvBits n v) := by
  induction n generalizing v with
  | zero => exact EndsEarly.pure v
  | succ n ih => exact recvBit_ends.bind fun _ => ih _

theorem recvByte_keeps : Keeps LineFrame recvByte := recvBits_keeps 8 0

theorem recvByte_ends : EndsEarly SclStuck recvByte := recvBits_ends 8 0

theorem sendMasterAck_keeps (b : Bit) : Keeps LineFrame (sendMasterAck b) :=
  Keeps.getBind fun s => Keeps.whenever LineFrame.refl _ (sendBit_keeps b) s

theorem sendMasterAck_ends (b : Bit) : EndsEarly SclStuck (sendMasterAck b) :=
  EndsEarly.getBind fun _ => EndsEarly.whenever _ (sendBit_ends b)

/-! ## Transactions -/

theorem nackStop_keeps (w : NackAt) : Keeps LineFrame (nackStop w) :=
  LineFrame.bind stopCondition_keeps fun _ => LineFrame.raise _

theorem sendData_keeps (j : Nat) (data : List Byte) : Keeps LineFrame (sendData j data) := by
  induction data generalizing j with
  | nil => exact LineFrame.pure ()
  | cons b bs ih =>
    exact LineFrame.bind (sendByte_keeps b) fun _ =>
      LineFrame.bind (Keeps.whenever LineFrame.refl _ (nackStop_keeps _)) fun _ => ih _

theorem busWrite_keeps (address : Nat) (data : List Byte) : Keeps LineFrame (busWrite address data) :=
  LineFrame.bind (Keeps.require LineFrame.refl _ _) fun _ => LineFrame.bind startCondition_keeps fun _ =>
    LineFrame.bind (sendByte_keeps _) fun _ =>
    LineFrame.bind (Keeps.whenever LineFrame.refl _ (nackStop_keeps _)) fun _ =>
    LineFrame.bind (sendData_keeps 0 data) fun _ => stopCondition_keeps

theorem recvData_keeps (n : Nat) : Keeps LineFrame (recvData n) := by
  induction n with
  | zero => exact LineFrame.pure []
  | succ n ih =>
    exact LineFrame.bind recvByte_keeps fun _ => LineFrame.bind (sendMasterAck_keeps _) fun _ =>
      LineFrame.bind ih fun _ => LineFrame.pure _

theorem busRead_keeps (address count : Nat) : Keeps LineFrame (busRead address count) :=
  LineFrame.bind (Keeps.require LineFrame.refl _ _) fun _ => LineFrame.bind startCondition_keeps fun _ =>
    LineFrame.bind (sendByte_keeps _) fun _ =>
    LineFrame.bind (Keeps.whenever LineFrame.refl _ (nackStop_keeps _)) fun _ =>
    LineFrame.bind (recvData_keeps count) fun _ => LineFrame.bind stopCondition_keeps fun _ => LineFrame.pure _

/-- How a transaction of a 7-bit address can end early: as its lines can, or with a NACK (R161, R162). -/
def BusFails (st : Stop) (t : State) : Prop := LinesStuck st t ∨ ∃ w, st = .raised (.noAck w)

theorem EndsEarly.lines {α : Type} {x : M α} (h : EndsEarly SclStuck x) : EndsEarly BusFails x :=
  h.mono fun _ _ e => .inl (.inl e)

theorem nackStop_fails (w : NackAt) : EndsEarly BusFails (nackStop w) :=
  (stopCondition_stuck.mono fun _ _ h => .inl h).bind fun _ => EndsEarly.raise fun _ => .inr ⟨w, rfl⟩

theorem sendData_fails (j : Nat) (data : List Byte) : EndsEarly BusFails (sendData j data) := by
  induction data generalizing j with
  | nil => exact EndsEarly.pure ()
  | cons b bs ih =>
    exact (sendByte_ends b).lines.bind fun _ => (EndsEarly.whenever _ (nackStop_fails _)).bind fun _ => ih _

theorem recvData_fails (n : Nat) : EndsEarly BusFails (recvData n) := by
  induction n with
  | zero => exact EndsEarly.pure []
  | succ n ih =>
    exact recvByte_ends.lines.bind fun _ => (sendMasterAck_ends _).lines.bind fun _ => ih.bind fun _ => EndsEarly.pure _

theorem busWrite_fails {address : Nat} (data : List Byte) (h : address ≤ 127) :
    EndsEarly BusFails (busWrite address data) :=
  (EndsEarly.require (by simp [h])).bind fun _ => (startCondition_stuck.mono fun _ _ e => .inl e).bind fun _ =>
    (sendByte_ends _).lines.bind fun _ => (EndsEarly.whenever _ (nackStop_fails _)).bind fun _ =>
    (sendData_fails 0 data).bind fun _ => stopCondition_stuck.mono fun _ _ e => .inl e

theorem busRead_fails {address : Nat} (count : Nat) (h : address ≤ 127) : EndsEarly BusFails (busRead address count) :=
  (EndsEarly.require (by simp [h])).bind fun _ => (startCondition_stuck.mono fun _ _ e => .inl e).bind fun _ =>
    (sendByte_ends _).lines.bind fun _ => (EndsEarly.whenever _ (nackStop_fails _)).bind fun _ =>
    (recvData_fails count).bind fun _ => (stopCondition_stuck.mono fun _ _ e => .inl e).bind fun _ => EndsEarly.pure _

end Sys2Proof.Machine
end

