-- ==== Sys2Proof/Laws/Engine.lean ====
section
/-! SUPPORT. What the transactions, the protocol engine and the flash controller keep in every environment. -/

namespace Sys2Proof.Machine

/-! ## Transactions -/

theorem drawWrite_keeps : Keeps LineFrame drawWrite := by
  intro s
  unfold drawWrite
  cases h : s.env.writes with
  | cons r rest => simp only [M.bind_run, M.get_run, h, M.set_run, M.pure_run]; exact LineFrame.setEnv s _ ⟨rfl, rfl⟩
  | nil =>
    simp only [M.bind_run, M.get_run, h, nextDraw_run]
    cases Config.writeFailure s.env.draws <;> exact LineFrame.setEnv s _ ⟨rfl, rfl⟩

theorem nextDraw_keeps : Keeps LineFrame nextDraw := fun s => LineFrame.setEnv s _ ⟨rfl, rfl⟩

theorem fillBytes_keeps (bytes : List Byte) (n : Nat) : Keeps LineFrame (fillBytes bytes n) := by
  induction n generalizing bytes with
  | zero => exact LineFrame.pure []
  | succ n ih =>
    cases bytes with
    | cons b rest => exact LineFrame.bind (ih rest) fun _ => LineFrame.pure _
    | nil => exact LineFrame.bind nextDraw_keeps fun _ => LineFrame.bind (ih []) fun _ => LineFrame.pure _

theorem drawRead_keeps (n : Nat) : Keeps LineFrame (drawRead n) := by
  intro s
  unfold drawRead
  cases h : s.env.reads with
  | cons r rest =>
    simp only [M.bind_run, M.get_run, h, M.set_run]
    refine (LineFrame.setEnv s { s.env with reads := rest } ⟨rfl, rfl⟩).trans ?_
    cases r with
    | ok bytes => exact LineFrame.bind (fillBytes_keeps bytes n) (fun _ => LineFrame.pure _) _
    | failed why => exact LineFrame.refl _
  | nil =>
    simp only [M.bind_run, M.get_run, h, nextDraw_run]
    refine (LineFrame.setEnv s { s.env with reads := [], draws := s.env.draws + 1 } ⟨rfl, rfl⟩).trans ?_
    cases Config.readFailure s.env.draws with
    | none => exact LineFrame.bind (fillBytes_keeps [] n) (fun _ => LineFrame.pure _) _
    | some why => exact LineFrame.refl _

theorem Keeps.access {α : Type} {x : M α} (h : Keeps LineFrame x) : Keeps AccessFrame x :=
  h.mono fun _ _ => LineFrame.access

theorem answerWrite_keeps (a : Addr7) (bytes : List Byte) : Keeps AccessFrame (answerWrite a bytes) := by
  intro s
  unfold answerWrite
  cases h : s.env.mode with
  | oracle => simp only [M.bind_run, M.get_run, h]; exact drawWrite_keeps.access s
  | reference =>
    simp only [M.bind_run, M.get_run, h, M.ite_run]
    split
    · exact AccessFrame.setDevice s _ fun hc => Device.canonical_receive hc bytes
    · exact AccessFrame.refl s

theorem answerRead_keeps (a : Addr7) (n : Nat) : Keeps AccessFrame (answerRead a n) := by
  intro s
  unfold answerRead
  cases h : s.env.mode with
  | oracle => simp only [M.bind_run, M.get_run, h]; exact (drawRead_keeps n).access s
  | reference =>
    simp only [M.bind_run, M.get_run, h, M.ite_run]
    split
    · exact AccessFrame.setDevice s _ fun hc => Device.canonical_send hc n
    · exact AccessFrame.refl s

theorem emit_keeps (e : Event) : Keeps LineFrame (emit e) := fun s => LineFrame.emit s e

theorem nativeWrite_keeps (a : Addr7) (bytes : List Byte) : Keeps AccessFrame (nativeWrite a bytes) :=
  AccessFrame.bind (answerWrite_keeps a bytes) fun r => AccessFrame.bind (emit_keeps _).access fun _ => by
    cases r with
    | ok => exact AccessFrame.pure ()
    | failed why => exact AccessFrame.raise _

theorem nativeRead_keeps (a : Addr7) (n : Nat) : Keeps AccessFrame (nativeRead a n) :=
  AccessFrame.bind (answerRead_keeps a n) fun r => AccessFrame.bind (emit_keeps _).access fun _ => by
    cases r with
    | ok => exact AccessFrame.pure _
    | failed why => exact AccessFrame.raise _

theorem transWrite_keeps (a : Addr7) (bytes : List Byte) : Keeps AccessFrame (transWrite a bytes) :=
  Keeps.getBind fun s => AccessFrame.bind (AccessFrame.require _ _) (fun _ => by
    cases s.backend with
    | softwareBus => exact (busWrite_keeps _ bytes).access
    | native => exact nativeWrite_keeps a bytes) s

theorem transRead_keeps (a : Addr7) (n : Nat) : Keeps AccessFrame (transRead a n) :=
  Keeps.getBind fun s => AccessFrame.bind (AccessFrame.require _ _) (fun _ => by
    cases s.backend with
    | softwareBus => exact (busRead_keeps _ n).access
    | native => exact nativeRead_keeps a n) s

/-! ## Register access and polling -/

theorem writeChunks_keeps (a : Addr7) (reg : Byte) (off : Nat) (cs : List (List Byte)) :
    Keeps AccessFrame (writeChunks a reg off cs) := by
  induction cs generalizing off with
  | nil => exact AccessFrame.pure ()
  | cons c cs ih => exact AccessFrame.bind (transWrite_keeps a _) fun _ => ih _

theorem regWrite_keeps (reg : Byte) (payload : List Byte) (seq : Bool) : Keeps AccessFrame (regWrite reg payload seq) :=
  AccessFrame.bind (AccessFrame.require _ _) fun _ => Keeps.getBind fun s =>
    AccessFrame.bind (AccessFrame.require _ _) (fun _ => writeChunks_keeps _ _ _ _) s

theorem readChunks_keeps (a : Addr7) (reg : Byte) (off : Nat) (ks : List Nat) :
    Keeps AccessFrame (readChunks a reg off ks) := by
  induction ks generalizing off with
  | nil => exact AccessFrame.pure []
  | cons k ks ih =>
    exact AccessFrame.bind (transWrite_keeps _ _) fun _ => AccessFrame.bind (transRead_keeps a k) fun _ =>
      AccessFrame.bind (ih _) fun _ => AccessFrame.pure _

theorem regRead_keeps (reg : Byte) (n : Nat) (seq : Bool) : Keeps AccessFrame (regRead reg n seq) :=
  AccessFrame.bind (AccessFrame.require _ _) fun _ => Keeps.getBind fun s => readChunks_keeps _ _ _ _ s

theorem regWrite8_keeps (reg v : Byte) : Keeps AccessFrame (regWrite8 reg v) := regWrite_keeps _ _ _

theorem regRead8_keeps (reg : Byte) : Keeps AccessFrame (regRead8 reg) :=
  AccessFrame.bind (regRead_keeps _ _ _) fun _ => AccessFrame.pure _

theorem expirePoll_keeps (site : PollSite) (err : Err) : Keeps AccessFrame (expirePoll site err) :=
  AccessFrame.bind (emit_keeps _).access fun _ => AccessFrame.raise _

theorem pollLoop_keeps (site : PollSite) (reg : Byte) (test : PollTest) (err : Err) (left : Nat) :
    Keeps AccessFrame (pollLoop site reg test err left) := by
  induction left with
  | zero =>
    exact AccessFrame.bind (regRead8_keeps reg) fun v => Keeps.ite _ (AccessFrame.pure v) (expirePoll_keeps site err)
  | succ left ih =>
    exact AccessFrame.bind (regRead8_keeps reg) fun v => Keeps.ite _ (AccessFrame.pure v)
      (AccessFrame.bind drawExpired_keeps.access fun _ => Keeps.ite _ (expirePoll_keeps site err) ih)

theorem pollReg_keeps (site : PollSite) (reg : Byte) (test : PollTest) (timeout : Timeout) (err : Err) :
    Keeps AccessFrame (pollReg site reg test timeout err) := Keeps.getBind fun s => pollLoop_keeps _ _ _ _ _ s

theorem waitNotBusy_keeps : Keeps AccessFrame waitNotBusy :=
  AccessFrame.bind (pollReg_keeps _ _ _ _ _) fun _ => AccessFrame.pure ()

theorem setAddr_keeps (reg : Byte) (a : Nat) : Keeps AccessFrame (setAddr reg a) := regWrite_keeps _ _ _

/-! ## Instructions and CRC -/

theorem customInstruction_keeps (cmdType : Nat) (opcode : Byte) (readN writeN writeValue : Nat) :
    Keeps AccessFrame (customInstruction cmdType opcode readN writeN writeValue) :=
  AccessFrame.bind (AccessFrame.require _ _) fun _ => AccessFrame.bind (AccessFrame.require _ _) fun _ =>
    AccessFrame.bind (AccessFrame.whenever _ (regWrite_keeps _ _ _)) fun _ =>
    AccessFrame.bind (regWrite8_keeps _ _) fun _ => AccessFrame.bind (regWrite8_keeps _ _) fun _ =>
    Keeps.getBind fun s => AccessFrame.bind (pollReg_keeps _ _ _ _ _)
      (fun _ => Keeps.ite _ (AccessFrame.bind (regRead_keeps _ _ _) fun _ => AccessFrame.pure _) (AccessFrame.pure _)) s

theorem writeStatusRegister_keeps (value : Nat) : Keeps AccessFrame (writeStatusRegister value) :=
  Keeps.getBind fun s => AccessFrame.bind (customInstruction_keeps _ _ _ _ _) (fun _ => AccessFrame.pure ()) s

theorem deviceCrc_keeps (first last : Nat) : Keeps AccessFrame (deviceCrc first last) :=
  AccessFrame.bind (AccessFrame.require _ _) fun _ => AccessFrame.bind (setAddr_keeps _ _) fun _ =>
    AccessFrame.bind (setAddr_keeps _ _) fun _ => AccessFrame.bind (regWrite8_keeps _ _) fun _ =>
    AccessFrame.bind (pollReg_keeps _ _ _ _ _) fun _ => regRead8_keeps _

theorem detectDevice_keeps (a : Addr7) : Keeps AccessFrame (detectDevice a) :=
  AccessFrame.catching _ (AccessFrame.bind (transRead_keeps a 1) fun _ => AccessFrame.pure _) (AccessFrame.pure _)

/-! ## Flash operations: all but the CRC register -/

/-- What a flash operation leaves: as a register access, but for the CRC register, which the host CRC writes (R27). -/
structure FlashFrame (s t : State) : Prop extends Constant s t where
  session : t.session = s.session
  stream : t.stream = s.stream
  result : t.result = s.result
  canonical : s.device.canonical s.params = true → t.device.canonical t.params = true

theorem FlashFrame.refl (s : State) : FlashFrame s s := ⟨Constant.refl s, rfl, rfl, rfl, id⟩

theorem FlashFrame.trans {a b c : State} (h : FlashFrame a b) (k : FlashFrame b c) : FlashFrame a c :=
  ⟨h.toConstant.trans k.toConstant, k.session.trans h.session, k.stream.trans h.stream, k.result.trans h.result,
    fun x => k.canonical (h.canonical x)⟩

theorem AccessFrame.flash {s t : State} (h : AccessFrame s t) : FlashFrame s t :=
  ⟨h.toConstant, h.session, h.stream, h.result, h.canonical⟩

theorem Keeps.flash {α : Type} {x : M α} (h : Keeps AccessFrame x) : Keeps FlashFrame x :=
  h.mono fun _ _ => AccessFrame.flash

theorem FlashFrame.bind {α β : Type} {x : M α} {f : α → M β} (hx : Keeps FlashFrame x)
    (hf : ∀ a, Keeps FlashFrame (f a)) : Keeps FlashFrame (x >>= f) :=
  Keeps.bind (R := FlashFrame) (fun _ _ _ => FlashFrame.trans) hx hf

theorem FlashFrame.pure {α : Type} (a : α) : Keeps FlashFrame (Pure.pure a : M α) := Keeps.pure FlashFrame.refl a

theorem setCrc_keeps (f : State → Byte) : Keeps FlashFrame (modify fun s => s.setCrc (f s)) :=
  Keeps.update _ fun _ => ⟨⟨rfl, rfl, rfl, rfl, rfl, rfl, rfl, List.prefix_refl _⟩, rfl, rfl, rfl, id⟩

theorem computeHostCrc_keeps (data : List Byte) : Keeps FlashFrame (computeHostCrc data) :=
  FlashFrame.bind (setCrc_keeps fun _ => 0) fun _ =>
    FlashFrame.bind (setCrc_keeps fun s => crcFrom s.crc data) fun _ => Keeps.getBind fun s => FlashFrame.refl s

theorem progress_keeps (first last current : Nat) : Keeps AccessFrame (progress first last current) :=
  (emit_keeps _).access

theorem eraseFlash_keeps : Keeps AccessFrame eraseFlash :=
  AccessFrame.bind (writeStatusRegister_keeps _) fun _ => Keeps.getBind fun s =>
    AccessFrame.bind (customInstruction_keeps _ _ _ _ _) (fun _ => writeStatusRegister_keeps _) s

theorem verifyFlash_keeps (data : List Byte) (n : Nat) : Keeps FlashFrame (verifyFlash data n) :=
  FlashFrame.bind (computeHostCrc_keeps data) fun _ => FlashFrame.bind (deviceCrc_keeps _ _).flash fun _ =>
    FlashFrame.bind (progress_keeps _ _ _).flash fun _ => Keeps.whenever FlashFrame.refl _ (Keeps.raise FlashFrame.refl _)

theorem writePage_keeps (p : Nat) (page : List Byte) : Keeps AccessFrame (writePage p page) :=
  AccessFrame.bind waitNotBusy_keeps fun _ => Keeps.getBind fun s =>
    AccessFrame.bind (regWrite8_keeps _ _) (fun _ => AccessFrame.bind (setAddr_keeps _ _) fun _ =>
      AccessFrame.bind (regWrite_keeps _ _ _) fun _ => regWrite8_keeps _ _) s

theorem programPages_keeps (n p : Nat) (pages : List (List Byte)) : Keeps AccessFrame (programPages n p pages) := by
  induction pages generalizing p with
  | nil => exact AccessFrame.pure ()
  | cons page rest ih =>
    exact AccessFrame.bind (progress_keeps _ _ _) fun _ =>
      AccessFrame.bind (AccessFrame.whenever _ (writePage_keeps _ _)) fun _ => ih _

theorem programFlashImage_keeps (img : List Byte) : Keeps FlashFrame (programFlashImage img) :=
  Keeps.getBind fun s => FlashFrame.bind (AccessFrame.require _ _).flash (fun _ =>
    FlashFrame.bind (writeStatusRegister_keeps _).flash fun _ => FlashFrame.bind (programPages_keeps _ _ _).flash fun _ =>
    FlashFrame.bind waitNotBusy_keeps.flash fun _ => FlashFrame.bind (writeStatusRegister_keeps _).flash fun _ =>
    verifyFlash_keeps _ _) s

theorem collectFlash_keeps (n : Nat) (ks : List Nat) (out : List Byte) : Keeps AccessFrame (collectFlash n ks out) := by
  induction ks generalizing out with
  | nil => exact AccessFrame.pure out
  | cons k ks ih =>
    exact AccessFrame.bind (progress_keeps _ _ _) fun _ => AccessFrame.bind (regRead_keeps _ _ _) fun _ => ih _

theorem readFlashImage_keeps (n : Nat) : Keeps FlashFrame (readFlashImage n) :=
  Keeps.getBind fun s => FlashFrame.bind (AccessFrame.require _ _).flash (fun _ =>
    FlashFrame.bind (customInstruction_keeps _ _ _ _ _).flash fun _ => FlashFrame.bind waitNotBusy_keeps.flash fun _ =>
    FlashFrame.bind (collectFlash_keeps _ _ _).flash fun _ => FlashFrame.bind (verifyFlash_keeps _ _) fun _ =>
    FlashFrame.pure _) s

end Sys2Proof.Machine
end

