-- ==== Sys2Proof/Laws/Gff.lean ====
section
/-! SUPPORT. The bit reader and the nibble decoder in terms of the bits still to be read (R96, R97, R120 to R122). -/

namespace Sys2Proof.Machine

theorem msbFirst_length (x : Byte) : (msbFirst x).length = 8 := rfl

theorem byteBits_cons (x : Byte) (xs : List Byte) : byteBits (x :: xs) = msbFirst x ++ byteBits xs := rfl

theorem byteBits_length (xs : List Byte) : (byteBits xs).length = 8 * xs.length := by
  induction xs with
  | nil => rfl
  | cons x xs ih => rw [byteBits_cons, List.length_append, msbFirst_length, ih, List.length_cons]; omega

/-- The masks, each with its bit number. -/
theorem mask_cases {m : Byte} (h : BitStream.masks.contains m = true) :
    ∃ k : Fin 8, m = (1 : Byte) <<< k.val ∧ Nat.log2 m.toNat = k.val := by
  have h' : m ∈ BitStream.masks := by simpa using h
  simp only [BitStream.masks, List.mem_cons, List.not_mem_nil, or_false] at h'
  rcases h' with h | h | h | h | h | h | h | h <;> subst h
  · exact ⟨7, by decide, by decide⟩
  · exact ⟨6, by decide, by decide⟩
  · exact ⟨5, by decide, by decide⟩
  · exact ⟨4, by decide, by decide⟩
  · exact ⟨3, by decide, by decide⟩
  · exact ⟨2, by decide, by decide⟩
  · exact ⟨1, by decide, by decide⟩
  · exact ⟨0, by decide, by decide⟩

theorem masks_start : BitStream.masks.contains 0x80 = true := by decide

theorem msbFirst_bit (x : Byte) : ∀ k : Fin 8,
    (msbFirst x).drop (7 - k.val) = decide (x &&& ((1 : Byte) <<< k.val) ≠ 0) :: (msbFirst x).drop (7 - k.val + 1) := by
  revert x; decide

/-- A BitStream's form, as propositions (R26). -/
theorem BitStream.valid_iff (bs : BitStream) :
    bs.valid = true ↔ bs.idx ≤ bs.buf.length ∧ BitStream.masks.contains bs.mask = true := by
  simp [BitStream.valid]

/-- Advancing keeps the form, and drops the first unread bit. -/
theorem advanceBit_spec {bs : BitStream} (h : bs.valid = true) (hd : bs.idx < bs.buf.length) :
    (advanceBit bs).valid = true ∧
      unread bs = decide (bs.buf.getD bs.idx 0 &&& bs.mask ≠ 0) :: unread (advanceBit bs) := by
  obtain ⟨buf, idx, mask⟩ := bs
  obtain ⟨hi, hm⟩ := (BitStream.valid_iff _).1 h
  simp only at hi hm hd
  have hdrop : buf.drop idx = buf[idx] :: buf.drop (idx + 1) := List.drop_eq_getElem_cons hd
  have hget : buf.getD idx 0 = buf[idx] := by simp [List.getD, hd]
  obtain ⟨k, hk, hlog⟩ := mask_cases hm
  have hbit := msbFirst_bit buf[idx] k
  have hlen : 7 - k.val < (msbFirst buf[idx]).length := by rw [msbFirst_length]; omega
  have hu : unread { buf := buf, idx := idx, mask := mask } =
      decide (buf[idx] &&& mask ≠ 0) :: ((msbFirst buf[idx]).drop (7 - k.val + 1) ++ byteBits (buf.drop (idx + 1))) := by
    simp only [unread, hdrop, byteBits_cons, hlog]
    rw [List.drop_append_of_le_length (by omega), hbit, hk]
    rfl
  have shift : ∀ k : Fin 8, (k.val = 0 → ((1 : Byte) <<< k.val) >>> 1 = 0) ∧
      (k.val ≠ 0 → ((1 : Byte) <<< k.val) >>> 1 ≠ 0 ∧ BitStream.masks.contains (((1 : Byte) <<< k.val) >>> 1) = true ∧
        Nat.log2 (((1 : Byte) <<< k.val) >>> 1).toNat = k.val - 1) := by decide
  rw [hu, hget]
  by_cases h0 : k.val = 0
  · have hz : mask >>> 1 = 0 := by rw [hk]; exact (shift k).1 h0
    have ha : advanceBit { buf := buf, idx := idx, mask := mask } = { buf := buf, idx := idx + 1, mask := 0x80 } := by
      simp [advanceBit, hz]
    rw [ha]
    refine ⟨(BitStream.valid_iff _).2 ⟨hd, masks_start⟩, ?_⟩
    have e : (msbFirst buf[idx]).drop (7 - k.val + 1) = [] := by rw [h0]; rfl
    have l : Nat.log2 (0x80 : Byte).toNat = 7 := by decide
    rw [e]
    simp only [unread, l, Nat.sub_self, List.drop_zero, List.nil_append]
  · obtain ⟨hnz, hcm, hlg⟩ := (shift k).2 h0
    rw [← hk] at hnz hcm hlg
    have ha : advanceBit { buf := buf, idx := idx, mask := mask } = { buf := buf, idx := idx, mask := mask >>> 1 } := by
      have hnz' : ¬ mask >>> 1 = 0#8 := hnz
      simp [advanceBit, hnz']
    rw [ha]
    refine ⟨(BitStream.valid_iff _).2 ⟨hi, hcm⟩, ?_⟩
    have e : 7 - (k.val - 1) = 7 - k.val + 1 := by omega
    simp only [unread, hdrop, byteBits_cons, hlg, e]
    rw [List.drop_append_of_le_length (by rw [msbFirst_length]; omega)]

/-- An exhausted stream has no unread bits. -/
theorem unread_exhausted {bs : BitStream} (h : ¬ bs.idx < bs.buf.length) : unread bs = [] := by
  have : bs.buf.drop bs.idx = [] := List.drop_eq_nil_of_le (by omega)
  simp [unread, this, byteBits]

/-- One bit is read: the first unread one, or none (R120). -/
theorem readStreamBit_spec {bs : BitStream} (h : bs.valid = true) :
    ∃ bs', readStreamBit bs = ((unread bs).head?, bs') ∧ bs'.valid = true ∧ unread bs' = (unread bs).tail := by
  by_cases hd : bs.idx < bs.buf.length
  · obtain ⟨hv, hu⟩ := advanceBit_spec h hd
    exact ⟨advanceBit bs, by simp only [readStreamBit, hasData, hd, decide_true, if_true, hu, List.head?_cons], hv,
      by rw [hu, List.tail_cons]⟩
  · have hu := unread_exhausted hd
    exact ⟨bs, by simp [readStreamBit, hasData, hd, hu], h, by simp [hu]⟩

theorem readStreamBit_nil {bs : BitStream} (h : bs.valid = true) (hu : unread bs = []) :
    ∃ bs', readStreamBit bs = (none, bs') ∧ bs'.valid = true ∧ unread bs' = [] := by
  obtain ⟨bs', e, hv, ht⟩ := readStreamBit_spec h
  exact ⟨bs', by rw [e, hu]; rfl, hv, by rw [ht, hu]; rfl⟩

theorem readStreamBit_cons {bs : BitStream} (h : bs.valid = true) {b : Bit} {rest : List Bit}
    (hu : unread bs = b :: rest) :
    ∃ bs', readStreamBit bs = (some b, bs') ∧ bs'.valid = true ∧ unread bs' = rest := by
  obtain ⟨bs', e, hv, ht⟩ := readStreamBit_spec h
  exact ⟨bs', by rw [e, hu]; rfl, hv, by rw [ht, hu]; rfl⟩

/-- The number of unconsumed bits (R122). -/
theorem remaining_spec {bs : BitStream} (h : bs.valid = true) : remaining bs = (unread bs).length := by
  obtain ⟨hi, hm⟩ := (BitStream.valid_iff _).1 h
  by_cases hd : bs.idx < bs.buf.length
  · obtain ⟨k, -, hlog⟩ := mask_cases hm
    have : ¬ bs.idx ≥ bs.buf.length := by omega
    simp only [remaining, this, if_false, unread, List.length_drop, byteBits_length, hlog]
    have := k.isLt
    omega
  · have : bs.idx ≥ bs.buf.length := by omega
    simp [remaining, this, unread_exhausted hd]

/-- The stream of a decode starts with every bit of its payload (R26, R96). -/
theorem openStream_spec (payload : List Byte) :
    (openStream payload).valid = true ∧ unread (openStream payload) = byteBits payload := by
  refine ⟨(BitStream.valid_iff _).2 ⟨Nat.zero_le _, masks_start⟩, ?_⟩
  have l : Nat.log2 (0x80 : Byte).toNat = 7 := by decide
  simp only [unread, openStream, l, Nat.sub_self, List.drop_zero]

/-! ## Codewords -/

/-- The stream after a codeword that stands at its cursor. -/
theorem takeCode_append {bs : BitStream} (h : bs.valid = true) (code rest : List Bit) (hu : unread bs = code ++ rest) :
    ∃ bs', takeCode code bs = some bs' ∧ bs'.valid = true ∧ unread bs' = rest := by
  induction code generalizing bs with
  | nil => exact ⟨bs, rfl, h, hu⟩
  | cons c cs ih =>
    obtain ⟨bs1, e, hv, ht⟩ := readStreamBit_cons h hu
    obtain ⟨bs2, e2, hv2, ht2⟩ := ih hv ht
    exact ⟨bs2, by simp [takeCode, e, e2], hv2, ht2⟩

/-- A codeword is taken only where it stands at the cursor. -/
theorem takeCode_some {bs bs' : BitStream} (h : bs.valid = true) (code : List Bit)
    (e : takeCode code bs = some bs') : bs'.valid = true ∧ unread bs = code ++ unread bs' := by
  induction code generalizing bs with
  | nil =>
    simp only [takeCode, Option.some.injEq] at e
    subst e
    exact ⟨h, rfl⟩
  | cons c cs ih =>
    cases hu : unread bs with
    | nil =>
      obtain ⟨bs1, e1, -, -⟩ := readStreamBit_nil h hu
      simp [takeCode, e1] at e
    | cons b rest =>
      obtain ⟨bs1, e1, hv, ht⟩ := readStreamBit_cons h hu
      by_cases hb : b = c
      · subst hb
        simp only [takeCode, e1, if_true] at e
        obtain ⟨hv', hu'⟩ := ih hv e
        exact ⟨hv', by rw [← ht, hu']; rfl⟩
      · simp [takeCode, e1, hb] at e

/-! ## The nibble decoder on bits

The decoder's own text over a list of bits; `decodeNib_spec` says that the machine's decoder is this one on the unread
bits, and the lemmas after it say what this one answers. -/

/-- `next()` on bits. -/
def nextL (u : List Bit) (k : Bit → List Bit → NibResult × List Bit) : NibResult × List Bit :=
  match u with
  | [] => (.trunc, [])
  | b :: t => k b t

/-- A choice by the next bit. -/
def pickL (v1 v0 : Nibble) (u : List Bit) : NibResult × List Bit := nextL u fun b t => (.nib (if b then v1 else v0), t)

/-- The bits after z zeros and the terminating 1. -/
def tailL (z : Nat) (u : List Bit) : NibResult × List Bit :=
  match z with
  | 0 => (.nib 0x0, u)
  | 1 => pickL 0xF 0x1 u
  | 2 => pickL 0x8 0x2 u
  | 3 => pickL 0x7 0xC u
  | 4 => nextL u fun b t => if b then pickL 0x9 0x4 t else nextL t fun c r => if c then pickL 0x5 0xA r else pickL 0xB 0x3 r
  | _ => nextL u fun a t => nextL t fun c r =>
      match a, c with
      | true, true => (.nib 0xD, r)
      | true, false => (.nib 0xE, r)
      | false, true => (.nib 0x6, r)
      | false, false => (.error, r)

/-- The decoder on bits, from z zeros on. -/
def nibFrom (rule : Z6Rule) : (left z : Nat) → List Bit → NibResult × List Bit
  | 0, _, u => (if z6End rule u.length then .endMarker else .error, u)
  | _ + 1, _, [] => (.endMarker, [])
  | _ + 1, z, true :: t => tailL z t
  | left + 1, z, false :: t => nibFrom rule left (z + 1) t

/-- The decoder on bits. -/
def nibL (rule : Z6Rule) (u : List Bit) : NibResult × List Bit := nibFrom rule 6 0 u

/-- The machine's answer on a stream is the list's answer on its unread bits. -/
def Answers (x : NibResult × BitStream) (y : NibResult × List Bit) : Prop :=
  x.1 = y.1 ∧ x.2.valid = true ∧ unread x.2 = y.2

theorem nextBit_answers {bs : BitStream} (h : bs.valid = true) {k : Bit → BitStream → NibResult × BitStream}
    {kL : Bit → List Bit → NibResult × List Bit}
    (hk : ∀ b bs', bs'.valid = true → Answers (k b bs') (kL b (unread bs'))) :
    Answers (nextBit bs k) (nextL (unread bs) kL) := by
  cases hu : unread bs with
  | nil =>
    obtain ⟨bs', e, hv, ht⟩ := readStreamBit_nil h hu
    simp only [nextBit, e, nextL]
    exact ⟨rfl, hv, ht⟩
  | cons b t =>
    obtain ⟨bs', e, hv, ht⟩ := readStreamBit_cons h hu
    simp only [nextBit, e, nextL]
    exact ht ▸ hk b bs' hv

theorem pickNibble_answers {bs : BitStream} (h : bs.valid = true) (v1 v0 : Nibble) :
    Answers (pickNibble v1 v0 bs) (pickL v1 v0 (unread bs)) :=
  nextBit_answers h fun _ _ hv => ⟨rfl, hv, rfl⟩

theorem decodeTail_answers {bs : BitStream} (h : bs.valid = true) (z : Nat) :
    Answers (decodeTail z bs) (tailL z (unread bs)) := by
  match z with
  | 0 => exact ⟨rfl, h, rfl⟩
  | 1 => exact pickNibble_answers h _ _
  | 2 => exact pickNibble_answers h _ _
  | 3 => exact pickNibble_answers h _ _
  | 4 =>
    refine nextBit_answers h fun b bs1 h1 => ?_
    cases b
    · refine nextBit_answers h1 fun c bs2 h2 => ?_
      cases c <;> exact pickNibble_answers h2 _ _
    · exact pickNibble_answers h1 _ _
  | n + 5 =>
    refine nextBit_answers h fun a bs1 h1 => nextBit_answers h1 fun c bs2 h2 => ?_
    cases a <;> cases c <;> exact ⟨rfl, h2, rfl⟩

theorem countZeros_answers (rule : Z6Rule) (left z : Nat) {bs : BitStream} (h : bs.valid = true) :
    Answers (match countZeros left z bs with
      | .exhausted bs' => (.endMarker, bs')
      | .six bs' => (if z6End rule (remaining bs') then .endMarker else .error, bs')
      | .found z bs' => decodeTail z bs') (nibFrom rule left z (unread bs)) := by
  induction left generalizing z bs with
  | zero => simp only [countZeros, nibFrom, remaining_spec h]; exact ⟨rfl, h, rfl⟩
  | succ left ih =>
    cases hu : unread bs with
    | nil =>
      obtain ⟨bs', e, hv, ht⟩ := readStreamBit_nil h hu
      simp only [countZeros, e, nibFrom]
      exact ⟨rfl, hv, ht⟩
    | cons b t =>
      obtain ⟨bs', e, hv, ht⟩ := readStreamBit_cons h hu
      cases b
      · simp only [countZeros, e, nibFrom]
        exact ht ▸ ih (z + 1) hv
      · simp only [countZeros, e, nibFrom]
        exact ht ▸ decodeTail_answers hv z

theorem decodeNib_spec (rule : Z6Rule) {bs : BitStream} (h : bs.valid = true) :
    Answers (decodeNib rule bs) (nibL rule (unread bs)) := countZeros_answers rule 6 0 h

/-- A codeword decodes to its nibble (R97). -/
theorem nibL_code (rule : Z6Rule) (v : Nibble) (rest : List Bit) : nibL rule (nibbleCode v ++ rest) = (.nib v, rest) := by
  obtain ⟨⟨n, hn⟩⟩ := v
  interval_cases n <;> rfl

theorem nibL_errorCode (rule : Z6Rule) (rest : List Bit) : nibL rule (errorCode ++ rest) = (.error, rest) := rfl

theorem nibL_z6 (rule : Z6Rule) (rest : List Bit) :
    nibL rule (z6Code ++ rest) = (if z6End rule rest.length then .endMarker else .error, rest) := rfl

/-- A stream whose first bits decide nothing: at most five zeros and then the end of the stream. -/
theorem nibL_zeros (rule : Z6Rule) (k : Nat) (h : k ≤ 5) : nibL rule (List.replicate k false) = (.endMarker, []) := by
  interval_cases k <;> rfl

/-- What a bit string begins with decides what the decoder answers: a codeword of R97, or its end, or too few bits after
the terminating 1. -/
theorem nibL_cases (rule : Z6Rule) (u : List Bit) :
    (∃ v rest, u = nibbleCode v ++ rest ∧ nibL rule u = (.nib v, rest)) ∨
    (∃ rest, u = errorCode ++ rest ∧ nibL rule u = (.error, rest)) ∨
    (∃ rest, u = z6Code ++ rest ∧ nibL rule u = (if z6End rule rest.length then .endMarker else .error, rest)) ∨
    (∃ k, k ≤ 5 ∧ u = List.replicate k false ∧ nibL rule u = (.endMarker, [])) ∨
    (nibL rule u).1 = .trunc := by
  have code : ∀ (v : Nibble) rest, u = nibbleCode v ++ rest →
      ∃ v rest, u = nibbleCode v ++ rest ∧ nibL rule u = (.nib v, rest) :=
    fun v rest e => ⟨v, rest, e, by rw [e]; exact nibL_code rule v rest⟩
  rcases u with _ | ⟨_ | _, u⟩
  · exact .inr (.inr (.inr (.inl ⟨0, by omega, rfl, rfl⟩)))
  · rcases u with _ | ⟨_ | _, u⟩
    · exact .inr (.inr (.inr (.inl ⟨1, by omega, rfl, rfl⟩)))
    · rcases u with _ | ⟨_ | _, u⟩
      · exact .inr (.inr (.inr (.inl ⟨2, by omega, rfl, rfl⟩)))
      · rcases u with _ | ⟨_ | _, u⟩
        · exact .inr (.inr (.inr (.inl ⟨3, by omega, rfl, rfl⟩)))
        · rcases u with _ | ⟨_ | _, u⟩
          · exact .inr (.inr (.inr (.inl ⟨4, by omega, rfl, rfl⟩)))
          · rcases u with _ | ⟨_ | _, u⟩
            · exact .inr (.inr (.inr (.inl ⟨5, by omega, rfl, rfl⟩)))
            · exact .inr (.inr (.inl ⟨u, rfl, rfl⟩))
            · rcases u with _ | ⟨_ | _, u⟩
              · exact .inr (.inr (.inr (.inr rfl)))
              · rcases u with _ | ⟨_ | _, u⟩
                · exact .inr (.inr (.inr (.inr rfl)))
                · exact .inr (.inl ⟨u, rfl, rfl⟩)
                · exact .inl (code 0x6 u rfl)
              · rcases u with _ | ⟨_ | _, u⟩
                · exact .inr (.inr (.inr (.inr rfl)))
                · exact .inl (code 0xE u rfl)
                · exact .inl (code 0xD u rfl)
          · rcases u with _ | ⟨_ | _, u⟩
            · exact .inr (.inr (.inr (.inr rfl)))
            · rcases u with _ | ⟨_ | _, u⟩
              · exact .inr (.inr (.inr (.inr rfl)))
              · rcases u with _ | ⟨_ | _, u⟩
                · exact .inr (.inr (.inr (.inr rfl)))
                · exact .inl (code 0x3 u rfl)
                · exact .inl (code 0xB u rfl)
              · rcases u with _ | ⟨_ | _, u⟩
                · exact .inr (.inr (.inr (.inr rfl)))
                · exact .inl (code 0xA u rfl)
                · exact .inl (code 0x5 u rfl)
            · rcases u with _ | ⟨_ | _, u⟩
              · exact .inr (.inr (.inr (.inr rfl)))
              · exact .inl (code 0x4 u rfl)
              · exact .inl (code 0x9 u rfl)
        · rcases u with _ | ⟨_ | _, u⟩
          · exact .inr (.inr (.inr (.inr rfl)))
          · exact .inl (code 0xC u rfl)
          · exact .inl (code 0x7 u rfl)
      · rcases u with _ | ⟨_ | _, u⟩
        · exact .inr (.inr (.inr (.inr rfl)))
        · exact .inl (code 0x2 u rfl)
        · exact .inl (code 0x8 u rfl)
    · rcases u with _ | ⟨_ | _, u⟩
      · exact .inr (.inr (.inr (.inr rfl)))
      · exact .inl (code 0x1 u rfl)
      · exact .inl (code 0xF u rfl)
  · exact .inl (code 0x0 u rfl)

/-- A nibble is answered only for its own codeword. -/
theorem nibL_nib {rule : Z6Rule} {u rest : List Bit} {v : Nibble} (h : nibL rule u = (.nib v, rest)) :
    u = nibbleCode v ++ rest := by
  rcases nibL_cases rule u with ⟨w, r, e, k⟩ | ⟨r, -, k⟩ | ⟨r, -, k⟩ | ⟨n, -, -, k⟩ | k
  · rw [k] at h; cases h; exact e
  · rw [k] at h; cases h
  · rw [k] at h; split at h <;> cases h
  · rw [k] at h; cases h
  · rw [h] at k; cases k

/-- The end marker is answered exactly where the stream ends (R97). -/
theorem nibL_end {rule : Z6Rule} {u : List Bit} : (nibL rule u).1 = .endMarker ↔ endsStream rule u := by
  constructor
  · intro h
    rcases nibL_cases rule u with ⟨w, r, e, k⟩ | ⟨r, -, k⟩ | ⟨r, e, k⟩ | ⟨n, hn, e, k⟩ | k
    · rw [k] at h; cases h
    · rw [k] at h; cases h
    · rw [k] at h
      refine .inr ⟨r, e, ?_⟩
      cases hz : z6End rule r.length
      · simp [hz] at h
      · rfl
    · exact .inl ⟨n, hn, e⟩
    · rw [k] at h; cases h
  · rintro (⟨k, hk, e⟩ | ⟨r, e, hz⟩)
    · rw [e, nibL_zeros rule k hk]
    · have e' : u = z6Code ++ r := e
      rw [e', nibL_z6, hz]; rfl

end Sys2Proof.Machine
end

