-- ==== Sys2Proof/Laws/QuietBus.lean ====
section
/-! SUPPORT. What the bus operations do on a bus without stretching whose answers are fixed: the exact state after, with
the exact events (R163). -/

namespace Sys2Proof.Machine

@[simp] theorem State.afterLine_senses (s : State) (a b : Latch) (r : List Bit) (e : List Event) :
    (s.afterLine a b r e).env.senses = r := rfl
@[simp] theorem State.afterLine_sda (s : State) (a b : Latch) (r : List Bit) (e : List Event) :
    (s.afterLine a b r e).sda = a := rfl
@[simp] theorem State.afterLine_scl (s : State) (a b : Latch) (r : List Bit) (e : List Event) :
    (s.afterLine a b r e).scl = b := rfl
@[simp] theorem State.afterLine_params (s : State) (a b : Latch) (r : List Bit) (e : List Event) :
    (s.afterLine a b r e).params = s.params := rfl

@[simp] theorem State.afterLine_afterLine (s : State) (a b c d : Latch) (r q : List Bit) (e f : List Event) :
    (s.afterLine a b r e).afterLine c d q f = s.afterLine c d q (e ++ f) := by
  simp [State.afterLine, List.append_assoc]

theorem State.afterLine_self (s : State) : s.afterLine s.sda s.scl s.env.senses [] = s := by
  simp [State.afterLine]

theorem driveLine_scl (s : State) :
    driveLine .scl s = .ok () (s.afterLine s.sda .driven s.env.senses [.drive .scl]) := rfl

theorem driveLine_sda (s : State) :
    driveLine .sda s = .ok () (s.afterLine .driven s.scl s.env.senses [.drive .sda]) := rfl

theorem releaseLine_sda (s : State) (v : Bit) (rest : List Bit) (h : s.env.senses = v :: rest) :
    releaseLine .sda s = .ok v (s.afterLine .released s.scl rest [.release .sda v]) :=
  releaseLine_scripted .sda s v rest h

theorem releaseLine_scl_run (s : State) (v : Bit) (rest : List Bit) (h : s.env.senses = v :: rest) :
    releaseLine .scl s = .ok v (s.afterLine s.sda .released rest [.release .scl v]) :=
  releaseLine_scripted .scl s v rest h

theorem waitScl_quiet (s : State) (rest : List Bit) (h : s.env.senses = true :: rest) :
    waitScl s = .ok () (s.afterLine s.sda .released rest [sclHigh]) := by
  obtain ⟨n, hn⟩ : ∃ n, s.waitBound .stretch = n + 1 := ⟨_, rfl⟩
  simp only [waitScl, M.bind_run, M.get_run, hn, waitSclLoop, releaseLine_scl_run s true rest h, if_true, M.pure_run]
  rfl

/-! ## Bits -/

theorem sendBit_quiet (echo : Nat → Bit) (i : Nat) (b : Bit) (s : State) (rest : List Bit)
    (h : s.env.senses = sentSenses echo i [b] ++ rest) :
    sendBit b s = .ok () (s.afterLine .driven .driven rest (sentEvents echo i [b])) := by
  cases b
  · simp only [sendBit, placeBit, M.bind_run, Bool.false_eq_true, if_false, driveLine_sda]
    rw [waitScl_quiet _ rest (by simpa [sentSenses] using h)]
    simp [driveLine_scl, sentEvents, bitEnd]
  · have h' : s.env.senses = echo i :: true :: rest := by simpa [sentSenses] using h
    simp only [sendBit, placeBit, M.bind_run, if_true, releaseLine_sda s _ _ h', M.pure_run]
    rw [waitScl_quiet _ rest rfl]
    simp [driveLine_scl, driveLine_sda, sentEvents, bitEnd]

theorem recvBit_quiet (echo : Nat → Bit) (i : Nat) (b : Bit) (s : State) (rest : List Bit)
    (h : s.env.senses = recvSenses echo i [b] ++ rest) :
    recvBit s = .ok b (s.afterLine .driven .driven rest (recvEvents echo i [b])) := by
  have h' : s.env.senses = echo i :: true :: b :: rest := by simpa [recvSenses] using h
  simp only [recvBit, M.bind_run, releaseLine_sda s _ _ h']
  rw [waitScl_quiet _ (b :: rest) rfl]
  simp only [State.afterLine_afterLine, State.afterLine_sda]
  rw [releaseLine_sda _ b rest rfl]
  simp [driveLine_scl, driveLine_sda, recvEvents, bitEnd]

theorem sentSenses_cons (echo : Nat → Bit) (i : Nat) (b : Bit) (bs : List Bit) :
    sentSenses echo i (b :: bs) = sentSenses echo i [b] ++ sentSenses echo (i + 1) bs := by
  cases b <;> simp [sentSenses]

theorem sentEvents_cons (echo : Nat → Bit) (i : Nat) (b : Bit) (bs : List Bit) :
    sentEvents echo i (b :: bs) = sentEvents echo i [b] ++ sentEvents echo (i + 1) bs := by
  cases b <;> simp [sentEvents]

theorem recvSenses_cons (echo : Nat → Bit) (i : Nat) (b : Bit) (bs : List Bit) :
    recvSenses echo i (b :: bs) = recvSenses echo i [b] ++ recvSenses echo (i + 1) bs := by simp [recvSenses]

theorem recvEvents_cons (echo : Nat → Bit) (i : Nat) (b : Bit) (bs : List Bit) :
    recvEvents echo i (b :: bs) = recvEvents echo i [b] ++ recvEvents echo (i + 1) bs := by simp [recvEvents]

theorem sendBits_quiet (echo : Nat → Bit) (i : Nat) (b : Bit) (bs : List Bit) (s : State) (rest : List Bit)
    (h : s.env.senses = sentSenses echo i (b :: bs) ++ rest) :
    sendBits (b :: bs) s = .ok () (s.afterLine .driven .driven rest (sentEvents echo i (b :: bs))) := by
  induction bs generalizing i b s with
  | nil => simp only [sendBits, M.bind_run, sendBit_quiet echo i b s rest h, M.pure_run]
  | cons c cs ih =>
    rw [sentSenses_cons echo i b (c :: cs), List.append_assoc] at h
    rw [sendBits, M.bind_run, sendBit_quiet echo i b s _ h, sentEvents_cons echo i b (c :: cs)]
    simpa only [State.afterLine_afterLine] using
      ih (i + 1) c (s.afterLine .driven .driven (sentSenses echo (i + 1) (c :: cs) ++ rest) (sentEvents echo i [b])) rfl

/-! ## Bytes -/

theorem sendByte_quiet (echo : Nat → Bit) (i : Nat) (x : Byte) (ack : Bit) (s : State) (rest : List Bit)
    (h : s.env.senses = byteSenses echo i x ack ++ rest) :
    sendByte x s = .ok ack (s.afterLine .driven .driven rest (byteEvents echo i x ack)) := by
  rw [byteSenses, List.append_assoc] at h
  obtain ⟨b, bs, hb⟩ : ∃ b bs, msbFirst x = b :: bs := ⟨_, _, rfl⟩
  rw [byteEvents, sendByte, M.bind_run]
  rw [hb] at h ⊢
  simp only [sendBits_quiet echo i b bs s _ h, recvBit_quiet echo (i + 8) ack (State.afterLine s _ _ _ _) rest rfl,
    State.afterLine_afterLine]

/-- The byte that bits shift into the low end of another. -/
def shiftIn (v : Byte) (bits : List Bit) : Byte := bits.foldl (fun v b => (v <<< 1) ||| (if b then 1 else 0)) v

theorem recvBits_quiet (echo : Nat → Bit) (i : Nat) (bits : List Bit) (v : Byte) (s : State) (rest : List Bit)
    (hd : s.sda = .driven) (hc : s.scl = .driven) (h : s.env.senses = recvSenses echo i bits ++ rest) :
    recvBits bits.length v s = .ok (shiftIn v bits) (s.afterLine .driven .driven rest (recvEvents echo i bits)) := by
  induction bits generalizing i v s with
  | nil =>
    have := State.afterLine_self s
    rw [hd, hc] at this
    simp only [recvSenses, List.nil_append] at h
    simp only [List.length_nil, recvBits, M.pure_run, shiftIn, List.foldl_nil, recvEvents, ← h, this]
  | cons b bs ih =>
    rw [recvSenses_cons echo i b bs, List.append_assoc] at h
    rw [List.length_cons, recvBits, M.bind_run, recvBit_quiet echo i b s _ h, recvEvents_cons echo i b bs]
    simpa only [State.afterLine_afterLine, shiftIn, List.foldl_cons] using
      ih (i + 1) _ (s.afterLine .driven .driven (recvSenses echo (i + 1) bs ++ rest) (recvEvents echo i [b])) rfl rfl rfl

theorem shiftIn_msbFirst : ∀ x : Byte, shiftIn 0 (msbFirst x) = x := by
  decide

/-- The first bit of a read byte needs no latch condition. -/
theorem recvByte_quiet (echo : Nat → Bit) (i : Nat) (x : Byte) (s : State) (rest : List Bit)
    (h : s.env.senses = recvSenses echo i (msbFirst x) ++ rest) :
    recvByte s = .ok x (s.afterLine .driven .driven rest (recvEvents echo i (msbFirst x))) := by
  obtain ⟨b, bs, hb, hl⟩ : ∃ b bs, msbFirst x = b :: bs ∧ bs.length = 7 := ⟨_, _, rfl, rfl⟩
  have hx := shiftIn_msbFirst x
  rw [hb] at h hx ⊢
  rw [recvSenses_cons echo i b bs, List.append_assoc] at h
  have hr := recvBits_quiet echo (i + 1) bs ((0 : Byte) <<< 1 ||| (if b then 1 else 0))
    (s.afterLine .driven .driven (recvSenses echo (i + 1) bs ++ rest) (recvEvents echo i [b])) rest rfl rfl rfl
  rw [hl] at hr
  rw [recvByte, recvBits, M.bind_run, recvBit_quiet echo i b s _ h, recvEvents_cons echo i b bs]
  simp only [hr, State.afterLine_afterLine]
  rw [← hx]
  rfl

/-! ## START, STOP and transactions -/

theorem startCondition_quiet (s : State) (rest : List Bit) (h : s.env.senses = bothHigh ++ rest) :
    startCondition s = .ok () (s.afterLine .driven .driven rest startEvents) := by
  simp only [startCondition, M.bind_run, releaseLine_sda s true (true :: rest) h, Bool.not_true, whenever_false]
  rw [waitScl_quiet _ rest rfl]
  simp [driveLine_sda, driveLine_scl, startEvents]

theorem stopCondition_quiet (s : State) (rest : List Bit) (h : s.env.senses = bothHigh ++ rest) :
    stopCondition s = .ok () (s.afterLine .released .released rest stopEvents) := by
  simp only [stopCondition, M.bind_run, waitScl_quiet s (true :: rest) h]
  rw [releaseLine_sda _ true rest rfl]
  simp [stopEvents]

theorem sendData_quiet (echo : Nat → Bit) (i j : Nat) (data : List Byte) (s : State) (rest : List Bit)
    (hd : s.sda = .driven) (hc : s.scl = .driven) (h : s.env.senses = bytesSenses echo i data ++ rest) :
    sendData j data s = .ok () (s.afterLine .driven .driven rest (bytesEvents echo i data)) := by
  induction data generalizing i j s with
  | nil =>
    have := State.afterLine_self s
    rw [hd, hc] at this
    simp only [bytesSenses, List.nil_append] at h
    simp only [sendData, M.pure_run, bytesEvents, ← h, this]
  | cons x xs ih =>
    rw [bytesSenses, List.append_assoc] at h
    simp only [sendData, M.bind_run, sendByte_quiet echo i x false s _ h, isNack, whenever_false, bytesEvents]
    simpa only [State.afterLine_afterLine] using
      ih (i + 9) (j + 1) (s.afterLine .driven .driven (bytesSenses echo (i + 9) xs ++ rest) (byteEvents echo i x false))
        rfl rfl rfl

/-- A write whose every byte is acknowledged. -/
theorem busWrite_quiet (echo : Nat → Bit) (address : Nat) (data : List Byte) (s : State) (rest : List Bit)
    (ha : address ≤ 127)
    (h : s.env.senses = bothHigh ++ bytesSenses echo 0 (addressByte (BitVec.ofNat 7 address) false :: data) ++
      bothHigh ++ rest) :
    busWrite address data s = .ok () (s.afterLine .released .released rest
      (startEvents ++ bytesEvents echo 0 (addressByte (BitVec.ofNat 7 address) false :: data) ++ stopEvents)) := by
  simp only [List.append_assoc] at h
  simp only [busWrite, ha, decide_true, M.bind_run, require_true, startCondition_quiet s _ h]
  simp only [bytesSenses, List.append_assoc]
  simp only [sendByte_quiet echo 0 _ false (State.afterLine s _ _ _ _) _ rfl, isNack, whenever_false,
    State.afterLine_afterLine]
  simp only [sendData_quiet echo (0 + 9) 0 data (State.afterLine s _ _ _ _) _ rfl rfl rfl, State.afterLine_afterLine]
  simp only [stopCondition_quiet (State.afterLine s _ _ _ _) rest rfl, State.afterLine_afterLine, bytesEvents,
    List.append_assoc]

/-- A NACK is followed by a STOP before the error (R161, D7). -/
theorem nackStop_quiet (w : NackAt) (s : State) (rest : List Bit) (h : s.env.senses = bothHigh ++ rest) :
    nackStop w s = .error (.raised (.noAck w)) (s.afterLine .released .released rest stopEvents) := by
  simp only [nackStop, M.bind_run, stopCondition_quiet s rest h, raise_run]

/-- A write whose address byte is not acknowledged. -/
theorem busWrite_addressNack (echo : Nat → Bit) (address : Nat) (data : List Byte) (s : State) (rest : List Bit)
    (ha : address ≤ 127)
    (h : s.env.senses = bothHigh ++ byteSenses echo 0 (addressByte (BitVec.ofNat 7 address) false) true ++ bothHigh ++
      rest) :
    busWrite address data s = .error (.raised (.noAck .address)) (s.afterLine .released .released rest
      (startEvents ++ byteEvents echo 0 (addressByte (BitVec.ofNat 7 address) false) true ++ stopEvents)) := by
  simp only [List.append_assoc] at h
  simp only [busWrite, ha, decide_true, M.bind_run, require_true, startCondition_quiet s _ h]
  simp only [sendByte_quiet echo 0 _ true (State.afterLine s _ _ _ _) _ rfl, isNack, whenever_true,
    State.afterLine_afterLine, nackStop_quiet .address (State.afterLine s _ _ _ _) rest rfl, List.append_assoc]

/-- Data bytes of which one is not acknowledged. -/
theorem sendData_nack (echo : Nat → Bit) (i j : Nat) (acked : List Byte) (x : Byte) (unsent : List Byte) (s : State)
    (rest : List Bit)
    (h : s.env.senses = bytesSenses echo i acked ++ byteSenses echo (i + 9 * acked.length) x true ++ bothHigh ++ rest) :
    sendData j (acked ++ x :: unsent) s = .error (.raised (.noAck (.data (j + acked.length))))
      (s.afterLine .released .released rest
        (bytesEvents echo i acked ++ byteEvents echo (i + 9 * acked.length) x true ++ stopEvents)) := by
  induction acked generalizing i j s with
  | nil =>
    simp only [bytesSenses, List.length_nil, Nat.mul_zero, Nat.add_zero, List.nil_append, List.append_assoc] at h
    simp only [List.nil_append, sendData, M.bind_run, sendByte_quiet echo i x true s _ h, isNack, whenever_true,
      nackStop_quiet _ (State.afterLine s _ _ _ _) rest rfl, State.afterLine_afterLine, bytesEvents, List.length_nil,
      Nat.mul_zero, Nat.add_zero]
  | cons y ys ih =>
    have e : i + 9 * (y :: ys).length = i + 9 + 9 * ys.length := by simp only [List.length_cons]; omega
    have ej : j + (y :: ys).length = j + 1 + ys.length := by simp only [List.length_cons]; omega
    rw [bytesSenses, List.append_assoc, List.append_assoc, List.append_assoc, e] at h
    rw [e, ej]
    simp only [List.cons_append, sendData, M.bind_run, sendByte_quiet echo i y false s _ h, isNack, whenever_false,
      bytesEvents]
    rw [ih (i + 9) (j + 1) (State.afterLine s _ _ _ _) (by simp [List.append_assoc])]
    simp only [State.afterLine_afterLine, List.append_assoc]

theorem sendMasterAck_quiet (echo : Nat → Bit) (i : Nat) (b : Bit) (s : State) (rest : List Bit)
    (hd : s.sda = .driven) (hc : s.scl = .driven)
    (h : s.env.senses = sentSenses echo i (if s.params.masterRxAck then [b] else []) ++ rest) :
    sendMasterAck b s = .ok () (s.afterLine .driven .driven rest
      (sentEvents echo i (if s.params.masterRxAck then [b] else []))) := by
  cases hm : s.params.masterRxAck
  · have := State.afterLine_self s
    rw [hd, hc] at this
    simp only [hm, Bool.false_eq_true, if_false, sentSenses, List.nil_append] at h
    simp only [sendMasterAck, M.bind_run, M.get_run, hm, whenever_false, Bool.false_eq_true, if_false, sentEvents, ← h,
      this]
  · simp only [hm, if_true] at h
    simp only [sendMasterAck, M.bind_run, M.get_run, hm, whenever_true, if_true, sendBit_quiet echo i b s rest h]

theorem recvData_quiet (echo : Nat → Bit) (i : Nat) (data : List Byte) (s : State) (rest : List Bit)
    (hd : s.sda = .driven) (hc : s.scl = .driven)
    (h : s.env.senses = dataSenses s.params.masterRxAck echo i data ++ rest) :
    recvData data.length s = .ok data (s.afterLine .driven .driven rest (dataEvents s.params.masterRxAck echo i data)) := by
  induction data generalizing i s with
  | nil =>
    have := State.afterLine_self s
    rw [hd, hc] at this
    simp only [dataSenses, List.nil_append] at h
    simp only [List.length_nil, recvData, M.pure_run, dataEvents, ← h, this]
  | cons x xs ih =>
    simp only [dataSenses, List.append_assoc] at h
    simp only [List.length_cons, recvData, M.bind_run, recvByte_quiet echo i x s _ h]
    rw [sendMasterAck_quiet echo (i + 8) _ (State.afterLine s _ _ _ _)
      (dataSenses s.params.masterRxAck echo (i + 9) xs ++ rest) rfl rfl rfl]
    simp only [State.afterLine_afterLine, State.afterLine_params]
    rw [ih (i + 9) (State.afterLine s _ _ _ _) rfl rfl rfl]
    simp only [M.pure_run, State.afterLine_afterLine, State.afterLine_params, dataEvents, masterBits, List.append_assoc]
    rfl

/-- A read whose address byte is acknowledged. -/
theorem busRead_quiet (echo : Nat → Bit) (address : Nat) (data : List Byte) (s : State) (rest : List Bit)
    (ha : address ≤ 127)
    (h : s.env.senses = bothHigh ++ byteSenses echo 0 (addressByte (BitVec.ofNat 7 address) true) false ++
      dataSenses s.params.masterRxAck echo 9 data ++ bothHigh ++ rest) :
    busRead address data.length s = .ok data (s.afterLine .released .released rest
      (startEvents ++ byteEvents echo 0 (addressByte (BitVec.ofNat 7 address) true) false ++
        dataEvents s.params.masterRxAck echo 9 data ++ stopEvents)) := by
  simp only [List.append_assoc] at h
  simp only [busRead, ha, decide_true, M.bind_run, require_true, startCondition_quiet s _ h]
  simp only [sendByte_quiet echo 0 _ false (State.afterLine s _ _ _ _) _ rfl, isNack, whenever_false,
    State.afterLine_afterLine]
  rw [recvData_quiet echo 9 data (State.afterLine s _ _ _ _) _ rfl rfl rfl]
  simp only [State.afterLine_afterLine, State.afterLine_params]
  simp only [stopCondition_quiet (State.afterLine s _ _ _ _) rest rfl, State.afterLine_afterLine, M.pure_run,
    List.append_assoc]

/-- A read whose address byte is not acknowledged. -/
theorem busRead_addressNack (echo : Nat → Bit) (address count : Nat) (s : State) (rest : List Bit)
    (ha : address ≤ 127)
    (h : s.env.senses = bothHigh ++ byteSenses echo 0 (addressByte (BitVec.ofNat 7 address) true) true ++ bothHigh ++
      rest) :
    busRead address count s = .error (.raised (.noAck .address)) (s.afterLine .released .released rest
      (startEvents ++ byteEvents echo 0 (addressByte (BitVec.ofNat 7 address) true) true ++ stopEvents)) := by
  simp only [List.append_assoc] at h
  simp only [busRead, ha, decide_true, M.bind_run, require_true, startCondition_quiet s _ h]
  simp only [sendByte_quiet echo 0 _ true (State.afterLine s _ _ _ _) _ rfl, isNack, whenever_true,
    State.afterLine_afterLine, nackStop_quiet .address (State.afterLine s _ _ _ _) rest rfl, List.append_assoc]

end Sys2Proof.Machine
end

