-- ==== Sys2Proof/Laws/Exec.lean ====
section
/-! SUPPORT. Every call is one operation run under its session gate. -/

namespace Sys2Proof.Machine

/-- The operation an instruction runs. -/
def operation (i : Instr) (s : State) : M Value :=
  match i with
  | .bsReadBit bs => do
    modify fun t => t.setStream (readStreamBit bs).2
    return .optBit (readStreamBit bs).1
  | .decodeNibble bs => do
    modify fun t => t.setStream (decodeNib s.params.z6 bs).2
    return .nibble (decodeNib s.params.z6 bs).1
  | .checkHeader file => valueResult ((headerPayload file).map .bytes)
  | .decode file => do
    modify fun t => t.setStream noStream
    valueResult ((gffDecode s.params.z6 file).map .bytes)
  | .computeDecodedSize file => do
    modify fun t => t.setStream noStream
    return .nat (gffSize s.params.z6 file)
  | .drive l => asUnit (driveLine l)
  | .release l => asBit (releaseLine l)
  | .waitScl => asUnit waitScl
  | .busReset => asUnit resetBus
  | .pulseScl => asUnit pulseScl
  | .start => asUnit startCondition
  | .stop => asUnit stopCondition
  | .writeBit b => asUnit (sendBit b)
  | .readBit => asBit recvBit
  | .writeByte x => asBit (sendByte x)
  | .readByte => do return .byte (← recvByte)
  | .busWrite address data => asUnit (busWrite address data)
  | .busRead address count => do return .bytes (← busRead address count)
  | .tWrite a bytes => asUnit (transWrite a bytes)
  | .tRead a n => do return .bytes (← transRead a n)
  | .init _ _ => asUnit openTransport
  | .deinit => asUnit (modify fun t => t.setSession .closed)
  | .listDevices => do return .devices (← drawListing)
  | .detect a => do return .bool (← detectDevice a)
  | .regWrite reg payload seq => asUnit (regWrite reg payload seq)
  | .regRead reg n seq => do return .bytes (← regRead reg n seq)
  | .enterIsp => asUnit enterIsp
  | .exitIsp => asUnit exitIsp
  | .customInstruction c op r w v => do return .optNat (← customInstruction c op r w v)
  | .deviceCrc first last => do return .byte (← deviceCrc first last)
  | .hostCrc data => do return .byte (← computeHostCrc data)
  | .poll site reg test timeout err => do return .byte (← pollReg site reg test timeout err)
  | .erase => asUnit eraseFlash
  | .program img => asUnit (programFlashImage img)
  | .flashRead n => do return .bytes (← readFlashImage n)
  | .addrW a => asBit (sendByte (addressByte a false))
  | .addrR a => asBit (sendByte (addressByte a true))
  | .ispAddrWrite => asBit (sendByte (addressByte ispAddr false))
  | .ispAddrRead => asBit (sendByte (addressByte ispAddr true))
  | .ispAddrAiWrite => asBit (sendByte (addressByte ispAddrAi false))
  | .ispAddrAiRead => asBit (sendByte (addressByte ispAddrAi true))
  | .ack => asUnit (sendMasterAck false)
  | .nack => asUnit (sendMasterAck true)
  | .ctrl c w r => asUnit (regWrite8 regCiCtrl (controlByte c w r))
  | .cmdEnterIsp => asUnit (regWrite8 regIspCtrl cmdByteEnterIsp)
  | .cmdCrc => asUnit (regWrite8 regIspCtrl cmdByteCrc)
  | .cmdPageWrite => asUnit (regWrite8 regIspCtrl cmdBytePageWrite)
  | .statIsp => testReg regIspCtrl statusIsp
  | .statBusy => testReg regIspCtrl statusBusy
  | .statCrcReady => testReg regIspCtrl statusCrcReady
  | .ciPending => testReg regCiCtrl ciPendingBit
  | .reboot => asUnit (regWrite8 regReboot rebootByte)
  | .a24 r addr => asUnit (setAddr r.reg addr.toNat)
  | .opnd (.write n value) => do
    require (operandFits n.toNat value) .operandRange
    whenever (decide (n.toNat > 0)) (regWrite regAddr (beBytes value n.toNat) true)
    return .unit
  | .opnd (.read n) =>
    if n.toNat = 0 then return .optNat none
    else do return .optNat (some (beValue (← regRead regRop n.toNat true)))
  | .size lastIndex => do
    regWrite8 regXferSize (sizeEncoding (← get).params (lastIndex.val + 1))
    return .unit
  | .regw a reg chunk => do
    require (decide (chunk ≠ [])) .emptyPayload
    require (decide (s.maxWrite ≠ 1)) .transportTooSmall
    transWrite a.addr (reg :: chunk)
    return .unit
  | .regr reg k seq => do
    require (decide (k ≠ 0)) .emptyRead
    require (fitsLimit s.maxRead k) .tooLong
    transWrite ispAddr [reg]
    return .bytes (← transRead (if seq then ispAddrAi else ispAddr) k)
  | .gffHeader file =>
    match headerPayload file with
    | .error e => raise e
    | .ok payload => do
      modify fun t => t.setStream (openStream payload)
      return .bytes payload
  | .nib0 => recogniseNibble 0x0
  | .nibF => recogniseNibble 0xF
  | .nib1 => recogniseNibble 0x1
  | .nib8 => recogniseNibble 0x8
  | .nib2 => recogniseNibble 0x2
  | .nib7 => recogniseNibble 0x7
  | .nibC => recogniseNibble 0xC
  | .nib9 => recogniseNibble 0x9
  | .nib4 => recogniseNibble 0x4
  | .nib5 => recogniseNibble 0x5
  | .nibA => recogniseNibble 0xA
  | .nibB => recogniseNibble 0xB
  | .nib3 => recogniseNibble 0x3
  | .nibD => recogniseNibble 0xD
  | .nibE => recogniseNibble 0xE
  | .nib6 => recogniseNibble 0x6
  | .nibError => recognise (takeCode errorCode) fun _ _ => .error
  | .nibZ6 => recognise (takeCode z6Code) fun t bs =>
      if z6End t.params.z6 (remaining bs) then .endMarker else .error
  | .nibEndExhausted => recognise (takeLastZeros 5) fun _ _ => .endMarker
  | .pair n1 n2 => return .byte (pairByte n1 n2)

/-- Every call is its operation, run under its session gate (R192). -/
theorem exec_eq (i : Instr) (s : State) : exec i s = invoke (sessionGate i) (operation i s) s := by
  cases i
  case opnd form => cases form <;> rfl
  all_goals rfl

/-- A call in a session state its gate does not allow is refused. -/
theorem exec_closed {i : Instr} {s : State} (h : sessionGate i s.session = false) :
    exec i s = .refused .sessionState := by rw [exec_eq, invoke_closed h]

/-- An allowed call ends as its operation does. -/
theorem exec_open {i : Instr} {s : State} (h : sessionGate i s.session = true) :
    exec i s = conclude (operation i s s) := by rw [exec_eq, invoke_open h]

end Sys2Proof.Machine
end

