-- ==== Sys2Proof/Laws/Oracle.lean ====
section
/-! SUPPORT. What the engine and flash operations do on a native transport whose answers are fixed: each follows its
script, and a script cut short by an error ends it there (R210-R260). -/

namespace Sys2Proof.Machine

variable {α β : Type}

/-! ## Scripts -/

@[simp] theorem eventsOf_append (a b : List Act) : eventsOf (a ++ b) = eventsOf a ++ eventsOf b := by simp [eventsOf]
@[simp] theorem writesOf_append (a b : List Act) : writesOf (a ++ b) = writesOf a ++ writesOf b := by simp [writesOf]
@[simp] theorem readsOf_append (a b : List Act) : readsOf (a ++ b) = readsOf a ++ readsOf b := by simp [readsOf]
@[simp] theorem expiriesOf_append (a b : List Act) : expiriesOf (a ++ b) = expiriesOf a ++ expiriesOf b := by
  simp [expiriesOf]

@[simp] theorem State.afterAnswers_afterAnswers (s : State) (a d : List WriteAnswer) (b e : List ReadAnswer)
    (c f : List Bool) (g h : List Event) :
    (s.afterAnswers a b c g).afterAnswers d e f h = s.afterAnswers d e f (g ++ h) := by
  simp [State.afterAnswers, List.append_assoc]

theorem State.afterAnswers_self (s : State) :
    s.afterAnswers s.env.writes s.env.reads s.env.expiries [] = s := by simp [State.afterAnswers]

theorem State.OnOracle.after {s : State} (h : s.OnOracle) (a : List WriteAnswer) (b : List ReadAnswer) (c : List Bool)
    (e : List Event) : (s.afterAnswers a b c e).OnOracle := ⟨h.native, h.oracle, h.wide⟩

/-- A script cut short is cut short in its first part, or after it. -/
theorem CutShort.split {errors : PollSite → Err} {a b cut : List Act} {e : Err} (h : CutShort errors (a ++ b) cut e) :
    CutShort errors a cut e ∨ ∃ cut', cut = a ++ cut' ∧ CutShort errors b cut' e := by
  cases h with
  | write done later x bytes why h =>
    rcases List.append_eq_append_iff.1 h with ⟨m, h1, h2⟩ | ⟨m, h1, h2⟩
    · exact .inr ⟨_, by rw [h1, List.append_assoc], .write m later x bytes why h2⟩
    · cases m with
      | nil => exact .inr ⟨_, by rw [h1, List.append_nil, List.nil_append], .write [] later x bytes why h2.symm⟩
      | cons y ys =>
        obtain ⟨rfl, h3⟩ := List.cons.inj h2
        exact .inl (.write done ys x bytes why h1)
  | read done later x bytes why h =>
    rcases List.append_eq_append_iff.1 h with ⟨m, h1, h2⟩ | ⟨m, h1, h2⟩
    · exact .inr ⟨_, by rw [h1, List.append_assoc], .read m later x bytes why h2⟩
    · cases m with
      | nil => exact .inr ⟨_, by rw [h1, List.append_nil, List.nil_append], .read [] later x bytes why h2.symm⟩
      | cons y ys =>
        obtain ⟨rfl, h3⟩ := List.cons.inj h2
        exact .inl (.read done ys x bytes why h1)
  | expiry done later site h =>
    rcases List.append_eq_append_iff.1 h with ⟨m, h1, h2⟩ | ⟨m, h1, h2⟩
    · exact .inr ⟨_, by rw [h1, List.append_assoc], .expiry m later site h2⟩
    · cases m with
      | nil => exact .inr ⟨_, by rw [h1, List.append_nil, List.nil_append], .expiry [] later site h2.symm⟩
      | cons y ys =>
        obtain ⟨rfl, h3⟩ := List.cons.inj h2
        exact .inl (.expiry done ys site h1)

/-! ## Running along a script -/

/-- What a statement about scripts fixes: the limits, the parameters, and the error of each poll site. -/
structure Setting where
  maxWrite : Nat
  maxRead : Nat
  params : Params
  errors : PollSite → Err

/-- The state is on an oracle transport with these limits and parameters. -/
structure Setting.Holds (c : Setting) (s : State) : Prop where
  oracle : s.OnOracle
  maxWrite : s.maxWrite = c.maxWrite
  maxRead : s.maxRead = c.maxRead
  params : s.params = c.params

theorem Setting.Holds.after {c : Setting} {s : State} (h : c.Holds s) (a : List WriteAnswer) (b : List ReadAnswer)
    (x : List Bool) (e : List Event) : c.Holds (s.afterAnswers a b x e) :=
  ⟨h.oracle.after a b x e, h.maxWrite, h.maxRead, h.params⟩

/-- The operation answers `a` along the script, and ends with the error of every script cut short. -/
structure Runs (c : Setting) (x : M α) (script : List Act) (a : α) : Prop where
  follows : ∀ s ws rs xs, c.Holds s → s.Answers script ws rs xs →
    x s = .ok a (s.afterAnswers ws rs xs (eventsOf script))
  cut : ∀ s ws rs xs cut e, c.Holds s → CutShort c.errors script cut e → s.Answers cut ws rs xs →
    x s = .error (.raised e) (s.afterAnswers ws rs xs (eventsOf cut))

theorem State.Answers.first {s : State} {a b : List Act} {ws : List WriteAnswer} {rs : List ReadAnswer} {xs : List Bool}
    (h : s.Answers (a ++ b) ws rs xs) :
    s.Answers a (writesOf b ++ ws) (readsOf b ++ rs) (expiriesOf b ++ xs) :=
  ⟨by simp [h.writes, List.append_assoc], by simp [h.reads, List.append_assoc], by simp [h.expiries, List.append_assoc]⟩

theorem State.Answers.after (s : State) (b : List Act) (ws : List WriteAnswer) (rs : List ReadAnswer) (xs : List Bool)
    (e : List Event) : (s.afterAnswers (writesOf b ++ ws) (readsOf b ++ rs) (expiriesOf b ++ xs) e).Answers b ws rs xs :=
  ⟨rfl, rfl, rfl⟩

section Runs

variable {c : Setting}

theorem Runs.pure (a : α) : Runs c (Pure.pure a : M α) [] a where
  follows s ws rs xs _ h := by
    have := State.afterAnswers_self s
    rw [h.writes, h.reads, h.expiries] at this
    simpa [writesOf, readsOf, expiriesOf, eventsOf] using this.symm
  cut s ws rs xs cut e _ h := by cases h <;> simp at *

theorem Runs.bind {x : M α} {f : α → M β} {p q : List Act} {a : α} {b : β} (hx : Runs c x p a) (hf : Runs c (f a) q b) :
    Runs c (x >>= f) (p ++ q) b where
  follows s ws rs xs hc h := by
    rw [M.bind_run, hx.follows s _ _ _ hc h.first]
    simp only
    rw [hf.follows _ ws rs xs (hc.after _ _ _ _) (State.Answers.after s q ws rs xs _), eventsOf_append]
    simp
  cut s ws rs xs cut e hc h ha := by
    rcases h.split with k | ⟨cut', rfl, k⟩
    · rw [M.bind_run, hx.cut s ws rs xs cut e hc k ha]
    · rw [M.bind_run, hx.follows s _ _ _ hc ha.first]
      simp only
      rw [hf.cut _ ws rs xs cut' e (hc.after _ _ _ _) k (State.Answers.after s cut' ws rs xs _), eventsOf_append]
      simp

/-- An operation whose first part does nothing. -/
theorem Runs.skip {x : M α} {f : α → M β} {q : List Act} {a : α} {b : β} (hx : Runs c x [] a) (hf : Runs c (f a) q b) :
    Runs c (x >>= f) q b := by simpa using hx.bind hf

/-- An operation whose last part is pure. -/
theorem Runs.map {x : M α} {p : List Act} {a : α} (hx : Runs c x p a) (g : α → β) :
    Runs c (do return g (← x)) p (g a) := by
  have := hx.bind (Runs.pure (c := c) (g a)) (f := fun a => Pure.pure (g a))
  rwa [List.append_nil] at this

theorem Runs.readState {f : State → M α} {p : List Act} {a : α}
    (h : ∀ s, c.Holds s → Runs c (f s) p a) : Runs c ((get : M State) >>= f) p a where
  follows s ws rs xs hc ha := by simpa using (h s hc).follows s ws rs xs hc ha
  cut s ws rs xs cut e hc hk ha := by simpa using (h s hc).cut s ws rs xs cut e hc hk ha

theorem Runs.require {ok : Bool} (r : Refusal) (h : ok = true) : Runs c (Machine.require ok r) [] () := by
  subst h; exact Runs.pure ()

theorem Runs.emit (e : Event) (h : ∀ a b r, e ≠ .tWrite a b r) (h' : ∀ a n r, e ≠ .tRead a n r) :
    Runs c (Machine.emit e) [.saw e] () where
  follows s ws rs xs _ ha := by
    have hw : writesOf [.saw e] = [] := by cases e <;> simp [writesOf] at * 
    have hr : readsOf [.saw e] = [] := by cases e <;> simp [readsOf] at *
    have hx : expiriesOf [.saw e] = [] := rfl
    have := State.afterAnswers_self s
    rw [emit_run]
    simp only [State.emit, State.afterAnswers, eventsOf]
    obtain ⟨h1, h2, h3⟩ := ha
    rw [hw, List.nil_append] at h1
    rw [hr, List.nil_append] at h2
    rw [hx, List.nil_append] at h3
    rw [← h1, ← h2, ← h3]
    rfl
  cut s ws rs xs cut er _ hk _ := by
    cases hk with
    | write done later a b why hh =>
      exfalso; cases done <;> simp at hh; exact h _ _ _ hh.1
    | read done later a b why hh => exfalso; cases done <;> simp at hh; exact h' _ _ _ hh.1
    | expiry done later site hh => exfalso; cases done <;> simp at hh

/-! ## Transactions -/

theorem fillBytes_exact (bytes : List Byte) (s : State) : fillBytes bytes bytes.length s = .ok bytes s := by
  induction bytes generalizing s with
  | nil => rfl
  | cons b bs ih => simp only [List.length_cons, fillBytes, M.bind_run, ih, M.pure_run]

theorem nativeWrite_run (a : Addr7) (bytes : List Byte) (r : WriteAnswer) (s : State) (ws : List WriteAnswer)
    (ho : s.env.mode = .oracle) (hw : s.env.writes = r :: ws) :
    nativeWrite a bytes s = (match r with
      | .ok => .ok () (s.afterAnswers ws s.env.reads s.env.expiries [.tWrite a bytes r])
      | .failed why => .error (.raised (xferError why))
          (s.afterAnswers ws s.env.reads s.env.expiries [.tWrite a bytes r])) := by
  have hd : answerWrite a bytes s = .ok r (s.setEnv { s.env with writes := ws }) := by
    simp only [answerWrite, M.bind_run, M.get_run, ho, drawWrite, hw, M.set_run, M.pure_run]
  simp only [nativeWrite, M.bind_run, hd, emit_run]
  cases r <;> rfl

theorem nativeRead_run (a : Addr7) (n : Nat) (r : ReadAnswer) (s : State) (rs : List ReadAnswer)
    (ho : s.env.mode = .oracle) (hr : s.env.reads = r :: rs) (hn : ∀ bytes, r = .ok bytes → bytes.length = n) :
    nativeRead a n s = (match r with
      | .ok bytes => .ok bytes (s.afterAnswers s.env.writes rs s.env.expiries [.tRead a n r])
      | .failed why => .error (.raised (xferError why))
          (s.afterAnswers s.env.writes rs s.env.expiries [.tRead a n r])) := by
  have hd : answerRead a n s = .ok r (s.setEnv { s.env with reads := rs }) := by
    simp only [answerRead, M.bind_run, M.get_run, ho, drawRead, hr, M.set_run]
    cases r with
    | ok bytes => rw [← hn bytes rfl]; simp only [M.bind_run, fillBytes_exact, M.pure_run]
    | failed why => rfl
  simp only [nativeRead, M.bind_run, hd, emit_run]
  cases r <;> rfl

theorem transWrite_runs (a : Addr7) (bytes : List Byte) (hf : c.maxWrite = 0 ∨ bytes.length ≤ c.maxWrite) :
    Runs c (transWrite a bytes) [.saw (.tWrite a bytes .ok)] () := by
  have hr : ∀ s : State, c.Holds s → transWrite a bytes s = nativeWrite a bytes s := by
    intro s hc
    have : fitsLimit s.maxWrite bytes.length = true := by simpa [fitsLimit, hc.maxWrite] using hf
    simp only [transWrite, M.bind_run, M.get_run, this, require_true, hc.oracle.native]
  constructor
  · intro s ws rs xs hc ha
    have h1 := ha.writes; have h2 := ha.reads; have h3 := ha.expiries
    simp only [writesOf, readsOf, expiriesOf, List.filterMap_cons, List.filterMap_nil, List.nil_append,
      List.cons_append] at h1 h2 h3
    rw [hr s hc, nativeWrite_run a bytes .ok s ws hc.oracle.oracle h1, h2, h3]
    rfl
  · intro s ws rs xs cut e hc hk ha
    cases hk with
    | write done later a' b' why hh =>
      cases done with
      | nil =>
        simp only [List.nil_append, List.cons.injEq, Act.saw.injEq, Event.tWrite.injEq] at hh
        obtain ⟨⟨rfl, rfl, -⟩, -⟩ := hh
        have h1 := ha.writes; have h2 := ha.reads; have h3 := ha.expiries
        simp only [writesOf, readsOf, expiriesOf, List.filterMap_cons, List.filterMap_nil, List.nil_append,
          List.cons_append] at h1 h2 h3
        rw [hr s hc, nativeWrite_run a bytes _ s ws hc.oracle.oracle h1, h2, h3]
        rfl
      | cons d ds => simp at hh
    | read done later a' b' why hh => cases done <;> simp at hh
    | expiry done later site hh => cases done <;> simp at hh

theorem transRead_runs (a : Addr7) (out : List Byte) (hf : c.maxRead = 0 ∨ out.length ≤ c.maxRead) :
    Runs c (transRead a out.length) [.saw (.tRead a out.length (.ok out))] out := by
  have hr : ∀ s : State, c.Holds s → transRead a out.length s = nativeRead a out.length s := by
    intro s hc
    have : fitsLimit s.maxRead out.length = true := by simpa [fitsLimit, hc.maxRead] using hf
    simp only [transRead, M.bind_run, M.get_run, this, require_true, hc.oracle.native]
  constructor
  · intro s ws rs xs hc ha
    have h1 := ha.writes; have h2 := ha.reads; have h3 := ha.expiries
    simp only [writesOf, readsOf, expiriesOf, List.filterMap_cons, List.filterMap_nil, List.nil_append,
      List.cons_append] at h1 h2 h3
    rw [hr s hc, nativeRead_run a _ (.ok out) s rs hc.oracle.oracle h2 (by rintro b ⟨⟩; rfl), h1, h3]
    rfl
  · intro s ws rs xs cut e hc hk ha
    cases hk with
    | read done later a' b' why hh =>
      cases done with
      | nil =>
        simp only [List.nil_append, List.cons.injEq, Act.saw.injEq, Event.tRead.injEq, ReadAnswer.ok.injEq] at hh
        obtain ⟨⟨rfl, -, rfl⟩, -⟩ := hh
        have h1 := ha.writes; have h2 := ha.reads; have h3 := ha.expiries
        simp only [writesOf, readsOf, expiriesOf, List.filterMap_cons, List.filterMap_nil, List.nil_append,
          List.cons_append] at h1 h2 h3
        rw [hr s hc, nativeRead_run a _ (.failed why) s rs hc.oracle.oracle h2 (by rintro b ⟨⟩), h1, h3]
        rfl
      | cons d ds => simp at hh
    | write done later a' b' why hh => cases done <;> simp at hh
    | expiry done later site hh => cases done <;> simp at hh

/-! ## Partitions (R210, R211, R252) -/

theorem pieceCount_zero (n : Nat) : pieceCount n 0 = 0 := by
  unfold pieceCount
  rcases Nat.eq_zero_or_pos n with rfl | h
  · rfl
  · exact Nat.div_eq_of_lt (by omega)

theorem pieceCount_step {n m : Nat} (hn : 0 < n) (hm : 0 < m) : pieceCount n m = pieceCount n (m - n) + 1 := by
  unfold pieceCount
  by_cases h : m ≤ n
  · have e1 : m - n = 0 := by omega
    rw [e1, Nat.div_eq_of_lt (a := 0 + n - 1) (by omega), Nat.zero_add]
    have e2 : m + n - 1 = (m - 1) + n := by omega
    rw [e2, Nat.add_div_right _ hn, Nat.div_eq_of_lt (by omega)]
  · have e2 : m + n - 1 = (m - n + n - 1) + n := by omega
    rw [e2, Nat.add_div_right _ hn]

theorem pieceCount_self {n : Nat} (hn : 0 < n) : pieceCount n n = 1 := by
  rw [pieceCount_step hn hn, Nat.sub_self, pieceCount_zero]

/-- The pieces of a list, by their offsets. -/
def piece (n : Nat) (l : List Byte) (k : Nat) : List Byte := (l.drop (n * k)).take n

theorem piece_drop (n : Nat) (l : List Byte) (k : Nat) : piece n (l.drop n) k = piece n l (k + 1) := by
  have : n + n * k = n * (k + 1) := by rw [Nat.mul_add, Nat.mul_one, Nat.add_comm]
  rw [piece, piece, List.drop_drop, this]

theorem chunksFuel_eq {n : Nat} (hn : 0 < n) (f : Nat) (l : List Byte) (h : l.length ≤ f) :
    chunksFuel n f l = (List.range (pieceCount n l.length)).map (piece n l) := by
  induction f generalizing l with
  | zero =>
    obtain rfl : l = [] := List.length_eq_zero_iff.1 (by omega)
    simp [chunksFuel, pieceCount_zero]
  | succ f ih =>
    cases l with
    | nil => simp [chunksFuel, pieceCount_zero]
    | cons b bs =>
      rw [chunksFuel, ih _ (by simp only [List.length_drop, List.length_cons] at h ⊢; omega), List.length_drop,
        pieceCount_step (m := (b :: bs).length) hn (by simp), List.range_succ_eq_map, List.map_cons, List.map_map]
      congr 1
      exact List.map_congr_left fun k _ => piece_drop n _ k

theorem chunks_eq {n : Nat} (hn : 0 < n) (l : List Byte) :
    chunks n l = (List.range (pieceCount n l.length)).map (piece n l) := chunksFuel_eq hn _ l (Nat.le_refl _)

theorem chunkSizesFuel_eq {n : Nat} (hn : 0 < n) (f : Nat) (l : List Byte) (h : l.length ≤ f) :
    chunkSizesFuel n f l.length = (List.range (pieceCount n l.length)).map fun k => (piece n l k).length := by
  induction f generalizing l with
  | zero =>
    obtain rfl : l = [] := List.length_eq_zero_iff.1 (by omega)
    simp [chunkSizesFuel, pieceCount_zero]
  | succ f ih =>
    cases l with
    | nil => simp [chunkSizesFuel, pieceCount_zero]
    | cons b bs =>
      have hd : ((b :: bs).drop n).length = bs.length + 1 - n := by simp
      rw [List.length_cons, chunkSizesFuel, ← hd, ih _ (by rw [hd]; simp only [List.length_cons] at h; omega), hd,
        pieceCount_step (m := bs.length + 1) hn (by omega), List.range_succ_eq_map, List.map_cons, List.map_map]
      congr 1
      · simp [piece]
      · exact List.map_congr_left fun k _ => by rw [Function.comp, piece_drop]

theorem chunkSizes_eq {n : Nat} (hn : 0 < n) (l : List Byte) :
    chunkSizes n l.length = (List.range (pieceCount n l.length)).map fun k => (piece n l k).length :=
  chunkSizesFuel_eq hn _ l (Nat.le_refl _)

theorem piece_length_le (n : Nat) (l : List Byte) (k : Nat) : (piece n l k).length ≤ n := by
  simp [piece]

/-- Every piece but the last is full. -/
theorem piece_length {n : Nat} (hn : 0 < n) (l : List Byte) (k : Nat) (h : k + 1 < pieceCount n l.length) :
    (piece n l k).length = n := by
  have : n * (k + 1) < l.length := by
    by_contra hc
    have h1 : l.length + n - 1 < n * (k + 1 + 1) := by rw [Nat.mul_add n (k + 1)]; omega
    have := (Nat.div_lt_iff_lt_mul hn).2 (by rwa [Nat.mul_comm] at h1)
    unfold pieceCount at h; omega
  rw [Nat.mul_add] at this
  simp only [piece, List.length_take, List.length_drop]; omega

theorem pieces_flatten_from {n : Nat} (hn : 0 < n) (m : Nat) (l : List Byte) (h : pieceCount n l.length = m) :
    ((List.range m).map (piece n l)).flatten = l := by
  induction m generalizing l with
  | zero =>
    cases l with
    | nil => rfl
    | cons b bs => rw [pieceCount_step hn (by simp)] at h; omega
  | succ m ih =>
    cases l with
    | nil => rw [List.length_nil, pieceCount_zero] at h; omega
    | cons b bs =>
      rw [pieceCount_step hn (by simp)] at h
      rw [List.range_succ_eq_map, List.map_cons, List.flatten_cons, List.map_map]
      have := ih ((b :: bs).drop n) (by rw [List.length_drop]; omega)
      have e : ((List.range m).map (piece n (b :: bs) ∘ Nat.succ)) = (List.range m).map (piece n ((b :: bs).drop n)) :=
        List.map_congr_left fun k _ => (piece_drop n _ k).symm
      rw [e, this]
      simp [piece]

theorem pieces_flatten {n : Nat} (hn : 0 < n) (l : List Byte) :
    ((List.range (pieceCount n l.length)).map (piece n l)).flatten = l := pieces_flatten_from hn _ l rfl

theorem range_cons (m j : Nat) :
    (List.range (m + 1)).map (fun k => j + k) = j :: (List.range m).map (fun k => j + 1 + k) := by
  rw [List.range_succ_eq_map, List.map_cons, List.map_map]
  congr 1
  exact List.map_congr_left fun k _ => by simp only [Function.comp]; omega

/-! ## Register access -/

theorem writeChunks_runs (a : Addr7) (reg : Byte) (n m j : Nat) (p : Nat → List Byte)
    (hfull : ∀ k, k + 1 < m → (p (j + k)).length = n)
    (hfit : ∀ k, k < m → c.maxWrite = 0 ∨ (p (j + k)).length + 1 ≤ c.maxWrite) :
    Runs c (writeChunks a reg (n * j) (((List.range m).map (fun k => j + k)).map p))
      (((List.range m).map (fun k => j + k)).map fun k => .saw (.tWrite a (chunkReg reg (n * k) :: p k) .ok)) () := by
  induction m generalizing j with
  | zero => exact Runs.pure ()
  | succ m ih =>
    rw [range_cons, List.map_cons, List.map_cons, writeChunks]
    refine (transWrite_runs a _ (hfit 0 (by omega))).bind ?_
    rcases Nat.eq_zero_or_pos m with rfl | hm
    · exact Runs.pure ()
    · have h0 := hfull 0 (by omega)
      rw [Nat.add_zero] at h0
      have e : n * j + (p j).length = n * (j + 1) := by rw [h0, Nat.mul_add, Nat.mul_one]
      rw [e]
      exact ih (j + 1) (fun k hk => by rw [show j + 1 + k = j + (k + 1) by omega]; exact hfull (k + 1) (by omega))
        (fun k hk => by rw [show j + 1 + k = j + (k + 1) by omega]; exact hfit (k + 1) (by omega))

theorem range_shift_zero (m : Nat) : (List.range m).map (fun k => 0 + k) = List.range m := by simp

/-- A register write follows its script (R210). -/
theorem regWrite_runs (hw : c.maxWrite ≠ 1) (reg : Byte) (payload : List Byte) (seq : Bool) (hp : payload ≠ []) :
    Runs c (regWrite reg payload seq) (writeScript c.maxWrite reg payload seq) () := by
  unfold regWrite
  refine (Runs.require .emptyPayload (by simpa using hp)).skip (Runs.readState fun s hc => ?_)
  refine (Runs.require .transportTooSmall (by simpa [hc.maxWrite] using hw)).skip ?_
  have hl : 0 < payload.length := List.length_pos_iff.2 hp
  rw [hc.maxWrite]
  generalize hn : writeChunkSize c.maxWrite payload.length = n
  have hn0 : 0 < n := by rw [← hn]; unfold writeChunkSize; split <;> omega
  have h := writeChunks_runs (c := c) (accessAddr seq payload.length) reg n (pieceCount n payload.length) 0
    (piece n payload) (fun k hk => by rw [Nat.zero_add]; exact piece_length hn0 payload k hk) (fun k _ => by
      by_cases h0 : c.maxWrite = 0
      · exact .inl h0
      · have := piece_length_le n payload (0 + k)
        have hn' : n = c.maxWrite - 1 := by rw [← hn, writeChunkSize, if_neg h0]
        omega)
  rw [range_shift_zero, ← chunks_eq hn0, Nat.mul_zero] at h
  have e : writeScript c.maxWrite reg payload seq = (List.range (pieceCount n payload.length)).map fun k =>
      .saw (.tWrite (accessAddr seq payload.length) (chunkReg reg (n * k) :: piece n payload k) .ok) := by
    simp only [writeScript, writeTransactions, List.map_map, ← hn, writeChunkSize]; rfl
  rw [e]
  exact h

theorem readChunks_runs (a : Addr7) (reg : Byte) (n m j : Nat) (p : Nat → List Byte) (_hw : c.maxWrite ≠ 1)
    (hfull : ∀ k, k + 1 < m → (p (j + k)).length = n)
    (hfit : ∀ k, k < m → c.maxRead = 0 ∨ (p (j + k)).length ≤ c.maxRead) :
    Runs c (readChunks a reg (n * j) (((List.range m).map (fun k => j + k)).map fun k => (p k).length))
      (((List.range m).map (fun k => j + k)).flatMap fun k =>
        [.saw (.tWrite ispAddr [chunkReg reg (n * k)] .ok), .saw (.tRead a (p k).length (.ok (p k)))])
      (((List.range m).map (fun k => j + k)).map p).flatten := by
  induction m generalizing j with
  | zero => exact Runs.pure []
  | succ m ih =>
    rw [range_cons, List.map_cons, List.map_cons, List.flatMap_cons, List.flatten_cons, readChunks]
    have hone : c.maxWrite = 0 ∨ [chunkReg reg (n * j)].length ≤ c.maxWrite := by
      rw [List.length_singleton]; omega
    refine Runs.bind (p := [_]) (transWrite_runs ispAddr _ hone) (Runs.bind (p := [_])
      (transRead_runs a (p j) (hfit 0 (by omega))) ?_)
    refine Runs.map ?_ (p j ++ ·)
    rcases Nat.eq_zero_or_pos m with rfl | hm
    · exact Runs.pure []
    · have h0 := hfull 0 (by omega)
      rw [Nat.add_zero] at h0
      have e : n * j + (p j).length = n * (j + 1) := by rw [h0, Nat.mul_add, Nat.mul_one]
      rw [e]
      exact ih (j + 1) (fun k hk => by rw [show j + 1 + k = j + (k + 1) by omega]; exact hfull (k + 1) (by omega))
        (fun k hk => by rw [show j + 1 + k = j + (k + 1) by omega]; exact hfit (k + 1) (by omega))

/-- A register read follows its script (R211). -/
theorem regRead_runs (hw : c.maxWrite ≠ 1) (reg : Byte) (out : List Byte) (seq : Bool) (hp : out ≠ []) :
    Runs c (regRead reg out.length seq) (readScript c.maxRead reg out seq) out := by
  unfold regRead
  have hl : 0 < out.length := List.length_pos_iff.2 hp
  refine (Runs.require .emptyRead (by simpa using hp)).skip (Runs.readState fun s hc => ?_)
  rw [hc.maxRead]
  generalize hn : readChunkSize c.maxRead out.length = n
  have hn0 : 0 < n := by rw [← hn]; unfold readChunkSize; split <;> omega
  have h := readChunks_runs (c := c) (accessAddr seq out.length) reg n (pieceCount n out.length) 0 (piece n out) hw
    (fun k hk => by rw [Nat.zero_add]; exact piece_length hn0 out k hk) (fun k _ => by
      by_cases h0 : c.maxRead = 0
      · exact .inl h0
      · have := piece_length_le n out (0 + k)
        have hn' : n = c.maxRead := by rw [← hn, readChunkSize, if_neg h0]
        omega)
  rw [range_shift_zero, ← chunkSizes_eq hn0, Nat.mul_zero, pieces_flatten hn0] at h
  have e : readScript c.maxRead reg out seq = (List.range (pieceCount n out.length)).flatMap fun k =>
      [.saw (.tWrite ispAddr [chunkReg reg (n * k)] .ok),
        .saw (.tRead (accessAddr seq out.length) (piece n out k).length (.ok (piece n out k)))] := by
    simp only [readScript, ← hn, readChunkSize]; rfl
  rw [e]
  exact h

theorem regWrite8_runs (hw : c.maxWrite ≠ 1) (reg v : Byte) :
    Runs c (regWrite8 reg v) (writeScript c.maxWrite reg [v] false) () := regWrite_runs hw reg [v] false (by simp)

theorem writeScript_one (mw : Nat) (hw : mw ≠ 1) (reg v : Byte) (seq : Bool) :
    writeScript mw reg [v] seq = [.saw (.tWrite ispAddr [reg, v] .ok)] := by
  have hp : pieceCount (if mw = 0 then 1 else mw - 1) 1 = 1 := by
    split
    · rfl
    · rw [pieceCount_step (by omega) (by omega), show 1 - (mw - 1) = 0 by omega, pieceCount_zero]
  have ht : ([v].drop 0).take (if mw = 0 then 1 else mw - 1) = [v] := List.take_of_length_le (by simp; split <;> omega)
  have hc : chunkReg reg 0 = reg := by
    unfold chunkReg; split
    · rename_i h; exact h.symm
    · simp
  simp only [writeScript, writeTransactions, List.length_singleton, hp, List.range_one, List.map_cons, List.map_nil,
    Nat.mul_zero, ht, hc]
  cases seq <;> rfl

theorem readScript_one (mr : Nat) (reg v : Byte) (seq : Bool) : readScript mr reg [v] seq = byteScript reg v := by
  have hp : pieceCount (if mr = 0 then 1 else mr) 1 = 1 := by
    split
    · rfl
    · rw [pieceCount_step (by omega) (by omega), show 1 - mr = 0 by omega, pieceCount_zero]
  have ht : ([v].drop 0).take (if mr = 0 then 1 else mr) = [v] := List.take_of_length_le (by simp; split <;> omega)
  have hc : chunkReg reg 0 = reg := by
    unfold chunkReg; split
    · rename_i h; exact h.symm
    · simp
  simp only [readScript, List.length_singleton, hp, List.range_one, List.flatMap_cons, List.flatMap_nil,
    Nat.mul_zero, ht, hc, List.append_nil, byteScript]
  cases seq <;> rfl

theorem regRead8_runs (hw : c.maxWrite ≠ 1) (reg v : Byte) : Runs c (regRead8 reg) (byteScript reg v) v := by
  have h := (regRead_runs hw reg [v] false (by simp)).map (fun l => l.headD 0)
  rwa [readScript_one] at h

/-! ## Polling -/

theorem drawExpired_fixed (s : State) (v : Bool) (rest : List Bool) (h : s.env.expiries = v :: rest) :
    drawExpired s = .ok v (s.afterAnswers s.env.writes s.env.reads rest []) := by
  rw [drawExpired_run, h]; simp [State.afterAnswers, State.setEnv]

/-- The operation ends with the error along the script. -/
def EndsAt (c : Setting) (x : M α) (script : List Act) (e : Err) : Prop :=
  ∀ s ws rs xs, c.Holds s → s.Answers script ws rs xs →
    x s = .error (.raised e) (s.afterAnswers ws rs xs (eventsOf script))

theorem Runs.thenEnds {x : M α} {f : α → M β} {p q : List Act} {a : α} {e : Err} (hx : Runs c x p a)
    (hf : EndsAt c (f a) q e) : EndsAt c (x >>= f) (p ++ q) e := by
  intro s ws rs xs hc ha
  rw [M.bind_run, hx.follows s _ _ _ hc ha.first]
  simp only
  rw [hf _ ws rs xs (hc.after _ _ _ _) (State.Answers.after s q ws rs xs _), eventsOf_append]
  simp

theorem EndsAt.bind {x : M α} {f : α → M β} {p : List Act} {e : Err} (hx : EndsAt c x p e) : EndsAt c (x >>= f) p e := by
  intro s ws rs xs hc ha
  rw [M.bind_run, hx s ws rs xs hc ha]

theorem EndsAt.readState {f : State → M α} {p : List Act} {e : Err} (h : ∀ s, c.Holds s → EndsAt c (f s) p e) :
    EndsAt c ((get : M State) >>= f) p e := by
  intro s ws rs xs hc ha; simpa using h s hc s ws rs xs hc ha

theorem wait_expires (site : PollSite) (err : Err) (g : Bool → M Byte) (hg : g true = expirePoll site err) :
    EndsAt c (drawExpired >>= g) [.waited site true, .saw (.expired (.poll site))] err := by
  intro s ws rs xs hc ha
  rw [M.bind_run, drawExpired_fixed s true xs ha.expiries]
  have h1 : s.env.writes = ws := ha.writes
  have h2 : s.env.reads = rs := ha.reads
  simp only [hg, expirePoll, M.bind_run, emit_run, raise_run, h1, h2]
  simp [State.afterAnswers, State.emit, eventsOf]

/-- An expiry answer of no leaves the other answers. -/
theorem wait_goesOn (site : PollSite) (g : Bool → M α) (p : List Act) (s : State) (ws : List WriteAnswer)
    (rs : List ReadAnswer) (xs : List Bool) (ha : s.Answers (.waited site false :: p) ws rs xs) :
    (drawExpired >>= g) s = g false (s.afterAnswers (writesOf p ++ ws) (readsOf p ++ rs) (expiriesOf p ++ xs) []) := by
  have h1 : s.env.writes = writesOf p ++ ws := ha.writes
  have h2 : s.env.reads = readsOf p ++ rs := ha.reads
  rw [M.bind_run, drawExpired_fixed s false (expiriesOf p ++ xs) ha.expiries, h1, h2]

theorem pollLoop_follows (hw : c.maxWrite ≠ 1) (site : PollSite) (reg : Byte) (test : PollTest) (err : Err)
    (failing : List Byte) (last : Byte) (hf : ∀ u ∈ failing, pollAccepts test u = false)
    (hl : pollAccepts test last = true) (left : Nat) (hb : failing.length ≤ left) (s : State) (ws : List WriteAnswer)
    (rs : List ReadAnswer) (xs : List Bool) (hc : c.Holds s)
    (ha : s.Answers (pollScript site reg ⟨failing, last⟩) ws rs xs) :
    pollLoop site reg test err left s =
      .ok last (s.afterAnswers ws rs xs (eventsOf (pollScript site reg ⟨failing, last⟩))) := by
  induction failing generalizing left s with
  | nil =>
    cases left <;>
    · simp only [pollLoop, M.bind_run, (regRead8_runs hw reg last).follows s ws rs xs hc ha, hl, if_true, M.pure_run]
      rfl
  | cons u us ih =>
    obtain ⟨left, rfl⟩ : ∃ n, left = n + 1 := ⟨left - 1, by simp only [List.length_cons] at hb; omega⟩
    have e : pollScript site reg ⟨u :: us, last⟩ =
        byteScript reg u ++ .waited site false :: pollScript site reg ⟨us, last⟩ := by simp [pollScript]
    rw [e] at ha ⊢
    rw [pollLoop, M.bind_run, (regRead8_runs hw reg u).follows s _ _ _ hc ha.first]
    simp only [hf u (by simp), Bool.false_eq_true, if_false]
    rw [wait_goesOn site _ _ _ _ _ _ (State.Answers.after s _ ws rs xs _), if_neg (by decide),
      ih (fun v hv => hf v (by simp [hv])) left (by simp at hb; omega) _ ((hc.after _ _ _ _).after _ _ _ _)
        (State.Answers.after _ _ ws rs xs _)]
    simp [eventsOf]

theorem pollLoop_cut (hw : c.maxWrite ≠ 1) (site : PollSite) (reg : Byte) (test : PollTest) (err : Err)
    (he : c.errors site = err) (failing : List Byte) (last : Byte) (hf : ∀ u ∈ failing, pollAccepts test u = false)
    (cut : List Act) (e : Err) (hk : CutShort c.errors (pollScript site reg ⟨failing, last⟩) cut e) (left : Nat)
    (hb : (readsOf cut).length ≤ left) (s : State) (ws : List WriteAnswer) (rs : List ReadAnswer) (xs : List Bool)
    (hc : c.Holds s) (ha : s.Answers cut ws rs xs) :
    pollLoop site reg test err left s = .error (.raised e) (s.afterAnswers ws rs xs (eventsOf cut)) := by
  induction failing generalizing left s cut with
  | nil => cases left <;> rw [pollLoop, M.bind_run, (regRead8_runs hw reg last).cut s ws rs xs cut e hc hk ha]
  | cons u us ih =>
    have es : pollScript site reg ⟨u :: us, last⟩ =
        byteScript reg u ++ ([.waited site false] ++ pollScript site reg ⟨us, last⟩) := by simp [pollScript]
    rw [es] at hk
    rcases hk.split with k | ⟨cut', rfl, k⟩
    · cases left <;> rw [pollLoop, M.bind_run, (regRead8_runs hw reg u).cut s ws rs xs cut e hc k ha]
    · obtain ⟨left, rfl⟩ : ∃ n, left = n + 1 := ⟨left - 1, by simp [readsOf, byteScript] at hb; omega⟩
      rw [pollLoop, M.bind_run, (regRead8_runs hw reg u).follows s _ _ _ hc ha.first]
      simp only [hf u (by simp), Bool.false_eq_true, if_false]
      rcases k.split with k | ⟨cut'', rfl, k'⟩
      · cases k with
        | write done later a b why hh => cases done <;> simp at hh
        | read done later a b why hh => cases done <;> simp at hh
        | expiry done later site' hh =>
          cases done with
          | nil =>
            simp only [List.nil_append, List.cons.injEq, Act.waited.injEq, and_true] at hh
            obtain ⟨rfl, -⟩ := hh
            rw [List.nil_append, wait_expires site err _ (by rfl) _ ws rs xs (hc.after _ _ _ _)
              (State.Answers.after s _ ws rs xs _), he]
            simp [eventsOf]
          | cons d ds => simp at hh
      · rw [List.singleton_append, wait_goesOn site _ _ _ _ _ _ (State.Answers.after s _ ws rs xs _),
          if_neg (by decide), ih (fun v hv => hf v (by simp [hv])) cut'' k' left
            (by simp [readsOf, byteScript] at hb ⊢; omega) _ ((hc.after _ _ _ _).after _ _ _ _)
            (State.Answers.after _ _ ws rs xs _)]
        simp [eventsOf]

theorem pollLoop_ends (hw : c.maxWrite ≠ 1) (site : PollSite) (reg : Byte) (test : PollTest) (err : Err)
    (failing : List Byte) (last : Byte) (hf : ∀ u ∈ failing, pollAccepts test u = false)
    (hl : pollAccepts test last = false) (left : Nat) (hb : failing.length < left) :
    EndsAt c (pollLoop site reg test err left) (expiryScript site reg ⟨failing, last⟩) err := by
  induction failing generalizing left with
  | nil =>
    obtain ⟨left, rfl⟩ : ∃ n, left = n + 1 := ⟨left - 1, by simp only [List.length_nil] at hb; omega⟩
    rw [pollLoop]
    refine Runs.thenEnds (p := byteScript reg last) (regRead8_runs hw reg last) ?_
    rw [hl, if_neg (by decide)]
    exact wait_expires site err _ rfl
  | cons u us ih =>
    obtain ⟨left, rfl⟩ : ∃ n, left = n + 1 := ⟨left - 1, by simp only [List.length_cons] at hb; omega⟩
    have e : expiryScript site reg ⟨u :: us, last⟩ =
        byteScript reg u ++ .waited site false :: expiryScript site reg ⟨us, last⟩ := by simp [expiryScript, pollScript]
    rw [e, pollLoop]
    refine Runs.thenEnds (regRead8_runs hw reg u) ?_
    rw [hf u (by simp), if_neg (by decide)]
    intro s ws rs xs hc ha
    have h1 : s.env.writes = writesOf (expiryScript site reg ⟨us, last⟩) ++ ws := ha.writes
    have h2 : s.env.reads = readsOf (expiryScript site reg ⟨us, last⟩) ++ rs := ha.reads
    rw [M.bind_run, drawExpired_fixed s false (expiriesOf (expiryScript site reg ⟨us, last⟩) ++ xs) ha.expiries, h1, h2]
    simp only [Bool.false_eq_true, if_false]
    rw [ih (fun v hv => hf v (by simp [hv])) left (by simp at hb; omega) _ ws rs xs (hc.after _ _ _ _)
      (State.Answers.after s _ ws rs xs _)]
    simp [eventsOf]

theorem readsOf_pollScript (site : PollSite) (reg : Byte) (failing : List Byte) (last : Byte) :
    (readsOf (pollScript site reg ⟨failing, last⟩)).length = failing.length + 1 := by
  induction failing with
  | nil => rfl
  | cons u us ih =>
    have e : pollScript site reg ⟨u :: us, last⟩ =
        byteScript reg u ++ .waited site false :: pollScript site reg ⟨us, last⟩ := by simp [pollScript]
    rw [e]; simp [readsOf, byteScript] at ih ⊢; omega

theorem waitBound_reads (s : State) (t : Timeout) {script : List Act} {ws : List WriteAnswer} {rs : List ReadAnswer}
    {xs : List Bool} (ha : s.Answers script ws rs xs) : (readsOf script).length < s.waitBound t := by
  simp only [State.waitBound, Env.scripted, ha.reads, List.length_append]; omega

/-- A poll follows its script (R223). -/
theorem pollReg_runs (hw : c.maxWrite ≠ 1) (site : PollSite) (reg : Byte) (test : PollTest) (timeout : Timeout)
    (err : Err) (he : c.errors site = err) {p : PollReads} (hp : p.Passes (pollAccepts test)) :
    Runs c (pollReg site reg test timeout err) (pollScript site reg p) p.last where
  follows s ws rs xs hc ha := by
    have hb := waitBound_reads s timeout ha
    rw [readsOf_pollScript] at hb
    exact pollLoop_follows hw site reg test err p.failing p.last hp.failing hp.accepted _ (by omega) s ws rs xs hc ha
  cut s ws rs xs cut e hc hk ha :=
    pollLoop_cut hw site reg test err he p.failing p.last hp.failing cut e hk _
      (Nat.le_of_lt (waitBound_reads s timeout ha)) s ws rs xs hc ha

theorem pollReg_ends (hw : c.maxWrite ≠ 1) (site : PollSite) (reg : Byte) (test : PollTest) (timeout : Timeout)
    (err : Err) {p : PollReads} (hp : p.FailsAll (pollAccepts test)) :
    EndsAt c (pollReg site reg test timeout err) (expiryScript site reg p) err := by
  intro s ws rs xs hc ha
  have hb := waitBound_reads s timeout ha
  have hr : (readsOf (expiryScript site reg p)).length = p.failing.length + 1 := by
    rw [← readsOf_pollScript site reg p.failing p.last]; simp [expiryScript, readsOf]
  exact pollLoop_ends hw site reg test err p.failing p.last hp.failing hp.rejected _ (by omega) s ws rs xs hc ha

/-! ## Composite operations -/

theorem Runs.of_script {x : M α} {p q : List Act} {a : α} (h : Runs c x p a) (e : p = q) : Runs c x q a := e ▸ h

theorem Runs.withParams {x : M α} {p : List Act} {a : α} (h : ∀ s, c.Holds s → Runs c x p a) : Runs c x p a :=
  ⟨fun s ws rs xs hc ha => (h s hc).follows s ws rs xs hc ha,
    fun s ws rs xs cut e hc hk ha => (h s hc).cut s ws rs xs cut e hc hk ha⟩

theorem controlByte_value : ∀ (a : BitVec 3) (b d : BitVec 2),
    controlByte a b d = BitVec.ofNat 8 (32 * a.toNat + 8 * b.toNat + 2 * d.toNat + 1) := by decide

theorem ciDone_test (v : Byte) : pollAccepts testCiDone v = ciDone v := by revert v; decide
theorem notBusy_test (v : Byte) : pollAccepts testNotBusy v = notBusy v := by revert v; decide
theorem crcDone_test (v : Byte) : pollAccepts testCrcReady v = crcDone v := by revert v; decide

theorem PollReads.Passes.as {t u : Byte → Bool} {p : PollReads} (h : p.Passes u) (e : ∀ v, t v = u v) : p.Passes t :=
  ⟨fun v hv => (e v).trans (h.failing v hv), (e _).trans h.accepted⟩

theorem PollReads.FailsAll.as {t u : Byte → Bool} {p : PollReads} (h : p.FailsAll u) (e : ∀ v, t v = u v) :
    p.FailsAll t := ⟨fun v hv => (e v).trans (h.failing v hv), (e _).trans h.rejected⟩

theorem operandWrite_runs (hw : c.maxWrite ≠ 1) (n value : Nat) :
    Runs c (whenever (decide (n > 0)) (regWrite regAddr (beBytes value n) true))
      (if n = 0 then [] else writeScript c.maxWrite 0x64 (beBytes value n) true) () := by
  by_cases h : n = 0
  · subst h; exact Runs.pure ()
  · have hd : decide (n > 0) = true := by simp; omega
    rw [hd, if_neg h]
    refine regWrite_runs hw regAddr _ true ?_
    cases n with
    | zero => exact absurd rfl h
    | succ n => simp [beBytes]

/-- The register writes of a custom instruction, then a continuation. -/
theorem command_runs (hw : c.maxWrite ≠ 1) {cmdType : Nat} {opcode : Byte} {readN writeN value : Nat}
    (hc : cmdType ≤ 7) (hr : readN ≤ 3) (hn : writeN ≤ 3) {k : M β} {p : List Act} {b : β} (hk : Runs c k p b) :
    Runs c (do
      whenever (decide (writeN > 0)) (regWrite regAddr (beBytes value writeN) true)
      regWrite8 regCiOpcode opcode
      regWrite8 regCiCtrl (controlByte (BitVec.ofNat 3 cmdType) (BitVec.ofNat 2 writeN) (BitVec.ofNat 2 readN))
      k) (commandScript c.maxWrite cmdType opcode readN writeN value ++ p) b := by
  have hb : controlByte (BitVec.ofNat 3 cmdType) (BitVec.ofNat 2 writeN) (BitVec.ofNat 2 readN) =
      BitVec.ofNat 8 (32 * cmdType + 8 * writeN + 2 * readN + 1) := by
    rw [controlByte_value]
    simp only [BitVec.toNat_ofNat]
    rw [Nat.mod_eq_of_lt (by omega), Nat.mod_eq_of_lt (by omega), Nat.mod_eq_of_lt (by omega)]
  rw [hb]
  simp only [commandScript, List.append_assoc]
  exact (operandWrite_runs hw writeN value).bind ((regWrite8_runs hw regCiOpcode opcode).bind
    ((regWrite8_runs hw regCiCtrl _).bind hk))

theorem operandFits_true {n value : Nat} (h : 0 < n → value < 2 ^ (8 * n)) : operandFits n value = true := by
  simp only [operandFits, decide_eq_true_eq]
  rcases Nat.eq_zero_or_pos n with rfl | hn
  · simp
  · exact .inr (h hn)

/-- A custom instruction follows its script (R215). -/
theorem customInstruction_runs (hw : c.maxWrite ≠ 1) (he : c.errors .ci = .customInstructionTimeout) {cmdType : Nat}
    {opcode : Byte} {writeN value : Nat} (hc : cmdType ≤ 7) (hn : writeN ≤ 3)
    (hv : 0 < writeN → value < 2 ^ (8 * writeN)) {ci : PollReads} (hci : ci.Passes ciDone) (out : List Byte)
    (ho : out.length ≤ 3) :
    Runs c (customInstruction cmdType opcode out.length writeN value)
      (instructionScript c.maxWrite cmdType opcode out.length writeN value ci ++ readScript c.maxRead 0x67 out true)
      (if out.length = 0 then none else some (beValue out)) := by
  have hd : decide (cmdType ≤ 7 ∧ out.length ≤ 3 ∧ writeN ≤ 3) = true := by simp [hc, ho, hn]
  unfold customInstruction instructionScript
  refine (Runs.require .fieldRange hd).skip ((Runs.require .operandRange (operandFits_true hv)).skip ?_)
  rw [List.append_assoc]
  refine command_runs hw hc ho hn (Runs.readState fun s _ => ?_)
  refine Runs.bind (pollReg_runs hw .ci regCiCtrl testCiDone _ _ he (hci.as ciDone_test)) ?_
  cases out with
  | nil =>
    have hz : readScript c.maxRead 0x67 [] true = [] := by simp [readScript, pieceCount_zero]
    rw [hz]
    exact Runs.pure none
  | cons b bs =>
    rw [if_pos (by simp), if_neg (by simp)]
    exact (regRead_runs hw 0x67 (b :: bs) true (by simp)).map fun l => some (beValue l)

theorem customInstruction_expires (hw : c.maxWrite ≠ 1) {cmdType : Nat} {opcode : Byte} {readN writeN value : Nat}
    (hc : cmdType ≤ 7) (hr : readN ≤ 3) (hn : writeN ≤ 3) (hv : 0 < writeN → value < 2 ^ (8 * writeN)) {ci : PollReads}
    (hci : ci.FailsAll ciDone) :
    EndsAt c (customInstruction cmdType opcode readN writeN value)
      (commandScript c.maxWrite cmdType opcode readN writeN value ++ expiryScript .ci 0x60 ci)
      .customInstructionTimeout := by
  have hd : decide (cmdType ≤ 7 ∧ readN ≤ 3 ∧ writeN ≤ 3) = true := by simp [hc, hr, hn]
  have h1 := command_runs (c := c) hw (opcode := opcode) (value := value) hc hr hn (Runs.pure (c := c) ())
  rw [List.append_nil] at h1
  have h2 : Runs c (do
      require (decide (cmdType ≤ 7 ∧ readN ≤ 3 ∧ writeN ≤ 3)) .fieldRange
      require (operandFits writeN value) .operandRange
      whenever (decide (writeN > 0)) (regWrite regAddr (beBytes value writeN) true)
      regWrite8 regCiOpcode opcode
      regWrite8 regCiCtrl (controlByte (BitVec.ofNat 3 cmdType) (BitVec.ofNat 2 writeN) (BitVec.ofNat 2 readN))
      Pure.pure ()) (commandScript c.maxWrite cmdType opcode readN writeN value) () :=
    (Runs.require .fieldRange hd).skip ((Runs.require .operandRange (operandFits_true hv)).skip h1)
  have h3 := h2.thenEnds (f := fun _ => (do
    let s ← get
    let _ ← pollReg .ci regCiCtrl testCiDone (ciTimeout s.params cmdType opcode) .customInstructionTimeout
    if readN > 0 then
      let bytes ← regRead regRop readN true
      return some (beValue bytes)
    else return none)) (EndsAt.readState fun s _ =>
      (pollReg_ends hw .ci regCiCtrl testCiDone (ciTimeout s.params cmdType opcode) .customInstructionTimeout
        (hci.as ciDone_test)).bind)
  simp only [bind_assoc, pure_bind] at h3
  exact h3

theorem instruction_runs (hw : c.maxWrite ≠ 1) (he : c.errors .ci = .customInstructionTimeout) {cmdType : Nat}
    {opcode : Byte} {writeN value : Nat} (hc : cmdType ≤ 7) (hn : writeN ≤ 3)
    (hv : 0 < writeN → value < 2 ^ (8 * writeN)) {ci : PollReads} (hci : ci.Passes ciDone) :
    Runs c (customInstruction cmdType opcode 0 writeN value)
      (instructionScript c.maxWrite cmdType opcode 0 writeN value ci) none := by
  have h := customInstruction_runs hw he (opcode := opcode) hc hn hv hci [] (by simp)
  have hz : readScript c.maxRead 0x67 [] true = [] := by simp [readScript, pieceCount_zero]
  rwa [hz, List.append_nil] at h

theorem writeStatusRegister_runs (hw : c.maxWrite ≠ 1) (he : c.errors .ci = .customInstructionTimeout) (value : Nat)
    (hv : value < 256) {ci : PollReads} (hci : ci.Passes ciDone) :
    Runs c (writeStatusRegister value) (statusScript c.params c.maxWrite value ci) () := by
  refine Runs.readState fun s hc => ?_
  rw [hc.params]
  have h := (instruction_runs hw he (cmdType := c.params.ctWrenWrsr.toNat) (opcode := c.params.opWrsr) (writeN := 1)
    (value := value) (by have := c.params.ctWrenWrsr.isLt; omega) (by omega) (by omega) hci).map fun _ => ()
  exact h

theorem eraseFlash_runs (hw : c.maxWrite ≠ 1) (he : c.errors .ci = .customInstructionTimeout) {ci1 ci2 ci3 : PollReads}
    (h1 : ci1.Passes ciDone) (h2 : ci2.Passes ciDone) (h3 : ci3.Passes ciDone) :
    Runs c eraseFlash (eraseScript c.params c.maxWrite ci1 ci2 ci3) () := by
  unfold eraseFlash eraseScript
  rw [List.append_assoc]
  refine (writeStatusRegister_runs hw he _ (by decide) h1).bind (Runs.readState fun s hc => ?_)
  rw [hc.params]
  refine (instruction_runs hw he ?_ (by omega) (by omega) h2).bind (writeStatusRegister_runs hw he _ (by decide) h3)
  have := c.params.ctErase.isLt; omega

theorem setAddr_runs (hw : c.maxWrite ≠ 1) (reg : Byte) (a : Nat) :
    Runs c (setAddr reg a) (writeScript c.maxWrite reg (beBytes a 3) true) () :=
  regWrite_runs hw reg _ true (by simp [beBytes])

theorem deviceCrc_runs (hw : c.maxWrite ≠ 1) (he : c.errors .crc = .busStuck (.site .crc)) {first last : Nat}
    (h1 : first ≤ last) (h2 : last < 2 ^ 24) {crc : PollReads} (hp : crc.Passes crcDone) (d : Byte) :
    Runs c (deviceCrc first last) (crcScript c.maxWrite first last crc d) d := by
  have hd : decide (first ≤ last ∧ last < 2 ^ 24) = true := by simp [h1]; omega
  unfold deviceCrc crcScript crcCommandScript
  simp only [List.append_assoc]
  exact (Runs.require .crcRange hd).skip ((setAddr_runs hw regAddr first).bind ((setAddr_runs hw regCrcEnd last).bind
    ((regWrite8_runs hw regIspCtrl _).bind ((pollReg_runs hw .crc regIspCtrl testCrcReady _ _ he
      (hp.as crcDone_test)).bind (regRead8_runs hw regCrcResult d)))))

theorem deviceCrc_expires (hw : c.maxWrite ≠ 1) {first last : Nat} (h1 : first ≤ last) (h2 : last < 2 ^ 24)
    {crc : PollReads} (hp : crc.FailsAll crcDone) :
    EndsAt c (deviceCrc first last) (crcCommandScript c.maxWrite first last ++ expiryScript .crc 0x6F crc)
      (.busStuck (.site .crc)) := by
  have hd : decide (first ≤ last ∧ last < 2 ^ 24) = true := by simp [h1]; omega
  have h0 : Runs c (do
      require (decide (first ≤ last ∧ last < 2 ^ 24)) .crcRange
      setAddr regAddr first
      setAddr regCrcEnd last
      regWrite8 regIspCtrl cmdByteCrc) (crcCommandScript c.maxWrite first last) () := by
    simp only [crcCommandScript, List.append_assoc]
    exact (Runs.require .crcRange hd).skip ((setAddr_runs hw regAddr first).bind ((setAddr_runs hw regCrcEnd last).bind
      (regWrite8_runs hw regIspCtrl cmdByteCrc)))
  have h := h0.thenEnds (f := fun _ => (do
        let _ ← pollReg .crc regIspCtrl testCrcReady .crc (.busStuck (.site .crc))
        regRead8 regCrcResult))
      (pollReg_ends hw .crc regIspCtrl testCrcReady .crc _ (hp.as crcDone_test)).bind
  simp only [bind_assoc] at h
  exact h

theorem progress_runs (first last current : Nat) :
    Runs c (progress first last current) [.saw (.progress first last current)] () :=
  Runs.emit _ (by intros; exact nofun) (by intros; exact nofun)

theorem waitNotBusy_runs (hw : c.maxWrite ≠ 1) (he : c.errors .busy = .busStuck (.site .busy)) {p : PollReads}
    (hp : p.Passes notBusy) : Runs c waitNotBusy (pollScript .busy 0x6F p) () :=
  (pollReg_runs hw .busy regIspCtrl testNotBusy _ _ he (hp.as notBusy_test)).map fun _ => ()

theorem page_runs (hw : c.maxWrite ≠ 1) (he : c.errors .busy = .busStuck (.site .busy)) (img : List Byte)
    (busy : Nat → PollReads) (hb : ∀ k, (busy k).Passes notBusy) (k : Nat) (hne : imagePage img k ≠ []) :
    Runs c (do
      progress 0 img.length (pageSize * k)
      whenever (!isBlankPage (imagePage img k)) (writePage k (imagePage img k)))
      (pageScript c.params c.maxWrite img busy k) () := by
  refine Runs.bind (p := [_]) (progress_runs _ _ _) ?_
  change Runs c (whenever (!(imagePage img k).all fun b => decide (b = 0xFF)) (writePage k (imagePage img k))) _ ()
  cases h : (imagePage img k).all fun b => decide (b = 0xFF)
  case true => exact Runs.pure ()
  case false =>
    simp only [List.append_assoc]
    change Runs c (writePage k (imagePage img k)) _ ()
    refine (waitNotBusy_runs hw he (hb k)).bind (Runs.readState fun s hc => ?_)
    rw [hc.params]
    exact (regWrite8_runs hw regXferSize _).bind ((setAddr_runs hw regAddr _).bind
      ((regWrite_runs hw regData _ true hne).bind (regWrite8_runs hw regIspCtrl _)))

theorem programPages_runs (hw : c.maxWrite ≠ 1) (he : c.errors .busy = .busStuck (.site .busy)) (img : List Byte)
    (busy : Nat → PollReads) (hb : ∀ k, (busy k).Passes notBusy) (m j : Nat)
    (hne : ∀ k, k < m → imagePage img (j + k) ≠ []) :
    Runs c (programPages img.length j (((List.range m).map (fun k => j + k)).map (imagePage img)))
      (((List.range m).map (fun k => j + k)).flatMap (pageScript c.params c.maxWrite img busy)) () := by
  induction m generalizing j with
  | zero => exact Runs.pure ()
  | succ m ih =>
    rw [range_cons, List.map_cons, List.flatMap_cons, programPages]
    have h1 := page_runs hw he img busy hb j (hne 0 (by omega))
    have h2 := h1.bind (f := fun _ => programPages img.length (j + 1)
      (((List.range m).map (fun k => j + 1 + k)).map (imagePage img))) (ih (j + 1) fun k hk => by
        rw [show j + 1 + k = j + (k + 1) by omega]; exact hne (k + 1) (by omega))
    simpa only [bind_assoc] using h2

theorem imagePage_ne (img : List Byte) (k : Nat) (h : k < pieceCount 128 img.length) : imagePage img k ≠ [] := by
  have : 128 * k < img.length := by unfold pieceCount at h; omega
  intro hn
  have := congrArg List.length hn
  simp [imagePage] at this; omega

/-- `program` up to its verification. -/
theorem programFront_runs (hw : c.maxWrite ≠ 1) (hci : c.errors .ci = .customInstructionTimeout)
    (hbu : c.errors .busy = .busStuck (.site .busy)) (img : List Byte) {ci1 ci2 : PollReads} {busy : Nat → PollReads}
    (h1 : ci1.Passes ciDone) (h2 : ci2.Passes ciDone) (hb : ∀ k, (busy k).Passes notBusy) :
    Runs c (do
      writeStatusRegister unprotectSr
      programPages img.length 0 (chunks pageSize img)
      waitNotBusy
      writeStatusRegister protectSr) (programScript c.params c.maxWrite img ci1 ci2 busy) () := by
  unfold programScript
  simp only [List.append_assoc]
  have hp := programPages_runs hw hbu img busy hb (pieceCount 128 img.length) 0
    (fun k hk => by rw [Nat.zero_add]; exact imagePage_ne img k hk)
  rw [range_shift_zero] at hp
  have e : chunks pageSize img = (List.range (pieceCount 128 img.length)).map (imagePage img) :=
    chunks_eq (n := 128) (by omega) img
  rw [e]
  exact (writeStatusRegister_runs hw hci _ (by decide) h1).bind (hp.bind ((waitNotBusy_runs hw hbu (hb _)).bind
    (writeStatusRegister_runs hw hci _ (by decide) h2)))

theorem collectFlash_runs (hw : c.maxWrite ≠ 1) (out : List Byte) (m j : Nat) (done : List Byte)
    (hd : done.length = 128 * j) (hne : ∀ k, k < m → imagePage out (j + k) ≠ [])
    (hfull : ∀ k, k + 1 < m → (imagePage out (j + k)).length = 128) :
    Runs c (collectFlash out.length (((List.range m).map (fun k => j + k)).map fun k => (imagePage out k).length) done)
      (((List.range m).map (fun k => j + k)).flatMap fun k =>
        .saw (.progress 0 out.length (128 * k)) :: readScript c.maxRead 0x70 (imagePage out k) true)
      (done ++ (((List.range m).map (fun k => j + k)).map (imagePage out)).flatten) := by
  induction m generalizing j done with
  | zero => simpa [collectFlash] using Runs.pure (c := c) done
  | succ m ih =>
    rw [range_cons, List.map_cons, List.map_cons, List.flatMap_cons, List.flatten_cons, collectFlash]
    rw [hd]
    refine Runs.bind (p := [_]) (progress_runs 0 out.length _) ?_
    refine Runs.bind (regRead_runs hw 0x70 (imagePage out j) true (hne 0 (by omega))) ?_
    rcases Nat.eq_zero_or_pos m with rfl | hm
    · simpa [collectFlash] using Runs.pure (c := c) (done ++ imagePage out j)
    · have h0 := hfull 0 (by omega)
      rw [Nat.add_zero] at h0
      rw [← List.append_assoc]
      refine ih (j + 1) (done ++ imagePage out j) (by rw [List.length_append, hd, h0]; omega) (fun k hk => ?_)
        fun k hk => ?_
      · rw [show j + 1 + k = j + (k + 1) by omega]; exact hne (k + 1) (by omega)
      · rw [show j + 1 + k = j + (k + 1) by omega]; exact hfull (k + 1) (by omega)

/-- `read` up to its verification. -/
theorem readFront_runs (hw : c.maxWrite ≠ 1) (hci : c.errors .ci = .customInstructionTimeout)
    (hbu : c.errors .busy = .busStuck (.site .busy)) (out primed : List Byte) (hp : primed.length = 3)
    {ci busy : PollReads} (h1 : ci.Passes ciDone) (h2 : busy.Passes notBusy) :
    Runs c (do
      let _ ← customInstruction c.params.ctRead.toNat c.params.opRead 3 3 0
      waitNotBusy
      collectFlash out.length (chunkSizes pageSize out.length) [])
      (flashReadScript c.params c.maxWrite c.maxRead out primed ci busy) out := by
  have hc := collectFlash_runs hw out (pieceCount 128 out.length) 0 [] rfl
    (fun k hk => by rw [Nat.zero_add]; exact imagePage_ne out k hk)
    (fun k hk => by rw [Nat.zero_add]; exact piece_length (n := 128) (by omega) out k hk)
  have hf := pieces_flatten (n := 128) (by omega) out
  rw [range_shift_zero, List.nil_append] at hc
  change ((List.range (pieceCount 128 out.length)).map (imagePage out)).flatten = out at hf
  rw [hf] at hc
  have e : chunkSizes pageSize out.length = (List.range (pieceCount 128 out.length)).map fun k =>
      (imagePage out k).length := chunkSizes_eq (n := 128) (by omega) out
  rw [e]
  unfold flashReadScript
  rw [List.append_assoc, List.append_assoc]
  have hi := customInstruction_runs hw hci (cmdType := c.params.ctRead.toNat) (opcode := c.params.opRead) (writeN := 3)
    (value := 0) (by have := c.params.ctRead.isLt; omega) (by omega) (by intro _; positivity) h1 primed (by omega)
  rw [hp] at hi
  rw [← List.append_assoc]
  exact hi.bind ((waitNotBusy_runs hw hbu h2).bind hc)

/-- The verification after the host CRC: the device CRC and the last progress call. -/
theorem verifyEnd_runs (hw : c.maxWrite ≠ 1) (he : c.errors .crc = .busStuck (.site .crc)) {n : Nat} (h1 : 1 ≤ n)
    (h2 : n ≤ 2 ^ 24) {crc : PollReads} (hp : crc.Passes crcDone) (d : Byte) :
    Runs c (do
      let d ← deviceCrc 0 (n - 1)
      progress 0 n n
      return d) (verifyScript c.maxWrite n crc d) d := by
  unfold verifyScript
  exact (deviceCrc_runs hw he (by omega) (by omega) hp d).bind ((progress_runs 0 n n).map fun _ => d)

end Runs

end Sys2Proof.Machine
end

