-- ==== Sys2Proof/Laws/Flash.lean ====
section
/-! SUPPORT. `program` and `read` cut into what stands before the verification and the verification itself, and both
against their scripts. -/

namespace Sys2Proof.Machine

/-- `program` up to its verification (R251). -/
def programFront (img : List Byte) : M Unit := do
  writeStatusRegister unprotectSr
  programPages img.length 0 (chunks pageSize img)
  waitNotBusy
  writeStatusRegister protectSr

/-- `read` up to its verification (R255). -/
def readFront (p : Params) (n : Nat) : M (List Byte) := do
  let _ ← customInstruction p.ctRead.toNat p.opRead 3 3 0
  waitNotBusy
  collectFlash n (chunkSizes pageSize n) []

/-- The device CRC of n bytes and the last progress call (R257). -/
def verifyEnd (n : Nat) : M Byte := do
  let d ← deviceCrc 0 (n - 1)
  progress 0 n n
  return d

theorem programFlashImage_run (img : List Byte) (s : State) (h : 1 ≤ img.length ∧ img.length ≤ s.params.chipSize) :
    programFlashImage img s = (programFront img >>= fun _ => verifyFlash img img.length) s := by
  simp only [programFlashImage, programFront, bind_assoc]
  rw [M.bind_run, M.get_run]
  simp only
  rw [M.bind_run, decide_eq_true h, require_true]

theorem readFlashImage_run (n : Nat) (s : State) (h : 1 ≤ n ∧ n ≤ s.params.chipSize) :
    readFlashImage n s = (readFront s.params n >>= fun out => verifyFlash out n >>= fun _ => pure out) s := by
  simp only [readFlashImage, readFront, bind_assoc]
  rw [M.bind_run, M.get_run]
  simp only
  rw [M.bind_run, decide_eq_true h, require_true]

/-- The verification: the host CRC into the register, then the device CRC, and the comparison. -/
theorem verifyFlash_run (data : List Byte) (n : Nat) (s : State) :
    verifyFlash data n s =
      (verifyEnd n >>= fun d => whenever (decide (hostCrc data ≠ d)) (raise .verificationFailed))
        (s.setCrc (hostCrc data)) := by
  have h : computeHostCrc data s = .ok (hostCrc data) (s.setCrc (hostCrc data)) := rfl
  simp only [verifyFlash, verifyEnd, bind_assoc, pure_bind]
  rw [M.bind_run, h]

theorem Setting.Holds.setCrc {c : Setting} {s : State} (h : c.Holds s) (v : Byte) : c.Holds (s.setCrc v) :=
  ⟨⟨h.oracle.native, h.oracle.oracle, h.oracle.wide⟩, h.maxWrite, h.maxRead, h.params⟩

theorem State.Answers.setCrc {s : State} {script : List Act} {ws : List WriteAnswer} {rs : List ReadAnswer}
    {xs : List Bool} (h : s.Answers script ws rs xs) (v : Byte) : (s.setCrc v).Answers script ws rs xs :=
  ⟨h.writes, h.reads, h.expiries⟩

theorem chipSize_le (p : Params) : p.chipSize ≤ 2 ^ 24 := by
  have := p.lastFlashAddr.isLt
  unfold Params.chipSize; omega

/-- The verification follows its script (R257). -/
theorem verifyFlash_follows {c : Setting} (hw : c.maxWrite ≠ 1) (he : c.errors .crc = .busStuck (.site .crc))
    (data : List Byte) {n : Nat} (h1 : 1 ≤ n) (h2 : n ≤ 2 ^ 24) {crc : PollReads} (hp : crc.Passes crcDone) (d : Byte)
    (s : State) (ws : List WriteAnswer) (rs : List ReadAnswer) (xs : List Bool) (hc : c.Holds s)
    (ha : s.Answers (verifyScript c.maxWrite n crc d) ws rs xs) :
    verifyFlash data n s =
      if hostCrc data = d then
        .ok () { s.afterAnswers ws rs xs (eventsOf (verifyScript c.maxWrite n crc d)) with crc := hostCrc data }
      else .error (.raised .verificationFailed)
        { s.afterAnswers ws rs xs (eventsOf (verifyScript c.maxWrite n crc d)) with crc := hostCrc data } := by
  have hv : verifyEnd n (s.setCrc (hostCrc data)) = _ :=
    (verifyEnd_runs hw he h1 h2 hp d).follows (s.setCrc (hostCrc data)) ws rs xs (hc.setCrc _) (ha.setCrc _)
  rw [verifyFlash_run, M.bind_run, hv]
  by_cases h : hostCrc data = d
  · simp only [h, ne_eq, not_true_eq_false, decide_false, if_true]; rfl
  · simp only [ne_eq, h, not_false_eq_true, decide_true, if_false]; rfl

theorem verifyFlash_cut {c : Setting} (hw : c.maxWrite ≠ 1) (he : c.errors .crc = .busStuck (.site .crc))
    (data : List Byte) {n : Nat} (h1 : 1 ≤ n) (h2 : n ≤ 2 ^ 24) {crc : PollReads} (hp : crc.Passes crcDone) (d : Byte)
    (s : State) (ws : List WriteAnswer) (rs : List ReadAnswer) (xs : List Bool) {cut : List Act} {e : Err}
    (hc : c.Holds s) (hk : CutShort c.errors (verifyScript c.maxWrite n crc d) cut e) (ha : s.Answers cut ws rs xs) :
    verifyFlash data n s =
      .error (.raised e) { s.afterAnswers ws rs xs (eventsOf cut) with crc := hostCrc data } := by
  have hv : verifyEnd n (s.setCrc (hostCrc data)) = _ :=
    (verifyEnd_runs hw he h1 h2 hp d).cut (s.setCrc (hostCrc data)) ws rs xs cut e (hc.setCrc _) hk (ha.setCrc _)
  rw [verifyFlash_run, M.bind_run, hv]
  rfl

end Sys2Proof.Machine
end

