-- ==== Sys2Proof/Laws/PerInstr.lean ====
section
/-! SUPPORT. Statements made of every instruction, one lemma per constructor: its call bytes open with its row number,
and its row has an operand reader. -/

namespace Sys2Proof.Laws.RowTag

/-- The instruction's row has a reader, and its call bytes begin with the row's number. -/
def Statement (i : Instr) : Prop :=
  i.row < rowParsers.length ∧ (encode i).head? = some (BitVec.ofNat 8 i.row)

theorem bsReadBit (bs : BitStream) : Statement (.bsReadBit bs) := ⟨(by decide : 0 < rowParsers.length), rfl⟩
theorem decodeNibble (bs : BitStream) : Statement (.decodeNibble bs) := ⟨(by decide : 1 < rowParsers.length), rfl⟩
theorem checkHeader (file : List Byte) : Statement (.checkHeader file) := ⟨(by decide : 2 < rowParsers.length), rfl⟩
theorem decode (file : List Byte) : Statement (.decode file) := ⟨(by decide : 3 < rowParsers.length), rfl⟩
theorem computeDecodedSize (file : List Byte) : Statement (.computeDecodedSize file) := ⟨(by decide : 4 < rowParsers.length), rfl⟩
theorem drive (l : Line) : Statement (.drive l) := ⟨(by decide : 5 < rowParsers.length), rfl⟩
theorem release (l : Line) : Statement (.release l) := ⟨(by decide : 6 < rowParsers.length), rfl⟩
theorem waitScl : Statement (.waitScl) := ⟨(by decide : 7 < rowParsers.length), rfl⟩
theorem busReset : Statement (.busReset) := ⟨(by decide : 8 < rowParsers.length), rfl⟩
theorem pulseScl : Statement (.pulseScl) := ⟨(by decide : 9 < rowParsers.length), rfl⟩
theorem start : Statement (.start) := ⟨(by decide : 10 < rowParsers.length), rfl⟩
theorem stop : Statement (.stop) := ⟨(by decide : 11 < rowParsers.length), rfl⟩
theorem writeBit (b : Bit) : Statement (.writeBit b) := ⟨(by decide : 12 < rowParsers.length), rfl⟩
theorem readBit : Statement (.readBit) := ⟨(by decide : 13 < rowParsers.length), rfl⟩
theorem writeByte (x : Byte) : Statement (.writeByte x) := ⟨(by decide : 14 < rowParsers.length), rfl⟩
theorem readByte : Statement (.readByte) := ⟨(by decide : 15 < rowParsers.length), rfl⟩
theorem busWrite (address : Nat) (data : List Byte) : Statement (.busWrite address data) := ⟨(by decide : 16 < rowParsers.length), rfl⟩
theorem busRead (address : Nat) (count : Nat) : Statement (.busRead address count) := ⟨(by decide : 17 < rowParsers.length), rfl⟩
theorem tWrite (a : Addr7) (bytes : List Byte) : Statement (.tWrite a bytes) := ⟨(by decide : 18 < rowParsers.length), rfl⟩
theorem tRead (a : Addr7) (n : Nat) : Statement (.tRead a n) := ⟨(by decide : 19 < rowParsers.length), rfl⟩
theorem init (device settings : List Byte) : Statement (.init device settings) := ⟨(by decide : 20 < rowParsers.length), rfl⟩
theorem deinit : Statement (.deinit) := ⟨(by decide : 21 < rowParsers.length), rfl⟩
theorem listDevices : Statement (.listDevices) := ⟨(by decide : 22 < rowParsers.length), rfl⟩
theorem detect (a : Addr7) : Statement (.detect a) := ⟨(by decide : 23 < rowParsers.length), rfl⟩
theorem regWrite (reg : Byte) (payload : List Byte) (seq : Bool) : Statement (.regWrite reg payload seq) := ⟨(by decide : 24 < rowParsers.length), rfl⟩
theorem regRead (reg : Byte) (n : Nat) (seq : Bool) : Statement (.regRead reg n seq) := ⟨(by decide : 25 < rowParsers.length), rfl⟩
theorem enterIsp : Statement (.enterIsp) := ⟨(by decide : 26 < rowParsers.length), rfl⟩
theorem exitIsp : Statement (.exitIsp) := ⟨(by decide : 27 < rowParsers.length), rfl⟩
theorem customInstruction (cmdType : Nat) (opcode : Byte) (readN writeN writeValue : Nat) : Statement (.customInstruction cmdType opcode readN writeN writeValue) := ⟨(by decide : 28 < rowParsers.length), rfl⟩
theorem deviceCrc (first last : Nat) : Statement (.deviceCrc first last) := ⟨(by decide : 29 < rowParsers.length), rfl⟩
theorem hostCrc (data : List Byte) : Statement (.hostCrc data) := ⟨(by decide : 30 < rowParsers.length), rfl⟩
theorem poll (site : PollSite) (reg : Byte) (test : PollTest) (timeout : Timeout) (err : Err) : Statement (.poll site reg test timeout err) := ⟨(by decide : 31 < rowParsers.length), rfl⟩
theorem erase : Statement (.erase) := ⟨(by decide : 32 < rowParsers.length), rfl⟩
theorem program (img : List Byte) : Statement (.program img) := ⟨(by decide : 33 < rowParsers.length), rfl⟩
theorem flashRead (n : Nat) : Statement (.flashRead n) := ⟨(by decide : 34 < rowParsers.length), rfl⟩
theorem addrW (a : Addr7) : Statement (.addrW a) := ⟨(by decide : 35 < rowParsers.length), rfl⟩
theorem addrR (a : Addr7) : Statement (.addrR a) := ⟨(by decide : 36 < rowParsers.length), rfl⟩
theorem ispAddrWrite : Statement (.ispAddrWrite) := ⟨(by decide : 37 < rowParsers.length), rfl⟩
theorem ispAddrRead : Statement (.ispAddrRead) := ⟨(by decide : 38 < rowParsers.length), rfl⟩
theorem ispAddrAiWrite : Statement (.ispAddrAiWrite) := ⟨(by decide : 39 < rowParsers.length), rfl⟩
theorem ispAddrAiRead : Statement (.ispAddrAiRead) := ⟨(by decide : 40 < rowParsers.length), rfl⟩
theorem ack : Statement (.ack) := ⟨(by decide : 41 < rowParsers.length), rfl⟩
theorem nack : Statement (.nack) := ⟨(by decide : 42 < rowParsers.length), rfl⟩
theorem ctrl (cmdType : BitVec 3) (writeN readN : BitVec 2) : Statement (.ctrl cmdType writeN readN) := ⟨(by decide : 43 < rowParsers.length), rfl⟩
theorem cmdEnterIsp : Statement (.cmdEnterIsp) := ⟨(by decide : 44 < rowParsers.length), rfl⟩
theorem cmdCrc : Statement (.cmdCrc) := ⟨(by decide : 45 < rowParsers.length), rfl⟩
theorem cmdPageWrite : Statement (.cmdPageWrite) := ⟨(by decide : 46 < rowParsers.length), rfl⟩
theorem statIsp : Statement (.statIsp) := ⟨(by decide : 47 < rowParsers.length), rfl⟩
theorem statBusy : Statement (.statBusy) := ⟨(by decide : 48 < rowParsers.length), rfl⟩
theorem statCrcReady : Statement (.statCrcReady) := ⟨(by decide : 49 < rowParsers.length), rfl⟩
theorem ciPending : Statement (.ciPending) := ⟨(by decide : 50 < rowParsers.length), rfl⟩
theorem reboot : Statement (.reboot) := ⟨(by decide : 51 < rowParsers.length), rfl⟩
theorem a24 (reg : A24Reg) (addr : BitVec 24) : Statement (.a24 reg addr) := ⟨(by decide : 52 < rowParsers.length), rfl⟩
theorem opnd (form : OpndForm) : Statement (.opnd form) := ⟨(by decide : 53 < rowParsers.length), rfl⟩
theorem size (lastIndex : Fin 128) : Statement (.size lastIndex) := ⟨(by decide : 54 < rowParsers.length), rfl⟩
theorem regw (a : IspAddr) (reg : Byte) (chunk : List Byte) : Statement (.regw a reg chunk) := ⟨(by decide : 55 < rowParsers.length), rfl⟩
theorem regr (reg : Byte) (k : Nat) (seq : Bool) : Statement (.regr reg k seq) := ⟨(by decide : 56 < rowParsers.length), rfl⟩
theorem gffHeader (file : List Byte) : Statement (.gffHeader file) := ⟨(by decide : 57 < rowParsers.length), rfl⟩
theorem nib0 : Statement (.nib0) := ⟨(by decide : 58 < rowParsers.length), rfl⟩
theorem nibF : Statement (.nibF) := ⟨(by decide : 59 < rowParsers.length), rfl⟩
theorem nib1 : Statement (.nib1) := ⟨(by decide : 60 < rowParsers.length), rfl⟩
theorem nib8 : Statement (.nib8) := ⟨(by decide : 61 < rowParsers.length), rfl⟩
theorem nib2 : Statement (.nib2) := ⟨(by decide : 62 < rowParsers.length), rfl⟩
theorem nib7 : Statement (.nib7) := ⟨(by decide : 63 < rowParsers.length), rfl⟩
theorem nibC : Statement (.nibC) := ⟨(by decide : 64 < rowParsers.length), rfl⟩
theorem nib9 : Statement (.nib9) := ⟨(by decide : 65 < rowParsers.length), rfl⟩
theorem nib4 : Statement (.nib4) := ⟨(by decide : 66 < rowParsers.length), rfl⟩
theorem nib5 : Statement (.nib5) := ⟨(by decide : 67 < rowParsers.length), rfl⟩
theorem nibA : Statement (.nibA) := ⟨(by decide : 68 < rowParsers.length), rfl⟩
theorem nibB : Statement (.nibB) := ⟨(by decide : 69 < rowParsers.length), rfl⟩
theorem nib3 : Statement (.nib3) := ⟨(by decide : 70 < rowParsers.length), rfl⟩
theorem nibD : Statement (.nibD) := ⟨(by decide : 71 < rowParsers.length), rfl⟩
theorem nibE : Statement (.nibE) := ⟨(by decide : 72 < rowParsers.length), rfl⟩
theorem nib6 : Statement (.nib6) := ⟨(by decide : 73 < rowParsers.length), rfl⟩
theorem nibError : Statement (.nibError) := ⟨(by decide : 74 < rowParsers.length), rfl⟩
theorem nibZ6 : Statement (.nibZ6) := ⟨(by decide : 75 < rowParsers.length), rfl⟩
theorem nibEndExhausted : Statement (.nibEndExhausted) := ⟨(by decide : 76 < rowParsers.length), rfl⟩
theorem pair (n1 n2 : Nibble) : Statement (.pair n1 n2) := ⟨(by decide : 77 < rowParsers.length), rfl⟩

end Sys2Proof.Laws.RowTag
end

