-- ==== Sys2Proof/Laws/Recovery.lean ====
section
/-! SUPPORT. The clock-stretch wait over fixed answers and in every environment, and bus recovery over fixed answers. -/

namespace Sys2Proof.Machine

/-! ## How a call ends -/

theorem conclude_asUnit_ok {x : M Unit} {s t : State} (h : x s = .ok () t) :
    conclude (asUnit x s) = .next (t.complete .unit) := by simp [asUnit, h]

theorem conclude_asUnit_raised {x : M Unit} {s t : State} {e : Err} (h : x s = .error (.raised e) t) :
    conclude (asUnit x s) = .next (t.takeError e) := by simp [asUnit, h]

theorem conclude_asBit_ok {x : M Bit} {s t : State} {b : Bit} (h : x s = .ok b t) :
    conclude (asBit x s) = .next (t.complete (.bit b)) := by simp [asBit, h]

theorem conclude_asBit_raised {x : M Bit} {s t : State} {e : Err} (h : x s = .error (.raised e) t) :
    conclude (asBit x s) = .next (t.takeError e) := by simp [asBit, h]

/-! ## The wait (R151) -/

theorem State.afterLine_afterWait (s : State) (a b c d : Latch) (r q : List Bit) (x : List Bool) (e f : List Event) :
    (s.afterLine a b r e).afterWait c d q x f = s.afterWait c d q x (e ++ f) := by
  simp [State.afterLine, State.afterWait]

theorem State.afterWait_afterLine (s : State) (a b c d : Latch) (r q : List Bit) (x : List Bool) (e f : List Event) :
    (s.afterWait a b r x e).afterLine c d q f = s.afterWait c d q x (e ++ f) := by
  simp [State.afterLine, State.afterWait]

theorem drawExpired_next (s : State) (v : Bool) (rest : List Bool) (h : s.env.expiries = v :: rest) :
    drawExpired s = .ok v (s.setEnv { s.env with expiries := rest }) := by rw [drawExpired_run, h]

theorem waitSclLoop_ok (k left : Nat) (s : State) (rest : List Bit) (xs : List Bool)
    (h : s.env.senses = stretchSenses k ++ rest) (hx : s.env.expiries = List.replicate k false ++ xs) (hl : k ≤ left) :
    waitSclLoop left s = .ok () (s.afterWait s.sda .released rest xs (stretchEvents k)) := by
  induction k generalizing left s with
  | zero =>
    have hq : s.env.expiries = xs := by simpa using hx
    cases left <;> simp only [waitSclLoop, M.bind_run, releaseLine_scl_run s true rest h, if_true, M.pure_run] <;>
    simp [State.afterLine, State.afterWait, stretchEvents, sclHigh, ← hq]
  | succ k ih =>
    obtain ⟨left, rfl⟩ : ∃ l, left = l + 1 := ⟨left - 1, by omega⟩
    simp only [stretchSenses, List.replicate_succ, List.cons_append] at h hx
    simp only [waitSclLoop, M.bind_run, releaseLine_scl_run s false _ h, Bool.false_eq_true, if_false]
    rw [drawExpired_next _ false (List.replicate k false ++ xs) (by simpa [State.afterLine] using hx)]
    simp only [Bool.false_eq_true, if_false]
    rw [ih left _ rfl rfl (by omega)]
    simp [State.afterLine, State.afterWait, State.setEnv, stretchEvents, List.replicate_succ]

/-- A wait that finds SCL low k times and then high. -/
theorem waitScl_ok (k : Nat) (s : State) (rest : List Bit) (xs : List Bool)
    (h : s.env.senses = stretchSenses k ++ rest) (hx : s.env.expiries = List.replicate k false ++ xs) :
    waitScl s = .ok () (s.afterWait s.sda .released rest xs (stretchEvents k)) := by
  have hb : k ≤ s.waitBound .stretch := by
    simp only [State.waitBound, Env.scripted, hx]; simp; omega
  simp only [waitScl, M.bind_run, M.get_run, waitSclLoop_ok k _ s rest xs h hx hb]

theorem waitSclLoop_expires (k left : Nat) (s : State) (rest : List Bit) (xs : List Bool)
    (h : s.env.senses = stuckSenses k ++ rest) (hx : s.env.expiries = List.replicate k false ++ true :: xs)
    (hl : k < left) :
    waitSclLoop left s =
      .error (.raised (.busStuck (.line .scl))) (s.afterWait s.sda .released rest xs (stuckEvents k)) := by
  induction k generalizing left s with
  | zero =>
    obtain ⟨left, rfl⟩ : ∃ l, left = l + 1 := ⟨left - 1, by omega⟩
    simp only [waitSclLoop, M.bind_run, releaseLine_scl_run s false rest h, Bool.false_eq_true, if_false]
    rw [drawExpired_next _ true xs (by simpa [State.afterLine] using hx)]
    simp [expireStretch, State.afterLine, State.afterWait, State.setEnv, State.emit, stuckEvents]
  | succ k ih =>
    obtain ⟨left, rfl⟩ : ∃ l, left = l + 1 := ⟨left - 1, by omega⟩
    rw [stuckSenses, List.replicate_succ, List.cons_append] at h
    rw [List.replicate_succ, List.cons_append] at hx
    simp only [waitSclLoop, M.bind_run, releaseLine_scl_run s false _ h, Bool.false_eq_true, if_false]
    rw [drawExpired_next _ false _ (by simpa [State.afterLine] using hx)]
    simp only [Bool.false_eq_true, if_false]
    rw [ih left _ rfl rfl (by omega)]
    simp [State.afterLine, State.afterWait, State.setEnv, List.replicate_succ, stuckEvents]

/-- A wait that expires after k + 1 polls. -/
theorem waitScl_expires (k : Nat) (s : State) (rest : List Bit) (xs : List Bool)
    (h : s.env.senses = stuckSenses k ++ rest) (hx : s.env.expiries = List.replicate k false ++ true :: xs) :
    waitScl s =
      .error (.raised (.busStuck (.line .scl))) (s.afterWait s.sda .released rest xs (stuckEvents k)) := by
  have hb : k < s.waitBound .stretch := by
    simp only [State.waitBound, Env.scripted, hx]; simp; omega
  simp only [waitScl, M.bind_run, M.get_run, waitSclLoop_expires k _ s rest xs h hx hb]

theorem waitSclLoop_outcome (left : Nat) (s : State) :
    (∃ k t, waitSclLoop left s = .ok () t ∧ t.trace = s.trace ++ stretchEvents k) ∨
    ∃ k t, waitSclLoop left s = .error (.raised (.busStuck (.line .scl))) t ∧ t.trace = s.trace ++ stuckEvents k := by
  induction left generalizing s with
  | zero =>
    obtain ⟨v, e, -, k⟩ := releaseLine_cases .scl s
    simp only [waitSclLoop, M.bind_run, k]
    cases v
    · right; refine ⟨0, _, rfl, ?_⟩
      simp [State.emit, State.setEnv, State.setLatch, stuckEvents, List.replicate_succ]
    · left; refine ⟨0, _, rfl, ?_⟩; simp [State.emit, State.setEnv, State.setLatch, stretchEvents, sclHigh]
  | succ left ih =>
    obtain ⟨v, e, -, k⟩ := releaseLine_cases .scl s
    simp only [waitSclLoop, M.bind_run, k]
    cases v
    · obtain ⟨b, u, hu, ht⟩ : ∃ b u, drawExpired ((State.setEnv (s.setLatch .scl .released) e).emit
          (.release .scl false)) = .ok b u ∧ u.trace = s.trace ++ [.release .scl false] := by
        rw [drawExpired_run]; split <;> exact ⟨_, _, rfl, rfl⟩
      rw [if_neg (by decide), M.bind_run, hu]
      cases b
      · simp only [Bool.false_eq_true, if_false]
        rcases ih u with ⟨n, t, h1, h2⟩ | ⟨n, t, h1, h2⟩
        · left; exact ⟨n + 1, t, h1, by rw [h2, ht]; simp [stretchEvents, List.replicate_succ]⟩
        · right; exact ⟨n + 1, t, h1, by rw [h2, ht]; simp [stuckEvents, List.replicate_succ]⟩
      · right; refine ⟨0, _, rfl, ?_⟩; simp [State.emit, ht, stuckEvents, List.replicate_succ]
    · left; refine ⟨0, _, rfl, ?_⟩; simp [State.emit, State.setEnv, State.setLatch, stretchEvents, sclHigh]

/-- In every environment the wait ends: with SCL high, or by its expiry. -/
theorem waitScl_outcome (s : State) :
    (∃ k t, waitScl s = .ok () t ∧ t.trace = s.trace ++ stretchEvents k) ∨
    ∃ k t, waitScl s = .error (.raised (.busStuck (.line .scl))) t ∧ t.trace = s.trace ++ stuckEvents k :=
  waitSclLoop_outcome (s.waitBound .stretch) s

/-! ## Recovery (R152) -/

theorem pulseScl_next (s : State) (v : Bit) (rest : List Bit) (h : s.env.senses = v :: rest) :
    pulseScl s = .ok () (s.afterLine s.sda .released rest [.drive .scl, .release .scl v]) := by
  simp only [pulseScl, M.bind_run, driveLine_scl]
  rw [releaseLine_scl_run _ v rest (by simpa using h)]
  simp

theorem pulses_next (ps : List Bit) (p : Bit) (s : State) (rest : List Bit) (h : s.env.senses = p :: ps ++ rest) :
    pulses (ps.length + 1) s = .ok () (s.afterLine s.sda .released rest
      ((p :: ps).flatMap fun p => [.drive .scl, .release .scl p])) := by
  induction ps generalizing p s with
  | nil => simp only [List.length_nil, pulses, M.bind_run, pulseScl_next s p rest h, M.pure_run]; rfl
  | cons q qs ih =>
    rw [List.length_cons, pulses]
    simp only [M.bind_run, pulseScl_next s p (q :: qs ++ rest) (by simpa using h)]
    rw [ih q _ rfl]
    simp [State.afterLine]

/-- Nine pulses and the release of SDA, whatever the pulses sense. -/
theorem round_run (s : State) (ps : List Bit) (v : Bit) (rest : List Bit) (hp : ps.length = 9)
    (h : s.env.senses = roundSenses ps v ++ rest) :
    (do
      pulses 9
      releaseLine .sda : M Bit) s = .ok v (s.afterLine .released .released rest (roundEvents ps v)) := by
  obtain ⟨q, qs, rfl⟩ : ∃ q qs, ps = q :: qs := by cases ps with | nil => cases hp | cons q qs => exact ⟨q, qs, rfl⟩
  have hq : qs.length + 1 = 9 := hp
  simp only [M.bind_run]
  rw [← hq, pulses_next qs q s (v :: rest) (by rw [h]; simp [roundSenses])]
  simp only
  rw [releaseLine_sda _ v rest rfl]
  simp [roundEvents]

theorem recoveryRounds_step (left n : Nat) (s : State) (ps : List Bit) (v : Bit) (rest : List Bit)
    (hp : ps.length = 9) (h : s.env.senses = roundSenses ps v ++ rest) :
    recoveryRounds (left + 1) n s =
      if v then .ok () (s.afterLine .released .released rest (roundEvents ps v))
      else if roundLimitReached s.params (n + 1) then
        .error (.raised (.busStuck (.line .sda))) (s.afterLine .released .released rest (roundEvents ps v))
      else recoveryRounds left (n + 1) (s.afterLine .released .released rest (roundEvents ps v)) := by
  have := round_run s ps v rest hp h
  rw [M.bind_run] at this
  rw [recoveryRounds]
  simp only [M.bind_run]
  cases e : pulses 9 s with
  | error st t => rw [e] at this; cases this
  | ok a t =>
    rw [e] at this
    simp only [] at this ⊢
    rw [this]
    cases v <;> simp only [Bool.false_eq_true, if_false, if_true, M.pure_run, M.bind_run, M.get_run, M.ite_run,
      raise_run]
    rfl

/-- Below the limit the recovery goes on (R152). -/
theorem roundLimitReached_below (p : Params) (n : Nat) (h : ∀ m, p.resetRoundLimit = some m → n < m) :
    roundLimitReached p n = false := by
  unfold roundLimitReached
  split
  · rfl
  · rename_i m hm; have := h m hm; simp; omega

/-- Rounds that find SDA low and reach no limit: the recovery goes on behind them. -/
theorem recoveryRounds_low (ps : List Bit) (low : List (List Bit)) (left n : Nat) (s : State) (rest : List Bit)
    (h9 : roundsOfNine (ps :: low)) (hlim : ∀ m, s.params.resetRoundLimit = some m → n + low.length + 1 < m)
    (h : s.env.senses = lowSenses (ps :: low) ++ rest) :
    recoveryRounds (left + low.length + 1) n s =
      recoveryRounds left (n + low.length + 1) (s.afterLine .released .released rest (lowEvents (ps :: low))) := by
  induction low generalizing ps n s with
  | nil =>
    rw [List.length_nil, Nat.add_zero, recoveryRounds_step _ n s ps false rest (h9 ps (by simp))
      (by rw [h]; simp [lowSenses]), roundLimitReached_below _ (n + 1) hlim]
    simp [lowEvents]
  | cons qs low ih =>
    rw [recoveryRounds_step _ n s ps false (lowSenses (qs :: low) ++ rest) (h9 ps (by simp))
      (by rw [h]; simp [lowSenses]),
      roundLimitReached_below _ _ fun m hm => by have := hlim m hm; omega]
    simp only [Bool.false_eq_true, if_false, List.length_cons]
    rw [← Nat.add_assoc, ih qs (n + 1) (s.afterLine .released .released _ _) (fun q hq => h9 q (by simp [hq]))
      (fun m hm => by have := hlim m hm; simp at this; omega) rfl]
    simp only [State.afterLine_afterLine, lowEvents, List.flatMap_cons]
    congr 1
    omega

/-- Rounds that find SDA low, then one that finds it high. -/
theorem recoveryRounds_ok (low : List (List Bit)) (high : List Bit) (left : Nat) (s : State) (rest : List Bit)
    (h9 : roundsOfNine low) (hh : high.length = 9) (hk : low.length < left)
    (hlim : ∀ m, s.params.resetRoundLimit = some m → low.length < max m 1)
    (h : s.env.senses = lowSenses low ++ roundSenses high true ++ rest) :
    recoveryRounds left 0 s =
      .ok () (s.afterLine .released .released rest (lowEvents low ++ roundEvents high true)) := by
  obtain ⟨f, rfl⟩ : ∃ f, left = f + 1 + low.length := ⟨left - low.length - 1, by omega⟩
  cases low with
  | nil => rw [List.length_nil, Nat.add_zero, recoveryRounds_step f _ _ high true rest hh h]; simp [lowEvents]
  | cons ps low =>
    rw [List.length_cons, ← Nat.add_assoc, recoveryRounds_low ps low _ 0 s (roundSenses high true ++ rest) h9
      (fun m hm => by have := hlim m hm; simp at this; omega) (by rw [h, List.append_assoc]),
      recoveryRounds_step f _ _ high true rest hh rfl]
    simp

/-- Rounds that find SDA low, the last of them at the limit. -/
theorem recoveryRounds_limit (low : List (List Bit)) (left m : Nat) (s : State) (rest : List Bit)
    (h9 : roundsOfNine low) (hk : low.length ≤ left) (hm : s.params.resetRoundLimit = some m)
    (hl : low.length = max m 1) (h : s.env.senses = lowSenses low ++ rest) :
    recoveryRounds left 0 s =
      .error (.raised (.busStuck (.line .sda))) (s.afterLine .released .released rest (lowEvents low)) := by
  obtain ⟨front, last, rfl⟩ : ∃ front last, low = front ++ [last] :=
    ⟨_, _, (List.dropLast_concat_getLast (by rintro rfl; simp at hl; omega)).symm⟩
  simp only [List.length_append, List.length_cons, List.length_nil, Nat.zero_add] at hk hl
  obtain ⟨f, rfl⟩ : ∃ f, left = f + 1 + front.length := ⟨left - front.length - 1, by omega⟩
  have h9l : last.length = 9 := h9 last (by simp)
  have hr : ∀ t : State, t.params = s.params → roundLimitReached t.params (front.length + 1) = true := by
    intro t ht; rw [ht]; simp [roundLimitReached, hm]; omega
  cases front with
  | nil =>
    rw [List.length_nil, Nat.add_zero, recoveryRounds_step f _ _ last false rest h9l (by rw [h]; simp [lowSenses])]
    have := hr s rfl
    simp only [List.length_nil, Nat.zero_add] at this
    simp [this, lowEvents]
  | cons ps front =>
    have e : lowSenses (ps :: front ++ [last]) = lowSenses (ps :: front) ++ roundSenses last false := by
      simp [lowSenses]
    rw [List.length_cons, ← Nat.add_assoc, recoveryRounds_low ps front _ 0 s (roundSenses last false ++ rest)
      (fun q hq => h9 q (by simp at hq ⊢; tauto))
      (fun k hk => by rw [hm] at hk; cases hk; simp at hl; omega) (by rw [h, e, List.append_assoc]),
      recoveryRounds_step f _ _ last false rest h9l rfl]
    have := hr (s.afterLine .released .released (roundSenses last false ++ rest) (lowEvents (ps :: front))) rfl
    simp only [List.length_cons] at this
    rw [Nat.zero_add, this]
    simp [lowEvents]

theorem lowSenses_length {low : List (List Bit)} (h : roundsOfNine low) : (lowSenses low).length = 10 * low.length := by
  induction low with
  | nil => rfl
  | cons ps low ih =>
    have h1 : ps.length = 9 := h ps (by simp)
    have h2 := ih fun q hq => h q (by simp [hq])
    rw [lowSenses, List.flatMap_cons, List.length_append, ← lowSenses, h2]
    simp [roundSenses, h1]; omega

theorem State.roundFuel_enough (s : State) (k : Nat) (hk : ∀ m, s.params.resetRoundLimit = some m → k < max m 1)
    (hs : k < s.env.senses.length) : k < s.roundFuel := by
  unfold State.roundFuel
  split
  · rename_i m hm; have := hk m hm; omega
  · simp [State.recoveryBound, Env.scripted]; omega

/-- The rounds of one recovery that gets SDA high, up to the wait of its STOP. -/
theorem recoverOnce_run (r : Recovery) (s : State) (h : r.Fits s.params) (rest : List Bit)
    (hs : s.env.senses = r.senses ++ rest) :
    recoverOnce s = waitScl (s.afterLine .driven .driven rest r.events) := by
  have h' : s.env.senses = r.first :: (lowSenses r.low ++ roundSenses r.high true ++ rest) := by
    rw [hs]; simp [Recovery.senses]
  simp only [recoverOnce, M.bind_run, releaseLine_sda s _ _ h', M.get_run]
  rw [recoveryRounds_ok r.low r.high _ (s.afterLine _ _ _ _) rest h.low h.high
    (State.roundFuel_enough (s.afterLine _ _ _ _) _ h.limit
      (by simp [lowSenses_length h.low, roundSenses]; omega)) h.limit rfl]
  simp [driveLine_scl, driveLine_sda, Recovery.events]

/-- The rounds of one recovery that the limit ends. -/
theorem recoverOnce_limit (m : Nat) (first : Bit) (low : List (List Bit)) (s : State) (h9 : roundsOfNine low)
    (hm : s.params.resetRoundLimit = some m) (hl : low.length = max m 1) (rest : List Bit)
    (hs : s.env.senses = first :: lowSenses low ++ rest) :
    recoverOnce s = .error (.raised (.busStuck (.line .sda)))
      (s.afterLine .released .released rest (.release .sda first :: lowEvents low)) := by
  have h' : s.env.senses = first :: (lowSenses low ++ rest) := hs
  simp only [recoverOnce, M.bind_run, releaseLine_sda s _ _ h', M.get_run]
  rw [recoveryRounds_limit low _ m (s.afterLine _ _ _ _) rest h9
    (by simp [State.roundFuel, State.afterLine, hm]; omega) hm hl rfl]
  simp

theorem State.afterWait_afterWait (s : State) (a b c d : Latch) (r q : List Bit) (x y : List Bool) (e f : List Event) :
    (s.afterWait a b r x e).afterWait c d q y f = s.afterWait c d q y (e ++ f) := by simp [State.afterWait]

/-- One recovery whose STOP waits and releases SDA, which decides. -/
theorem recover_step (left : Nat) (r : Recovery) (v : Bit) (s : State) (h : r.Fits s.params) (rest : List Bit)
    (xs : List Bool) (hs : s.env.senses = r.stopSenses v ++ rest) (hx : s.env.expiries = r.stopExpiries ++ xs) :
    recover (left + 1) s =
      if v then .ok () (s.afterWait .released .released rest xs (r.stopEvents v))
      else recover left (s.afterWait .released .released rest xs (r.stopEvents v)) := by
  have h' : s.env.senses = r.senses ++ (stretchSenses r.stretch ++ v :: rest) := by
    rw [hs]; simp [Recovery.stopSenses]
  rw [recover, M.bind_run, recoverOnce_run r s h _ h',
    waitScl_ok r.stretch (s.afterLine _ _ _ _) (v :: rest) xs rfl hx]
  simp only [M.bind_run]
  rw [releaseLine_sda _ v rest rfl]
  simp only [State.afterLine_afterWait, State.afterWait_afterLine, Recovery.stopEvents]
  cases v <;> rfl

/-- How a run of `reset()` that has used up its answers ends. -/
def endOfRun (stuck : Option Line) (t : State) : EStateM.Result Stop State Unit :=
  match stuck with
  | none => .ok () t
  | some l => .error (.raised (.busStuck (.line l))) t

theorem RecoveryRun.senses_pos {p : Params} {ss : List Bit} {xs : List Bool} {es : List Event} {stuck : Option Line}
    (h : RecoveryRun p ss xs es stuck) : 0 < ss.length := by
  cases h <;> simp [Recovery.stopSenses, Recovery.senses]

/-- Every run of `reset()` is what its recovery does, given the answers. -/
theorem recover_run {p : Params} {ss : List Bit} {xs : List Bool} {es : List Event} {stuck : Option Line}
    (h : RecoveryRun p ss xs es stuck) (left : Nat) (s : State) (hp : s.params = p) (rest : List Bit) (ys : List Bool)
    (hl : ss.length ≤ left) (hs : s.env.senses = ss ++ rest) (hx : s.env.expiries = xs ++ ys) :
    recover left s = endOfRun stuck (s.afterRecovery rest ys es stuck) := by
  have hpos := h.senses_pos
  obtain ⟨f, rfl⟩ : ∃ f, left = f + 1 := ⟨left - 1, by omega⟩
  induction h generalizing f s with
  | ends r h => rw [recover_step f r true s (hp ▸ h) rest ys hs hx]; rfl
  | again r h next ih =>
    rename_i ss' xs' es' stuck'
    rw [recover_step f r false s (hp ▸ h) (ss' ++ rest) (xs' ++ ys) (by rw [hs, List.append_assoc])
      (by rw [hx, List.append_assoc])]
    simp only [Bool.false_eq_true, if_false]
    have hn := next.senses_pos
    have hf : ss'.length + 1 ≤ f + 1 := by
      simp only [List.length_append, Recovery.stopSenses, List.length_cons, List.length_nil] at hl; omega
    obtain ⟨g, rfl⟩ : ∃ g, f = g + 1 := ⟨f - 1, by omega⟩
    rw [ih (s.afterWait .released .released (ss' ++ rest) (xs' ++ ys) (r.stopEvents false)) hp rfl rfl hn g (by omega)]
    simp [State.afterRecovery, State.afterWait_afterWait]
  | expires r h j =>
    rw [recover, M.bind_run, recoverOnce_run r s (hp ▸ h) (stuckSenses j ++ rest) (by rw [hs, List.append_assoc]),
      waitScl_expires j (s.afterLine _ _ _ _) rest ys rfl (by rw [← List.singleton_append, ← List.append_assoc]; exact hx)]
    simp only [endOfRun, State.afterRecovery, State.afterLine_afterWait, if_true]
    rfl
  | limit m hm first low h9 hl' =>
    subst hp
    rw [recover, M.bind_run, recoverOnce_limit m first low s h9 hm hl' rest hs]
    have hy : s.env.expiries = ys := by simpa using hx
    simp [endOfRun, State.afterRecovery, State.afterLine, State.afterWait, hy]

theorem resetBus_run {ss : List Bit} {xs : List Bool} {es : List Event} {stuck : Option Line} (s : State)
    (h : RecoveryRun s.params ss xs es stuck) (rest : List Bit) (ys : List Bool)
    (hs : s.env.senses = ss ++ rest) (hx : s.env.expiries = xs ++ ys) :
    resetBus s = endOfRun stuck (s.afterRecovery rest ys es stuck) := by
  have e : resetBus s = recover s.recoveryBound s := rfl
  rw [e, recover_run h _ s rfl rest ys (by simp [State.recoveryBound, Env.scripted, hs]; omega) hs hx]

/-! ## Recovery without an end (R294) -/

/-- The run that never ends. -/
def NeverEnds {α : Type} (x : EStateM.Result Stop State α) : Prop := ∃ t, x = .error (.stuck .recoveryNeverEnds) t

theorem pulses_spent (n : Nat) (s : State) (h : s.env.senses = []) : ∃ t, pulses n s = .ok () t ∧ t.env.senses = [] := by
  induction n generalizing s with
  | zero => exact ⟨s, rfl, h⟩
  | succ n ih =>
    obtain ⟨v, t, h1, h2⟩ := releaseLine_spent .scl (s.afterLine s.sda .driven s.env.senses [.drive .scl]) h
    obtain ⟨u, h3, h4⟩ := ih t h2
    exact ⟨u, by simp only [pulses, pulseScl, M.bind_run, driveLine_scl, h1, M.pure_run, h3], h4⟩

/-- Rounds that find SDA low for ever, without a limit. -/
theorem recoveryRounds_endless (low : List (List Bit)) (left n : Nat) (s : State) (h9 : roundsOfNine low)
    (hlim : s.params.resetRoundLimit = none) (hh : Line.sda ∈ s.env.held) (h : s.env.senses = lowSenses low) :
    NeverEnds (recoveryRounds left n s) := by
  have hr : ∀ (t : State) (k : Nat), t.params = s.params → roundLimitReached t.params k = false := by
    intro t k ht; rw [ht]; simp [roundLimitReached, hlim]
  induction left generalizing low n s with
  | zero => exact ⟨s, rfl⟩
  | succ left ih =>
    cases low with
    | cons ps low =>
      rw [recoveryRounds_step left n s ps false (lowSenses low) (h9 ps (by simp)) (by rw [h]; simp [lowSenses]),
        hr s (n + 1) rfl]
      simp only [Bool.false_eq_true, if_false]
      exact ih low (n + 1) (s.afterLine _ _ _ _) (fun q hq => h9 q (by simp [hq])) hlim hh rfl hr
    | nil =>
      obtain ⟨t, h1, h2⟩ := pulses_spent 9 s h
      have k := (pulses_keeps 9).of_ok h1
      have ht := releaseLine_held .sda t h2 (by rw [k.held]; exact hh)
      rw [recoveryRounds]
      simp only [M.bind_run, h1, ht, Bool.false_eq_true, if_false, M.get_run, M.ite_run]
      rw [hr ((t.setLatch .sda .released).emit (.release .sda false)) (n + 1) k.params]
      simp only [Bool.false_eq_true, if_false]
      exact ih [] (n + 1) _ (by simp [roundsOfNine]) (by simpa [State.setLatch, State.emit, k.params] using hlim)
        (by simpa [State.setLatch, State.emit, k.held] using hh) (by simpa [State.setLatch, State.emit, lowSenses] using h2)
        (fun u j hu => hr u j (hu.trans k.params))

/-- A recovery while another agent holds SDA low for ever, without a limit, never ends. -/
theorem recover_endless {p : Params} {ss : List Bit} {xs : List Bool} (h : StartOfEndless p ss xs) (left : Nat)
    (s : State) (hp : s.params = p) (hlim : p.resetRoundLimit = none) (hh : Line.sda ∈ s.env.held) (ys : List Bool)
    (hs : s.env.senses = ss) (hx : s.env.expiries = xs ++ ys) : NeverEnds (recover left s) := by
  have stop : ∀ (f : Nat) (t : State), NeverEnds (recoverOnce t) → NeverEnds (recover (f + 1) t) := by
    rintro f t ⟨u, hu⟩; exact ⟨u, by rw [recover, M.bind_run, hu]⟩
  induction h generalizing left s with
  | now =>
    cases left with
    | zero => exact ⟨s, by simp only [recover, M.bind_run, M.get_run, hp, hlim, Option.isNone_none, whenever_true, hang_run]⟩
    | succ f =>
      refine stop f s ?_
      obtain ⟨t, ht⟩ := recoveryRounds_endless [] ((s.setLatch .sda .released).emit (.release .sda false)).roundFuel 0
        ((s.setLatch .sda .released).emit (.release .sda false)) (by simp [roundsOfNine]) (hp ▸ hlim) hh hs
      exact ⟨t, by simp only [recoverOnce, M.bind_run, releaseLine_held .sda s hs hh, M.get_run, ht]⟩
  | rounds first low h9 =>
    cases left with
    | zero => exact ⟨s, by simp only [recover, M.bind_run, M.get_run, hp, hlim, Option.isNone_none, whenever_true, hang_run]⟩
    | succ f =>
      refine stop f s ?_
      obtain ⟨t, ht⟩ := recoveryRounds_endless low
        (s.afterLine .released s.scl (lowSenses low) [.release .sda first]).roundFuel 0
        (s.afterLine .released s.scl (lowSenses low) [.release .sda first]) h9 (hp ▸ hlim) hh rfl
      exact ⟨t, by simp only [recoverOnce, M.bind_run, releaseLine_sda s first _ hs, M.get_run, ht]⟩
  | again r h next ih =>
    rename_i ss' xs'
    cases left with
    | zero => exact ⟨s, by simp only [recover, M.bind_run, M.get_run, hp, hlim, Option.isNone_none, whenever_true, hang_run]⟩
    | succ f =>
      rw [recover_step f r false s (hp ▸ h) ss' (xs' ++ ys) hs (by rw [hx, List.append_assoc])]
      simp only [Bool.false_eq_true, if_false]
      exact ih f (s.afterWait _ _ _ _ _) hp hh rfl rfl

theorem resetBus_endless {ss : List Bit} {xs : List Bool} (s : State) (h : StartOfEndless s.params ss xs)
    (hlim : s.params.resetRoundLimit = none) (hh : Line.sda ∈ s.env.held) (ys : List Bool)
    (hs : s.env.senses = ss) (hx : s.env.expiries = xs ++ ys) : NeverEnds (resetBus s) :=
  recover_endless h s.recoveryBound s rfl hlim hh ys hs hx

/-! ## START and STOP -/

/-- A call whose operation never ends. -/
theorem conclude_asUnit_endless {x : M Unit} {s : State} (h : NeverEnds (x s)) :
    conclude (asUnit x s) = .fault .recoveryNeverEnds := by
  obtain ⟨t, h⟩ := h; simp [asUnit, h]

/-- A call that ends as a recovery does. -/
theorem conclude_asUnit_run {x : M Unit} {s t : State} {stuck : Option Line} (h : x s = endOfRun stuck t) :
    conclude (asUnit x s) = .next (t.endOn stuck) := by
  cases stuck <;> simp [asUnit, h, endOfRun, State.endOn]

/-- STOP where SDA reads low: the recovery follows the wait. -/
theorem stopCondition_low (j : Nat) (s : State) (rest : List Bit) (xs : List Bool)
    (hs : s.env.senses = stretchSenses j ++ false :: rest) (hx : s.env.expiries = List.replicate j false ++ xs) :
    stopCondition s =
      resetBus (s.afterWait .released .released rest xs (stretchEvents j ++ [.release .sda false])) := by
  simp only [stopCondition, M.bind_run, waitScl_ok j s _ xs hs hx]
  rw [releaseLine_sda _ false rest rfl]
  simp only [Bool.false_eq_true, if_false, State.afterWait_afterLine]
  rfl

/-- START where SDA reads low: the recovery comes first. -/
theorem startCondition_low (s : State) (rest : List Bit) (hs : s.env.senses = false :: rest) :
    startCondition s = (do
      resetBus
      waitScl
      driveLine .sda
      driveLine .scl : M Unit) (s.afterLine .released s.scl rest [.release .sda false]) := by
  simp only [startCondition, M.bind_run, releaseLine_sda s false _ hs, Bool.not_false, whenever_true]

/-- How `reset`, `start` and `stop` end in every environment. -/
theorem endsOrHangs_of {x : M Unit} {i : Instr} {s : State} {sda scl : Latch}
    (he : exec i s = conclude (asUnit x s)) (hk : Keeps LineFrame x) (hx : EndsEarly LinesStuck x)
    (hl : ∀ t, x s = .ok () t → t.sda = sda ∧ t.scl = scl) : EndsOrHangs i s sda scl := by
  cases h : x s with
  | ok a t => exact .inr ⟨t, hk.of_ok h, .inl ⟨he.trans (conclude_asUnit_ok h), hl t h⟩⟩
  | error stop t =>
    have hf := hk.of_error h
    have hp : t.params = s.params := hf.params
    rcases hx s stop t h with ⟨rfl, hc⟩ | ⟨rfl, hn⟩ | ⟨rfl, hn⟩
    · exact .inr ⟨t, hf, .inr (.inl ⟨he.trans (conclude_asUnit_raised h), hc⟩)⟩
    · exact .inr ⟨t, hf, .inr (.inr ⟨he.trans (conclude_asUnit_raised h), hp ▸ hn⟩)⟩
    · exact .inl ⟨he.trans (conclude_asUnit_endless ⟨t, h⟩), hp ▸ hn⟩

end Sys2Proof.Machine
end

