-- ==== Sys2Proof/Laws/Reference.lean ====
section
/-! SUPPORT. Transactions on the reference device (D34): what one write or read does, and a register access as its
transactions. -/

namespace Sys2Proof.Machine

theorem State.afterAccess_afterAccess (s : State) (a b : List Event) (d e : Device) :
    (s.afterAccess a d).afterAccess b e = s.afterAccess (a ++ b) e := by simp [State.afterAccess]

theorem State.afterAccess_self (s : State) : s.afterAccess [] s.device = s := by simp [State.afterAccess]

theorem State.OnReference.after {s : State} (h : s.OnReference) (es : List Event) (d : Device) :
    (s.afterAccess es d).OnReference := ⟨h.native, h.reference, h.wide⟩

/-- A write the device answers. -/
theorem transWrite_reference {s : State} (ho : s.OnReference) {a : Addr7} (ha : a = 0x4A ∨ a = 0x4B) (bytes : List Byte)
    (hf : s.maxWrite = 0 ∨ bytes.length ≤ s.maxWrite) :
    transWrite a bytes s = .ok () (s.afterAccess [.tWrite a bytes .ok] (s.device.receive s.params a bytes)) := by
  have h1 : fitsLimit s.maxWrite bytes.length = true := by simpa [fitsLimit] using hf
  have h2 : deviceAnswers a = true := decide_eq_true ha
  simp only [transWrite, M.bind_run, M.get_run, h1, require_true, ho.native, nativeWrite, answerWrite, ho.reference,
    h2, if_true, M.set_run, M.pure_run, emit_run]
  rfl

/-- A read the device answers. -/
theorem transRead_reference {s : State} (ho : s.OnReference) {a : Addr7} (ha : a = 0x4A ∨ a = 0x4B) (n : Nat)
    (hf : s.maxRead = 0 ∨ n ≤ s.maxRead) :
    transRead a n s = .ok (s.device.send s.params a n).1
      (s.afterAccess [.tRead a n (.ok (s.device.send s.params a n).1)] (s.device.send s.params a n).2) := by
  have h1 : fitsLimit s.maxRead n = true := by simpa [fitsLimit] using hf
  have h2 : deviceAnswers a = true := decide_eq_true ha
  simp only [transRead, M.bind_run, M.get_run, h1, require_true, ho.native, nativeRead, answerRead, ho.reference,
    h2, if_true, M.set_run, M.pure_run, emit_run]
  rfl

/-- An address the device does not answer. -/
theorem transWrite_unanswered {s : State} (ho : s.OnReference) {a : Addr7} (ha : ¬(a = 0x4A ∨ a = 0x4B))
    (bytes : List Byte) (hf : s.maxWrite = 0 ∨ bytes.length ≤ s.maxWrite) :
    transWrite a bytes s =
      .error (.raised (.noAck .backend)) (s.afterAccess [.tWrite a bytes (.failed .noAck)] s.device) := by
  have h1 : fitsLimit s.maxWrite bytes.length = true := by simpa [fitsLimit] using hf
  have h2 : deviceAnswers a = false := decide_eq_false ha
  simp only [transWrite, M.bind_run, M.get_run, h1, require_true, ho.native, nativeWrite, answerWrite, ho.reference,
    h2, Bool.false_eq_true, if_false, M.pure_run, emit_run]
  rfl

theorem transRead_unanswered {s : State} (ho : s.OnReference) {a : Addr7} (ha : ¬(a = 0x4A ∨ a = 0x4B)) (n : Nat)
    (hf : s.maxRead = 0 ∨ n ≤ s.maxRead) :
    transRead a n s =
      .error (.raised (.noAck .backend)) (s.afterAccess [.tRead a n (.failed .noAck)] s.device) := by
  have h1 : fitsLimit s.maxRead n = true := by simpa [fitsLimit] using hf
  have h2 : deviceAnswers a = false := decide_eq_false ha
  simp only [transRead, M.bind_run, M.get_run, h1, require_true, ho.native, nativeRead, answerRead, ho.reference,
    h2, Bool.false_eq_true, if_false, M.pure_run, emit_run]
  rfl

end Sys2Proof.Machine
end

