-- ==== Sys2Proof/Tests/Slice0.lean ====
section
/-! SUPPORT. Tests: ill-formed operands refused, every row decoded from a word written out from the spec, the spec's own
vectors (spec/95_test_vectors.md, by their names there), and states that meet the hypotheses of the statements. -/

namespace Sys2Proof.Tests

open Sys2Proof Sys2Proof.Machine

-- One theorem after the other: the elaborator's threads would not fit the memory limit of the check.
set_option Elab.async false

/-! ## Small states -/

/-- The vectors' parameters (95_test_vectors section 0), with 256 flash bytes. -/
def params : Params where
  masterRxAck := true
  resetRoundLimit := none
  z6 := .exactlyOne
  lastFlashAddr := 0xFF
  ctWrenWrsr := 1
  ctErase := 2
  ctRead := 3
  opWrsr := 0x01
  opErase := 0xC7
  opRead := 0x03
  sizeEnc := Vector.ofFn fun i => BitVec.ofNat 8 i.val

/-- The machine in a session state. -/
def inSession (v : Session) : State := { State.reset with session := v, params := params }

/-- On the software bus with line answers. -/
def onBus (senses : List Bit) : State :=
  { inSession .initialized with env := { Env.initial with senses := senses } }

/-- On a native transport with the answers of a script. -/
def onScript (v : Session) (script : List Act) : State :=
  { inSession v with
    backend := .native
    env := { Env.initial with writes := writesOf script, reads := readsOf script, expiries := expiriesOf script } }

/-- On the reference device. -/
def onDevice (v : Session) (d : Device) : State :=
  { inSession v with backend := .native, env := { Env.initial with mode := .reference }, device := d }

def resultOf (o : Host.Outcome State Fault Refusal) : Option Result :=
  match o with
  | .next t => t.result
  | .fault _ => none
  | .refused _ => none

def traceOf (o : Host.Outcome State Fault Refusal) : List Event :=
  match o with
  | .next t => t.trace
  | .fault _ => []
  | .refused _ => []

def refusalOf (o : Host.Outcome State Fault Refusal) : Option Refusal :=
  match o with
  | .next _ => none
  | .fault _ => none
  | .refused r => some r

def deviceOf (o : Host.Outcome State Fault Refusal) : Option Device :=
  match o with
  | .next t => some t.device
  | .fault _ => none
  | .refused _ => none

/-- A GFF file with a zero header and this payload. -/
def file (payload : List Byte) : List Byte := gffFile (List.replicate 244 0) payload

/-! ## Well-formedness: one ill-formed term for each check -/

theorem test_illFormed_streams :
    (Instr.bsReadBit { buf := [0xA0], idx := 2, mask := 0x80 }).wellFormed = false ∧
    (Instr.bsReadBit { buf := [0xA0], idx := 0, mask := 0x81 }).wellFormed = false ∧
    (Instr.decodeNibble { buf := [], idx := 0, mask := 0x00 }).wellFormed = false ∧
    (Instr.bsReadBit { buf := [0xA0], idx := 2, mask := 0x80 }).representable = false ∧
    (Instr.decodeNibble { buf := [], idx := 0, mask := 0x00 }).representable = false := by decide +kernel

theorem test_illFormed_transactions :
    (Instr.busWrite 128 []).wellFormed = false ∧ (Instr.busRead 128 1).wellFormed = false ∧
    (Instr.regWrite 0x64 [] true).wellFormed = false ∧ (Instr.regRead 0x67 0 true).wellFormed = false ∧
    (Instr.regw .plain 0x64 []).wellFormed = false ∧ (Instr.regr 0x67 0 true).wellFormed = false := by decide +kernel

theorem test_illFormed_instructions :
    (Instr.customInstruction 8 0 0 0 0).wellFormed = false ∧ (Instr.customInstruction 0 0 4 0 0).wellFormed = false ∧
    (Instr.customInstruction 0 0 0 4 0).wellFormed = false ∧ (Instr.customInstruction 1 1 0 1 0x100).wellFormed = false ∧
    (Instr.opnd (.write 1 0x100)).wellFormed = false ∧ (Instr.opnd (.write 0 0x100)).wellFormed = true ∧
    (Instr.deviceCrc 5 4).wellFormed = false ∧ (Instr.deviceCrc 0 0x1000000).wellFormed = false := by decide +kernel

theorem test_illFormed_flash :
    (Instr.program []).wellFormed = false ∧ (Instr.flashRead 0).wellFormed = false ∧
    (Instr.flashRead 0x1000001).wellFormed = false := by decide +kernel

theorem test_illFormed_longImage (img : List Byte) (h : 0x1000000 < img.length) :
    (Instr.program img).wellFormed = false := by
  simp only [Instr.wellFormed, Bool.and_eq_false_iff, decide_eq_false_iff_not]; omega

/-! ## Decoding: every row from its own word (assumption log 2 for the row number and the operands' form) -/

theorem test_decode_gff :
    decode [0, 1, 0xA0, 0, 0x80] = .call (.bsReadBit { buf := [0xA0], idx := 0, mask := 0x80 }) [] ∧
    decode [1, 0, 0, 0x01] = .call (.decodeNibble { buf := [], idx := 0, mask := 0x01 }) [] ∧
    decode [2, 2, 0x47, 0x4D] = .call (.checkHeader [0x47, 0x4D]) [] ∧
    decode [3, 0] = .call (.decode []) [] ∧
    decode [4, 1, 0x0A, 9] = .call (.computeDecodedSize [0x0A]) [9] := by decide +kernel

theorem test_decode_bus :
    decode [5, 1] = .call (.drive .scl) [] ∧ decode [6, 0] = .call (.release .sda) [] ∧
    decode [7] = .call .waitScl [] ∧ decode [8] = .call .busReset [] ∧ decode [9] = .call .pulseScl [] ∧
    decode [10] = .call .start [] ∧ decode [11] = .call .stop [] ∧ decode [12, 1] = .call (.writeBit true) [] ∧
    decode [13] = .call .readBit [] ∧ decode [14, 0x94] = .call (.writeByte 0x94) [] ∧
    decode [15] = .call .readByte [] ∧
    decode [16, 0x4A, 2, 0x6F, 0x80] = .call (.busWrite 0x4A [0x6F, 0x80]) [] ∧
    decode [17, 0x4A, 1] = .call (.busRead 0x4A 1) [] := by decide +kernel

theorem test_decode_transport :
    decode [18, 0x4B, 2, 0x64, 0x01] = .call (.tWrite 0x4B [0x64, 0x01]) [] ∧
    decode [19, 0x4A, 1] = .call (.tRead 0x4A 1) [] ∧ decode [20, 1, 7, 0] = .call (.init [7] []) [] ∧
    decode [21] = .call .deinit [] ∧ decode [22] = .call .listDevices [] ∧
    decode [23, 0x4A] = .call (.detect 0x4A) [] := by decide +kernel

theorem test_decode_engine :
    decode [24, 0x64, 3, 1, 2, 3, 1] = .call (.regWrite 0x64 [1, 2, 3] true) [] ∧
    decode [25, 0x67, 3, 1] = .call (.regRead 0x67 3 true) [] ∧ decode [26] = .call .enterIsp [] ∧
    decode [27] = .call .exitIsp [] ∧
    decode [28, 5, 0x9F, 2, 0, 0] = .call (.customInstruction 5 0x9F 2 0 0) [] ∧
    decode [29, 0, 0x7F] = .call (.deviceCrc 0 0x7F) [] ∧ decode [30, 2, 0xAB, 0xCD] = .call (.hostCrc [0xAB, 0xCD]) [] ∧
    decode [31, 1, 0x6F, 1, 0x40, 3, 0, 3] =
      .call (.poll .busy 0x6F (.allClear 0x40) .busy (.busStuck (.site .busy))) [] ∧
    decode [32] = .call .erase [] ∧ decode [33, 1, 0x12] = .call (.program [0x12]) [] ∧
    decode [34, 0xC8, 0x01] = .call (.flashRead 200) [] := by decide +kernel

theorem test_decode_wire :
    decode [35, 0x94] = .call (.addrW 0x4A) [] ∧ decode [36, 0xFF] = .call (.addrR 0x7F) [] ∧
    decode [37, 0x94] = .call .ispAddrWrite [] ∧ decode [38, 0x95] = .call .ispAddrRead [] ∧
    decode [39, 0x96] = .call .ispAddrAiWrite [] ∧ decode [40, 0x97] = .call .ispAddrAiRead [] ∧
    decode [41, 0x00] = .call .ack [] ∧ decode [42, 0x01] = .call .nack [] ∧
    decode [43, 0x3F] = .call (.ctrl 1 3 3) [] ∧ decode [43, 0xA5] = .call (.ctrl 5 0 2) [] := by decide +kernel

theorem test_decode_registers :
    decode [44, 0x80] = .call .cmdEnterIsp [] ∧ decode [45, 0x84] = .call .cmdCrc [] ∧
    decode [46, 0xA0] = .call .cmdPageWrite [] ∧ decode [47, 0x80] = .call .statIsp [] ∧
    decode [48, 0x40] = .call .statBusy [] ∧ decode [49, 0x02] = .call .statCrcReady [] ∧
    decode [50, 0x01] = .call .ciPending [] ∧ decode [51, 0x02] = .call .reboot [] ∧
    decode [52, 0x64, 0x00, 0x01, 0x80] = .call (.a24 .target 0x000180) [] ∧
    decode [53, 0, 1, 0x1C] = .call (.opnd (.write 1 0x1C)) [] ∧ decode [53, 1, 2] = .call (.opnd (.read 2)) [] ∧
    decode [54, 0x7F] = .call (.size 127) [] ∧
    decode [55, 0x96, 0x70, 2, 5, 6] = .call (.regw .autoinc 0x70 [5, 6]) [] ∧
    decode [56, 0x6F, 1, 0] = .call (.regr 0x6F 1 false) [] ∧
    decode [57, 1, 0x47] = .call (.gffHeader [0x47]) [] := by decide +kernel

theorem test_decode_codewords :
    decode [58, 0b1] = .call .nib0 [] ∧ decode [59, 0b011] = .call .nibF [] ∧ decode [60, 0b010] = .call .nib1 [] ∧
    decode [61, 0b0011] = .call .nib8 [] ∧ decode [62, 0b0010] = .call .nib2 [] ∧
    decode [63, 0b00011] = .call .nib7 [] ∧ decode [64, 0b00010] = .call .nibC [] ∧
    decode [65, 0b0000111] = .call .nib9 [] ∧ decode [66, 0b0000110] = .call .nib4 [] ∧
    decode [67, 0b00001011] = .call .nib5 [] ∧ decode [68, 0b00001010] = .call .nibA [] ∧
    decode [69, 0b00001001] = .call .nibB [] ∧ decode [70, 0b00001000] = .call .nib3 [] ∧
    decode [71, 0b00000111] = .call .nibD [] ∧ decode [72, 0b00000110] = .call .nibE [] ∧
    decode [73, 0b00000101] = .call .nib6 [] ∧ decode [74, 0b00000100] = .call .nibError [] ∧
    decode [75, 0b000000] = .call .nibZ6 [] ∧ decode [76] = .call .nibEndExhausted [] ∧
    decode [77, 0xAB] = .call (.pair 0xA 0xB) [] := by decide +kernel

theorem test_decode_refuses :
    decode [] = .rejected .emptyCall ∧ decode [78] = .rejected (.unknownRow 78) ∧ decode [14] = .rejected .truncated ∧
    decode [35, 0x95] = .rejected .wrongFixedBits ∧ decode [43, 0x28] = .rejected .wrongFixedBits ∧
    decode [5, 2] = .rejected .badOperand ∧ decode [0, 1, 0xA0, 0, 0x81] = .rejected .badOperand ∧
    decode [0xFF, 9, 0x00] = .rejected .noTableRow := by decide +kernel

/-! ## The spec's vectors: GFF and CRC -/

theorem test_S1_decode : resultOf (exec (.decode (file [0x0A, 0x09, 0x10, 0x38])) State.reset) =
    some (.ok (.bytes [0xAB, 0xCD])) := by decide +kernel

theorem test_S1_size : resultOf (exec (.computeDecodedSize (file [0x0A, 0x09, 0x10, 0x38])) State.reset) =
    some (.ok (.nat 2)) := by decide +kernel

theorem test_VGFF12_padding :
    resultOf (exec (.decode (file [0xC0])) (inSession .closed)) = some (.err .decodeError) ∧
    resultOf (exec (.decode (file [0x84, 0x00])) (inSession .closed)) = some (.ok (.bytes [0x03])) := by decide +kernel

theorem test_VGFF32_signature : resultOf (exec (.checkHeader (0x48 :: (file []).drop 1)) State.reset) =
    some (.err .signatureMismatch) := by decide +kernel

theorem test_VGFF31_short : resultOf (exec (.gffHeader (gffSignature.take 11)) State.reset) = some (.err .tooSmall) := by
  decide +kernel

theorem test_bitReader :
    resultOf (exec (.bsReadBit { buf := [0xA0], idx := 0, mask := 0x40 }) State.reset) =
      some (.ok (.optBit (some false))) ∧
    remaining { buf := [0, 0], idx := 0, mask := 0x02 } = 10 := by decide +kernel

theorem test_nibbles :
    resultOf (exec (.decodeNibble { buf := [0x0A], idx := 0, mask := 0x80 }) State.reset) =
      some (.ok (.nibble (.nib 0xA))) ∧
    resultOf (exec (.decodeNibble { buf := [0x00], idx := 0, mask := 0x20 }) (inSession .closed)) =
      some (.ok (.nibble .error)) ∧
    resultOf (exec (.decodeNibble { buf := [0x01], idx := 0, mask := 0x10 }) State.reset) =
      some (.ok (.nibble .trunc)) := by decide +kernel

theorem test_codewordRow :
    resultOf (exec .nibC { inSession .closed with stream := openStream [0x10] }) =
      some (.ok (.codeword (some (.nib 0xC)))) ∧
    resultOf (exec .nib7 { inSession .closed with stream := openStream [0x10] }) = some (.ok (.codeword none)) := by
  decide +kernel

theorem test_pair : resultOf (exec (.pair 0xA 0xB) State.reset) = some (.ok (.byte 0xAB)) := by decide +kernel

theorem test_VCRC :
    hostCrc [] = 0x00 ∧ hostCrc [0x80] = 0x89 ∧ hostCrc [0xFF, 0xFF, 0xFF] = 0x0F ∧ hostCrc [0x6F, 0x80] = 0xBF ∧
    crcFrom 0xF1 [0x56] = 0x7C := by decide +kernel

theorem test_S5_hostCrc : resultOf (exec (.hostCrc [0x12, 0x34, 0x56]) State.reset) = some (.ok (.byte 0x7C)) := by decide +kernel

/-! ## The spec's vectors: the bus -/

theorem test_VI2C1_start : traceOf (exec .start (onBus [true, true])) =
    [.release .sda true, .release .scl true, .drive .sda, .drive .scl] := by decide +kernel

theorem test_VI2C2_stop : traceOf (exec .stop (onBus [true, true])) = [.release .scl true, .release .sda true] := by decide +kernel

theorem test_VI2C7_readBit : traceOf (exec .readBit (onBus [true, true, false])) =
    [.release .sda true, .release .scl true, .release .sda false, .drive .scl, .drive .sda] := by decide +kernel

theorem test_VI2C17_stretched : traceOf (exec (.writeBit false)
      { onBus [false, false, true] with env := { Env.initial with
        senses := [false, false, true], expiries := [false, false] } }) =
    [.drive .sda, .release .scl false, .release .scl false, .release .scl true, .drive .scl, .drive .sda] := by decide +kernel

theorem test_VI2C18_stuck : traceOf (exec (.busWrite 0x4A [1])
      { onBus [] with env := { Env.initial with senses := [true, false], expiries := [true] } }) =
    [.release .sda true, .release .scl false, .expired .stretch] := by decide +kernel

theorem test_VI2C8_readByte : resultOf (exec .readByte (onBus
      (recvSenses (fun _ => true) 0 [true, false, true, false, true, false, true, true]))) = some (.ok (.byte 0xAB)) := by
  decide +kernel

/-- What nine undisturbed pulses sense. -/
def nine : List Bit := List.replicate 9 true

theorem test_VI2C15_reset : (traceOf (exec .busReset (onBus (true :: List.replicate 9 true ++ [true, true, true])))).length = 24 := by decide +kernel

theorem test_VI2C20_limit : resultOf (exec .busReset
      { onBus (false :: lowSenses [nine, nine]) with params := { params with resetRoundLimit := some 2 } }) =
    some (.err (.busStuck (.line .sda))) := by decide +kernel

theorem test_VI2C5_write : (traceOf (exec (.busWrite 0x4A [0x6F, 0x80]) (onBus (bothHigh ++
      byteSenses (fun _ => true) 0 0x94 false ++ bytesSenses (fun _ => true) 9 [0x6F, 0x80] ++ bothHigh)))).length =
    117 := by decide +kernel

theorem test_VI2C13_nack : resultOf (exec (.busWrite 0x4A [1, 2]) (onBus (bothHigh ++
      byteSenses (fun _ => true) 0 0x94 false ++ byteSenses (fun _ => true) 9 1 true ++ bothHigh))) =
    some (.err (.noAck (.data 0))) := by decide +kernel

theorem test_VI2C9_read : resultOf (exec (.busRead 0x4B 2) (onBus (bothHigh ++
      byteSenses (fun _ => true) 0 0x97 false ++ dataSenses true (fun _ => true) 9 [0xAB, 0xCD] ++ bothHigh))) =
    some (.ok (.bytes [0xAB, 0xCD])) := by decide +kernel

theorem test_VI2C21_address : refusalOf (exec (.busWrite 0x80 [0]) (onBus [])) = some .addressRange := by decide +kernel

/-! ## The spec's vectors: registers, the engine and the flash -/

theorem test_VISP4_chunks : traceOf (exec (.regWrite 0x64 [1, 2, 3] true)
      { onDevice .ispActive Device.initial with maxWrite := 2 }) =
    [.tWrite 0x4B [0x64, 1] .ok, .tWrite 0x4B [0x65, 2] .ok, .tWrite 0x4B [0x66, 3] .ok] := by decide +kernel

theorem test_VISP3_read : traceOf (exec (.regRead 0x67 3 true)
      { onDevice .ispActive Device.initial with maxRead := 2 }) =
    [.tWrite 0x4A [0x67] .ok, .tRead 0x4B 2 (.ok [0, 0]), .tWrite 0x4A [0x69] .ok, .tRead 0x4B 1 (.ok [0])] := by decide +kernel

theorem test_S2_enterIsp : resultOf (exec .enterIsp (onScript .initialized
      [.saw (.tWrite 0x4A [0x6F, 0x80] (.failed .noAck)), .saw (.tWrite 0x4A [0x6F] (.failed .noAck))])) =
    some (.err .enterIspFailed) := by decide +kernel

theorem test_VISP9_enterIsp : resultOf (exec .enterIsp (onScript .initialized
      [.saw (.tWrite 0x4A [0x6F, 0x80] (.failed .noAck)), .saw (.tWrite 0x4A [0x6F] .ok),
        .saw (.tRead 0x4A 1 (.ok [0x80]))])) = some (.ok .unit) := by decide +kernel

theorem test_VISP10_exitIsp : resultOf (exec .exitIsp (onScript .ispActive
      [.saw (.tWrite 0x4A [0xEE, 0x02] (.failed .noAck))])) = some (.ok .unit) := by decide +kernel

theorem test_VISP12_result : resultOf (exec (.customInstruction 5 0x9F 2 0 0)
      (onDevice .ispActive { Device.initial with regs := [(0x67, 0xC2), (0x68, 0x20)] })) =
    some (.ok (.optNat (some 0xC220))) := by decide +kernel

theorem test_VISP13_timeout : resultOf (exec (.customInstruction 1 1 0 0 0) (onScript .ispActive
      (commandScript 0 1 1 0 0 0 ++ expiryScript .ci 0x60 ⟨[0x29], 0x29⟩))) =
    some (.err .customInstructionTimeout) := by decide +kernel

theorem test_VISP15_deviceCrc : resultOf (exec (.deviceCrc 5 5)
      (onDevice .ispActive { Device.initial with flash := [(5, 0x80)] })) = some (.ok (.byte 0x89)) := by decide +kernel

theorem test_VISP20_detect :
    resultOf (exec (.detect 0x33) (onDevice .initialized Device.initial)) = some (.ok (.bool false)) ∧
    resultOf (exec (.detect 0x4A) (onDevice .initialized Device.initial)) = some (.ok (.bool true)) := by decide +kernel

theorem test_refusals :
    refusalOf (exec (.regWrite 0x64 [] true) (onDevice .ispActive Device.initial)) = some .emptyPayload ∧
    refusalOf (exec (.deviceCrc 5 4) (onDevice .ispActive Device.initial)) = some .crcRange ∧
    refusalOf (exec (.customInstruction 1 1 0 1 0x100) (onDevice .ispActive Device.initial)) = some .operandRange ∧
    refusalOf (exec (.flashRead 257) (onDevice .ispActive Device.initial)) = some .readSize ∧
    refusalOf (exec .enterIsp State.reset) = some .sessionState := by decide +kernel

theorem test_VFL1_erase : (traceOf (exec .erase
      (onDevice .ispActive { Device.initial with flash := [(0, 0), (7, 1)] }))).length = 14 ∧
    (deviceOf (exec .erase (onDevice .ispActive { Device.initial with flash := [(0, 0), (7, 1)] }))).map
      (fun d => (d.flash, d.protection)) = some ([], 0x1C) := by decide +kernel

/-- The device's flash holds the image (the program of P3, without its chunk sizes). -/
theorem test_P3_program : (deviceOf (exec (.program [0x12, 0x34, 0x56]) (onDevice .ispActive Device.initial))).map
      (fun d => d.flash) = some [(0, 0x12), (1, 0x34), (2, 0x56)] := by decide +kernel

theorem test_P3_read : resultOf (exec (.flashRead 3)
      (onDevice .ispActive { Device.initial with flash := [(0, 0x12), (1, 0x34), (2, 0x56)] })) =
    some (.ok (.bytes [0x12, 0x34, 0x56])) := by decide +kernel

/-- P5: a blank page over flash that is not erased. -/
theorem test_P5_stale : resultOf (exec (.program [0xFF])
      (onDevice .ispActive { Device.initial with flash := [(0, 0)] })) = some (.err .verificationFailed) := by
  decide +kernel

theorem test_rows :
    traceOf (exec (.ctrl 2 1 0) (onDevice .initialized Device.initial)) = [.tWrite 0x4A [0x60, 0x49] .ok] ∧
    traceOf (exec (.a24 .crcEnd 0x000180) (onDevice .initialized Device.initial)) =
      [.tWrite 0x4B [0x72, 0x00, 0x01, 0x80] .ok] ∧
    traceOf (exec (.size 1) (onDevice .initialized Device.initial)) = [.tWrite 0x4A [0x71, 0x01] .ok] ∧
    traceOf (exec (.opnd (.write 0 0x55)) (onDevice .initialized Device.initial)) = [] := by decide +kernel

theorem test_status :
    resultOf (exec .statBusy (onDevice .initialized { Device.initial with ispMode := true, crcReady := true })) =
      some (.ok (.bool false)) ∧
    resultOf (exec .statCrcReady (onDevice .initialized { Device.initial with crcReady := true })) =
      some (.ok (.bool true)) := by decide +kernel

theorem test_step : (match step { State.reset with calls := [41, 0x00] } with
    | .refused .sessionState => true
    | _ => false) = true := by decide +kernel

/-! ## Witnesses: concrete states and operands that meet the hypotheses of the statements -/

/-- Any script is answered from such a state; so the witnesses below of statements over scripts give the scripts' own
hypotheses. -/
theorem test_onScript (v : Session) (script : List Act) :
    (onScript v script).OnOracle ∧ (onScript v script).Answers script [] [] [] :=
  ⟨⟨rfl, rfl, Nat.zero_ne_one⟩, ⟨(List.append_nil _).symm, (List.append_nil _).symm, (List.append_nil _).symm⟩⟩

theorem test_onDevice (v : Session) (d : Device) :
    (onDevice v d).OnReference ∧ (onDevice v d).DistinctInstructions :=
  ⟨⟨rfl, rfl, Nat.zero_ne_one⟩, ⟨by simp [onDevice, inSession, params], by simp [onDevice, inSession, params],
    by simp [onDevice, inSession, params]⟩⟩

theorem test_witness_DecodeEncode :
    (Instr.decodeNibble { buf := [0xA0], idx := 1, mask := 0x80 }).representable = true := by decide

theorem test_witness_StepRunsDecodedCall :
    decode { State.reset with calls := [41, 0x00, 9] }.calls = .call .ack [9] ∧ State.reset.calls = [] ∧
    { State.reset with calls := [78] }.calls ≠ [] ∧
    decode { State.reset with calls := [78] }.calls = .rejected (.unknownRow 78) := by decide +kernel

theorem test_witness_BigEndianBytes : 255 < 2 ^ (8 * 1) ∧ 0 < 2 ^ (8 * 0) ∧ 0 < 1 := by decide

/-- A call that ends: a page-write command to the reference device. -/
def running : State := { onDevice .initialized { Device.initial with buffer := [0x12] } with calls := [46, 0xA0] }

theorem test_witness_StepKeepsInv : running.Inv ∧ ∃ t, step running = .next t :=
  ⟨⟨by decide +kernel, by decide, nofun⟩, _, rfl⟩

theorem test_witness_ExecKeepsConstants : ∃ t, exec .cmdPageWrite running = .next t := ⟨_, rfl⟩

theorem test_witness_SessionTable :
    inSessionTable .enterIsp = true ∧ sessionGate .enterIsp (inSession .closed).session = false ∧
    (∃ t, exec (.hostCrc []) (inSession .closed) = .next t) ∧
    ∃ t, exec .exitIsp (onDevice .ispActive Device.initial) = .next t := ⟨rfl, rfl, ⟨_, rfl⟩, ⟨_, rfl⟩⟩

theorem test_witness_UnlistedSessions :
    inSessionTable .ack = false ∧ sessionGate .ack (inSession .closed).session = false ∧
    inSessionTable (.pair 1 2) = false ∧ ∃ t, exec (.pair 1 2) (inSession .closed) = .next t := ⟨rfl, rfl, rfl, ⟨_, rfl⟩⟩

theorem test_witness_OperationRefusals :
    (Instr.flashRead 0).row < 35 ∧ inSessionTable (.flashRead 0) = true ∧
    exec (.flashRead 0) (onDevice .ispActive Device.initial) = .refused .readSize ∧
    (Instr.tRead 0x4A 3).row < 35 ∧ (onDevice .initialized Device.initial).session ≠ .closed ∧
    exec (.tRead 0x4A 3) { onDevice .initialized Device.initial with maxRead := 2 } = .refused .tooLong := by
  refine ⟨by decide, rfl, rfl, by decide, by decide, rfl⟩

theorem test_witness_RowRefusals :
    35 ≤ (Instr.addrW 0x4A).row ∧ exec (.addrW 0x4A) (inSession .closed) = .refused .sessionState ∧
    exec (.regw .plain 0x64 []) (onDevice .initialized Device.initial) = .refused .emptyPayload := by
  refine ⟨by decide, rfl, rfl⟩

/-- A write that is not acknowledged. -/
def lost (a : Addr7) (bytes : List Byte) : List Act := [.saw (.tWrite a bytes (.failed .noAck))]

theorem test_witness_ErrorKinds :
    resultOf (exec .enterIsp (onScript .initialized (lost 0x4A [] ++ lost 0x4A []))) = some (.err .enterIspFailed) ∧
    resultOf (exec (.regWrite 0x64 [1] false) (onScript .initialized (lost 0x4A []))) = some (.err (.noAck .backend)) ∧
    resultOf (exec (.regRead 0x67 1 false) (onScript .initialized (lost 0x4A []))) = some (.err (.noAck .backend)) ∧
    resultOf (exec (.customInstruction 1 1 0 0 0) (onScript .ispActive (lost 0x4A []))) =
      some (.err (.noAck .backend)) ∧
    resultOf (exec (.deviceCrc 0 0) (onScript .ispActive (lost 0x4A []))) = some (.err (.noAck .backend)) ∧
    resultOf (exec .erase (onScript .ispActive (lost 0x4A []))) = some (.err (.noAck .backend)) ∧
    resultOf (exec (.program [1]) (onScript .ispActive (lost 0x4A []))) = some (.err (.noAck .backend)) ∧
    resultOf (exec (.flashRead 1) (onScript .ispActive (lost 0x4A []))) = some (.err (.noAck .backend)) ∧
    resultOf (exec (.decode []) (inSession .closed)) = some (.err .tooSmall) ∧
    resultOf (exec (.checkHeader []) (inSession .closed)) = some (.err .tooSmall) := by decide +kernel

/-- A stream on these bytes. -/
def bits (payload : List Byte) : BitStream := openStream payload

theorem test_witness_RemainingBits :
    { buf := [0xA0], idx := 0, mask := 0x01 : BitStream }.valid = true ∧ (bits []).valid = true := by decide +kernel

theorem test_witness_BsReadBit :
    (bits []).buf.length ≤ (bits []).idx ∧ (bits []).valid = true ∧
    { buf := [0xA0], idx := 0, mask := 0x01 : BitStream }.buf[0]? = some 0xA0 := by decide +kernel

theorem test_witness_DecodeNibble :
    unread (bits [0x0A]) = nibbleCode 0xA ++ [] ∧ unread (bits [0x80]) = nibbleCode 0x0 ++ List.replicate 7 false ∧
    unread (bits [0x04]) = errorCode ++ [] ∧ unread (bits [0x00]) = z6Code ++ [false, false] ∧
    unread (bits []) = List.replicate 0 false ∧
    unread { buf := [0xA0], idx := 0, mask := 0x10 } = List.replicate 5 false := by decide +kernel

theorem test_witness_DecodeNibble_truncated :
    (∀ v, ¬ nibbleCode v <+: unread { buf := [0x01], idx := 0, mask := 0x10 }) ∧
    ¬ errorCode <+: unread { buf := [0x01], idx := 0, mask := 0x10 } ∧
    ¬ z6Code <+: unread { buf := [0x01], idx := 0, mask := 0x10 } ∧
    ∀ k, k ≤ 5 → unread { buf := [0x01], idx := 0, mask := 0x10 } ≠ List.replicate k false := by decide +kernel

theorem test_witness_CodewordRows :
    (inSession .closed).stream.valid = true ∧ ¬ nibbleCode 0xA <+: unread (inSession .closed).stream ∧
    ¬ errorCode <+: unread (inSession .closed).stream ∧ ¬ z6Code <+: unread (inSession .closed).stream ∧
    unread (inSession .closed).stream = List.replicate 0 false ∧
    ∀ k, k ≤ 5 → unread (bits [0x0A]) ≠ List.replicate k false := by decide +kernel

theorem test_witness_CheckHeader :
    ((file []).take 255).length < 256 ∧ 256 ≤ (file []).length ∧ (file []).take 12 = gffSignature ∧
    (0x48 :: (file []).drop 1).take 12 ≠ gffSignature ∧ 256 ≤ (0x48 :: (file []).drop 1).length := by decide +kernel

theorem test_witness_DecodeFile :
    byteBits ((file [0x0A, 0x09, 0x10, 0x38]).drop 256) = gffCodes [0xAB, 0xCD] ++ List.replicate 3 false ∧
    byteBits ((file [0x84, 0x00]).drop 256) = gffCodes [0x03] ++ (List.replicate 6 false ++ [false]) ∧
    z6End .exactlyOne [false].length = true := by decide +kernel

theorem test_witness_DecodeFile_fails (out : List Byte) (tail : List Bit)
    (h : byteBits ((file [0x04]).drop 256) = gffCodes out ++ tail) : ¬ endsStream .exactlyOne tail := by
  have e : byteBits ((file [0x04]).drop 256) = errorCode := by decide +kernel
  rw [e] at h
  cases out with
  | nil =>
    rw [gffCodes, List.flatMap_nil, List.nil_append] at h
    rintro (⟨k, hk, ht⟩ | ⟨left, ht, -⟩)
    · rw [← h] at ht
      have := congrArg List.length ht
      simp [errorCode] at this
      omega
    · rw [← h] at ht
      simp [errorCode, List.replicate] at ht
  | cons b bs =>
    have no : ∀ v, ¬ nibbleCode v <+: errorCode := by decide +kernel
    exact absurd ⟨_, by rw [gffCodes, List.flatMap_cons, List.append_assoc, List.append_assoc] at h; exact h.symm⟩
      (no (b.extractLsb' 4 4))

theorem test_witness_RoundTrip :
    (List.replicate 244 (0 : Byte)).length = 244 ∧ (gffCodes [0xAB, 0xCD]).length % 8 ≠ 2 ∧
    (gffCodes [0x00]).length % 8 = 2 ∧ (inSession .closed).params.z6 = .exactlyOne ∧
    (resultOf (exec (.decode (gffFile (List.replicate 244 0) [0xC0])) (inSession .closed))).isSome = true ∧
    { inSession .closed with params := { params with z6 := .fewerThanEight } }.params.z6 = .fewerThanEight := by
  decide +kernel

/-! The bus. -/

/-- On the software bus with line and expiry answers. -/
def onStretchedBus (senses : List Bit) (expiries : List Bool) : State :=
  { onBus senses with env := { Env.initial with senses := senses, expiries := expiries } }

/-- The level of a released SDA that the host ignores. -/
def high : Nat → Bit := fun _ => true

/-- Another agent holds a line low for ever, after these line answers. -/
def heldBus (l : Line) (senses : List Bit) (expiries : List Bool) : State :=
  { onBus senses with env := { Env.initial with senses := senses, expiries := expiries, held := [l] } }

theorem test_witness_LinePrimitives :
    (onBus [false]).session ≠ .closed ∧ (onBus [false]).env.senses = false :: [] ∧
    (heldBus .sda [] []).env.senses = [] ∧ .sda ∈ (heldBus .sda [] []).env.held ∧
    (heldBus .scl [] []).env.senses = [] ∧ .scl ∈ (heldBus .scl [] []).env.held := by decide +kernel

theorem test_witness_WaitScl :
    (onStretchedBus [true] []).env.senses = stretchSenses 0 ++ [] ∧
    (onStretchedBus [false, false, true, true] [false, false, true]).env.senses = stretchSenses 2 ++ [true] ∧
    (onStretchedBus [false, false, true, true] [false, false, true]).env.expiries = List.replicate 2 false ++ [true] ∧
    (onStretchedBus [false] [true]).env.senses = stuckSenses 0 ++ [] ∧
    (onStretchedBus [false] [true]).env.expiries = List.replicate 0 false ++ true :: [] ∧
    (onStretchedBus [false, false] [false, true]).env.senses = stuckSenses 1 ++ [] ∧
    (onStretchedBus [false, false] [false, true]).env.expiries = List.replicate 1 false ++ true :: [] := by
  decide +kernel

/-- A recovery limited to m rounds. -/
def limited (m : Nat) (senses : List Bit) : State :=
  { onBus senses with params := { params with resetRoundLimit := some m } }

/-- Nine pulses during which a slave holds SCL low. -/
def nineLow : List Bit := List.replicate 9 false

/-- A recovery whose first round gets SDA high, and one that needs a second. -/
def recovery1 : Recovery := ⟨true, [], nine, 0⟩
def recovery2 : Recovery := ⟨false, [nineLow], nine, 1⟩

theorem test_recoveries_fit :
    recovery1.Fits (onBus []).params ∧ recovery2.Fits (onBus []).params ∧ recovery1.Fits (limited 0 []).params ∧
    recovery2.Fits (limited 2 []).params := by
  refine ⟨⟨?_, rfl, nofun⟩, ⟨?_, rfl, nofun⟩, ⟨?_, rfl, ?_⟩, ⟨?_, rfl, ?_⟩⟩
  · nofun
  · unfold roundsOfNine; decide
  · nofun
  · intro m h; cases h; decide
  · unfold roundsOfNine; decide
  · intro m h; cases h; decide

/-- A recovery that ends at its second STOP; the same under a limit that lets one round pass; one whose wait expires; and
one that a limit ends after its first and after its second round. -/
theorem test_witness_BusReset :
    RecoveryRun (onBus []).params (recovery2.stopSenses false ++ recovery1.stopSenses true)
      (recovery2.stopExpiries ++ recovery1.stopExpiries) (recovery2.stopEvents false ++ recovery1.stopEvents true) none ∧
    RecoveryRun (limited 2 []).params (recovery2.stopSenses true) recovery2.stopExpiries (recovery2.stopEvents true)
      none ∧
    RecoveryRun (onBus []).params (recovery1.senses ++ stuckSenses 0) (List.replicate 0 false ++ [true])
      (recovery1.events ++ stuckEvents 0) (some .scl) ∧
    RecoveryRun (limited 0 []).params (true :: lowSenses [nineLow]) [] (.release .sda true :: lowEvents [nineLow])
      (some .sda) ∧
    RecoveryRun (limited 2 []).params (false :: lowSenses [nine, nine]) []
      (.release .sda false :: lowEvents [nine, nine]) (some .sda) :=
  ⟨.again _ test_recoveries_fit.2.1 (.ends _ test_recoveries_fit.1), .ends _ test_recoveries_fit.2.2.2,
    .expires _ test_recoveries_fit.1 0, .limit 0 rfl _ _ (by unfold roundsOfNine; decide) rfl, .limit 2 rfl _ _ (by unfold roundsOfNine; decide) rfl⟩

/-- Any line and expiry answers are given by some bus. -/
theorem test_onStretchedBus (senses rest : List Bit) (expiries xs : List Bool) :
    (onStretchedBus (senses ++ rest) (expiries ++ xs)).env.senses = senses ++ rest ∧
    (onStretchedBus (senses ++ rest) (expiries ++ xs)).env.expiries = expiries ++ xs := ⟨rfl, rfl⟩

/-- A bus on which SDA is held low for ever, at once or during the recovery after a first one. -/
theorem test_witness_BusReset_endless :
    (heldBus .sda [] []).params.resetRoundLimit = none ∧ .sda ∈ (heldBus .sda [] []).env.held ∧
    StartOfEndless (heldBus .sda [] []).params [] [] ∧ (heldBus .sda [] []).env.senses = [] ∧
    (heldBus .sda [] []).env.expiries = [] ++ [] ∧
    StartOfEndless (heldBus .sda [] []).params (recovery2.stopSenses false ++ false :: lowSenses [nine])
      (recovery2.stopExpiries ++ []) :=
  ⟨rfl, .head _, .now, rfl, rfl, .again _ test_recoveries_fit.2.1 (.rounds _ _ (by unfold roundsOfNine; decide))⟩

theorem test_witness_StartStop :
    (onStretchedBus [true, false, true] [false]).env.expiries = List.replicate 1 false ++ [] ∧
    (onStretchedBus [true, false, true] [false]).env.senses = true :: stretchSenses 1 ++ [] ∧
    (onStretchedBus [true, true] []).env.senses = stretchSenses 0 ++ true :: [] ∧
    (onStretchedBus [true, false] [true]).env.senses = true :: stuckSenses 0 ++ [] ∧
    (onStretchedBus [true, false] [true]).env.expiries = List.replicate 0 false ++ true :: [] ∧
    (onStretchedBus [false, false] [false, true]).env.senses = stuckSenses 1 ++ [] ∧
    (onStretchedBus [false, false] [false, true]).env.expiries = List.replicate 1 false ++ true :: [] := by
  decide +kernel

/-- The recovery of a START and of a STOP: one that ends, one that gets stuck on SDA, and one that never ends. -/
theorem test_witness_StartStop_recovery :
    RecoveryRun (onBus []).params (recovery1.stopSenses true) recovery1.stopExpiries (recovery1.stopEvents true) none ∧
    (onBus (stretchSenses 0 ++ false :: recovery1.stopSenses true ++ [])).env.senses =
      stretchSenses 0 ++ false :: recovery1.stopSenses true ++ [] ∧
    (onBus (false :: recovery1.stopSenses true ++ stretchSenses 0 ++ [])).env.senses =
      false :: recovery1.stopSenses true ++ stretchSenses 0 ++ [] ∧
    (onStretchedBus (false :: recovery1.stopSenses true ++ stuckSenses 0 ++ [])
      (recovery1.stopExpiries ++ List.replicate 0 false ++ true :: [])).env.senses =
      false :: recovery1.stopSenses true ++ stuckSenses 0 ++ [] ∧
    RecoveryRun (limited 1 []).params (true :: lowSenses [nine]) [] (.release .sda true :: lowEvents [nine])
      (some .sda) ∧
    (limited 1 (false :: true :: lowSenses [nine])).env.senses = false :: (true :: lowSenses [nine]) ++ [] ∧
    (some Line.sda) ≠ none ∧
    (heldBus .sda (stretchSenses 0) []).env.senses = stretchSenses 0 ∧
    (heldBus .sda (stretchSenses 0) []).env.expiries = List.replicate 0 false ++ [] ∧
    (heldBus .sda [false] []).env.senses = false :: [] ∧ .sda ∈ (heldBus .sda [false] []).env.held ∧
    (heldBus .sda (stretchSenses 0 ++ false :: []) []).env.senses = stretchSenses 0 ++ false :: [] :=
  ⟨.ends _ test_recoveries_fit.1, rfl, rfl, rfl, .limit 1 rfl _ _ (by unfold roundsOfNine; decide) rfl, rfl, by decide, rfl, rfl, rfl,
    .head _, rfl⟩

theorem test_witness_WriteReadBit :
    (onStretchedBus [false, true] [false]).env.senses = stretchSenses 1 ++ [] ∧
    (onStretchedBus [true, false, true] [false]).env.senses = true :: stretchSenses 1 ++ [] ∧
    (onBus [true, true, false]).env.senses = true :: stretchSenses 0 ++ false :: [] ∧
    (onStretchedBus [true, false] [true]).env.senses = true :: stuckSenses 0 ++ [] ∧
    (onStretchedBus [true, false] [true]).env.expiries = List.replicate 0 false ++ true :: [] := by decide +kernel

theorem test_witness_Bytes :
    (onBus (byteSenses high 0 0x94 true)).env.senses =
      byteSenses high 0 (BitVec.ofNat 8 (2 * (0x4A : Addr7).toNat)) true ++ [] ∧
    (onBus (byteSenses high 0 0xFF false)).env.senses =
      byteSenses high 0 (BitVec.ofNat 8 (2 * (0x7F : Addr7).toNat + 1)) false ++ [] ∧
    (onBus (recvSenses high 0 (msbFirst 0xAB))).env.senses = recvSenses high 0 (msbFirst 0xAB) ++ [] := by
  decide +kernel

theorem test_witness_MasterAckRows :
    (onBus [true]).params.masterRxAck = true ∧ (onBus [true]).env.senses = true :: [] ∧
    (onBus [false, true]).env.senses = false :: true :: [] ∧
    { onBus [] with params := { params with masterRxAck := false } }.params.masterRxAck = false := by decide +kernel

/-- The line answers of a write of two bytes, of which data byte 0 is not acknowledged. -/
def nackedSenses : List Bit :=
  bothHigh ++ byteSenses high 0 (addressByte 0x4A false) false ++ bytesSenses high 9 [] ++
    byteSenses high (9 + 9 * 0) 1 true ++ bothHigh ++ []

/-- The line answers of a read of two bytes. -/
def readSenses : List Bit :=
  bothHigh ++ byteSenses high 0 (addressByte 0x4B true) false ++ dataSenses true high 9 [0xAB, 0xCD] ++ bothHigh ++ []

/-- The line answers of an acknowledged write to the highest address, without data. -/
def emptyWriteSenses : List Bit :=
  bothHigh ++ byteSenses high 0 (addressByte 0x7F false) false ++ bytesSenses high 9 [] ++ bothHigh ++ []

/-- The line answers of a write whose address is not acknowledged. -/
def unansweredSenses : List Bit := bothHigh ++ byteSenses high 0 (addressByte 0x00 false) true ++ bothHigh ++ []

theorem test_witness_BusWrite :
    (onBus nackedSenses).session ≠ .closed ∧ (onBus nackedSenses).env.senses = nackedSenses ∧
    ([] ++ 1 :: [2] : List Byte) = [1, 2] ∧ (onBus emptyWriteSenses).env.senses = emptyWriteSenses ∧
    (onBus unansweredSenses).env.senses = unansweredSenses := by decide +kernel

theorem test_witness_BusRead :
    (onBus readSenses).session ≠ .closed ∧ (onBus readSenses).params.masterRxAck = true ∧
    (onBus readSenses).env.senses = readSenses ∧
    (onBus (bothHigh ++ byteSenses high 0 (addressByte 0x7F true) true ++ bothHigh)).env.senses =
      bothHigh ++ byteSenses high 0 (addressByte 0x7F true) true ++ bothHigh ++ [] := by decide +kernel

theorem test_witness_EventCounts :
    (onBus [true, true]).env.senses = true :: true :: [] ∧
    (onBus [true, true]).env.senses = sentSenses high 0 [true] ++ [] ∧
    (onBus [true, true, false]).env.senses = recvSenses high 0 [false] ++ [] ∧
    (onBus (byteSenses high 0 0x94 false)).env.senses = byteSenses high 0 0x94 false ++ [] ∧
    (onBus (recvSenses high 0 (msbFirst 0xAB))).env.senses = recvSenses high 0 (msbFirst 0xAB) ++ [] ∧
    (onBus emptyWriteSenses).env.senses = emptyWriteSenses ∧ (onBus readSenses).env.senses = readSenses ∧
    (onBus (true :: List.replicate 9 true ++ [true, true, true])).env.senses =
      true :: List.replicate 9 true ++ [true, true, true] ++ [] := by decide +kernel

theorem test_witness_BusConditions :
    (onBus readSenses).sda = .released ∧ (onBus readSenses).scl = .released ∧
    (onBus readSenses).params.masterRxAck = true ∧ (onBus readSenses).env.senses = readSenses ∧
    (onBus emptyWriteSenses).env.senses = emptyWriteSenses ∧ (onBus nackedSenses).env.senses = nackedSenses ∧
    (onBus unansweredSenses).env.senses = unansweredSenses ∧
    (onBus (bothHigh ++ byteSenses high 0 (addressByte 0x7F true) true ++ bothHigh)).env.senses =
      bothHigh ++ byteSenses high 0 (addressByte 0x7F true) true ++ bothHigh ++ [] := by decide +kernel

theorem test_witness_BusOutcomes :
    (inSession .initialized).session ≠ .closed ∧ ∃ a data, a ≤ 127 ∧ Instr.busWrite 127 [] = .busWrite a data :=
  ⟨by decide, 127, [], by decide, rfl⟩

/-! The transport and the engine. -/

theorem test_witness_SessionCalls :
    { inSession .closed with env := { Env.initial with opens := [false], listings := [[([1], [2])]] } }.env.opens =
      false :: [] ∧
    { inSession .closed with env := { Env.initial with opens := [false], listings := [[([1], [2])]] } }.env.listings =
      [([1], [2])] :: [] := by decide +kernel

theorem test_witness_NativeTransactions :
    (onScript .initialized (lost 0x4A [1, 2])).env.writes = .failed .noAck :: [] ∧
    (onScript .initialized [.saw (.tWrite 0x4A [1] .ok)]).env.writes = .ok :: [] ∧
    (onScript .initialized [.saw (.tRead 0x4A 2 (.ok [1, 2]))]).env.reads = .ok [1, 2] :: [] ∧
    (onScript .initialized [.saw (.tRead 0x4A 2 (.failed .ioError))]).env.reads = .failed .ioError :: [] ∧
    [1, 2].length ≤ { onScript .initialized [] with maxWrite := 2 }.maxWrite := by decide +kernel

theorem test_witness_SoftwareTransport :
    (inSession .closed).backend = .softwareBus ∧ (inSession .closed).maxRead = 0 ∧ (inSession .closed).maxWrite = 0 :=
  ⟨rfl, rfl, rfl⟩

theorem test_witness_Detect : ∃ t, exec (.tRead 0x33 1) (onDevice .initialized Device.initial) = .next t := ⟨_, rfl⟩

theorem test_witness_RegWrite :
    writeTransactions 2 0x64 [1, 2] = [[0x64, 1]] ++ [0x65, 2] :: [] ∧
    writesOf (writeScript 2 0x64 [1, 2] true) = List.replicate (writeTransactions 2 0x64 [1, 2]).length .ok ++ [] ∧
    writesOf [.saw (.tWrite 0x4B [0x64, 1] .ok), .saw (.tWrite 0x4B [0x65, 2] (.failed .ioError))] =
      List.replicate [[(0x64 : Byte), 1]].length .ok ++ .failed .ioError :: [] := by decide +kernel

/-- The second transaction of a byte's read fails. -/
theorem test_witness_RegRead : readScript 0 0x67 [5] true = byteScript 0x67 5 ∧
    CutShort pollError (byteScript 0x67 5)
      [.saw (.tWrite ispAddr [0x67] .ok), .saw (.tRead ispAddr 1 (.failed .ioError))] .ioError :=
  ⟨by decide, .read [.saw (.tWrite ispAddr [0x67] .ok)] [] ispAddr [5] .ioError rfl⟩

theorem test_witness_ChunkingInvariance :
    (onDevice .initialized Device.initial).device.canonical (onDevice .initialized Device.initial).params = true ∧
    (∀ k, k < [1, 2, 3].length → (0x64 : Byte) + BitVec.ofNat 8 k ≠ 0x70) ∧ storesPlainly 0x64 3 = true ∧
    (∀ k, k < 1 → (0x6F : Byte) + BitVec.ofNat 8 k ≠ 0x70) ∧
    (∀ k, k < 255 → (0x71 : Byte) + BitVec.ofNat 8 k ≠ 0x70) ∧ (1 : Nat) ≠ 0 := by decide +kernel

theorem test_witness_EnterIsp :
    (onScript .initialized (lost 0x4A [0x6F, 0x80] ++ byteScript 0x6F 0x80)).env.writes =
      .failed .noAck :: .ok :: [] ∧
    (onScript .initialized (lost 0x4A [0x6F, 0x80] ++ byteScript 0x6F 0x80)).env.reads = .ok [0x80] :: [] ∧
    (.failed .noAck : WriteAnswer) ≠ .failed .busStuck ∧
    (onScript .initialized (lost 0x4A [] ++ lost 0x4A [])).env.writes = .failed .noAck :: .failed .noAck :: [] ∧
    (onScript .initialized [.saw (.tWrite 0x4A [] .ok), .saw (.tWrite 0x4A [] .ok),
      .saw (.tRead 0x4A 1 (.failed .busStuck))]).env.reads = .failed .busStuck :: [] ∧
    (onScript .initialized [.saw (.tWrite 0x4A [] (.failed .busStuck))]).env.writes = .failed .busStuck :: [] := by
  decide +kernel

theorem test_witness_ExitIsp :
    (onScript .ispActive (lost 0x4A [0xEE, 0x02])).session = .ispActive ∧
    (onScript .ispActive (lost 0x4A [0xEE, 0x02])).maxWrite ≠ 1 ∧
    (onScript .ispActive (lost 0x4A [0xEE, 0x02])).env.writes = .failed .noAck :: [] := by decide +kernel

/-- A poll of 0x60 that passes at its second read, and one that never does. -/
def ciPoll : PollReads := ⟨[0x29], 0x28⟩
def ciStuck : PollReads := ⟨[], 0x29⟩

theorem test_witness_Poll :
    ciPoll.Passes (pollAccepts (.allClear 0x01)) ∧ ciStuck.FailsAll (pollAccepts (.allClear 0x01)) ∧
    CutShort (fun _ => Err.decodeError) (pollScript .ci 0x60 ciPoll)
      (byteScript 0x60 0x29 ++ [.waited .ci true, .saw (.expired (.poll .ci))]) .decodeError :=
  ⟨⟨by decide, by decide⟩, ⟨by decide, by decide⟩, .expiry (byteScript 0x60 0x29) (byteScript 0x60 0x28) .ci rfl⟩

theorem test_witness_CustomInstruction :
    ciPoll.Passes ciDone ∧ ciStuck.FailsAll ciDone ∧ (0 < 1 → 0xFF < 2 ^ (8 * 1)) ∧ 0 < [(0xC2 : Byte)].length ∧
    [(1 : Byte), 2, 3].length ≤ 3 := ⟨⟨by decide, by decide⟩, ⟨by decide, by decide⟩, by decide, by decide, by decide⟩

theorem test_witness_DeviceCrc :
    PollReads.Passes crcDone ⟨[0x80], 0x82⟩ ∧ PollReads.FailsAll crcDone ⟨[], 0x80⟩ ∧ 0xFFFFFF ≤ 0xFFFFFF ∧
    0xFFFFFF < 2 ^ 24 := ⟨⟨by decide, by decide⟩, ⟨by decide, by decide⟩, by decide, by decide⟩

theorem test_witness_RegisterRows :
    registerWriteOf params (.ctrl 2 1 0) = some (0x60, [0x49]) ∧ registerWriteOf params .cmdEnterIsp = some (0x6F, [0x80]) ∧
    registerWriteOf params .cmdCrc = some (0x6F, [0x84]) ∧ registerWriteOf params .cmdPageWrite = some (0x6F, [0xA0]) ∧
    registerWriteOf params .reboot = some (0xEE, [0x02]) ∧ registerWriteOf params (.size 127) = some (0x71, [0x7F]) ∧
    registerWriteOf params (.a24 .crcEnd 0x180) = some (0x72, [0, 1, 0x80]) ∧
    registerWriteOf params (.opnd (.write 1 0xFF)) = some (0x64, [0xFF]) ∧ (3 : BitVec 2) ≠ 0 ∧
    [(1 : Byte), 2, 3].length = (3 : BitVec 2).toNat := by decide +kernel

/-- A command write and the read of a result byte that fail. -/
theorem test_witness_RegisterRows_fail :
    CutShort pollError (writeScript 0 0x6F [0x84] true) [.saw (.tWrite ispAddr [0x6F, 0x84] (.failed .noAck))]
      (.noAck .backend) ∧
    CutShort pollError (readScript 0 0x67 [5] true)
      [.saw (.tWrite ispAddr [0x67] .ok), .saw (.tRead ispAddr 1 (.failed .ioError))] .ioError :=
  ⟨.write [] [] ispAddr [0x6F, 0x84] .noAck rfl, .read [.saw (.tWrite ispAddr [0x67] .ok)] [] ispAddr [5] .ioError rfl⟩

theorem test_witness_StatusRows :
    CutShort pollError (byteScript 0x6F 0x80) [.saw (.tWrite ispAddr [0x6F] (.failed .noAck))] (.noAck .backend) :=
  .write [] [.saw (.tRead ispAddr 1 (.ok [0x80]))] ispAddr [0x6F] .noAck rfl

theorem test_witness_TransactionRows :
    [(5 : Byte), 6].length + 1 ≤ { onScript .initialized (lost 0x4B [0x70, 5, 6]) with maxWrite := 3 }.maxWrite ∧
    (onScript .initialized (lost 0x4B [0x70, 5, 6])).env.writes = .failed .noAck :: [] ∧
    (onScript .initialized (byteScript 0x6F 0x80)).env.writes = .ok :: [] ∧
    (onScript .initialized (byteScript 0x6F 0x80)).env.reads = .ok [0x80] :: [] ∧
    (1 ≤ { onScript .initialized (byteScript 0x6F 0x80) with maxRead := 1 }.maxRead) ∧
    (onScript .initialized [.saw (.tWrite 0x4A [0x6F] .ok), .saw (.tRead 0x4A 1 (.failed .busStuck))]).env.reads =
      .failed .busStuck :: [] := by decide +kernel

/-! The flash. -/

theorem test_witness_PagePartition : 0 + 1 < pieceCount 128 129 ∧ 1 + 1 = pieceCount 128 129 ∧
    0 + 1 = pieceCount 128 128 := by decide

/-- A busy poll that passes at its second read. -/
def busyPoll : PollReads := ⟨[0x40], 0x00⟩

theorem test_witness_Erase :
    (onScript .ispActive []).session = .ispActive ∧ ∀ ci ∈ [ciPoll, ⟨[], 0x28⟩, ciPoll], ci.Passes ciDone := by
  refine ⟨rfl, ?_⟩
  intro ci h
  simp only [List.mem_cons, List.not_mem_nil, or_false] at h
  rcases h with rfl | rfl | rfl <;> exact ⟨by decide, by decide⟩

theorem test_witness_FlashRead :
    1 ≤ [(0x12 : Byte)].length ∧ [(0x12 : Byte)].length ≤ params.chipSize ∧ [(1 : Byte), 2, 3].length = 3 ∧
    ciPoll.Passes ciDone ∧ busyPoll.Passes notBusy ∧ PollReads.Passes crcDone ⟨[0x80], 0x82⟩ :=
  ⟨by decide, by decide, rfl, ⟨by decide, by decide⟩, ⟨by decide, by decide⟩, ⟨by decide, by decide⟩⟩

theorem test_witness_Program :
    (∀ ci ∈ [ciPoll, ciPoll], ci.Passes ciDone) ∧ busyPoll.Passes notBusy ∧ PollReads.Passes crcDone ⟨[], 0x02⟩ ∧
    1 ≤ [(0x12 : Byte)].length ∧ [(0x12 : Byte)].length ≤ params.chipSize := by
  refine ⟨?_, ⟨by decide, by decide⟩, ⟨by decide, by decide⟩, by decide, by decide⟩
  intro ci h
  simp only [List.mem_cons, List.not_mem_nil, or_false, or_self] at h
  rw [h]; exact ⟨by decide, by decide⟩

theorem test_busyPoll : busyPoll.Passes notBusy := ⟨by decide, by decide⟩

/-- A program cut short at its first transaction. -/
theorem test_witness_FailurePolicy :
    ∃ script, runsAs (onScript .ispActive (lost 0x4A [0x64, 0x00])) (.program [0x12]) script ∧
      CutShort pollError script (lost 0x4A [0x64, 0x00]) (.noAck .backend) :=
  ⟨_, ⟨by decide, by decide, ciPoll, ciPoll, ⟨[], 0x02⟩, fun _ => busyPoll, 0x7E, ⟨by decide, by decide⟩,
    ⟨by decide, by decide⟩, ⟨by decide, by decide⟩, fun _ => test_busyPoll, rfl⟩, .write [] _ 0x4A [0x64, 0x00] .noAck rfl⟩

theorem test_witness_ProgressCalls :
    resultOf (exec .erase (onDevice .ispActive Device.initial)) = some (.ok .unit) ∧
    resultOf (exec (.program [0xFF]) (onDevice .ispActive { Device.initial with flash := [(0, 0)] })) =
      some (.err .verificationFailed) ∧
    resultOf (exec (.flashRead 1) (onDevice .ispActive Device.initial)) = some (.ok (.bytes [0xFF])) := by
  decide +kernel

/-! The reference device. -/

/-- A device with a page in its buffer, at address 2. -/
def loaded : Device := { Device.initial with buffer := [0x12], regs := [(0x66, 2)], flash := [(2, 0xF0)], pointer := 0x70 }

theorem test_witness_DeviceTransactions :
    loaded.canonical params = true ∧ loaded.pointer = 0x70 ∧ Device.initial.pointer ≠ 0x70 ∧
    storesPlainly 0x64 3 = true ∧ storesPlainly 0x70 300 = true ∧ storesPlainly 0x71 1 = true ∧
    ¬((0x33 : Addr7) = 0x4A ∨ (0x33 : Addr7) = 0x4B) ∧ storesPlainly 0x60 0 = true ∧ storesPlainly 0x61 1 = true ∧
    params.chipSize ≤ 256 ∧ 255 < params.chipSize := by decide +kernel

/-- Where the pointer stands after these transactions, one after the other. -/
def pointerAfterCalls (calls : List Instr) : Byte :=
  (calls.foldl (fun s i => match exec i s with
    | .next t => t
    | .fault _ => s
    | .refused _ => s) (onDevice .initialized Device.initial)).device.pointer

/-- R43 and C5: 0x4B advances the pointer with writes and reads, up to 0x70 and wherever it begins past it; 0x4A does
not. -/
theorem test_pointer :
    pointerAfterCalls [.tWrite 0x4B [0x64, 1, 2, 3]] = 0x67 ∧
    pointerAfterCalls [.tWrite 0x4A [0x67], .tRead 0x4B 3] = 0x6A ∧
    pointerAfterCalls [.tWrite 0x4B [0x6F, 0x00]] = 0x70 ∧ pointerAfterCalls [.tWrite 0x4B [0x6E, 1, 2, 3]] = 0x70 ∧
    pointerAfterCalls [.tWrite 0x4B [0x70, 1, 2, 3]] = 0x70 ∧ pointerAfterCalls [.tWrite 0x4B [0x71, 1]] = 0x72 ∧
    pointerAfterCalls [.tWrite 0x4A [0x64, 1, 2, 3], .tRead 0x4A 2] = 0x64 := by decide +kernel

theorem test_witness_DeviceInstructions :
    (0x41 : Byte).getLsbD 0 = true ∧ (0x41 : Byte).extractLsb' 5 3 = params.ctErase ∧
    { loaded with regs := [(0x61, 0xC7)] }.readReg 0x61 = params.opErase ∧
    (0x29 : Byte).extractLsb' 5 3 = params.ctWrenWrsr ∧ (0x29 : Byte).extractLsb' 3 2 = 1 ∧
    (0x21 : Byte).extractLsb' 5 3 = params.ctWrenWrsr ∧ (0x21 : Byte).extractLsb' 3 2 = 0 ∧
    (0x39 : Byte).extractLsb' 5 3 = params.ctWrenWrsr ∧ (0x39 : Byte).extractLsb' 3 2 = 3 ∧
    { loaded with regs := [(0x61, 0x01)] }.readReg 0x61 = params.opWrsr ∧
    (0x7F : Byte).extractLsb' 5 3 = params.ctRead ∧
    { loaded with regs := [(0x61, 0x03)] }.readReg 0x61 = params.opRead ∧
    (0x01 : Byte).getLsbD 0 = true ∧ (0x01 : Byte).extractLsb' 5 3 ≠ params.ctErase ∧
    (0x01 : Byte).extractLsb' 5 3 ≠ params.ctWrenWrsr ∧ (0x01 : Byte).extractLsb' 5 3 ≠ params.ctRead := by
  decide +kernel

theorem test_witness_ProgramThenRead :
    let s := onDevice .ispActive Device.initial
    s.device.canonical s.params = true ∧ s.device.busy = false ∧ s.device.buffer = [] ∧
    [(0x12 : Byte), 0xFF].length ≤ s.params.chipSize ∧
    ∀ a, a < [(0x12 : Byte), 0xFF].length → s.device.flash.read .flash a = 0xFF := by decide +kernel

end Sys2Proof.Tests
end

section
/-! SUPPORT. The statements of 00_scope: every call decodes from its own bytes, the big-endian order of R9, and a step
runs the call decoded from the front of the queue. -/

namespace Sys2Proof

/-! ## Fields of the wire words -/

theorem addressByte_getElem_zero (a : Addr7) (rw : Bit) : (addressByte a rw)[0] = rw := by
  cases rw <;> simp [addressByte]

theorem addressField_addressByte (a : Addr7) (rw : Bit) : addressField (addressByte a rw) = a := by
  have hfield : ∀ (a : Addr7) (rw : Bit), addressField (addressByte a rw) = a := by decide
  exact hfield a rw

theorem ctrlGo_controlByte (cmdType : BitVec 3) (writeN readN : BitVec 2) :
    ctrlGo (controlByte cmdType writeN readN) = true := by
  simp [ctrlGo, controlByte]

/-- The three fields of F-CTRL do not overlap (R86, R87). -/
theorem ctrlFields_controlByte (cmdType : BitVec 3) (writeN readN : BitVec 2) :
    ctrlCmdType (controlByte cmdType writeN readN) = cmdType ∧
      ctrlWriteN (controlByte cmdType writeN readN) = writeN ∧
      ctrlReadN (controlByte cmdType writeN readN) = readN := by
  have hfields : ∀ (c : BitVec 3) (w r : BitVec 2), ctrlCmdType (controlByte c w r) = c ∧
      ctrlWriteN (controlByte c w r) = w ∧ ctrlReadN (controlByte c w r) = r := by decide
  exact hfields cmdType writeN readN

theorem nibbles_of_pair (n1 n2 : Nibble) :
    (n1 ++ n2).extractLsb' 4 4 = n1 ∧ (n1 ++ n2).extractLsb' 0 4 = n2 := by
  have hnibbles : ∀ n1 n2 : Nibble, (n1 ++ n2).extractLsb' 4 4 = n1 ∧ (n1 ++ n2).extractLsb' 0 4 = n2 := by decide
  exact hnibbles n1 n2

/-! ## Reading a row -/

theorem Instr.row_lt (i : Instr) : i.row < 78 := by
  cases i <;> simp [Instr.row]

/-- The call byte of a row is its number, and never the tag of a bare table word. -/
theorem Instr.rowByte (i : Instr) :
    BitVec.ofNat 8 i.row ≠ tableWordTag ∧ (BitVec.ofNat 8 i.row).toNat = i.row := by
  have hrow := i.row_lt
  have hnum : (BitVec.ofNat 8 i.row).toNat = i.row := by rw [BitVec.toNat_ofNat]; omega
  refine ⟨fun htag => ?_, hnum⟩
  have : (BitVec.ofNat 8 i.row).toNat = 255 := by rw [htag]; rfl
  omega

/-- The instruction is what the decoder reads from its own bytes, whatever follows them. -/
def Instr.RoundTrips (i : Instr) : Prop := ∀ rest : List Byte, Sys2Proof.decode (encode i ++ rest) = .call i rest

/-- It is enough that the row's operand reader inverts the instruction's operand bytes. -/
theorem roundTrips_of_reader {i : Instr} (p : Parser Instr) (hrow : rowParsers[i.row]? = some p)
    (hread : ∀ rest, p (i.operands ++ rest) = .ok i rest) : i.RoundTrips := by
  intro rest
  obtain ⟨htag, hnum⟩ := i.rowByte
  simp [encode, decode, htag, hnum, hrow, hread]

/-- A row without operands. -/
theorem roundTrips_of_noOperands {i : Instr} (hrow : rowParsers[i.row]? = some (pure i)) (hops : i.operands = []) :
    i.RoundTrips :=
  roundTrips_of_reader _ hrow fun rest => by simp [hops]

/-- An encoding row without fields: its word agrees with the row's fixed bits. -/
theorem roundTrips_of_word {i : Instr} {mask value b : Byte} (hrow : rowParsers[i.row]? = some (parseWord mask value i))
    (hops : i.operands = [b]) (hbits : b &&& mask = value) : i.RoundTrips :=
  roundTrips_of_reader _ hrow fun rest => by
    rw [hops]
    exact parseWord_cons mask value b i rest hbits

/-- A row whose single operand has a reader that inverts its bytes. -/
theorem roundTrips_of_operand {α : Type} {i : Instr} (make : α → Instr) (p : Parser α) (a : α)
    (hrow : rowParsers[i.row]? = some (p >>= fun x => pure (make x))) (hi : make a = i)
    (hread : ∀ rest, p (i.operands ++ rest) = .ok a rest) : i.RoundTrips :=
  roundTrips_of_reader _ hrow fun rest => by simp [hread, hi]

/-! ## The wire rows with fields -/

theorem roundTrips_addrW (a : Addr7) : (Instr.addrW a).RoundTrips :=
  roundTrips_of_reader _ rfl fun rest => by
    simp [Instr.operands, addressByte_getElem_zero, addressField_addressByte]

theorem roundTrips_addrR (a : Addr7) : (Instr.addrR a).RoundTrips :=
  roundTrips_of_reader _ rfl fun rest => by
    simp [Instr.operands, addressByte_getElem_zero, addressField_addressByte]

theorem roundTrips_ctrl (cmdType : BitVec 3) (writeN readN : BitVec 2) :
    (Instr.ctrl cmdType writeN readN).RoundTrips :=
  roundTrips_of_reader _ rfl fun rest => by
    obtain ⟨hcmd, hwrite, hread⟩ := ctrlFields_controlByte cmdType writeN readN
    simp [Instr.operands, ctrlGo_controlByte, hcmd, hwrite, hread]

theorem roundTrips_a24 (r : A24Reg) (addr : BitVec 24) : (Instr.a24 r addr).RoundTrips :=
  roundTrips_of_reader _ rfl fun rest => by
    have hvalue : beValue (beBytes addr.toNat 3) = addr.toNat := beValue_beBytes _ _ addr.isLt
    simp [Instr.operands, parseA24Reg_cons, parseBytes_beBytes, hvalue]

theorem roundTrips_opnd (form : OpndForm) : (Instr.opnd form).RoundTrips :=
  roundTrips_of_reader _ rfl fun rest => by
    cases form with
    | write n value => simp [Instr.operands, parseOpnd]
    | read n => simp [Instr.operands, parseOpnd]

theorem roundTrips_size (lastIndex : Fin 128) : (Instr.size lastIndex).RoundTrips :=
  roundTrips_of_reader _ rfl fun rest => by
    have hlt := lastIndex.isLt
    have hbyte : lastIndex.val % 256 = lastIndex.val := by omega
    simp [Instr.operands, hbyte]

theorem roundTrips_pair (n1 n2 : Nibble) : (Instr.pair n1 n2).RoundTrips :=
  roundTrips_of_reader _ rfl fun rest => by
    obtain ⟨hhigh, hlow⟩ := nibbles_of_pair n1 n2
    simp [Instr.operands, hhigh, hlow]

/-! ## Every row -/

theorem roundTrips_of_representable (i : Instr) (h : i.representable = true) : i.RoundTrips := by
  cases i with
  | waitScl | busReset | pulseScl | start | stop | readBit | readByte | deinit | listDevices | enterIsp | exitIsp
  | erase | nibEndExhausted => exact roundTrips_of_noOperands rfl rfl
  | ispAddrWrite | ispAddrRead | ispAddrAiWrite | ispAddrAiRead | ack | nack | cmdEnterIsp | cmdCrc | cmdPageWrite
  | statIsp | statBusy | statCrcReady | ciPending | reboot | nib0 | nibF | nib1 | nib8 | nib2 | nib7 | nibC | nib9
  | nib4 | nib5 | nibA | nibB | nib3 | nibD | nibE | nib6 | nibError | nibZ6 =>
    exact roundTrips_of_word rfl rfl (by decide)
  | bsReadBit bs => exact roundTrips_of_operand .bsReadBit _ bs rfl rfl fun rest => parseStream_encode bs rest h
  | decodeNibble bs => exact roundTrips_of_operand .decodeNibble _ bs rfl rfl fun rest => parseStream_encode bs rest h
  | checkHeader file => exact roundTrips_of_operand .checkHeader _ file rfl rfl (parseList_encode file)
  | decode file => exact roundTrips_of_operand .decode _ file rfl rfl (parseList_encode file)
  | computeDecodedSize file => exact roundTrips_of_operand .computeDecodedSize _ file rfl rfl (parseList_encode file)
  | hostCrc data => exact roundTrips_of_operand .hostCrc _ data rfl rfl (parseList_encode data)
  | program img => exact roundTrips_of_operand .program _ img rfl rfl (parseList_encode img)
  | gffHeader file => exact roundTrips_of_operand .gffHeader _ file rfl rfl (parseList_encode file)
  | drive l => exact roundTrips_of_operand .drive _ l rfl rfl (parseLine_encode l)
  | release l => exact roundTrips_of_operand .release _ l rfl rfl (parseLine_encode l)
  | writeBit b => exact roundTrips_of_operand .writeBit _ b rfl rfl (parseBool_encode b)
  | writeByte x => exact roundTrips_of_operand .writeByte _ x rfl rfl (parseByte_cons x)
  | detect a => exact roundTrips_of_operand .detect _ a rfl rfl (parseAddr7_cons a)
  | flashRead n => exact roundTrips_of_operand .flashRead _ n rfl rfl (parseNat_encode n)
  | busWrite | busRead | tWrite | tRead | init | regWrite | regRead | customInstruction | deviceCrc | poll | regr =>
    exact roundTrips_of_reader _ rfl fun rest => by simp [Instr.operands]
  | regw a reg chunk => exact roundTrips_of_reader _ rfl fun rest => by simp [Instr.operands, parseIspAddr_cons]
  | addrW a => exact roundTrips_addrW a
  | addrR a => exact roundTrips_addrR a
  | ctrl cmdType writeN readN => exact roundTrips_ctrl cmdType writeN readN
  | a24 r addr => exact roundTrips_a24 r addr
  | opnd form => exact roundTrips_opnd form
  | size lastIndex => exact roundTrips_size lastIndex
  | pair n1 n2 => exact roundTrips_pair n1 n2

/-- Settles O1: each row's operand reader inverts the instruction's operand bytes. -/
theorem decodeEncode : Obligations.DecodeEncode :=
  fun i rest h => roundTrips_of_representable i h rest

/-! ## Big-endian bytes (R9) -/

theorem beBytes_getElem? (v n i : Nat) (hi : i < n) :
    (beBytes v n)[i]? = some (BitVec.ofNat 8 (v / 2 ^ (8 * (n - 1 - i)) % 256)) := by
  induction n generalizing v with
  | zero => omega
  | succ n ih =>
    rcases Nat.lt_succ_iff_lt_or_eq.mp hi with hlt | rfl
    · have hshift : v / 256 / 2 ^ (8 * (n - 1 - i)) = v / 2 ^ (8 * (n + 1 - 1 - i)) := by
        have hpow : 2 ^ (8 * (n + 1 - 1 - i)) = 256 * 2 ^ (8 * (n - 1 - i)) := by
          rw [show 8 * (n + 1 - 1 - i) = 8 + 8 * (n - 1 - i) by omega, Nat.pow_add]
        rw [Nat.div_div_eq_div_mul, hpow]
      rw [beBytes, List.getElem?_append_left (by simpa using hlt), ih (v / 256) hlt, hshift]
    · have hlow : BitVec.ofNat 8 v = BitVec.ofNat 8 (v % 256) := BitVec.eq_of_toNat_eq (by simp)
      simp [beBytes, hlow]

theorem beBytes_beValue (bytes : List Byte) : beBytes (beValue bytes) bytes.length = bytes := by
  induction bytes using List.reverseRecOn with
  | nil => rfl
  | append_singleton xs b ih =>
    have hb := b.isLt
    have hdiv : (beValue xs * 256 + b.toNat) / 256 = beValue xs := by omega
    have hmod : BitVec.ofNat 8 (beValue xs * 256 + b.toNat) = b :=
      BitVec.eq_of_toNat_eq (by rw [BitVec.toNat_ofNat]; omega)
    rw [beValue_append, List.length_append, List.length_singleton, beBytes, hdiv, ih, hmod]

theorem beValue_lt (bytes : List Byte) : beValue bytes < 2 ^ (8 * bytes.length) := by
  induction bytes using List.reverseRecOn with
  | nil => decide
  | append_singleton xs b ih =>
    have hb := b.isLt
    have hpow : 2 ^ (8 * (xs.length + 1)) = 2 ^ (8 * xs.length) * 256 := by rw [Nat.mul_add, Nat.pow_add]
    rw [beValue_append, List.length_append, List.length_singleton]
    omega

/-- Settles O5: both directions by induction from the least significant byte. -/
theorem bigEndianBytes : Obligations.BigEndianBytes :=
  ⟨fun v n h => ⟨beBytes_length n v, fun i hi => beBytes_getElem? n v i hi, beValue_beBytes n v h⟩,
    fun bytes => ⟨beBytes_beValue bytes, beValue_lt bytes⟩⟩

end Sys2Proof

namespace Sys2Proof.Machine

/-! ## One step (R6, R13) -/

theorem step_of_noCalls {s : State} (h : s.calls = []) : step s = .next s := by
  simp [step, h]

theorem step_of_call {s : State} {i : Instr} {rest : List Byte} (h : decode s.calls = .call i rest) :
    step s = exec i (s.setCalls rest) := by
  cases hcalls : s.calls with
  | nil => rw [hcalls] at h; cases h
  | cons b bs => rw [hcalls] at h; simp [step, hcalls, h]

theorem step_of_rejected {s : State} {why : DecodeError} (hne : s.calls ≠ []) (h : decode s.calls = .rejected why) :
    step s = .refused (.undecodable why) := by
  cases hcalls : s.calls with
  | nil => exact absurd hcalls hne
  | cons b bs => rw [hcalls] at h; simp [step, hcalls, h]

/-- Settles O2, by what the front of the queue decodes to. -/
theorem stepRunsDecodedCall : Obligations.StepRunsDecodedCall :=
  fun _ => ⟨fun _ _ => step_of_call, step_of_noCalls, fun _ => step_of_rejected⟩

end Sys2Proof.Machine
end

section
/-! SUPPORT. The statements of 10_state about reset and every call: what the decoder hands to a step, what every call
leaves, and the invariant. -/

namespace Sys2Proof

variable {α β : Type}

/-! ## What a reader can answer -/

/-- Every value the reader answers satisfies `P`. -/
def Parser.Yields (P : α → Prop) (x : Parser α) : Prop := ∀ bytes a rest, x bytes = .ok a rest → P a

section Yields

variable {P : α → Prop}

theorem Parser.Yields.pure {a : α} (h : P a) : Parser.Yields P (Pure.pure a) := by
  rintro bytes b rest e
  obtain ⟨rfl, -⟩ : a = b ∧ bytes = rest := by simpa using e
  exact h

theorem Parser.Yields.throw (e : DecodeError) : Parser.Yields P (throw e) := by
  rintro bytes a rest h
  simp at h

/-- What the last reader answers is what the whole reader answers. -/
theorem Parser.Yields.bindOf {Q : β → Prop} {x : Parser β} {f : β → Parser α} (hx : Parser.Yields Q x)
    (hf : ∀ b, Q b → Parser.Yields P (f b)) : Parser.Yields P (x >>= f) := by
  intro bytes a rest h
  rw [Parser.bind_run] at h
  cases hb : x bytes with
  | ok b rest' => rw [hb] at h; exact hf b (hx _ _ _ hb) _ _ _ h
  | error e rest' => rw [hb] at h; cases h

theorem Parser.Yields.any (x : Parser α) : Parser.Yields (fun _ => True) x := fun _ _ _ _ => trivial

theorem Parser.Yields.bind {x : Parser β} {f : β → Parser α} (hf : ∀ b, Parser.Yields P (f b)) :
    Parser.Yields P (x >>= f) := (Parser.Yields.any x).bindOf fun b _ => hf b

theorem Parser.Yields.ite (c : Prop) [Decidable c] {x y : Parser α} (hx : Parser.Yields P x)
    (hy : Parser.Yields P y) : Parser.Yields P (if c then x else y) := by split <;> assumption

end Yields

/-! ## What the decoder answers -/

/-- The reader answers instructions with a BitStream of R26's form only. -/
abbrev Parser.Representable (p : Parser Instr) : Prop := p.Yields fun i => i.representable = true

/-- A BitStream operand that is read has R26's form. -/
theorem parseStream_yields_valid : parseStream.Yields fun bs => bs.valid = true := by
  refine .bind fun buf => .bind fun idx => .bind fun mask => ?_
  dsimp only
  split
  case isTrue h => exact .pure h
  case isFalse => exact .throw _

theorem parseWord_representable (mask value : Byte) {i : Instr} (h : i.representable = true) :
    (parseWord mask value i).Representable :=
  .bind fun _ => .ite _ (.pure h) (.throw _)

/-! Only the first two rows read a BitStream; every other row answers its own instruction, whatever its operands. -/

theorem busRowParsers_representable : ∀ p ∈ busRowParsers, p.Representable := by
  simp only [busRowParsers, List.forall_mem_cons]
  exact ⟨parseStream_yields_valid.bindOf fun _ h => .pure h, parseStream_yields_valid.bindOf fun _ h => .pure h,
    .bind fun _ => .pure rfl, .bind fun _ => .pure rfl, .bind fun _ => .pure rfl, .bind fun _ => .pure rfl,
    .bind fun _ => .pure rfl, .pure rfl, .pure rfl, .pure rfl, .pure rfl, .pure rfl, .bind fun _ => .pure rfl,
    .pure rfl, .bind fun _ => .pure rfl, .pure rfl, .bind fun _ => .bind fun _ => .pure rfl,
    .bind fun _ => .bind fun _ => .pure rfl, nofun⟩

theorem engineRowParsers_representable : ∀ p ∈ engineRowParsers, p.Representable := by
  simp only [engineRowParsers, List.forall_mem_cons]
  exact ⟨.bind fun _ => .bind fun _ => .pure rfl, .bind fun _ => .bind fun _ => .pure rfl,
    .bind fun _ => .bind fun _ => .pure rfl, .pure rfl, .pure rfl, .bind fun _ => .pure rfl,
    .bind fun _ => .bind fun _ => .bind fun _ => .pure rfl, .bind fun _ => .bind fun _ => .bind fun _ => .pure rfl,
    .pure rfl, .pure rfl,
    .bind fun _ => .bind fun _ => .bind fun _ => .bind fun _ => .bind fun _ => .pure rfl,
    .bind fun _ => .bind fun _ => .pure rfl, .bind fun _ => .pure rfl,
    .bind fun _ => .bind fun _ => .bind fun _ => .bind fun _ => .bind fun _ => .pure rfl,
    .pure rfl, .bind fun _ => .pure rfl, .bind fun _ => .pure rfl, nofun⟩

theorem wireRowParsers_representable : ∀ p ∈ wireRowParsers, p.Representable := by
  have checked (c : Prop) [Decidable c] {e : DecodeError} {i : Instr} (h : i.representable = true) :
      (if c then (throw e >>= fun _ : PUnit => pure i) else pure i : Parser Instr).Representable :=
    .ite c (.bind fun _ => .pure h) (.pure h)
  simp only [wireRowParsers, List.forall_mem_cons]
  refine ⟨.bind fun _ => checked _ rfl, .bind fun _ => checked _ rfl, ?_, ?_, ?_, ?_, ?_, ?_,
    .bind fun _ => checked _ rfl, ?_, ?_, ?_, ?_, ?_, ?_, ?_, ?_, .bind fun _ => .bind fun _ => .pure rfl,
    .bind fun _ => .pure rfl, .bind fun b => ?size, .bind fun _ => .bind fun _ => .bind fun _ => .pure rfl,
    .bind fun _ => .bind fun _ => .bind fun _ => .pure rfl, .bind fun _ => .pure rfl, nofun⟩
  case size =>
    split
    case isTrue => exact .pure rfl
    case isFalse => exact .throw _
  all_goals exact parseWord_representable _ _ rfl

theorem nibRowParsers_representable : ∀ p ∈ nibRowParsers, p.Representable := by
  simp only [nibRowParsers, List.forall_mem_cons]
  refine ⟨?_, ?_, ?_, ?_, ?_, ?_, ?_, ?_, ?_, ?_, ?_, ?_, ?_, ?_, ?_, ?_, ?_, ?_, .pure rfl,
    .bind fun _ => .pure rfl, nofun⟩
  all_goals exact parseWord_representable _ _ rfl

theorem rowParsers_representable {p : Parser Instr} (h : p ∈ rowParsers) : p.Representable := by
  simp only [rowParsers, List.mem_append] at h
  obtain ((hbus | hengine) | hwire) | hnib := h
  · exact busRowParsers_representable p hbus
  · exact engineRowParsers_representable p hengine
  · exact wireRowParsers_representable p hwire
  · exact nibRowParsers_representable p hnib

theorem lookup_representable {rows : List (Nat × Instr)} (hrows : ∀ r ∈ rows, r.2.representable = true) {w : Nat}
    {i : Instr} (h : rows.lookup w = some i) : i.representable = true := by
  obtain ⟨before, after, rfl, -⟩ := List.lookup_eq_some_iff.1 h
  exact hrows (w, i) (by simp)

theorem decodeTableWord_representable {nbits w : Nat} {i : Instr} (h : decodeTableWord nbits w = some i) :
    i.representable = true := by
  have hlong : ∀ r ∈ longCodeRows, r.2.representable = true := by decide
  have hfixed : ∀ r ∈ fixedRows, r.2.representable = true := by decide
  unfold decodeTableWord at h
  split at h
  case isTrue => exact lookup_representable hlong h
  case isFalse =>
    split at h
    case isFalse => cases h
    case isTrue =>
      split at h
      case h_1 j hj => exact lookup_representable hfixed (hj.trans h)
      case h_2 =>
        obtain rfl := Option.some.inj h
        split <;> rfl

theorem parseTableWord_representable : parseTableWord.Representable := by
  refine .bind fun nbits => .bind fun w => ?_
  cases h : decodeTableWord nbits w with
  | some i => exact .pure (decodeTableWord_representable h)
  | none => exact .throw _

/-- A call that decodes carries operands of the form their types' rules fix. -/
theorem decode_representable {bytes rest : List Byte} {i : Instr} (h : decode bytes = .call i rest) :
    i.representable = true := by
  cases bytes with
  | nil => cases h
  | cons tag operands =>
    have hreader : ∀ p, (if tag = tableWordTag then some parseTableWord else rowParsers[tag.toNat]?) = some p →
        p.Representable := by
      intro p hp
      split at hp
      case isTrue => exact Option.some.inj hp ▸ parseTableWord_representable
      case isFalse => exact rowParsers_representable (List.mem_of_getElem? hp)
    simp only [decode] at h
    split at h
    case h_1 => cases h
    case h_2 p hp =>
      split at h
      case h_1 j rest' hrun =>
        obtain ⟨rfl, -⟩ := Decoded.call.inj h
        exact hreader p hp _ _ _ hrun
      case h_2 => cases h

end Sys2Proof

namespace Sys2Proof.Machine

/-! ## Reset (R44, R310) -/

/-- Settles O6: each clause is a field of the reset state. -/
theorem resetState : Obligations.ResetState :=
  ⟨rfl, rfl, rfl, rfl, rfl, rfl, rfl, rfl, rfl, rfl, rfl, rfl⟩

theorem noStream_valid : noStream.valid = true := by decide

/-- Settles O7: the reset memories list no cell, the stream is at its start, and the software bus has no limits. -/
theorem resetInv : Obligations.ResetInv where
  canonical := (Device.canonical_iff _ _).2 ⟨State.reset_regs_wf, State.reset_flash_wf, rfl, rfl⟩
  stream := noStream_valid
  software := fun _ => ⟨rfl, rfl⟩

/-! ## What a call leaves -/

/-- What the call of an instruction leaves: the constants, the form of the device memory, and the form of the BitStream
where the instruction carries none that lacks it. -/
structure CallFrame (i : Instr) (s t : State) : Prop extends Constant s t where
  canonical : s.device.canonical s.params = true → t.device.canonical t.params = true
  stream : i.representable = true → s.stream.valid = true → t.stream.valid = true

section CallFrame

variable {i : Instr} {α β : Type}

theorem CallFrame.refl (s : State) : CallFrame i s s := ⟨Constant.refl s, id, fun _ => id⟩

theorem CallFrame.trans {a b c : State} (h : CallFrame i a b) (k : CallFrame i b c) : CallFrame i a c :=
  ⟨h.toConstant.trans k.toConstant, fun hc => k.canonical (h.canonical hc),
    fun hi hv => k.stream hi (h.stream hi hv)⟩

theorem FlashFrame.call {s t : State} (h : FlashFrame s t) : CallFrame i s t :=
  ⟨h.toConstant, h.canonical, fun _ hv => h.stream ▸ hv⟩

theorem CallFrame.complete {s t : State} (h : CallFrame i s t) (v : Value) : CallFrame i s (t.complete v) :=
  ⟨h.toConstant.trans ⟨rfl, rfl, rfl, rfl, rfl, rfl, rfl, List.prefix_refl _⟩, h.canonical, h.stream⟩

theorem CallFrame.takeError {s t : State} (h : CallFrame i s t) (e : Err) : CallFrame i s (t.takeError e) :=
  ⟨h.toConstant.trans ⟨rfl, rfl, rfl, rfl, rfl, rfl, rfl, List.prefix_refl _⟩, h.canonical, h.stream⟩

theorem CallFrame.setSession (s : State) (v : Session) : CallFrame i s (s.setSession v) :=
  ⟨⟨rfl, rfl, rfl, rfl, rfl, rfl, rfl, List.prefix_refl _⟩, id, fun _ => id⟩

theorem CallFrame.setStream (s : State) {bs : BitStream}
    (h : i.representable = true → s.stream.valid = true → bs.valid = true) : CallFrame i s (s.setStream bs) :=
  ⟨⟨rfl, rfl, rfl, rfl, rfl, rfl, rfl, List.prefix_refl _⟩, id, h⟩

theorem CallFrame.pure (a : α) : Keeps (CallFrame i) (Pure.pure a : M α) := Keeps.pure CallFrame.refl a

theorem CallFrame.raise (e : Err) : Keeps (CallFrame i) (Machine.raise e : M α) := Keeps.raise CallFrame.refl e

theorem CallFrame.bind {x : M α} {f : α → M β} (hx : Keeps (CallFrame i) x) (hf : ∀ a, Keeps (CallFrame i) (f a)) :
    Keeps (CallFrame i) (x >>= f) := Keeps.bind (R := CallFrame i) (fun _ _ _ => CallFrame.trans) hx hf

theorem Keeps.call {x : M α} (h : Keeps FlashFrame x) : Keeps (CallFrame i) x := h.mono fun _ _ => FlashFrame.call

/-- An operation that leaves what a flash operation leaves, and then answers a value. -/
theorem Keeps.answer {x : M α} (h : Keeps FlashFrame x) (f : α → Value) :
    Keeps (CallFrame i) (x >>= fun a => Pure.pure (f a)) := CallFrame.bind h.call fun a => CallFrame.pure (f a)

theorem setSession_keeps (v : Session) : Keeps (CallFrame i) (modify fun s => s.setSession v) :=
  Keeps.update _ fun s => CallFrame.setSession s v

theorem setStream_keeps {bs : BitStream} (h : i.representable = true → bs.valid = true) :
    Keeps (CallFrame i) (modify fun s => s.setStream bs) :=
  Keeps.update _ fun s => CallFrame.setStream s fun hi _ => h hi

/-! ## Session changes -/

theorem openTransport_keeps : Keeps (CallFrame i) openTransport :=
  CallFrame.bind drawOpens_keeps.access.flash.call fun _ => Keeps.ite _ (setSession_keeps _) (CallFrame.raise _)

theorem enterIsp_keeps : Keeps (CallFrame i) enterIsp :=
  CallFrame.bind (AccessFrame.catching _ (regWrite8_keeps _ _) (AccessFrame.pure ())).flash.call fun _ =>
    CallFrame.bind (AccessFrame.catching _ (regRead8_keeps _) (AccessFrame.raise _)).flash.call fun _ =>
    CallFrame.bind (Keeps.whenever CallFrame.refl _ (CallFrame.raise _)) fun _ => setSession_keeps _

theorem exitIsp_keeps : Keeps (CallFrame i) exitIsp :=
  CallFrame.bind (AccessFrame.catching _ (regWrite8_keeps _ _) (AccessFrame.pure ())).flash.call fun _ =>
    setSession_keeps _

/-! ## The BitStream -/

theorem readStreamBit_valid {bs : BitStream} (h : bs.valid = true) : (readStreamBit bs).2.valid = true := by
  obtain ⟨bs', hread, hv, -⟩ := readStreamBit_spec h
  rwa [hread]

theorem decodeNib_valid (rule : Z6Rule) {bs : BitStream} (h : bs.valid = true) :
    (decodeNib rule bs).2.valid = true := by
  obtain ⟨-, hv, -⟩ := decodeNib_spec rule h
  exact hv

/-- Taking the last zeros keeps the stream's form. -/
theorem takeLastZeros_valid {n : Nat} {bs bs' : BitStream} (h : bs.valid = true) (e : takeLastZeros n bs = some bs') :
    bs'.valid = true := by
  have hnext := readStreamBit_valid h
  fun_induction takeLastZeros n bs with
  | case1 n bs next hread =>
    rw [hread] at hnext
    exact Option.some.inj e ▸ hnext
  | case2 | case3 => cases e
  | case4 bs next hread n ih =>
    rw [hread] at hnext
    exact ih hnext e (readStreamBit_valid hnext)

/-- Recognising a codeword keeps the stream's form where taking it does. -/
theorem recognise_keeps {take : BitStream → Option BitStream} (meaning : State → BitStream → NibResult)
    (h : ∀ bs bs', bs.valid = true → take bs = some bs' → bs'.valid = true) :
    Keeps (CallFrame i) (recognise take meaning) := by
  refine Keeps.getBind fun s => ?_
  cases htake : take s.stream with
  | none => exact CallFrame.refl s
  | some bs => exact CallFrame.setStream s fun _ hv => h _ _ hv htake

theorem recogniseCode_keeps (code : List Bit) (meaning : State → BitStream → NibResult) :
    Keeps (CallFrame i) (recognise (takeCode code) meaning) :=
  recognise_keeps meaning fun _ _ hv htake => (takeCode_some hv code htake).1

theorem valueResult_keeps (r : Except Err Value) : Keeps (CallFrame i) (valueResult r) := by
  cases r with
  | ok v => exact CallFrame.pure v
  | error e => exact CallFrame.raise e

theorem testReg_keeps (reg : Byte) (test : Byte → Bool) : Keeps (CallFrame i) (testReg reg test) :=
  (regRead8_keeps reg).flash.answer fun v => .bool (test v)

/-! ## Rows of several parts -/

theorem opndOperation_keeps (form : OpndForm) (s : State) : Keeps (CallFrame i) (operation (.opnd form) s) := by
  cases form with
  | write n value =>
    exact (AccessFrame.bind (AccessFrame.require _ _) fun _ =>
      AccessFrame.bind (AccessFrame.whenever _ (regWrite_keeps _ _ _)) fun _ => AccessFrame.pure _).flash.call
  | read n =>
    exact Keeps.ite _ (CallFrame.pure _) ((regRead_keeps _ _ _).flash.answer _)

theorem regwOperation_keeps (a : IspAddr) (reg : Byte) (chunk : List Byte) (s : State) :
    Keeps (CallFrame i) (operation (.regw a reg chunk) s) :=
  (AccessFrame.bind (AccessFrame.require _ _) fun _ => AccessFrame.bind (AccessFrame.require _ _) fun _ =>
    AccessFrame.bind (transWrite_keeps _ _) fun _ => AccessFrame.pure _).flash.call

theorem regrOperation_keeps (reg : Byte) (k : Nat) (seq : Bool) (s : State) :
    Keeps (CallFrame i) (operation (.regr reg k seq) s) :=
  (AccessFrame.bind (AccessFrame.require _ _) fun _ => AccessFrame.bind (AccessFrame.require _ _) fun _ =>
    AccessFrame.bind (transWrite_keeps _ _) fun _ => AccessFrame.bind (transRead_keeps _ _) fun _ =>
    AccessFrame.pure _).flash.call

theorem gffHeaderOperation_keeps (file : List Byte) (s : State) :
    Keeps (CallFrame i) (operation (.gffHeader file) s) := by
  rw [operation]
  cases headerPayload file with
  | error e => exact CallFrame.raise e
  | ok payload =>
    exact CallFrame.bind (setStream_keeps fun _ => (openStream_spec payload).1) fun _ => CallFrame.pure _

/-! ## Every instruction -/

/-- What every operation leaves, in every state. -/
theorem operation_keeps (i : Instr) (s : State) : Keeps (CallFrame i) (operation i s) := by
  cases i with
  | bsReadBit bs => exact CallFrame.bind (setStream_keeps readStreamBit_valid) fun _ => CallFrame.pure _
  | decodeNibble bs => exact CallFrame.bind (setStream_keeps (decodeNib_valid _)) fun _ => CallFrame.pure _
  | checkHeader file => exact valueResult_keeps _
  | decode file => exact CallFrame.bind (setStream_keeps fun _ => noStream_valid) fun _ => valueResult_keeps _
  | computeDecodedSize file => exact CallFrame.bind (setStream_keeps fun _ => noStream_valid) fun _ => CallFrame.pure _
  | drive l => exact (driveLine_keeps l).access.flash.answer _
  | release l => exact (releaseLine_keeps l).access.flash.answer _
  | waitScl => exact waitScl_keeps.access.flash.answer _
  | busReset => exact resetBus_keeps.access.flash.answer _
  | pulseScl => exact pulseScl_keeps.access.flash.answer _
  | start => exact startCondition_keeps.access.flash.answer _
  | stop => exact stopCondition_keeps.access.flash.answer _
  | writeBit b => exact (sendBit_keeps b).access.flash.answer _
  | readBit => exact recvBit_keeps.access.flash.answer _
  | readByte => exact recvByte_keeps.access.flash.answer _
  | writeByte | addrW | addrR | ispAddrWrite | ispAddrRead | ispAddrAiWrite | ispAddrAiRead =>
    exact (sendByte_keeps _).access.flash.answer _
  | busWrite address data => exact (busWrite_keeps address data).access.flash.answer _
  | busRead address count => exact (busRead_keeps address count).access.flash.answer _
  | ack | nack => exact (sendMasterAck_keeps _).access.flash.answer _
  | tWrite a bytes => exact (transWrite_keeps a bytes).flash.answer _
  | tRead a n => exact (transRead_keeps a n).flash.answer _
  | init => exact CallFrame.bind openTransport_keeps fun _ => CallFrame.pure _
  | deinit => exact CallFrame.bind (setSession_keeps _) fun _ => CallFrame.pure _
  | listDevices => exact drawListing_keeps.access.flash.answer _
  | detect a => exact (detectDevice_keeps a).flash.answer _
  | regWrite reg payload seq => exact (regWrite_keeps reg payload seq).flash.answer _
  | regRead reg n seq => exact (regRead_keeps reg n seq).flash.answer _
  | enterIsp => exact CallFrame.bind enterIsp_keeps fun _ => CallFrame.pure _
  | exitIsp => exact CallFrame.bind exitIsp_keeps fun _ => CallFrame.pure _
  | customInstruction => exact (customInstruction_keeps _ _ _ _ _).flash.answer _
  | deviceCrc first last => exact (deviceCrc_keeps first last).flash.answer _
  | hostCrc data => exact (computeHostCrc_keeps data).answer _
  | poll => exact (pollReg_keeps _ _ _ _ _).flash.answer _
  | erase => exact eraseFlash_keeps.flash.answer _
  | program img => exact (programFlashImage_keeps img).answer _
  | flashRead n => exact (readFlashImage_keeps n).answer _
  | ctrl | cmdEnterIsp | cmdCrc | cmdPageWrite | reboot => exact (regWrite8_keeps _ _).flash.answer _
  | statIsp | statBusy | statCrcReady | ciPending => exact testReg_keeps _ _
  | a24 r addr => exact (setAddr_keeps _ _).flash.answer _
  | opnd form => exact opndOperation_keeps form s
  | size lastIndex => exact Keeps.getBind fun t => (regWrite8_keeps _ _).flash.answer (fun _ => .unit) t
  | regw a reg chunk => exact regwOperation_keeps a reg chunk s
  | regr reg k seq => exact regrOperation_keeps reg k seq s
  | gffHeader file => exact gffHeaderOperation_keeps file s
  | nib0 | nibF | nib1 | nib8 | nib2 | nib7 | nibC | nib9 | nib4 | nib5 | nibA | nibB | nib3 | nibD | nibE | nib6
  | nibError | nibZ6 => exact recogniseCode_keeps _ _
  | nibEndExhausted => exact recognise_keeps _ fun _ _ => takeLastZeros_valid
  | pair n1 n2 => exact CallFrame.pure _

end CallFrame

/-- What every call that answers a next state leaves. -/
theorem exec_callFrame {i : Instr} {s t : State} (h : exec i s = .next t) : CallFrame i s t :=
  invoke_keeps (operation_keeps i s) (fun _ _ v hf => hf.complete v) (fun _ _ e hf => hf.takeError e) (exec_eq i s ▸ h)

/-- Settles O9: the constants are part of what every call leaves. -/
theorem execKeepsConstants : Obligations.ExecKeepsConstants :=
  fun _ _ _ h => (exec_callFrame h).toConstant

/-- A call whose operands have their types' form keeps the invariant. -/
theorem CallFrame.inv {i : Instr} {s t : State} (h : CallFrame i s t) (hi : i.representable = true) (hs : s.Inv) :
    t.Inv where
  canonical := h.canonical hs.canonical
  stream := h.stream hi hs.stream
  software hb := by
    obtain ⟨hread, hwrite⟩ := hs.software (h.backend ▸ hb)
    exact ⟨h.maxRead.trans hread, h.maxWrite.trans hwrite⟩

theorem State.Inv.setCalls {s : State} (h : s.Inv) (bytes : List Byte) : (s.setCalls bytes).Inv :=
  ⟨h.canonical, h.stream, h.software⟩

/-- Settles O8: a decoded call carries no BitStream but one of R26's form, and such a call keeps the invariant. -/
theorem stepKeepsInv : Obligations.StepKeepsInv := by
  intro s t hs hstep
  by_cases hempty : s.calls = []
  · rw [step_of_noCalls hempty] at hstep
    exact Host.Outcome.next.inj hstep ▸ hs
  · cases hcall : decode s.calls with
    | rejected why => rw [step_of_rejected hempty hcall] at hstep; cases hstep
    | call i rest =>
      rw [step_of_call hcall] at hstep
      exact (exec_callFrame hstep).inv (decode_representable hcall) (hs.setCalls rest)

end Sys2Proof.Machine
end

section
/-! SUPPORT. The status rows: a call whose operation follows a script ends as the script does, and the condition bits
are bits of the byte read. -/

namespace Sys2Proof.Machine

/-! ## A call along its script -/

/-- The state's own limits and parameters, with the error of each poll site (R224). -/
def State.setting (s : State) : Setting := ⟨s.maxWrite, s.maxRead, s.params, pollError⟩

theorem State.OnOracle.setting_holds {s : State} (h : s.OnOracle) : s.setting.Holds s := ⟨h, rfl, rfl, rfl⟩

section Script

variable {i : Instr} {s : State} {script cut : List Act} {v : Value} {e : Err} {ws : List WriteAnswer}
  {rs : List ReadAnswer} {xs : List Bool}

/-- A call answers what its operation answers along the script. -/
theorem exec_follows (hgate : sessionGate i s.session = true) (ho : s.OnOracle)
    (hruns : Runs s.setting (operation i s) script v) (ha : s.Answers script ws rs xs) :
    exec i s = .next ((s.afterAnswers ws rs xs (eventsOf script)).complete v) := by
  rw [exec_open hgate, hruns.follows s ws rs xs ho.setting_holds ha, conclude_ok]

/-- A call whose script is cut short ends with the error that cuts it (R260, R284). -/
theorem exec_cut (hgate : sessionGate i s.session = true) (ho : s.OnOracle)
    (hruns : Runs s.setting (operation i s) script v) (hcut : CutShort pollError script cut e)
    (ha : s.Answers cut ws rs xs) :
    exec i s = .next ((s.afterAnswers ws rs xs (eventsOf cut)).takeError e) := by
  rw [exec_open hgate, hruns.cut s ws rs xs cut e ho.setting_holds hcut ha, conclude_raised]

end Script

/-! ## The condition bits (R33, R90) -/

theorem statusIsp_bit (v : Byte) : statusIsp v = v.getLsbD 7 := by revert v; decide
theorem statusBusy_bit (v : Byte) : statusBusy v = v.getLsbD 6 := by revert v; decide
theorem statusCrcReady_bit (v : Byte) : statusCrcReady v = v.getLsbD 1 := by revert v; decide
theorem ciPendingBit_bit (v : Byte) : ciPendingBit v = v.getLsbD 0 := by revert v; decide

/-- A row that tests a register reads it once. -/
theorem testReg_runs {c : Setting} (hw : c.maxWrite ≠ 1) (reg v : Byte) (test : Byte → Bool) :
    Runs c (testReg reg test) (byteScript reg v) (.bool (test v)) :=
  (regRead8_runs hw reg v).map fun v => Value.bool (test v)

/-- Such a row answers the test's verdict on the byte read, or ends with the error of a failing transaction. -/
theorem exec_testReg {i : Instr} {s : State} {reg : Byte} {test : Byte → Bool} (hgate : sessionGate i s.session = true)
    (ho : s.OnOracle) (hop : operation i s = testReg reg test) (v : Byte) (ws : List WriteAnswer)
    (rs : List ReadAnswer) (xs : List Bool) :
    (s.Answers (byteScript reg v) ws rs xs →
      exec i s = .next ((s.afterAnswers ws rs xs (eventsOf (byteScript reg v))).complete (.bool (test v)))) ∧
    ∀ script e, CutShort pollError (byteScript reg v) script e → s.Answers script ws rs xs →
      exec i s = .next ((s.afterAnswers ws rs xs (eventsOf script)).takeError e) := by
  have hruns : Runs s.setting (operation i s) (byteScript reg v) (.bool (test v)) :=
    hop ▸ testReg_runs ho.wide reg v test
  exact ⟨exec_follows hgate ho hruns, fun _ _ => exec_cut hgate ho hruns⟩

/-- Settles O50: each row is `testReg` of its register with the test of its bit. -/
theorem statusRows : Obligations.StatusRows := by
  intro s v ws rs xs hs ho i reg k hrow
  have hgate : openSession s.session = true := (openSession_iff _).2 hs
  simp only [List.mem_cons, Prod.mk.injEq, List.not_mem_nil, or_false] at hrow
  obtain ⟨rfl, rfl, rfl⟩ | ⟨rfl, rfl, rfl⟩ | ⟨rfl, rfl, rfl⟩ | ⟨rfl, rfl, rfl⟩ := hrow
  · exact statusIsp_bit v ▸ exec_testReg (i := .statIsp) hgate ho rfl v ws rs xs
  · exact statusBusy_bit v ▸ exec_testReg (i := .statBusy) hgate ho rfl v ws rs xs
  · exact statusCrcReady_bit v ▸ exec_testReg (i := .statCrcReady) hgate ho rfl v ws rs xs
  · exact ciPendingBit_bit v ▸ exec_testReg (i := .ciPending) hgate ho rfl v ws rs xs

end Sys2Proof.Machine
end

section
/-! SUPPORT. The reference device of D34: what each transaction and each custom instruction does to its registers, its
flash and its hidden state. -/

namespace Sys2Proof.Machine

/-! ## Calls of the transaction primitives -/

section Calls

variable {s : State} {a : Addr7}

theorem exec_tWrite_reference (hs : s.session ≠ .closed) (ho : s.OnReference) (hw : s.maxWrite = 0)
    (ha : a = 0x4A ∨ a = 0x4B) (bytes : List Byte) :
    exec (.tWrite a bytes) s =
      .next ((s.afterAccess [.tWrite a bytes .ok] (s.device.receive s.params a bytes)).complete .unit) := by
  rw [exec_open (i := .tWrite a bytes) ((openSession_iff _).2 hs)]
  exact conclude_asUnit_ok (transWrite_reference ho ha bytes (.inl hw))

theorem exec_tRead_reference (hs : s.session ≠ .closed) (ho : s.OnReference) (hr : s.maxRead = 0)
    (ha : a = 0x4A ∨ a = 0x4B) (n : Nat) :
    exec (.tRead a n) s =
      .next ((s.afterAccess [.tRead a n (.ok (s.device.send s.params a n).1)]
        (s.device.send s.params a n).2).complete (.bytes (s.device.send s.params a n).1)) := by
  rw [exec_open (i := .tRead a n) ((openSession_iff _).2 hs), operation, M.bind_run,
    transRead_reference ho ha n (.inl hr)]
  rfl

theorem exec_tWrite_unanswered (hs : s.session ≠ .closed) (ho : s.OnReference) (hw : s.maxWrite = 0)
    (ha : ¬(a = 0x4A ∨ a = 0x4B)) (bytes : List Byte) :
    exec (.tWrite a bytes) s =
      .next ((s.afterAccess [.tWrite a bytes (.failed .noAck)] s.device).takeError (.noAck .backend)) := by
  rw [exec_open (i := .tWrite a bytes) ((openSession_iff _).2 hs)]
  exact conclude_asUnit_raised (transWrite_unanswered ho ha bytes (.inl hw))

theorem exec_tRead_unanswered (hs : s.session ≠ .closed) (ho : s.OnReference) (hr : s.maxRead = 0)
    (ha : ¬(a = 0x4A ∨ a = 0x4B)) (n : Nat) :
    exec (.tRead a n) s =
      .next ((s.afterAccess [.tRead a n (.failed .noAck)] s.device).takeError (.noAck .backend)) := by
  rw [exec_open (i := .tRead a n) ((openSession_iff _).2 hs), operation, M.bind_run,
    transRead_unanswered ho ha n (.inl hr)]
  rfl

end Calls

/-! ## Transactions -/

/-- A read of the port 0x70 answers the flash from the read position on, which advances (R38). -/
theorem Device.send_port (p : Params) (a : Addr7) {d : Device} (h : d.pointer = regData) (k : Nat) :
    d.send p a k = (d.readFlashRange p d.pos k, { d with pos := d.pos + k }) := by
  rw [Device.send, if_pos h]

/-- Any other read answers the registers from the pointer on (R43). -/
theorem Device.send_regs (p : Params) (a : Addr7) {d : Device} (h : d.pointer ≠ regData) (k : Nat) :
    d.send p a k = ((List.range k).map fun i => d.readReg (d.pointer + BitVec.ofNat 8 i),
      { d with pointer := pointerAfter a d.pointer k }) := by
  rw [Device.send, if_neg h]

/-- One byte written to a register other than the port. -/
theorem Device.receive_byte (p : Params) (a : Addr7) (d : Device) {r : Byte} (v : Byte) (h : r ≠ regData) :
    d.receive p a [r, v] = { d with pointer := if a = 0x4B then r + 1 else r }.writeReg p r v := by
  have hpointer : pointerAfter a r 1 = if a = 0x4B then r + 1 else r := by
    simp only [pointerAfter, h, ne_eq, not_false_eq_true, and_true]
    rfl
  rw [Device.receive_regs p a d [v] h, ← hpointer]
  rfl

/-! ## Registers that are stored plainly -/

/-- The register takes no command and is not the port 0x70. -/
def PlainReg (r : Byte) : Prop := r ≠ regCiCtrl ∧ r ≠ regIspCtrl ∧ r ≠ regData ∧ r ≠ regReboot

theorem storesPlainly_iff (r : Byte) (n : Nat) :
    storesPlainly r n = true ↔ r = regData ∨ ∀ k, k < n → PlainReg (r + BitVec.ofNat 8 k) := by
  simp [storesPlainly, PlainReg, regCiCtrl, regIspCtrl, regData, regReboot]

/-- Plain registers in a row are fewer than all registers, 0x60 not being one. -/
theorem plainRegs_length {r : Byte} {n : Nat} (h : ∀ k, k < n → PlainReg (r + BitVec.ofNat 8 k)) : n < 256 := by
  by_contra hn
  have hk := (regCiCtrl - r).isLt
  refine (h (regCiCtrl - r).toNat (by omega)).1 ?_
  rw [BitVec.ofNat_toNat, BitVec.setWidth_eq, BitVec.add_comm, BitVec.sub_add_cancel]

section Plain

variable {p : Params} {d : Device} {r : Byte} {data : List Byte}

theorem plainRegs_head {v : Byte} (h : ∀ k, k < (v :: data).length → PlainReg (r + BitVec.ofNat 8 k)) : PlainReg r := by
  simpa using h 0 (by simp)

theorem plainRegs_tail {v : Byte} (h : ∀ k, k < (v :: data).length → PlainReg (r + BitVec.ofNat 8 k)) :
    ∀ k, k < data.length → PlainReg (r + 1 + BitVec.ofNat 8 k) := fun k hk => by
  rw [regAfter_succ]
  exact h (k + 1) (by simpa using hk)

theorem Device.writeRegs_cons_plain {v : Byte} (h : PlainReg r) :
    d.writeRegs p r (v :: data) = (d.storeReg r v).writeRegs p (r + 1) data := by
  obtain ⟨hci, hisp, -, hreboot⟩ := h
  rw [Device.writeRegs, Device.writeReg_plain p d v hci hisp hreboot]

/-- Bytes stored plainly change the registers only. -/
theorem Device.writeRegs_plain (h : ∀ k, k < data.length → PlainReg (r + BitVec.ofNat 8 k)) :
    d.writeRegs p r data = { d with regs := (d.writeRegs p r data).regs } := by
  induction data generalizing d r with
  | nil => rfl
  | cons v vs ih =>
    rw [Device.writeRegs_cons_plain (plainRegs_head h)]
    exact ih (d := d.storeReg r v) (plainRegs_tail h)

/-- They leave every register they do not name. -/
theorem Device.readReg_writeRegs_other {x : Byte} (h : ∀ k, k < data.length → PlainReg (r + BitVec.ofNat 8 k))
    (hx : ∀ k, k < data.length → x ≠ r + BitVec.ofNat 8 k) : (d.writeRegs p r data).readReg x = d.readReg x := by
  induction data generalizing d r with
  | nil => rfl
  | cons v vs ih =>
    have hr : x ≠ r := by simpa using hx 0 (by simp)
    rw [Device.writeRegs_cons_plain (plainRegs_head h), ih (plainRegs_tail h), Device.readReg_storeReg_other d v hr]
    intro k hk
    rw [regAfter_succ]
    exact hx (k + 1) (by simpa using hk)

/-- Each is read back from its register. -/
theorem Device.readReg_writeRegs_at (hd : d.canonical p = true)
    (h : ∀ k, k < data.length → PlainReg (r + BitVec.ofNat 8 k)) {k : Nat} (hk : k < data.length) :
    some ((d.writeRegs p r data).readReg (r + BitVec.ofNat 8 k)) = data[k]? := by
  induction data generalizing d r k with
  | nil => simp at hk
  | cons v vs ih =>
    have hr : PlainReg r := plainRegs_head h
    have hlen : (v :: vs).length < 256 := plainRegs_length h
    rw [Device.writeRegs_cons_plain hr]
    cases k with
    | zero =>
      have hother : ∀ j, j < vs.length → r ≠ r + 1 + BitVec.ofNat 8 j := by
        intro j hj he
        rw [regAfter_succ, left_eq_add] at he
        have := congrArg BitVec.toNat he
        simp at this hlen
        omega
      rw [List.getElem?_cons_zero, show r + BitVec.ofNat 8 0 = r from BitVec.add_zero r,
        Device.readReg_writeRegs_other (plainRegs_tail h) hother, Device.readReg_storeReg_same hd v hr.2.1]
    | succ k =>
      rw [← regAfter_succ, List.getElem?_cons_succ]
      exact ih (Device.canonical_storeReg hd r v) (plainRegs_tail h) (by simpa using hk)

end Plain

/-! ## Programming the flash -/

/-- Programming leaves what stands before its first address, and nothing stands past chip_size (D34). -/
theorem read_programFlash_outside (p : Params) (m : Memory) (a : Nat) (bytes : List Byte) {x : Nat}
    (hx : x < a ∨ p.chipSize ≤ x) : (programFlash p m a bytes).read .flash x = m.read .flash x := by
  induction bytes generalizing m a with
  | nil => rfl
  | cons b bs ih =>
    rw [programFlash, ih _ (a + 1) (by omega)]
    split
    case isTrue => exact Memory.read_write_other .flash m a x _ (by omega)
    case isFalse => rfl

/-- Each other byte becomes its AND with the byte programmed onto it, and stays where there is none (D34). -/
theorem read_programFlash_inside (p : Params) (m : Memory) (a : Nat) (bytes : List Byte) (k : Nat)
    (hm : m.wf .flash = true) (hk : a + k < p.chipSize) :
    (programFlash p m a bytes).read .flash (a + k) = m.read .flash (a + k) &&& bytes[k]?.getD 0xFF := by
  induction bytes generalizing m a k with
  | nil => exact BitVec.and_allOnes.symm
  | cons b bs ih =>
    rw [programFlash, if_pos (by omega)]
    cases k with
    | zero =>
      rw [read_programFlash_outside p _ (a + 1) bs (.inl (by omega)), Memory.read_write .flash m a _ _ hm]
      simp
    | succ k =>
      rw [show a + (k + 1) = a + 1 + k by omega, ih _ (a + 1) k (Memory.wf_write _ _ _ _ hm) (by omega),
        Memory.read_write_other .flash m a (a + 1 + k) _ (by omega), List.getElem?_cons_succ]

/-! ## Commands -/

section Commands

variable {p : Params} {d e : Device} {r x v : Byte}

/-- A device whose cells are those of another after a store. -/
theorem Device.readReg_stored_same (hd : d.canonical p = true) (he : e.regs = (d.storeReg r v).regs)
    (hr : r ≠ regIspCtrl) : e.readReg r = v :=
  (Device.readReg_cells he hr).trans (Device.readReg_storeReg_same hd v hr)

theorem Device.readReg_stored_other (he : e.regs = (d.storeReg r v).regs) (hr : x ≠ r) (hx : x ≠ regIspCtrl) :
    e.readReg x = d.readReg x :=
  (Device.readReg_cells he hx).trans (Device.readReg_storeReg_other d v hr)

/-- A byte written to 0x60 with its go bit set starts the instruction (R33). -/
theorem Device.writeReg_go (h : ctrlGo v = true) : d.writeReg p regCiCtrl v = d.runInstruction p v := by
  rw [Device.writeReg, if_pos rfl, if_pos h]

end Commands

/-! ## What each write transaction does -/

section Transactions

variable (p : Params) (a : Addr7) (d : Device)

theorem Device.receive_enterIsp : d.receive p a [0x6F, 0x80] =
    { d with pointer := if a = 0x4B then 0x70 else 0x6F, ispMode := true } :=
  Device.receive_byte p a d 0x80 (by decide)

theorem Device.receive_reboot : d.receive p a [0xEE, 0x02] =
    { d.storeReg 0xEE 0x02 with pointer := if a = 0x4B then 0xEF else 0xEE, ispMode := false } := by
  rw [Device.receive_byte p a d 0x02 (by decide)]; rfl

theorem Device.receive_crc : d.receive p a [0x6F, 0x84] =
    { d.storeReg 0x75 (hostCrc (d.readFlashRange p (d.readValue 0x64 3)
        (d.readValue 0x72 3 + 1 - d.readValue 0x64 3))) with
      pointer := if a = 0x4B then 0x70 else 0x6F, crcReady := true } := by
  rw [Device.receive_byte p a d 0x84 (by decide)]; rfl

theorem Device.receive_pageWrite : d.receive p a [0x6F, 0xA0] =
    { d with
      pointer := if a = 0x4B then 0x70 else 0x6F, buffer := [],
      flash := programFlash p d.flash (d.readValue 0x64 3) d.buffer } := by
  rw [Device.receive_byte p a d 0xA0 (by decide)]; rfl

end Transactions

/-- What the page write leaves at an address of the flash, by the byte of the buffer that falls on it (R37, D34). -/
theorem read_programmed {p : Params} {d : Device} {base x : Nat} (hd : d.canonical p = true) (hx : x < p.chipSize) :
    (programFlash p d.flash base d.buffer).read .flash x =
      match d.buffer[x - base]? with
      | some b => if base ≤ x then d.flash.read .flash x &&& b else d.flash.read .flash x
      | none => d.flash.read .flash x := by
  obtain ⟨-, hflash, -, -⟩ := (Device.canonical_iff p d).1 hd
  by_cases hbase : base ≤ x
  · obtain ⟨k, rfl⟩ := Nat.exists_eq_add_of_le hbase
    rw [read_programFlash_inside p d.flash base d.buffer k hflash hx, Nat.add_sub_cancel_left]
    cases d.buffer[k]? with
    | some b => exact (if_pos hbase).symm
    | none => exact BitVec.and_allOnes
  · rw [read_programFlash_outside p d.flash base d.buffer (.inl (by omega))]
    cases d.buffer[x - base]? with
    | some b => exact (if_neg hbase).symm
    | none => rfl

/-- Settles O58: the calls by `exec_tWrite_reference` and `exec_tRead_reference`, the device by its `receive` and `send`
laws. -/
theorem deviceTransactions : Obligations.DeviceTransactions := by
  intro s a hs ho hw hr hd
  have hwrite (ha : a = 0x4A ∨ a = 0x4B) (bytes : List Byte) := exec_tWrite_reference hs ho hw ha bytes
  refine ⟨fun ha => ⟨exec_tWrite_unanswered hs ho hw ha, exec_tRead_unanswered hs ho hr ha⟩,
    fun ha => ⟨fun n hp => ?readRegs, fun n hp => ?readPort, fun reg data hplain => ?stores, ?enterIsp,
      ⟨_, hwrite ha _, ?reboot⟩, ⟨_, hwrite ha _, ?pageWrite⟩, ⟨_, hwrite ha _, ?crc⟩⟩⟩
  case readRegs =>
    refine ⟨_, _, pointerAfter_moves a s.device.pointer n, rfl, ?_⟩
    rw [exec_tRead_reference hs ho hr ha, Device.send_regs s.params a hp]
  case readPort =>
    refine ⟨_, rfl, ?_⟩
    rw [exec_tRead_reference hs ho hr ha, Device.send_port s.params a hp]
    rfl
  case stores =>
    refine ⟨_, hwrite ha _, ?_⟩
    by_cases hport : reg = regData
    · subst hport
      have hmoves := pointerAfter_moves a regData data.length
      rw [pointerAfter_port] at hmoves
      rw [Device.receive_port]
      exact ⟨hmoves, fun _ => rfl, fun h => absurd rfl h⟩
    · have hregs := ((storesPlainly_iff reg data.length).1 hplain).resolve_left hport
      rw [Device.receive_regs s.params a s.device data hport]
      have hcanon : { s.device with pointer := pointerAfter a reg data.length }.canonical s.params = true :=
        Device.canonical_of_eq hd rfl rfl
      have hfields := Device.writeRegs_plain (p := s.params)
        (d := { s.device with pointer := pointerAfter a reg data.length }) hregs
      have hpointer := congrArg Device.pointer hfields
      exact ⟨hpointer ▸ pointerAfter_moves a reg data.length, fun h => absurd h hport, fun _ =>
        ⟨hpointer ▸ hfields, fun k hk => Device.readReg_writeRegs_at hcanon hregs hk,
          fun r hr => Device.readReg_writeRegs_other hregs hr⟩⟩
  case enterIsp =>
    rw [hwrite ha, Device.receive_enterIsp]
  case reboot =>
    rw [Device.receive_reboot]
    exact ⟨rfl, Device.readReg_stored_same hd rfl (by decide), fun r => Device.readReg_stored_other rfl⟩
  case crc =>
    rw [Device.receive_crc]
    exact ⟨rfl, Device.readReg_stored_same hd rfl (by decide), fun r => Device.readReg_stored_other rfl⟩
  case pageWrite =>
    rw [Device.receive_pageWrite]
    exact ⟨rfl, fun x hx => read_programFlash_outside _ _ _ _ (.inr hx), fun x hx => read_programmed hd hx⟩

/-! ## Custom instructions -/

section Instructions

variable {p : Params} {d : Device} {c : Byte}

/-- The result registers 0x67 to 0x69 cleared, as a read instruction clears them. -/
def Device.clearResult (d : Device) : Device :=
  ((d.storeReg regRop 0).storeReg (regRop + 1) 0).storeReg (regRop + 2) 0

theorem Device.canonical_clearResult (hd : d.canonical p = true) : d.clearResult.canonical p = true :=
  Device.canonical_storeReg (Device.canonical_storeReg (Device.canonical_storeReg hd _ _) _ _) _ _

theorem Device.readReg_storeReg (hd : d.canonical p = true) {r : Byte} (v x : Byte) (h : r ≠ regIspCtrl) :
    (d.storeReg r v).readReg x = if x = r then v else d.readReg x := by
  split
  case isTrue hx => rw [hx, Device.readReg_storeReg_same hd v h]
  case isFalse hx => exact Device.readReg_storeReg_other d v hx

theorem Device.readReg_clearResult (hd : d.canonical p = true) (x : Byte) :
    d.clearResult.readReg x = if x = 0x69 ∨ x = 0x68 ∨ x = 0x67 then 0 else d.readReg x := by
  have h1 := Device.canonical_storeReg hd regRop 0
  have h2 := Device.canonical_storeReg h1 (regRop + 1) 0
  rw [Device.clearResult, Device.readReg_storeReg h2 _ _ (by decide), Device.readReg_storeReg h1 _ _ (by decide),
    Device.readReg_storeReg hd _ _ (by decide), ite_or, ite_or]
  rfl

/-- The control byte and the opcode register 0x61 name this instruction (R33). -/
abbrev Device.Asks (d : Device) (c : Byte) (cmdType : BitVec 3) (opcode : Byte) : Prop :=
  ctrlCmdType c = cmdType ∧ d.readReg regCiOpcode = opcode

/-- Erase blanks the flash. -/
theorem Device.runInstruction_erase (h : d.Asks c p.ctErase p.opErase) :
    d.runInstruction p c = { d with flash := [] }.storeReg regCiCtrl (c &&& 0xFE) := by
  rw [Device.runInstruction, if_pos h]

/-- Write-status-register takes the lowest byte of its operand, and keeps the protection byte where it has none. -/
theorem Device.runInstruction_writeStatus (he : ¬d.Asks c p.ctErase p.opErase) (h : d.Asks c p.ctWrenWrsr p.opWrsr) :
    d.runInstruction p c = { d with
      protection := if (ctrlWriteN c).toNat = 0 then d.protection
        else BitVec.ofNat 8 (d.readValue regAddr (ctrlWriteN c).toNat) }.storeReg regCiCtrl (c &&& 0xFE) := by
  rw [Device.runInstruction, if_neg he, if_pos h]
  split <;> rfl

/-- Read sets the read position and clears the result registers. -/
theorem Device.runInstruction_read (he : ¬d.Asks c p.ctErase p.opErase) (hw : ¬d.Asks c p.ctWrenWrsr p.opWrsr)
    (h : d.Asks c p.ctRead p.opRead) :
    d.runInstruction p c =
      { d with pos := d.readValue regAddr 3 }.clearResult.storeReg regCiCtrl (c &&& 0xFE) := by
  rw [Device.runInstruction, if_neg he, if_neg hw, if_pos h]
  rfl

theorem Device.runInstruction_other (he : ¬d.Asks c p.ctErase p.opErase) (hw : ¬d.Asks c p.ctWrenWrsr p.opWrsr)
    (h : ¬d.Asks c p.ctRead p.opRead) :
    d.runInstruction p c = d.storeReg regCiCtrl (c &&& 0xFE) := by
  rw [Device.runInstruction, if_neg he, if_neg hw, if_neg h]

/-- Whatever the instruction, 0x60 is stored last, on a canonical device whose other hidden state is the old one. -/
theorem Device.runInstruction_stores (hd : d.canonical p = true) (c : Byte) :
    ∃ e : Device, d.runInstruction p c = e.storeReg regCiCtrl (c &&& 0xFE) ∧ e.canonical p = true ∧
      e = { d with regs := e.regs, flash := e.flash, protection := e.protection, pos := e.pos } := by
  by_cases he : d.Asks c p.ctErase p.opErase
  · obtain ⟨hregs, -, hlow, -⟩ := (Device.canonical_iff p d).1 hd
    exact ⟨_, Device.runInstruction_erase he, (Device.canonical_iff _ _).2 ⟨hregs, rfl, hlow, rfl⟩, rfl⟩
  by_cases hw : d.Asks c p.ctWrenWrsr p.opWrsr
  · exact ⟨_, Device.runInstruction_writeStatus he hw, Device.canonical_of_eq hd rfl rfl, rfl⟩
  by_cases hr : d.Asks c p.ctRead p.opRead
  · exact ⟨_, Device.runInstruction_read he hw hr,
      Device.canonical_clearResult (Device.canonical_of_eq hd rfl rfl), rfl⟩
  · exact ⟨d, Device.runInstruction_other he hw hr, hd, rfl⟩

/-- The go bit written to 0x60 starts the instruction, with the pointer left at 0x60. -/
theorem Device.receive_go (h : ctrlGo c = true) :
    d.receive p 0x4A [0x60, c] = { d with pointer := 0x60 }.runInstruction p c := by
  rw [Device.receive_byte p 0x4A d c (by decide)]
  exact Device.writeReg_go h

theorem Device.readValue_one (r : Byte) : BitVec.ofNat 8 (d.readValue r 1) = d.readReg r := by
  simp [Device.readValue, beValue]

end Instructions

/-- Settles O59, by the law of `runInstruction` for each instruction, which `DistinctInstructions` tells apart. -/
theorem deviceInstructions : Obligations.DeviceInstructions := by
  intro s c hs ho hw hdistinct hd hgo d p op cmdType writeN
  have hat : { d with pointer := 0x60 }.canonical p = true := Device.canonical_of_eq hd rfl rfl
  have hcall := exec_tWrite_reference hs ho hw (.inl rfl) [0x60, c]
  rw [Device.receive_go hgo] at hcall
  obtain ⟨e, hstore, hcanon, hfields⟩ := Device.runInstruction_stores hat c
  refine ⟨_, hcall, ?fields, ?ctrl, fun hct hop => ?erase, fun hct hop => ?writeStatus, fun hct hop => ?read,
    fun he hws hrd => ?other⟩
  case fields =>
    rw [hstore, hfields]
    rfl
  case ctrl =>
    rw [hstore]
    exact Device.readReg_storeReg_same hcanon _ (by decide)
  case erase =>
    rw [Device.runInstruction_erase (d := { d with pointer := 0x60 }) ⟨hct, hop⟩]
    exact ⟨rfl, rfl, rfl, fun r hr => Device.readReg_storeReg_other _ _ hr⟩
  case writeStatus =>
    have he : ¬(cmdType = p.ctErase ∧ op = p.opErase) := fun ⟨h1, h2⟩ =>
      hdistinct.eraseWrsr ⟨h1.symm.trans hct, h2.symm.trans hop⟩
    rw [Device.runInstruction_writeStatus (d := { d with pointer := 0x60 }) he ⟨hct, hop⟩]
    refine ⟨fun h0 => if_pos (congrArg BitVec.toNat h0), fun h1 => ?_,
      fun hne => if_neg fun h0 => hne (BitVec.eq_of_toNat_eq h0), rfl, rfl,
      fun r hr => Device.readReg_storeReg_other _ _ hr⟩
    rw [show ctrlWriteN c = 1 from h1]
    exact Device.readValue_one regAddr
  case read =>
    have he : ¬(cmdType = p.ctErase ∧ op = p.opErase) := fun ⟨h1, h2⟩ =>
      hdistinct.eraseRead ⟨h1.symm.trans hct, h2.symm.trans hop⟩
    have hws : ¬(cmdType = p.ctWrenWrsr ∧ op = p.opWrsr) := fun ⟨h1, h2⟩ =>
      hdistinct.wrsrRead ⟨h1.symm.trans hct, h2.symm.trans hop⟩
    rw [Device.runInstruction_read (d := { d with pointer := 0x60 }) he hws ⟨hct, hop⟩]
    have hclear (r : Byte) (hr : r ≠ 0x60) := (Device.readReg_storeReg_other _ (c &&& 0xFE) hr).trans
      (Device.readReg_clearResult (d := { d with pointer := 0x60, pos := d.readValue regAddr 3 })
        (Device.canonical_of_eq hd rfl rfl) r)
    refine ⟨rfl, hclear 0x67 (by decide), hclear 0x68 (by decide), hclear 0x69 (by decide), rfl, rfl,
      fun r hr h67 h68 h69 => (hclear r hr).trans (if_neg ?_)⟩
    exact not_or.2 ⟨h69, not_or.2 ⟨h68, h67⟩⟩
  case other =>
    rw [Device.runInstruction_other (d := { d with pointer := 0x60 }) he hws hrd]
    exact ⟨rfl, rfl, rfl, fun r hr => Device.readReg_storeReg_other _ _ hr⟩

end Sys2Proof.Machine
end

section
/-! SUPPORT. The statements of 30_encoding: the words and fields of the encodings, the codeword rows on the stream
register, the master's ninth bit, and the rows that are register accesses or single transactions. -/

namespace Sys2Proof

/-! ## Words and fields (R81 to R100) -/

/-- A call written out is read back as the instruction whose call bytes it is. -/
theorem decode_of_encode {i : Instr} {bytes : List Byte} (hi : i.representable = true) (hbytes : encode i = bytes) :
    decode bytes = .call i [] := by
  rw [← hbytes, ← decodeEncode i [] hi, List.append_nil]

/-- Settles O3: the bare words stand in the decoder's tables, and each call is the call bytes of its instruction. -/
theorem specWordsDecode : Obligations.SpecWordsDecode :=
  ⟨rfl, rfl, rfl, rfl, rfl, rfl, rfl, decode_of_encode rfl rfl, decode_of_encode rfl rfl, decode_of_encode rfl rfl,
    decode_of_encode rfl rfl, decode_of_encode rfl rfl, decode_of_encode rfl rfl, decode_of_encode rfl rfl⟩

theorem addressByte_toNat (a : Addr7) (rw : Bit) : (addressByte a rw).toNat = 2 * a.toNat + rw.toNat := by
  have hsum : ∀ (a : Addr7) (rw : Bit), (addressByte a rw).toNat = 2 * a.toNat + rw.toNat := by decide
  exact hsum a rw

theorem controlByte_toNat (cmdType : BitVec 3) (writeN readN : BitVec 2) :
    (controlByte cmdType writeN readN).toNat = 32 * cmdType.toNat + 8 * writeN.toNat + 2 * readN.toNat + 1 := by
  have hcmd := cmdType.isLt
  have hwrite := writeN.isLt
  have hread := readN.isLt
  rw [Machine.controlByte_value, BitVec.toNat_ofNat]
  omega

/-- Settles O4: the value of each byte, and the fields read back from it. -/
theorem wireBytes : Obligations.WireBytes := by
  refine ⟨fun a rw => ⟨addressByte_toNat a rw, addressField_addressByte a rw, addressByte_getElem_zero a rw⟩,
    fun cmdType writeN readN => ?_⟩
  obtain ⟨hcmd, hwrite, hread⟩ := ctrlFields_controlByte cmdType writeN readN
  exact ⟨controlByte_toNat cmdType writeN readN, hcmd, hwrite, hread, ctrlGo_controlByte cmdType writeN readN⟩

end Sys2Proof

namespace Sys2Proof.Machine

/-! ## F-PAIR (R100) -/

theorem pairByte_toNat (n1 n2 : Nibble) : (pairByte n1 n2).toNat = 16 * n1.toNat + n2.toNat := by
  have hsum : ∀ n1 n2 : Nibble, (pairByte n1 n2).toNat = 16 * n1.toNat + n2.toNat := by decide
  exact hsum n1 n2

/-- Settles O23: the row answers `pairByte`. -/
theorem pairRow : Obligations.PairRow :=
  fun n1 n2 s => ⟨pairByte n1 n2, pairByte_toNat n1 n2, exec_open (i := .pair n1 n2) (s := s) rfl⟩

/-! ## Codewords at the cursor (R97) -/

theorem readStreamBit_buf (bs : BitStream) : (readStreamBit bs).2.buf = bs.buf := by
  unfold readStreamBit advanceBit
  split
  · dsimp only; split <;> rfl
  · rfl

theorem takeCode_buf {code : List Bit} {bs bs' : BitStream} (h : takeCode code bs = some bs') : bs'.buf = bs.buf := by
  have hnext := readStreamBit_buf bs
  fun_induction takeCode code bs with
  | case1 bs => exact Option.some.inj h ▸ rfl
  | case2 c cs bs next hread ih =>
    rw [hread] at hnext
    exact (ih h (readStreamBit_buf next)).trans hnext
  | case3 | case4 => cases h

theorem takeLastZeros_buf {n : Nat} {bs bs' : BitStream} (h : takeLastZeros n bs = some bs') : bs'.buf = bs.buf := by
  have hnext := readStreamBit_buf bs
  fun_induction takeLastZeros n bs with
  | case1 n bs next hread =>
    rw [hread] at hnext
    exact Option.some.inj h ▸ hnext
  | case2 | case3 => cases h
  | case4 bs next hread n ih =>
    rw [hread] at hnext
    exact (ih h (readStreamBit_buf next)).trans hnext

theorem takeLastZeros_nil (n : Nat) {bs : BitStream} (hv : bs.valid = true) (hu : unread bs = []) :
    ∃ bs', takeLastZeros n bs = some bs' ∧ bs'.valid = true ∧ unread bs' = [] := by
  obtain ⟨bs', hread, hend⟩ := readStreamBit_nil hv hu
  exact ⟨bs', by rw [takeLastZeros, hread], hend⟩

/-- The stream's end after at most n zeros. -/
theorem takeLastZeros_replicate {n k : Nat} {bs : BitStream} (hv : bs.valid = true) (hk : k ≤ n)
    (hu : unread bs = List.replicate k false) :
    ∃ bs', takeLastZeros n bs = some bs' ∧ bs'.valid = true ∧ unread bs' = [] := by
  induction k generalizing n bs with
  | zero => exact takeLastZeros_nil n hv hu
  | succ k ih =>
    obtain ⟨n, rfl⟩ : ∃ m, n = m + 1 := ⟨n - 1, by omega⟩
    obtain ⟨next, hread, hv', hu'⟩ := readStreamBit_cons hv hu
    obtain ⟨bs', htake, hend⟩ := ih hv' (Nat.le_of_succ_le_succ hk) hu'
    exact ⟨bs', by rw [takeLastZeros, hread]; exact htake, hend⟩

/-- The end is taken only where at most n zeros are left. -/
theorem unread_of_takeLastZeros {n : Nat} {bs bs' : BitStream} (hv : bs.valid = true)
    (h : takeLastZeros n bs = some bs') : ∃ k, k ≤ n ∧ unread bs = List.replicate k false := by
  have hspec := readStreamBit_spec hv
  fun_induction takeLastZeros n bs with
  | case1 n bs next hread =>
    rw [hread] at hspec
    obtain ⟨_, heq, -, -⟩ := hspec
    have hnil : unread bs = [] := by simpa using (Prod.mk.inj heq).1.symm
    exact ⟨0, Nat.zero_le n, hnil⟩
  | case2 | case3 => cases h
  | case4 bs next hread n ih =>
    rw [hread] at hspec
    obtain ⟨_, heq, hv', htail⟩ := hspec
    obtain ⟨hhead, rfl⟩ := Prod.mk.inj heq
    obtain ⟨k, hk, hu⟩ := ih hv' h (readStreamBit_spec hv')
    have hcons : unread bs = false :: unread next := by
      rw [htail]
      exact (List.cons_head?_tail hhead.symm).symm
    exact ⟨k + 1, Nat.succ_le_succ hk, by rw [hcons, hu, List.replicate_succ]⟩

/-! ## The codeword rows -/

section Recogniser

variable {i : Instr} {s : State} {take : BitStream → Option BitStream} {meaning : State → BitStream → NibResult}

/-- A recogniser that takes its codeword moves the stream register past it and answers its meaning. -/
theorem exec_recognise_some (hgate : sessionGate i = anySession) (hop : operation i s = recognise take meaning)
    {bs' : BitStream} (htake : take s.stream = some bs') :
    exec i s = .next ({ s with stream := bs' }.complete (.codeword (some (meaning s bs')))) := by
  rw [exec_open (by rw [hgate]; rfl), hop]
  simp only [recognise, M.bind_run, M.get_run, htake, M.set_run, M.pure_run, conclude_ok]
  rfl

/-- A recogniser that does not take its codeword changes nothing. -/
theorem exec_recognise_none (hgate : sessionGate i = anySession) (hop : operation i s = recognise take meaning)
    (htake : take s.stream = none) : exec i s = .next (s.complete (.codeword none)) := by
  rw [exec_open (by rw [hgate]; rfl), hop]
  simp only [recognise, M.bind_run, M.get_run, htake, M.pure_run, conclude_ok]

variable {code : List Bit}

theorem exec_codeword_present (hgate : sessionGate i = anySession)
    (hop : operation i s = recognise (takeCode code) meaning) (hv : s.stream.valid = true) {rest : List Bit}
    (hu : unread s.stream = code ++ rest) :
    ∃ bs', bs'.valid = true ∧ bs'.buf = s.stream.buf ∧ unread bs' = rest ∧
      exec i s = .next ({ s with stream := bs' }.complete (.codeword (some (meaning s bs')))) := by
  obtain ⟨bs', htake, hv', hu'⟩ := takeCode_append hv code rest hu
  exact ⟨bs', hv', takeCode_buf htake, hu', exec_recognise_some hgate hop htake⟩

theorem exec_codeword_absent (hgate : sessionGate i = anySession)
    (hop : operation i s = recognise (takeCode code) meaning) (hv : s.stream.valid = true)
    (hu : ¬ code <+: unread s.stream) : exec i s = .next (s.complete (.codeword none)) := by
  refine exec_recognise_none hgate hop ?_
  cases htake : takeCode code s.stream with
  | none => rfl
  | some bs' =>
    obtain ⟨-, happend⟩ := takeCode_some hv code htake
    exact absurd ⟨unread bs', happend.symm⟩ hu

end Recogniser

/-- The row of a nibble recognises that nibble's codeword, in any session. -/
theorem nibRow_recognises (v : Nibble) (s : State) :
    sessionGate (nibRow v) = anySession ∧ operation (nibRow v) s = recogniseNibble v := by
  obtain ⟨⟨n, hn⟩⟩ := v
  interval_cases n <;> exact ⟨rfl, rfl⟩

/-- Settles O18: the nibble, error and 000000 rows take their codeword at the cursor; the exhausted row takes the last
zeros. -/
theorem codewordRows : Obligations.CodewordRows := by
  intro s hv
  refine ⟨fun v => ?_, fun rest => exec_codeword_present (i := .nibError) (meaning := fun _ _ => .error) rfl rfl hv,
    exec_codeword_absent rfl rfl hv, fun rest hu => ?_, exec_codeword_absent rfl rfl hv, fun k hk hu => ?_,
    fun hu => ?_⟩
  · obtain ⟨hgate, hop⟩ := nibRow_recognises v s
    exact ⟨fun rest => exec_codeword_present hgate hop hv, exec_codeword_absent hgate hop hv⟩
  · obtain ⟨bs', hv', hbuf, hu', hexec⟩ := exec_codeword_present (i := .nibZ6) rfl rfl hv hu
    rw [remaining_spec hv', hu'] at hexec
    exact ⟨bs', hv', hbuf, hu', hexec⟩
  · obtain ⟨bs', htake, hv', hu'⟩ := takeLastZeros_replicate hv hk hu
    exact ⟨bs', hv', takeLastZeros_buf htake, hu',
      exec_recognise_some (meaning := fun _ _ => .endMarker) rfl rfl htake⟩
  · refine exec_recognise_none (i := .nibEndExhausted) rfl rfl ?_
    cases htake : takeLastZeros 5 s.stream with
    | none => rfl
    | some bs' =>
      obtain ⟨k, hk, hzeros⟩ := unread_of_takeLastZeros hv htake
      exact absurd hzeros (hu k hk)

/-! ## The master's ninth bit (R82, R162) -/

theorem sendMasterAck_of_rxAck {s : State} (h : s.params.masterRxAck = true) (b : Bit) :
    sendMasterAck b s = sendBit b s := by
  simp only [sendMasterAck, M.bind_run, M.get_run, h, whenever_true]

theorem sendMasterAck_of_noRxAck {s : State} (h : s.params.masterRxAck = false) (b : Bit) :
    sendMasterAck b s = .ok () s := by
  simp only [sendMasterAck, M.bind_run, M.get_run, h, whenever_false]

/-- A row that sends the master's ninth bit ends as the sending does. -/
theorem exec_masterAck {i : Instr} {s t : State} {b : Bit} (hs : s.session ≠ .closed)
    (hgate : sessionGate i = openSession) (hop : operation i s = asUnit (sendMasterAck b))
    (hsend : sendMasterAck b s = .ok () t) : exec i s = .next (t.complete .unit) := by
  rw [exec_open (by rw [hgate]; exact (openSession_iff _).2 hs), hop]
  exact conclude_asUnit_ok hsend

/-- Settles O31: with MASTER_RX_ACK the rows send one bit, an ACK over a driven and a NACK over a released SDA. -/
theorem masterAckRows : Obligations.MasterAckRows := by
  intro s rest hs
  refine ⟨fun hrx hsenses => ?_, fun u hrx hsenses => ?_, fun hrx => ⟨?_, ?_⟩⟩
  · exact exec_masterAck hs rfl rfl
      ((sendMasterAck_of_rxAck hrx false).trans (sendBit_quiet (fun _ => true) 0 false s rest hsenses))
  · exact exec_masterAck hs rfl rfl
      ((sendMasterAck_of_rxAck hrx true).trans (sendBit_quiet (fun _ => u) 0 true s rest hsenses))
  · exact exec_masterAck hs rfl rfl (sendMasterAck_of_noRxAck hrx false)
  · exact exec_masterAck hs rfl rfl (sendMasterAck_of_noRxAck hrx true)

/-! ## The rows that write a register, and F-OPND (R86 to R93) -/

section Runs

variable {c : Setting}

theorem Runs.asUnit {x : M Unit} {script : List Act} (hx : Runs c x script ()) :
    Runs c (Machine.asUnit x) script .unit := hx.map fun _ => Value.unit

/-- One byte goes to the same address in either mode (R210). -/
theorem regWrite8_runs_seq (hw : c.maxWrite ≠ 1) (reg v : Byte) :
    Runs c (regWrite8 reg v) (writeScript c.maxWrite reg [v] true) () := by
  rw [writeScript_one _ hw reg v true, ← writeScript_one _ hw reg v false]
  exact regWrite8_runs hw reg v

end Runs

theorem registerWriteOf_gate {p : Params} {i : Instr} {write : Byte × List Byte}
    (h : registerWriteOf p i = some write) : sessionGate i = openSession := by
  cases i with
  | ctrl | cmdEnterIsp | cmdCrc | cmdPageWrite | reboot | size | a24 | opnd => rfl
  | _ => cases h

/-- The row runs the register write of its encoding (R86, R88, R89, R91 to R93). -/
theorem registerWriteOf_runs {s : State} (hw : s.maxWrite ≠ 1) {i : Instr} {reg : Byte} {payload : List Byte}
    (h : registerWriteOf s.params i = some (reg, payload)) :
    Runs s.setting (operation i s) (writeScript s.maxWrite reg payload true) .unit := by
  have hw' : s.setting.maxWrite ≠ 1 := hw
  cases i with
  | ctrl cmdType writeN readN =>
    cases h
    rw [← controlByte_value]
    exact (regWrite8_runs_seq hw' _ _).asUnit
  | cmdEnterIsp | cmdCrc | cmdPageWrite | reboot =>
    cases h
    exact (regWrite8_runs_seq hw' _ _).asUnit
  | size lastIndex =>
    cases h
    refine Runs.readState fun t ht => ?_
    rw [ht.params]
    exact (regWrite8_runs_seq hw' _ _).asUnit
  | a24 group addr =>
    cases group <;> cases h <;> exact (setAddr_runs hw' _ _).asUnit
  | opnd form =>
    cases form with
    | read n => cases h
    | write n value =>
      obtain ⟨⟨hn, hfits⟩, heq⟩ := Option.ite_none_right_eq_some.1 h
      cases heq
      have hn' : n.toNat ≠ 0 := fun h0 => hn (BitVec.eq_of_toNat_eq h0)
      have hwrite := operandWrite_runs hw' n.toNat value
      rw [if_neg hn'] at hwrite
      exact (Runs.require .operandRange (operandFits_true fun _ => hfits)).skip hwrite.asUnit
  | _ => cases h

/-- F-OPND of result bytes reads them from the result registers (R88). -/
theorem opndRead_runs {s : State} (hw : s.maxWrite ≠ 1) {n : BitVec 2} {out : List Byte} (hn : n ≠ 0)
    (hlen : out.length = n.toNat) :
    Runs s.setting (operation (.opnd (.read n)) s) (readScript s.maxRead 0x67 out true)
      (.optNat (some (beValue out))) := by
  have hn' : n.toNat ≠ 0 := fun h0 => hn (BitVec.eq_of_toNat_eq h0)
  have hout : out ≠ [] := by
    rintro rfl
    exact hn' hlen.symm
  rw [operation, if_neg hn', ← hlen]
  exact (regRead_runs (c := s.setting) hw regRop out true hout).map fun bytes => Value.optNat (some (beValue bytes))

/-- Settles O49: each row follows the script of its register access. -/
theorem registerRows : Obligations.RegisterRows := by
  intro s ws rs xs hs ho
  have hgate : openSession s.session = true := (openSession_iff _).2 hs
  refine ⟨fun i reg payload hi => ?_, fun value => exec_open hgate, exec_open hgate, fun n out hn hlen => ?_⟩
  · have hi' : sessionGate i s.session = true := by rw [registerWriteOf_gate hi, hgate]
    have hruns := registerWriteOf_runs ho.wide hi
    exact ⟨exec_follows hi' ho hruns, fun _ _ => exec_cut hi' ho hruns⟩
  · have hruns := opndRead_runs ho.wide hn hlen
    exact ⟨exec_follows hgate ho hruns, fun _ _ => exec_cut hgate ho hruns⟩

/-! ## F-REGW and F-REGR (R84, R85) -/

/-- The ISP addresses as numbers (R83). -/
theorem writeAddr_eq (a : IspAddr) : a.addr = if a = .autoinc then 0x4B else 0x4A := by
  cases a <;> rfl

theorem readAddr_eq (seq : Bool) : (if seq then ispAddrAi else ispAddr) = if seq then (0x4B : Addr7) else 0x4A := by
  cases seq <;> rfl

/-- F-REGW is one write (R84). -/
theorem regw_runs {s : State} (hw : s.maxWrite ≠ 1) (a : IspAddr) (reg : Byte) {chunk : List Byte} (hne : chunk ≠ [])
    (hfit : s.maxWrite = 0 ∨ chunk.length + 1 ≤ s.maxWrite) :
    Runs s.setting (operation (.regw a reg chunk) s)
      [.saw (.tWrite (if a = .autoinc then 0x4B else 0x4A) (reg :: chunk) .ok)] .unit := by
  rw [← writeAddr_eq]
  exact (Runs.require .emptyPayload (decide_eq_true hne)).skip
    ((Runs.require .transportTooSmall (decide_eq_true hw)).skip (transWrite_runs a.addr (reg :: chunk) hfit).asUnit)

/-- F-REGR is a write of the register byte, then one read (R85). -/
theorem regr_runs {s : State} (reg : Byte) (seq : Bool) {out : List Byte} (hne : out ≠ [])
    (hfit : s.maxRead = 0 ∨ out.length ≤ s.maxRead) :
    Runs s.setting (operation (.regr reg out.length seq) s)
      ([.saw (.tWrite 0x4A [reg] .ok)] ++ [.saw (.tRead (if seq then 0x4B else 0x4A) out.length (.ok out))])
      (.bytes out) := by
  have hone : s.maxWrite = 0 ∨ [reg].length ≤ s.maxWrite := Nat.eq_zero_or_pos s.maxWrite
  have hlen : out.length ≠ 0 := fun h0 => hne (List.length_eq_zero_iff.1 h0)
  rw [← readAddr_eq]
  exact (Runs.require .emptyRead (decide_eq_true hlen)).skip
    ((Runs.require .tooLong (decide_eq_true hfit)).skip
      ((transWrite_runs ispAddr [reg] hone).bind ((transRead_runs _ out hfit).map Value.bytes)))

/-- Settles O51: the rows follow the scripts of their transactions, which a failing one cuts short. Where F-REGR fails,
the bytes of the script that is cut short are any n bytes. -/
theorem transactionRows : Obligations.TransactionRows := by
  intro s reg ws rs hs ho
  have hopen : openSession s.session = true := (openSession_iff _).2 hs
  refine ⟨fun a chunk r hne hfit hwrites => ?_, fun n seq why hn hfit hwrites => ?_,
    fun n seq why hn hfit hwrites hreads => ?_, fun out seq hne hfit hwrites hreads => ?_⟩
  · have hruns := regw_runs ho.wide a reg hne hfit
    cases r with
    | ok => exact exec_follows (i := .regw a reg chunk) hopen ho hruns ⟨hwrites, rfl, rfl⟩
    | failed why =>
      exact exec_cut (i := .regw a reg chunk) hopen ho hruns (.write [] [] _ _ why rfl) ⟨hwrites, rfl, rfl⟩
  · obtain ⟨out, rfl⟩ : ∃ out : List Byte, out.length = n := ⟨List.replicate n 0, List.length_replicate⟩
    have hruns := regr_runs reg seq (List.length_pos_iff.1 (by omega)) hfit
    exact exec_cut (i := .regr reg out.length seq) hopen ho hruns (.write [] _ _ _ why rfl) ⟨hwrites, rfl, rfl⟩
  · obtain ⟨out, rfl⟩ : ∃ out : List Byte, out.length = n := ⟨List.replicate n 0, List.length_replicate⟩
    have hruns := regr_runs reg seq (List.length_pos_iff.1 (by omega)) hfit
    exact exec_cut (i := .regr reg out.length seq) hopen ho hruns (.read [_] [] _ out why rfl) ⟨hwrites, hreads, rfl⟩
  · exact exec_follows (i := .regr reg out.length seq) hopen ho (regr_runs reg seq hne hfit) ⟨hwrites, hreads, rfl⟩

end Sys2Proof.Machine
end

section
/-! SUPPORT. The statements of 40_gff_codec: the bit reader, the nibble decoder, the header, the decoder by the
codewords of its payload, the size walk, and the round trip. -/

namespace Sys2Proof.Machine

/-! ## The bit reader (R120, R122) -/

/-- Settles O15: the count of the bits, and the formula, which is the definition. -/
theorem remainingBits : Obligations.RemainingBits :=
  fun _ hv => ⟨remaining_spec hv, rfl⟩

theorem readStreamBit_past {bs : BitStream} (h : bs.buf.length ≤ bs.idx) : readStreamBit bs = (none, bs) := by
  simp [readStreamBit, hasData, h]

theorem readStreamBit_at {bs : BitStream} {b : Byte} (h : bs.buf[bs.idx]? = some b) :
    readStreamBit bs = (some (decide (b &&& bs.mask ≠ 0)), advanceBit bs) := by
  obtain ⟨hlt, hget⟩ := List.getElem?_eq_some_iff.1 h
  simp [readStreamBit, hasData, hlt, hget]

theorem advanceBit_eq (bs : BitStream) :
    advanceBit bs =
      { buf := bs.buf
        idx := if bs.mask >>> 1 = 0 then bs.idx + 1 else bs.idx
        mask := if bs.mask >>> 1 = 0 then 0x80 else bs.mask >>> 1 } := by
  unfold advanceBit
  split <;> rfl

/-- `bs_read_bit` answers the bit it reads and keeps the stream it leaves. -/
theorem exec_bsReadBit {bs bs' : BitStream} {b : Option Bit} (h : readStreamBit bs = (b, bs')) (s : State) :
    exec (.bsReadBit bs) s = .next ({ s with stream := bs' }.complete (.optBit b)) := by
  rw [exec_open rfl, operation, h]
  rfl

/-- Settles O16: past the end, at a byte, and in terms of the unread bits. -/
theorem bsReadBit : Obligations.BsReadBit := by
  intro bs s
  refine ⟨fun hpast => exec_bsReadBit (readStreamBit_past hpast) s, fun b hb => ?_, fun hv => ?_⟩
  · rw [exec_bsReadBit (readStreamBit_at hb) s, advanceBit_eq]
  · obtain ⟨bs', hread, hv', htail⟩ := readStreamBit_spec hv
    exact ⟨bs', hv', htail, exec_bsReadBit hread s⟩

/-! ## The nibble decoder keeps the payload (R121) -/

theorem nextBit_buf {k : Bit → BitStream → NibResult × BitStream} (hk : ∀ b bs, (k b bs).2.buf = bs.buf)
    (bs : BitStream) : (nextBit bs k).2.buf = bs.buf := by
  have hnext := readStreamBit_buf bs
  unfold nextBit
  split
  next bs' hread => rwa [hread] at hnext
  next b bs' hread => rw [hk]; rwa [hread] at hnext

theorem pickNibble_buf (v1 v0 : Nibble) (bs : BitStream) : (pickNibble v1 v0 bs).2.buf = bs.buf :=
  nextBit_buf (fun _ _ => rfl) bs

theorem decodeTail_buf (z : Nat) (bs : BitStream) : (decodeTail z bs).2.buf = bs.buf := by
  match z with
  | 0 => rfl
  | 1 | 2 | 3 => exact pickNibble_buf _ _ bs
  | 4 =>
    refine nextBit_buf (fun b bs1 => ?_) bs
    cases b
    · refine nextBit_buf (fun c bs2 => ?_) bs1
      cases c <;> exact pickNibble_buf _ _ bs2
    · exact pickNibble_buf _ _ bs1
  | n + 5 =>
    refine nextBit_buf (fun a => nextBit_buf fun c bs2 => ?_) bs
    cases a <;> cases c <;> rfl

/-- The stream a count of zeros ends with. -/
def ZeroCount.stream : ZeroCount → BitStream
  | .exhausted bs | .found _ bs | .six bs => bs

theorem countZeros_buf (left z : Nat) (bs : BitStream) : (countZeros left z bs).stream.buf = bs.buf := by
  have hnext := readStreamBit_buf bs
  fun_induction countZeros left z bs with
  | case1 => rfl
  | case2 left z bs next hread | case3 left z bs next hread => rwa [hread] at hnext
  | case4 left z bs next hread ih =>
    rw [hread] at hnext
    exact (ih (readStreamBit_buf next)).trans hnext

theorem decodeNib_buf (rule : Z6Rule) (bs : BitStream) : (decodeNib rule bs).2.buf = bs.buf := by
  have hcount := countZeros_buf 6 0 bs
  unfold decodeNib
  cases hc : countZeros 6 0 bs with
  | exhausted bs' | six bs' => rwa [hc] at hcount
  | found z bs' =>
    rw [hc] at hcount
    exact (decodeTail_buf z bs').trans hcount

/-- `decode_nibble` answers what it decodes and keeps the stream it leaves. -/
theorem exec_decodeNibble (bs : BitStream) (s : State) :
    exec (.decodeNibble bs) s =
      .next ({ s with stream := (decodeNib s.params.z6 bs).2 }.complete (.nibble (decodeNib s.params.z6 bs).1)) :=
  exec_open rfl

/-- Settles O17: the machine's decoder is the decoder on the unread bits, whose answers `nibL_cases` lists. -/
theorem decodeNibble : Obligations.DecodeNibble := by
  intro bs s hv
  obtain ⟨hres, hv', hrest⟩ := decodeNib_spec s.params.z6 hv
  refine ⟨_, _, hv', decodeNib_buf _ bs, exec_decodeNibble bs s, ?_⟩
  rw [hres, hrest]
  refine ⟨fun v rest hu => ?_, fun rest hu => ?_, fun rest hu => ?_, fun k hk hu => ?_,
    fun hcode herror hz6 hend => ?_⟩
  · rw [hu, nibL_code]
    exact ⟨rfl, rfl⟩
  · rw [hu, nibL_errorCode]
    exact ⟨rfl, rfl⟩
  · rw [hu, nibL_z6]
    exact ⟨rfl, rfl⟩
  · rw [hu, nibL_zeros _ k hk]
    exact ⟨rfl, rfl⟩
  · rcases nibL_cases s.params.z6 (unread bs) with
      ⟨v, rest, hu, -⟩ | ⟨rest, hu, -⟩ | ⟨rest, hu, -⟩ | ⟨k, hk, hu, -⟩ | htrunc
    · exact absurd ⟨rest, hu.symm⟩ (hcode v)
    · exact absurd ⟨rest, hu.symm⟩ herror
    · exact absurd ⟨rest, hu.symm⟩ hz6
    · exact absurd hu (hend k hk)
    · exact htrunc

/-! ## The header (R95, R123) -/

theorem headerPayload_short {file : List Byte} (h : file.length < 256) : headerPayload file = .error .tooSmall :=
  if_pos h

theorem headerPayload_badSignature {file : List Byte} (hlen : 256 ≤ file.length) (h : file.take 12 ≠ gffSignature) :
    headerPayload file = .error .signatureMismatch :=
  (if_neg (Nat.not_lt.2 hlen)).trans (if_pos h)

theorem headerPayload_good {file : List Byte} (hlen : 256 ≤ file.length) (h : file.take 12 = gffSignature) :
    headerPayload file = .ok (file.drop 256) :=
  (if_neg (Nat.not_lt.2 hlen)).trans (if_neg (not_not_intro h))

theorem exec_checkHeader_error {file : List Byte} {e : Err} (h : headerPayload file = .error e) (s : State) :
    exec (.checkHeader file) s = .next (s.takeError e) := by
  rw [exec_open rfl, operation, h]
  rfl

theorem exec_checkHeader_ok {file payload : List Byte} (h : headerPayload file = .ok payload) (s : State) :
    exec (.checkHeader file) s = .next (s.complete (.bytes payload)) := by
  rw [exec_open rfl, operation, h]
  rfl

theorem exec_gffHeader_error {file : List Byte} {e : Err} (h : headerPayload file = .error e) (s : State) :
    exec (.gffHeader file) s = .next (s.takeError e) := by
  rw [exec_open rfl, operation, h]
  rfl

theorem exec_gffHeader_ok {file payload : List Byte} (h : headerPayload file = .ok payload) (s : State) :
    exec (.gffHeader file) s = .next ({ s with stream := openStream payload }.complete (.bytes payload)) := by
  rw [exec_open rfl, operation, h]
  rfl

/-- Settles O19: both calls end as the header check does. -/
theorem checkHeader : Obligations.CheckHeader := by
  intro file s
  refine ⟨fun hshort => ?_, fun hlen hbad => ?_, fun hlen hgood => ?_⟩
  · have h := headerPayload_short hshort
    exact ⟨exec_checkHeader_error h s, exec_gffHeader_error h s⟩
  · have h := headerPayload_badSignature hlen hbad
    exact ⟨exec_checkHeader_error h s, exec_gffHeader_error h s⟩
  · have h := headerPayload_good hlen hgood
    exact ⟨exec_checkHeader_ok h s, exec_gffHeader_ok h s⟩

/-! ## Nibbles of a stream and bytes of nibbles (R97, R100) -/

/-- A codeword at the cursor is decoded to its nibble. -/
theorem decodeNib_of_code (rule : Z6Rule) {bs : BitStream} (hv : bs.valid = true) {v : Nibble} {rest : List Bit}
    (hu : unread bs = nibbleCode v ++ rest) :
    ∃ bs', decodeNib rule bs = (.nib v, bs') ∧ bs'.valid = true ∧ unread bs' = rest := by
  obtain ⟨hres, hv', hrest⟩ := decodeNib_spec rule hv
  rw [hu, nibL_code] at hres hrest
  exact ⟨_, Prod.ext hres rfl, hv', hrest⟩

/-- A nibble is decoded only from its codeword at the cursor. -/
theorem code_of_decodeNib {rule : Z6Rule} {bs bs' : BitStream} (hv : bs.valid = true) {v : Nibble}
    (h : decodeNib rule bs = (.nib v, bs')) : bs'.valid = true ∧ unread bs = nibbleCode v ++ unread bs' := by
  have hspec := decodeNib_spec rule hv
  rw [h] at hspec
  obtain ⟨hres, hv', hrest⟩ := hspec
  exact ⟨hv', nibL_nib (Prod.ext hres.symm hrest.symm)⟩

/-- The end marker is decoded exactly where the stream ends. -/
theorem decodeNib_end_iff (rule : Z6Rule) {bs : BitStream} (hv : bs.valid = true) :
    (decodeNib rule bs).1 = .endMarker ↔ endsStream rule (unread bs) := by
  rw [(decodeNib_spec rule hv).1, nibL_end]

theorem nibbleCode_length_pos (v : Nibble) : 0 < (nibbleCode v).length := by
  have hpos : ∀ v : Nibble, 0 < (nibbleCode v).length := by decide
  exact hpos v

theorem pairByte_eq_append (n1 n2 : Nibble) : pairByte n1 n2 = n1 ++ n2 := by
  have happend : ∀ n1 n2 : Nibble, pairByte n1 n2 = n1 ++ n2 := by decide
  exact happend n1 n2

/-- A byte is the pair of its nibbles. -/
theorem pairByte_nibbles (b : Byte) : pairByte (b.extractLsb' 4 4) (b.extractLsb' 0 4) = b := by
  have hpair : ∀ b : Byte, pairByte (b.extractLsb' 4 4) (b.extractLsb' 0 4) = b := by decide
  exact hpair b

theorem gffCodes_cons (b : Byte) (bytes : List Byte) :
    gffCodes (b :: bytes) =
      nibbleCode (b.extractLsb' 4 4) ++ (nibbleCode (b.extractLsb' 0 4) ++ gffCodes bytes) := by
  rw [gffCodes, List.flatMap_cons, List.append_assoc, gffCodes]

theorem gffCodes_cons_pair (n1 n2 : Nibble) (bytes : List Byte) :
    gffCodes (pairByte n1 n2 :: bytes) = nibbleCode n1 ++ (nibbleCode n2 ++ gffCodes bytes) := by
  obtain ⟨hhigh, hlow⟩ := nibbles_of_pair n1 n2
  rw [gffCodes_cons, pairByte_eq_append, hhigh, hlow]

/-! ## The pair loop (R124) -/

/-- One turn of the loop takes two nibbles as one byte. -/
theorem walkPairs_pair {rule : Z6Rule} {bs bs1 bs2 : BitStream} {n1 n2 : Nibble}
    (hhigh : decodeNib rule bs = (.nib n1, bs1)) (hlow : decodeNib rule bs1 = (.nib n2, bs2)) (fuel : Nat)
    (out : List Byte) : walkPairs rule (fuel + 1) bs out = walkPairs rule fuel bs2 (out ++ [pairByte n1 n2]) := by
  simp only [walkPairs, hhigh, hlow]

theorem walkPairs_end {rule : Z6Rule} {bs : BitStream} (h : (decodeNib rule bs).1 = .endMarker) (fuel : Nat)
    (out : List Byte) : walkPairs rule (fuel + 1) bs out = .ok out := by
  have hmarker : decodeNib rule bs = (.endMarker, (decodeNib rule bs).2) := Prod.ext h rfl
  rw [walkPairs, hmarker]

/-- The loop decodes the bytes whose codewords the stream holds, up to the stream's end. -/
theorem walkPairs_of_codes (rule : Z6Rule) (bytes : List Byte) {tail : List Bit} (hend : endsStream rule tail)
    {fuel : Nat} {bs : BitStream} (hv : bs.valid = true) (hu : unread bs = gffCodes bytes ++ tail)
    (hfuel : (unread bs).length ≤ fuel) (out : List Byte) :
    walkPairs rule (fuel + 1) bs out = .ok (out ++ bytes) := by
  induction bytes generalizing fuel bs out with
  | nil => rw [walkPairs_end ((decodeNib_end_iff rule hv).2 (hu ▸ hend)), List.append_nil]
  | cons b bytes ih =>
    rw [gffCodes_cons, List.append_assoc, List.append_assoc] at hu
    obtain ⟨bs1, hhigh, hv1, hu1⟩ := decodeNib_of_code rule hv hu
    obtain ⟨bs2, hlow, hv2, hu2⟩ := decodeNib_of_code rule hv1 hu1
    have hshorter : (unread bs2).length < fuel := by
      have hpos := nibbleCode_length_pos (b.extractLsb' 4 4)
      rw [hu, List.length_append, List.length_append, ← hu2] at hfuel
      omega
    obtain ⟨fuel, rfl⟩ := Nat.exists_eq_add_one_of_ne_zero (Nat.ne_zero_of_lt hshorter)
    rw [walkPairs_pair hhigh hlow, pairByte_nibbles, ih hv2 hu2 (Nat.le_of_lt_succ hshorter), List.append_assoc,
      List.singleton_append]

/-- The loop answers bytes only where the stream holds their codewords and then ends. -/
theorem codes_of_walkPairs {rule : Z6Rule} {fuel : Nat} {bs : BitStream} {out result : List Byte}
    (hv : bs.valid = true) (h : walkPairs rule fuel bs out = .ok result) :
    ∃ bytes tail, result = out ++ bytes ∧ unread bs = gffCodes bytes ++ tail ∧ endsStream rule tail := by
  fun_induction walkPairs rule fuel bs out with
  | case2 f bs out next hmarker =>
    cases h
    have hend := (decodeNib_end_iff rule hv).1 (congrArg Prod.fst hmarker)
    exact ⟨[], unread bs, (List.append_nil _).symm, rfl, hend⟩
  | case5 f bs out n1 bs1 hhigh n2 bs2 hlow ih =>
    obtain ⟨hv1, hu⟩ := code_of_decodeNib hv hhigh
    obtain ⟨hv2, hu1⟩ := code_of_decodeNib hv1 hlow
    obtain ⟨bytes, tail, rfl, hu2, hend⟩ := ih hv2 h
    refine ⟨pairByte n1 n2 :: bytes, tail, by rw [List.append_assoc, List.singleton_append], ?_, hend⟩
    rw [hu, hu1, hu2, gffCodes_cons_pair, List.append_assoc, List.append_assoc]
  | _ => cases h

theorem walkPairs_error {rule : Z6Rule} {fuel : Nat} {bs : BitStream} {out : List Byte} {e : Err}
    (h : walkPairs rule fuel bs out = .error e) : e = .decodeError := by
  fun_induction walkPairs rule fuel bs out with
  | case2 => cases h
  | case5 f bs out n1 bs1 hhigh n2 bs2 hlow ih => exact ih h
  | _ => exact (Except.error.inj h).symm

/-! ## The decoder of a file (R124) -/

theorem gffDecode_of_header_error {file : List Byte} {e : Err} (h : headerPayload file = .error e) (rule : Z6Rule) :
    gffDecode rule file = .error e := by
  rw [gffDecode, h]

theorem gffDecode_of_payload {file payload : List Byte} (h : headerPayload file = .ok payload) (rule : Z6Rule) :
    gffDecode rule file = walkPairs rule (8 * payload.length + 1) (openStream payload) [] := by
  rw [gffDecode, h]

/-- A file with a good header decodes to the bytes whose codewords its payload holds, and to no others. -/
theorem gffDecode_ok_iff {file payload : List Byte} (h : headerPayload file = .ok payload) (rule : Z6Rule)
    (out : List Byte) :
    gffDecode rule file = .ok out ↔ ∃ tail, byteBits payload = gffCodes out ++ tail ∧ endsStream rule tail := by
  obtain ⟨hv, hu⟩ := openStream_spec payload
  rw [gffDecode_of_payload h]
  constructor
  · intro hwalk
    obtain ⟨bytes, tail, rfl, hcodes, hend⟩ := codes_of_walkPairs hv hwalk
    exact ⟨tail, hu.symm.trans hcodes, hend⟩
  · rintro ⟨tail, hcodes, hend⟩
    have hfuel : (unread (openStream payload)).length ≤ 8 * payload.length := by rw [hu, byteBits_length]
    exact walkPairs_of_codes rule out hend hv (hu.trans hcodes) hfuel []

theorem gffDecode_payload_error {file payload : List Byte} (h : headerPayload file = .ok payload) {rule : Z6Rule}
    {e : Err} (herror : gffDecode rule file = .error e) : e = .decodeError :=
  walkPairs_error ((gffDecode_of_payload h rule).symm.trans herror)

theorem exec_decode_ok {file out : List Byte} {s : State} (h : gffDecode s.params.z6 file = .ok out) :
    exec (.decode file) s = .next ({ s with stream := noStream }.complete (.bytes out)) := by
  rw [exec_open rfl, operation, h]
  rfl

theorem exec_decode_error {file : List Byte} {e : Err} {s : State} (h : gffDecode s.params.z6 file = .error e) :
    exec (.decode file) s = .next ({ s with stream := noStream }.takeError e) := by
  rw [exec_open rfl, operation, h]
  rfl

/-- Settles O20: header errors come first, and a payload decodes exactly as its bits are codewords and an end. -/
theorem decodeFile : Obligations.DecodeFile := by
  intro file s
  refine ⟨fun hshort => exec_decode_error (gffDecode_of_header_error (headerPayload_short hshort) _),
    fun hlen hbad => exec_decode_error (gffDecode_of_header_error (headerPayload_badSignature hlen hbad) _),
    fun hlen hgood => ?_⟩
  have hpayload := headerPayload_good hlen hgood
  refine ⟨fun out tail hcodes hend => exec_decode_ok ((gffDecode_ok_iff hpayload _ out).2 ⟨tail, hcodes, hend⟩),
    fun hnone => ?_⟩
  cases hdecode : gffDecode s.params.z6 file with
  | ok out =>
    obtain ⟨tail, hcodes, hend⟩ := (gffDecode_ok_iff hpayload _ out).1 hdecode
    exact absurd hend (hnone out tail hcodes)
  | error e =>
    obtain rfl := gffDecode_payload_error hpayload hdecode
    exact exec_decode_error hdecode

/-! ## The size walk (R125, R126) -/

theorem countPairs_of_ok {rule : Z6Rule} {fuel : Nat} {bs : BitStream} {out result : List Byte}
    (h : walkPairs rule fuel bs out = .ok result) : countPairs rule fuel bs out.length = result.length := by
  fun_induction walkPairs rule fuel bs out with
  | case2 f bs out next hmarker =>
    cases h
    rw [countPairs, hmarker]
  | case5 f bs out n1 bs1 hhigh n2 bs2 hlow ih =>
    have hcount := ih h
    rw [List.length_append, List.length_singleton] at hcount
    simpa only [countPairs, hhigh, hlow] using hcount
  | _ => cases h

theorem countPairs_of_error {rule : Z6Rule} {fuel : Nat} {bs : BitStream} {out : List Byte} {e : Err}
    (h : walkPairs rule fuel bs out = .error e) (count : Nat) : countPairs rule fuel bs count = 0 := by
  fun_induction walkPairs rule fuel bs out generalizing count with
  | case1 => rfl
  | case2 => cases h
  | case3 f bs out next hfirst | case4 f bs out next hfirst => rw [countPairs, hfirst]
  | case5 f bs out n1 bs1 hhigh n2 bs2 hlow ih => simpa only [countPairs, hhigh, hlow] using ih h (count + 1)
  | case6 f bs out n1 bs1 hhigh next hlow | case7 f bs out n1 bs1 hhigh next hlow
  | case8 f bs out n1 bs1 hhigh next hlow => simp only [countPairs, hhigh, hlow]

theorem gffSize_of_ok {rule : Z6Rule} {file out : List Byte} (h : gffDecode rule file = .ok out) :
    gffSize rule file = out.length := by
  cases hpayload : headerPayload file with
  | error e =>
    rw [gffDecode_of_header_error hpayload] at h
    cases h
  | ok payload =>
    rw [gffDecode_of_payload hpayload] at h
    rw [gffSize, hpayload]
    exact countPairs_of_ok h

theorem gffSize_of_error {rule : Z6Rule} {file : List Byte} {e : Err} (h : gffDecode rule file = .error e) :
    gffSize rule file = 0 := by
  cases hpayload : headerPayload file with
  | error e => rw [gffSize, hpayload]
  | ok payload =>
    rw [gffDecode_of_payload hpayload] at h
    rw [gffSize, hpayload]
    exact countPairs_of_error h 0

theorem exec_computeDecodedSize (file : List Byte) (s : State) :
    exec (.computeDecodedSize file) s =
      .next ({ s with stream := noStream }.complete (.nat (gffSize s.params.z6 file))) :=
  exec_open rfl

/-- Settles O21, by what the decoder answers. -/
theorem sizeAgreement : Obligations.SizeAgreement := by
  intro file s
  cases hdecode : gffDecode s.params.z6 file with
  | ok out =>
    refine ⟨_, _, exec_decode_ok hdecode, exec_computeDecodedSize file s, ?_⟩
    rw [gffSize_of_ok hdecode]
    refine ⟨fun bytes hres => ?_, fun e hres => ?_, fun hzero => ?_⟩
    · cases hres; rfl
    · cases hres
    · obtain rfl := List.length_eq_zero_iff.1 hzero
      exact .inl rfl
  | error e =>
    refine ⟨_, _, exec_decode_error hdecode, exec_computeDecodedSize file s, ?_⟩
    rw [gffSize_of_error hdecode]
    exact ⟨fun _ hres => (by cases hres), fun _ _ => rfl, fun _ => .inr ⟨e, rfl⟩⟩

/-! ## Whole bytes of bits (R96, R127) -/

theorem msbFirst_bitsValue {bits : List Bit} (h : bits.length = 8) :
    msbFirst (BitVec.ofNat 8 (bitsValue bits)) = bits := by
  have hbyte : ∀ b7 b6 b5 b4 b3 b2 b1 b0 : Bit,
      msbFirst (BitVec.ofNat 8 (bitsValue [b7, b6, b5, b4, b3, b2, b1, b0])) = [b7, b6, b5, b4, b3, b2, b1, b0] := by
    decide
  match bits, h with
  | [b7, b6, b5, b4, b3, b2, b1, b0], _ => exact hbyte b7 b6 b5 b4 b3 b2 b1 b0

/-- Packing takes one byte of bits from the front, filled with zeros. -/
theorem byteBits_packBits_succ (fuel : Nat) {bits : List Bit} (h : bits ≠ []) :
    byteBits (packBits (fuel + 1) bits) =
      bits.take 8 ++ List.replicate (8 - (bits.take 8).length) false ++ byteBits (packBits fuel (bits.drop 8)) := by
  have hlen : (bits.take 8 ++ List.replicate (8 - (bits.take 8).length) false).length = 8 := by
    rw [List.length_append, List.length_replicate, List.length_take]
    omega
  cases bits with
  | nil => exact absurd rfl h
  | cons b bits => rw [packBits, byteBits_cons, msbFirst_bitsValue hlen]

theorem packBits_nil (fuel : Nat) : packBits fuel [] = [] := by cases fuel <;> rfl

/-- The packed bytes are the bits, filled with zeros to whole bytes. -/
theorem byteBits_packBits {fuel : Nat} {bits : List Bit} (h : bits.length ≤ fuel) :
    byteBits (packBits fuel bits) = bits ++ List.replicate ((8 - bits.length % 8) % 8) false := by
  induction fuel generalizing bits with
  | zero =>
    obtain rfl := List.length_eq_zero_iff.1 (Nat.le_zero.1 h)
    rfl
  | succ fuel ih =>
    by_cases hnil : bits = []
    · subst hnil
      rfl
    have hpos := List.length_pos_iff.2 hnil
    rw [byteBits_packBits_succ fuel hnil, List.length_take]
    by_cases hbyte : 8 ≤ bits.length
    · have hrest : bits.length % 8 = (bits.drop 8).length % 8 := by rw [List.length_drop]; omega
      rw [ih (by rw [List.length_drop]; omega), hrest, Nat.min_eq_left hbyte, Nat.sub_self, List.replicate_zero,
        List.append_nil, ← List.append_assoc, List.take_append_drop]
    · have hfill : 8 - min 8 bits.length = (8 - bits.length % 8) % 8 := by omega
      rw [hfill, List.take_of_length_le (by omega), List.drop_of_length_le (by omega), packBits_nil, byteBits,
        List.flatMap_nil, List.append_nil]

theorem byteBits_gffEncode (b : List Byte) :
    byteBits (gffEncode b) = gffCodes b ++ List.replicate ((8 - (gffCodes b).length % 8) % 8) false :=
  byteBits_packBits (Nat.le_refl _)

/-! ## The round trip (R127) -/

/-- Fewer than eight zeros end a stream, but six under the literal rule. -/
theorem endsStream_zeros {rule : Z6Rule} {n : Nat} (hn : n < 8) (hsix : n = 6 → rule = .fewerThanEight) :
    endsStream rule (List.replicate n false) := by
  by_cases hfive : n ≤ 5
  · exact .inl ⟨n, hfive, rfl⟩
  · refine .inr ⟨List.replicate (n - 6) false, ?_, ?_⟩
    · rw [List.replicate_append_replicate, Nat.add_sub_cancel' (by omega)]
    · rw [List.length_replicate]
      cases rule with
      | exactlyOne =>
        have hne : n ≠ 6 := fun h => Z6Rule.noConfusion (hsix h)
        exact decide_eq_true (by omega)
      | fewerThanEight => exact decide_eq_true (by omega)

/-- Under the literal rule a stream ends with at most five or with seven bits. -/
theorem length_of_endsStream_exactlyOne {tail : List Bit} (h : endsStream .exactlyOne tail) :
    tail.length ≤ 5 ∨ tail.length = 7 := by
  obtain ⟨k, hk, rfl⟩ | ⟨left, rfl, hleft⟩ := h
  · exact .inl (by rwa [List.length_replicate])
  · have hone : left.length = 1 := of_decide_eq_true hleft
    exact .inr (by rw [List.length_append, List.length_replicate, hone])

theorem headerPayload_gffFile {reserved : List Byte} (h : reserved.length = 244) (payload : List Byte) :
    headerPayload (gffFile reserved payload) = .ok payload := by
  have hlen : (gffSignature ++ reserved).length = 256 := by rw [List.length_append, h]; rfl
  have hgood : (gffFile reserved payload).take 12 = gffSignature := by
    rw [gffFile, List.append_assoc]
    exact List.take_left' rfl
  rw [headerPayload_good (by rw [gffFile, List.length_append, hlen]; omega) hgood, gffFile, List.drop_left' hlen]

/-- The encoding decodes wherever its fill of zeros is an end of the stream. -/
theorem exec_decode_gffEncode {s : State} {b reserved : List Byte} (hres : reserved.length = 244)
    (h : (gffCodes b).length % 8 = 2 → s.params.z6 = .fewerThanEight) :
    ∃ t, exec (.decode (gffFile reserved (gffEncode b))) s = .next t ∧ t.result = some (.ok (.bytes b)) := by
  have hend : endsStream s.params.z6 (List.replicate ((8 - (gffCodes b).length % 8) % 8) false) :=
    endsStream_zeros (Nat.mod_lt _ (by decide)) fun hsix => h (by omega)
  have hdecode := (gffDecode_ok_iff (headerPayload_gffFile hres _) s.params.z6 b).2 ⟨_, byteBits_gffEncode b, hend⟩
  exact ⟨_, exec_decode_ok hdecode, rfl⟩

/-- Only what the decoder answers is the result of `decode`. -/
theorem gffDecode_of_exec {file b : List Byte} {s t : State} (hexec : exec (.decode file) s = .next t)
    (hresult : t.result = some (.ok (.bytes b))) : gffDecode s.params.z6 file = .ok b := by
  cases hdecode : gffDecode s.params.z6 file with
  | ok out =>
    rw [exec_decode_ok hdecode] at hexec
    cases hexec
    cases hresult
    rfl
  | error e =>
    rw [exec_decode_error hdecode] at hexec
    cases hexec
    cases hresult

/-- Settles O22. Where the codewords fill 2 bits of the last byte, any payload holds 6 bits modulo 8 after them, which
the literal rule takes for no end. -/
theorem roundTrip : Obligations.RoundTrip := by
  intro s b reserved hres
  refine ⟨byteBits_gffEncode b, fun hne => exec_decode_gffEncode hres fun htwo => absurd htwo hne,
    fun htwo hrule payload t hexec hresult => ?_, by decide, fun hrule => exec_decode_gffEncode hres fun _ => hrule⟩
  have hdecode := gffDecode_of_exec hexec hresult
  obtain ⟨tail, hcodes, hend⟩ := (gffDecode_ok_iff (headerPayload_gffFile hres payload) _ b).1 hdecode
  rw [hrule] at hend
  have htail := length_of_endsStream_exactlyOne hend
  have hbits := congrArg List.length hcodes
  rw [byteBits_length, List.length_append] at hbits
  omega

end Sys2Proof.Machine
end

section
/-! SUPPORT. The statements of 41_i2c_bus: the line primitives, the waits, recovery, START and STOP, bits and bytes,
transactions, their event counts, how they end in every environment, and when SDA changes. -/

namespace Sys2Proof.Machine

/-! ## Calls of the bus operations -/

/-- A bus call in an open session ends as its operation does. -/
theorem exec_bus {i : Instr} {s : State} {op : M Value} (hs : s.session ≠ .closed)
    (hgate : sessionGate i = openSession) (hop : operation i s = op) : exec i s = conclude (op s) := by
  rw [exec_open (by rw [hgate]; exact (openSession_iff _).2 hs), hop]

/-- Two calls under one gate that run one operation end alike. -/
theorem exec_congr {i j : Instr} {s : State} (hgate : sessionGate i = sessionGate j)
    (hop : operation i s s = operation j s s) : exec i s = exec j s := by
  rw [exec_eq, exec_eq, hgate, invoke, hop, invoke]

theorem conclude_return_ok {α : Type} {x : M α} {f : α → Value} {s t : State} {a : α} (h : x s = .ok a t) :
    conclude ((do return f (← x) : M Value) s) = .next (t.complete (f a)) := by simp [h]

theorem conclude_return_raised {α : Type} {x : M α} {f : α → Value} {s t : State} {e : Err}
    (h : x s = .error (.raised e) t) : conclude ((do return f (← x) : M Value) s) = .next (t.takeError e) := by
  simp [h]

/-! ## Line primitives (R150, R153) -/

section Lines

variable {s t : State} {v : Bit}

theorem State.latch_setLatch_other {l other : Line} (s : State) (latch : Latch) (h : other ≠ l) :
    (s.setLatch l latch).latch other = s.latch other := by
  cases l <;> cases other <;> simp at h ⊢

theorem releaseLine_sda_held (h : s.env.senses = []) (hl : Line.sda ∈ s.env.held) :
    releaseLine .sda s = .ok false (s.afterLine .released s.scl s.env.senses [.release .sda false]) :=
  releaseLine_held .sda s h hl

theorem releaseLine_scl_held (h : s.env.senses = []) (hl : Line.scl ∈ s.env.held) :
    releaseLine .scl s = .ok false (s.afterLine s.sda .released s.env.senses [.release .scl false]) :=
  releaseLine_held .scl s h hl

theorem pulseScl_of_release
    (h : releaseLine .scl (s.afterLine s.sda .driven s.env.senses [.drive .scl]) = .ok v t) :
    pulseScl s = .ok () t := by
  simp only [pulseScl, M.bind_run, driveLine_scl, h, M.pure_run]

theorem pulseScl_held (h : s.env.senses = []) (hl : Line.scl ∈ s.env.held) :
    pulseScl s = .ok () (s.afterLine s.sda .released s.env.senses [.drive .scl, .release .scl false]) := by
  have hr := releaseLine_scl_held (s := s.afterLine s.sda .driven s.env.senses [.drive .scl]) h hl
  rw [State.afterLine_afterLine] at hr
  exact pulseScl_of_release hr

/-- What a release leaves in every environment. -/
theorem releaseLine_frame (l : Line) (s : State) : ∃ v t, releaseLine l s = .ok v t ∧ t.latch l = .released ∧
    (∀ other, other ≠ l → t.latch other = s.latch other) ∧ t.trace = s.trace ++ [.release l v] ∧ LineFrame s t := by
  obtain ⟨v, e, -, h⟩ := releaseLine_cases l s
  refine ⟨v, _, h, ?_, fun other hne => ?_, ?_, (releaseLine_keeps l).of_ok h⟩
  · cases l <;> rfl
  · cases other <;> exact State.latch_setLatch_other s .released hne
  · cases l <;> rfl

/-- What a pulse leaves in every environment. -/
theorem pulseScl_frame (s : State) : ∃ v t, pulseScl s = .ok () t ∧
    t.trace = s.trace ++ [.drive .scl, .release .scl v] ∧ t.sda = s.sda ∧ t.scl = .released ∧ LineFrame s t := by
  obtain ⟨v, t, hr, hscl, hother, htrace, -⟩ :=
    releaseLine_frame .scl (s.afterLine s.sda .driven s.env.senses [.drive .scl])
  have hpulse := pulseScl_of_release hr
  exact ⟨v, t, hpulse, by rw [htrace]; simp [State.afterLine], hother .sda (by decide), hscl,
    pulseScl_keeps.of_ok hpulse⟩

end Lines

/-! ## START and STOP (R154, R155) -/

section StartStop

variable {s t u w : State} {v : Bit} {stop : Stop}

theorem State.afterLine_afterRecovery (s : State) (a b : Latch) (r q : List Bit) (x : List Bool) (e f : List Event)
    (stuck : Option Line) :
    (s.afterLine a b r e).afterRecovery q x f stuck = s.afterRecovery q x (e ++ f) stuck :=
  State.afterLine_afterWait ..

theorem State.afterWait_afterRecovery (s : State) (a b : Latch) (r q : List Bit) (x y : List Bool) (e f : List Event)
    (stuck : Option Line) :
    (s.afterWait a b r x e).afterRecovery q y f stuck = s.afterRecovery q y (e ++ f) stuck :=
  State.afterWait_afterWait ..

theorem State.afterRecovery_none (s : State) (r : List Bit) (x : List Bool) (e : List Event) :
    s.afterRecovery r x e none = s.afterWait .released .released r x e := rfl

theorem driveLine_startEnd (s : State) :
    driveLine .scl (s.afterLine .driven s.scl s.env.senses [.drive .sda]) =
      .ok () (s.afterLine .driven .driven s.env.senses startEnd) := by
  simp [driveLine_scl, startEnd]

theorem startCondition_ok (hr : releaseLine .sda s = .ok v t) (hrec : whenever (!v) resetBus t = .ok () u)
    (hw : waitScl u = .ok () w) :
    startCondition s = .ok () (w.afterLine .driven .driven w.env.senses startEnd) := by
  simp only [startCondition, M.bind_run, hr, hrec, hw, driveLine_sda, driveLine_startEnd]

theorem startCondition_waitError (hr : releaseLine .sda s = .ok v t) (hrec : whenever (!v) resetBus t = .ok () u)
    (hw : waitScl u = .error stop w) : startCondition s = .error stop w := by
  simp only [startCondition, M.bind_run, hr, hrec, hw]

theorem startCondition_recoveryError (hr : releaseLine .sda s = .ok false t) (hrec : resetBus t = .error stop u) :
    startCondition s = .error stop u := by
  simp only [startCondition, M.bind_run, hr, Bool.not_false, whenever_true, hrec]

theorem startCondition_endless (hr : releaseLine .sda s = .ok false t) (hrec : NeverEnds (resetBus t)) :
    NeverEnds (startCondition s) := by
  obtain ⟨u, hu⟩ := hrec
  exact ⟨u, startCondition_recoveryError hr hu⟩

theorem stopCondition_of_wait (hw : waitScl s = .ok () t) (hr : releaseLine .sda t = .ok v u) :
    stopCondition s = if v then .ok () u else resetBus u := by
  simp only [stopCondition, M.bind_run, hw, hr]
  cases v <;> rfl

theorem stopCondition_waitError (hw : waitScl s = .error stop t) : stopCondition s = .error stop t := by
  simp only [stopCondition, M.bind_run, hw]

variable (j : Nat) {rest senses : List Bit} {xs expiries : List Bool} {events : List Event} {stuck : Option Line}

theorem startCondition_stretched (hs : s.env.senses = true :: stretchSenses j ++ rest)
    (hx : s.env.expiries = List.replicate j false ++ xs) :
    startCondition s = .ok () (s.afterWait .driven .driven rest xs
      (.release .sda true :: (stretchEvents j ++ startEnd))) := by
  rw [startCondition_ok (releaseLine_sda s true _ hs) rfl (waitScl_ok j (s.afterLine _ _ _ _) rest xs rfl hx),
    State.afterLine_afterWait, State.afterWait_afterLine, List.append_assoc]
  rfl

theorem startCondition_expires (hs : s.env.senses = true :: stuckSenses j ++ rest)
    (hx : s.env.expiries = List.replicate j false ++ true :: xs) :
    startCondition s = .error (.raised (.busStuck (.line .scl))) (s.afterWait .released .released rest xs
      (.release .sda true :: stuckEvents j)) := by
  rw [startCondition_waitError (releaseLine_sda s true _ hs) rfl
    (waitScl_expires j (s.afterLine _ _ _ _) rest xs rfl hx), State.afterLine_afterWait]
  rfl

theorem stopCondition_stretched (hs : s.env.senses = stretchSenses j ++ true :: rest)
    (hx : s.env.expiries = List.replicate j false ++ xs) :
    stopCondition s = .ok () (s.afterWait .released .released rest xs
      (stretchEvents j ++ [.release .sda true])) := by
  rw [stopCondition_of_wait (waitScl_ok j s _ xs hs hx) (releaseLine_sda _ true rest rfl), if_pos rfl,
    State.afterWait_afterLine]
  rfl

/-- A STOP that finds SDA low is the run of its recovery. -/
theorem stopCondition_recovers (hrun : RecoveryRun s.params senses expiries events stuck)
    (hs : s.env.senses = stretchSenses j ++ false :: senses ++ rest)
    (hx : s.env.expiries = List.replicate j false ++ expiries ++ xs) :
    stopCondition s =
      endOfRun stuck (s.afterRecovery rest xs (stretchEvents j ++ .release .sda false :: events) stuck) := by
  rw [stopCondition_low j s (senses ++ rest) (expiries ++ xs) (by rw [hs, List.append_assoc]; rfl)
    (by rw [hx, List.append_assoc]), resetBus_run (s.afterWait _ _ _ _ _) hrun rest xs rfl rfl,
    State.afterWait_afterRecovery, List.append_assoc]
  rfl

/-- Without a limit a STOP never ends while another agent holds SDA low for ever. -/
theorem stopCondition_held (hlim : s.params.resetRoundLimit = none) (hh : Line.sda ∈ s.env.held)
    (hs : s.env.senses = stretchSenses j) (hx : s.env.expiries = List.replicate j false ++ xs) :
    NeverEnds (stopCondition s) := by
  have hw := waitScl_ok j s [] xs (by rw [hs, List.append_nil]) hx
  rw [stopCondition_of_wait hw (releaseLine_sda_held (s := s.afterWait _ _ _ _ _) rfl hh), if_neg (by decide)]
  exact resetBus_endless (State.afterLine _ _ _ _ _) .now hlim hh xs rfl rfl

/-- The recovery of a START, behind the release that found SDA low. -/
theorem resetBus_afterLowStart (hrun : RecoveryRun s.params senses expiries events stuck)
    (hx : s.env.expiries = expiries ++ xs) :
    resetBus (s.afterLine .released s.scl (senses ++ rest) [.release .sda false]) =
      endOfRun stuck (s.afterRecovery rest xs (.release .sda false :: events) stuck) := by
  rw [resetBus_run (s.afterLine _ _ _ _) hrun rest xs rfl hx, State.afterLine_afterRecovery]
  rfl

theorem startCondition_stuckRecovery (hrun : RecoveryRun s.params senses expiries events stuck) (hstuck : stuck ≠ none)
    (hs : s.env.senses = false :: senses ++ rest) (hx : s.env.expiries = expiries ++ xs) :
    startCondition s =
      endOfRun stuck (s.afterRecovery rest xs (.release .sda false :: events) stuck) := by
  have hrec := resetBus_afterLowStart (rest := rest) hrun hx
  cases stuck with
  | none => exact absurd rfl hstuck
  | some l => exact startCondition_recoveryError (releaseLine_sda s false _ hs) hrec

theorem startCondition_recovers (hrun : RecoveryRun s.params senses expiries events none)
    (hs : s.env.senses = false :: senses ++ stretchSenses j ++ rest)
    (hx : s.env.expiries = expiries ++ List.replicate j false ++ xs) :
    startCondition s = .ok () (s.afterWait .driven .driven rest xs
      (.release .sda false :: (events ++ stretchEvents j ++ startEnd))) := by
  rw [List.append_assoc] at hs hx
  rw [startCondition_ok (releaseLine_sda s false _ hs) (resetBus_afterLowStart hrun hx)
    (waitScl_ok j (s.afterRecovery _ _ _ _) rest xs rfl rfl), State.afterRecovery_none, State.afterWait_afterWait,
    State.afterWait_afterLine]
  rfl

theorem startCondition_recoversExpires (hrun : RecoveryRun s.params senses expiries events none)
    (hs : s.env.senses = false :: senses ++ stuckSenses j ++ rest)
    (hx : s.env.expiries = expiries ++ List.replicate j false ++ true :: xs) :
    startCondition s = .error (.raised (.busStuck (.line .scl))) (s.afterWait .released .released rest xs
      (.release .sda false :: (events ++ stuckEvents j))) := by
  rw [List.append_assoc] at hs hx
  rw [startCondition_waitError (releaseLine_sda s false _ hs) (resetBus_afterLowStart hrun hx)
    (waitScl_expires j (s.afterRecovery _ _ _ _) rest xs rfl rfl), State.afterRecovery_none, State.afterWait_afterWait]
  rfl

end StartStop

/-! ## What holds where an operation ends Ok -/

/-- Wherever the operation ends Ok, `P` holds of the state it leaves. -/
def Ensures {α : Type} (P : State → Prop) (x : M α) : Prop := ∀ s a t, x s = .ok a t → P t

theorem Ensures.bind {α β : Type} {P : State → Prop} {x : M α} {f : α → M β} (hf : ∀ a, Ensures P (f a)) :
    Ensures P (x >>= f) := by
  intro s b t h
  rw [M.bind_run] at h
  cases hx : x s with
  | ok a u => rw [hx] at h; exact hf a u b t h
  | error stop u => rw [hx] at h; cases h

theorem Ensures.bind_pure {α β : Type} {P : State → Prop} {x : M α} (hx : Ensures P x) (b : β) :
    Ensures P (x >>= fun _ => (pure b : M β)) := by
  intro s c t h
  rw [M.bind_run] at h
  cases hu : x s with
  | ok a u => rw [hu] at h; cases h; exact hx s a t hu
  | error stop u => rw [hu] at h; cases h

/-- After a START both lines are driven (R154). -/
theorem startCondition_driven : Ensures (fun t => t.sda = .driven ∧ t.scl = .driven) startCondition := by
  refine Ensures.bind fun _ => Ensures.bind fun _ => Ensures.bind fun _ => ?_
  intro s a t h
  rw [M.bind_run, driveLine_sda] at h
  cases h
  exact ⟨rfl, rfl⟩

theorem stopCondition_ensures_idle : Ensures IdleLines stopCondition := fun _ _ _ => stopCondition_idle

theorem busWrite_ensures_idle (address : Nat) (data : List Byte) : Ensures IdleLines (busWrite address data) :=
  Ensures.bind fun _ => Ensures.bind fun _ => Ensures.bind fun _ => Ensures.bind fun _ => Ensures.bind fun _ =>
    stopCondition_ensures_idle

theorem busRead_ensures_idle (address count : Nat) : Ensures IdleLines (busRead address count) :=
  Ensures.bind fun _ => Ensures.bind fun _ => Ensures.bind fun _ => Ensures.bind fun _ => Ensures.bind fun out =>
    stopCondition_ensures_idle.bind_pure out

/-! ## Bits (R156, R157) -/

section Bits

variable {s t u : State} {b v : Bit} {stop : Stop}

theorem placeBit_zero (s : State) :
    placeBit false s = .ok () (s.afterLine .driven s.scl s.env.senses [.drive .sda]) := rfl

theorem placeBit_one {rest : List Bit} (h : s.env.senses = v :: rest) :
    placeBit true s = .ok () (s.afterLine .released s.scl rest [.release .sda v]) := by
  simp only [placeBit, if_true, M.bind_run, releaseLine_sda s v rest h, M.pure_run]

theorem driveLine_bitEnd (s : State) :
    driveLine .sda (s.afterLine s.sda .driven s.env.senses [.drive .scl]) =
      .ok () (s.afterLine .driven .driven s.env.senses bitEnd) := by
  simp [driveLine_sda, bitEnd]

theorem sendBit_of_wait (hp : placeBit b s = .ok () t) (hw : waitScl t = .ok () u) :
    sendBit b s = .ok () (u.afterLine .driven .driven u.env.senses bitEnd) := by
  simp only [sendBit, M.bind_run, hp, hw, driveLine_scl, driveLine_bitEnd]

theorem sendBit_waitError (hp : placeBit b s = .ok () t) (hw : waitScl t = .error stop u) :
    sendBit b s = .error stop u := by
  simp only [sendBit, M.bind_run, hp, hw]

theorem recvBit_of_wait {ignored : Bit} {rest : List Bit} (hr : releaseLine .sda s = .ok ignored t)
    (hw : waitScl t = .ok () u) (hv : u.env.senses = v :: rest) :
    recvBit s = .ok v (u.afterLine .driven .driven rest (.release .sda v :: bitEnd)) := by
  simp only [recvBit, M.bind_run, hr, hw, releaseLine_sda u v rest hv, driveLine_scl, driveLine_bitEnd, M.pure_run]
  simp

theorem recvBit_waitError {ignored : Bit} (hr : releaseLine .sda s = .ok ignored t)
    (hw : waitScl t = .error stop u) : recvBit s = .error stop u := by
  simp only [recvBit, M.bind_run, hr, hw]

variable (j : Nat) {a : Latch} {senses rest : List Bit} {xs : List Bool} {e : Event}

theorem sendBit_stretched (hp : placeBit b s = .ok () (s.afterLine a s.scl senses [e]))
    (hs : senses = stretchSenses j ++ rest) (hx : s.env.expiries = List.replicate j false ++ xs) :
    sendBit b s = .ok () (s.afterWait .driven .driven rest xs (e :: (stretchEvents j ++ bitEnd))) := by
  rw [sendBit_of_wait hp (waitScl_ok j (s.afterLine _ _ _ _) rest xs hs hx), State.afterLine_afterWait,
    State.afterWait_afterLine, List.append_assoc]
  rfl

theorem sendBit_expires (hp : placeBit b s = .ok () (s.afterLine a s.scl senses [e]))
    (hs : senses = stuckSenses j ++ rest) (hx : s.env.expiries = List.replicate j false ++ true :: xs) :
    sendBit b s =
      .error (.raised (.busStuck (.line .scl))) (s.afterWait a .released rest xs (e :: stuckEvents j)) := by
  rw [sendBit_waitError hp (waitScl_expires j (s.afterLine _ _ _ _) rest xs hs hx), State.afterLine_afterWait]
  rfl

theorem recvBit_stretched {ignored : Bit} (hs : s.env.senses = ignored :: stretchSenses j ++ v :: rest)
    (hx : s.env.expiries = List.replicate j false ++ xs) :
    recvBit s = .ok v (s.afterWait .driven .driven rest xs
      (.release .sda ignored :: (stretchEvents j ++ .release .sda v :: bitEnd))) := by
  rw [recvBit_of_wait (releaseLine_sda s ignored _ hs) (waitScl_ok j (s.afterLine _ _ _ _) (v :: rest) xs rfl hx) rfl,
    State.afterLine_afterWait, State.afterWait_afterLine, List.append_assoc]
  rfl

theorem recvBit_expires {ignored : Bit} (hs : s.env.senses = ignored :: stuckSenses j ++ rest)
    (hx : s.env.expiries = List.replicate j false ++ true :: xs) :
    recvBit s = .error (.raised (.busStuck (.line .scl))) (s.afterWait .released .released rest xs
      (.release .sda ignored :: stuckEvents j)) := by
  rw [recvBit_waitError (releaseLine_sda s ignored _ hs)
    (waitScl_expires j (s.afterLine _ _ _ _) rest xs rfl hx), State.afterLine_afterWait]
  rfl

end Bits

/-! ## How a transaction ends in every environment (R161, R162, R288) -/

section Fails

variable {P : Stop → State → Prop} (hlines : ∀ stop t, LinesStuck stop t → P stop t)
  (hnack : ∀ w, EndsEarly P (nackStop w))

include hlines hnack

theorem sendData_endsEarly (j : Nat) (data : List Byte) : EndsEarly P (sendData j data) := by
  induction data generalizing j with
  | nil => exact EndsEarly.pure ()
  | cons b bs ih =>
    exact ((sendByte_ends b).mono fun _ _ h => hlines _ _ (.inl h)).bind fun _ =>
      (EndsEarly.whenever _ (hnack _)).bind fun _ => ih _

omit hnack in
theorem recvData_endsEarly (n : Nat) : EndsEarly P (recvData n) := by
  induction n with
  | zero => exact EndsEarly.pure []
  | succ n ih =>
    exact (recvByte_ends.mono fun _ _ h => hlines _ _ (.inl h)).bind fun _ =>
      ((sendMasterAck_ends _).mono fun _ _ h => hlines _ _ (.inl h)).bind fun _ => ih.bind fun _ => EndsEarly.pure _

/-- A transaction of a 7-bit address ends early as its lines can, or in the STOP of a NACK. -/
theorem busWrite_endsEarly {address : Nat} (data : List Byte) (h : address ≤ 127) :
    EndsEarly P (busWrite address data) :=
  (EndsEarly.require (by simp [h])).bind fun _ => (startCondition_stuck.mono hlines).bind fun _ =>
    ((sendByte_ends _).mono fun _ _ h => hlines _ _ (.inl h)).bind fun _ =>
    (EndsEarly.whenever _ (hnack _)).bind fun _ => (sendData_endsEarly hlines hnack 0 data).bind fun _ =>
    stopCondition_stuck.mono hlines

theorem busRead_endsEarly {address : Nat} (count : Nat) (h : address ≤ 127) :
    EndsEarly P (busRead address count) :=
  (EndsEarly.require (by simp [h])).bind fun _ => (startCondition_stuck.mono hlines).bind fun _ =>
    ((sendByte_ends _).mono fun _ _ h => hlines _ _ (.inl h)).bind fun _ =>
    (EndsEarly.whenever _ (hnack _)).bind fun _ => (recvData_endsEarly hlines count).bind fun _ =>
    (stopCondition_stuck.mono hlines).bind fun _ => EndsEarly.pure _

end Fails

/-- How a transaction ends early: as its lines can, or with a NACK after its STOP, which leaves the lines idle. -/
def TransactionFails (stop : Stop) (t : State) : Prop :=
  LinesStuck stop t ∨ ∃ w, stop = .raised (.noAck w) ∧ IdleLines t

theorem nackStop_idle (w : NackAt) : EndsEarly TransactionFails (nackStop w) := by
  intro s stop t h
  rw [nackStop, M.bind_run] at h
  cases hstop : stopCondition s with
  | ok a u =>
    rw [hstop] at h
    cases h
    exact .inr ⟨w, rfl, stopCondition_idle hstop⟩
  | error e u =>
    rw [hstop] at h
    cases h
    exact .inl (stopCondition_stuck s stop t hstop)

/-- How a transaction's call ends in every environment (R161, R162, R288, R289, R294). -/
def TransactionEnds (i : Instr) (s : State) : Prop :=
  (exec i s = .fault .recoveryNeverEnds ∧ s.params.resetRoundLimit = none) ∨ ∃ t, LineFrame s t ∧
    ((∃ v, exec i s = .next (t.complete v) ∧ IdleLines t) ∨
     (∃ w, exec i s = .next (t.takeError (.noAck w)) ∧ IdleLines t) ∨
     (exec i s = .next (t.takeError (.busStuck (.line .scl))) ∧ t.scl = .released) ∨
     (exec i s = .next (t.takeError (.busStuck (.line .sda))) ∧ s.params.resetRoundLimit ≠ none))

theorem transactionEnds_of {α : Type} {x : M α} {f : α → Value} {i : Instr} {s : State}
    (hexec : exec i s = conclude ((do return f (← x) : M Value) s)) (hkeeps : Keeps LineFrame x)
    (hends : EndsEarly TransactionFails x) (hidle : Ensures IdleLines x) : TransactionEnds i s := by
  cases h : x s with
  | ok a t => exact .inr ⟨t, hkeeps.of_ok h, .inl ⟨f a, hexec.trans (conclude_return_ok h), hidle s a t h⟩⟩
  | error stop t =>
    have hframe := hkeeps.of_error h
    rcases hends s stop t h with (⟨rfl, hscl⟩ | ⟨rfl, hlimit⟩ | ⟨rfl, hlimit⟩) | ⟨w, rfl, hlatches⟩
    · exact .inr ⟨t, hframe, .inr (.inr (.inl ⟨hexec.trans (conclude_return_raised h), hscl⟩))⟩
    · exact .inr ⟨t, hframe, .inr (.inr (.inr ⟨hexec.trans (conclude_return_raised h), hframe.params ▸ hlimit⟩))⟩
    · exact .inl ⟨hexec.trans (by simp [h]), hframe.params ▸ hlimit⟩
    · exact .inr ⟨t, hframe, .inr (.inl ⟨w, hexec.trans (conclude_return_raised h), hlatches⟩)⟩

/-! ## Address bytes and addresses (R81) -/

theorem addressByte_write (a : Addr7) : addressByte a false = BitVec.ofNat 8 (2 * a.toNat) :=
  BitVec.eq_of_toNat_eq (by rw [addressByte_toNat, BitVec.toNat_ofNat, Bool.toNat_false]; omega)

theorem addressByte_read (a : Addr7) : addressByte a true = BitVec.ofNat 8 (2 * a.toNat + 1) :=
  BitVec.eq_of_toNat_eq (by rw [addressByte_toNat, BitVec.toNat_ofNat, Bool.toNat_true]; omega)

theorem addr7_le (a : Addr7) : a.toNat ≤ 127 := Nat.le_of_lt_succ a.isLt

theorem addr7_ofNat (a : Addr7) : BitVec.ofNat 7 a.toNat = a := by simp

/-- A write of which a data byte is not acknowledged. -/
theorem busWrite_dataNack (echo : Nat → Bit) (address : Nat) (acked : List Byte) (x : Byte) (unsent : List Byte)
    (s : State) (rest : List Bit) (ha : address ≤ 127)
    (h : s.env.senses = bothHigh ++ byteSenses echo 0 (addressByte (BitVec.ofNat 7 address) false) false ++
      bytesSenses echo 9 acked ++ byteSenses echo (9 + 9 * acked.length) x true ++ bothHigh ++ rest) :
    busWrite address (acked ++ x :: unsent) s = .error (.raised (.noAck (.data acked.length)))
      (s.afterLine .released .released rest (startEvents ++
        byteEvents echo 0 (addressByte (BitVec.ofNat 7 address) false) false ++ bytesEvents echo 9 acked ++
        byteEvents echo (9 + 9 * acked.length) x true ++ stopEvents)) := by
  simp only [List.append_assoc] at h
  simp only [busWrite, ha, decide_true, M.bind_run, require_true, startCondition_quiet s _ h,
    sendByte_quiet echo 0 _ false (State.afterLine s _ _ _ _) _ rfl, isNack, whenever_false,
    State.afterLine_afterLine]
  rw [sendData_nack echo 9 0 acked x unsent (State.afterLine s _ _ _ _) rest
    (by simp only [State.afterLine_senses, List.append_assoc])]
  simp only [State.afterLine_afterLine, List.append_assoc, Nat.zero_add]

/-- A row that sends a byte and answers its ACK slot, on a bus without stretching. -/
theorem exec_sendByte {i : Instr} {s : State} {echo : Nat → Bit} {x : Byte} {ack : Bit} {rest : List Bit}
    (hs : s.session ≠ .closed) (hgate : sessionGate i = openSession) (hop : operation i s = asBit (sendByte x))
    (hsenses : s.env.senses = byteSenses echo 0 x ack ++ rest) :
    exec i s = .next ((s.afterLine .driven .driven rest (byteEvents echo 0 x ack)).complete (.bit ack)) :=
  (exec_bus hs hgate hop).trans (conclude_asBit_ok (sendByte_quiet echo 0 x ack s rest hsenses))

/-! ## The software bus as a transport (R164) -/

theorem transWrite_softwareBus {s : State} (hsoft : s.backend = .softwareBus) (hmax : s.maxWrite = 0) (a : Addr7)
    (bytes : List Byte) : transWrite a bytes s = busWrite a.toNat bytes s := by
  simp [transWrite, hsoft, hmax, fitsLimit]

theorem transRead_softwareBus {s : State} (hsoft : s.backend = .softwareBus) (hmax : s.maxRead = 0) (a : Addr7)
    (n : Nat) : transRead a n s = busRead a.toNat n s := by
  simp [transRead, hsoft, hmax, fitsLimit]

/-! ## How many events (R163) -/

theorem sentEvents_length (echo : Nat → Bit) (i : Nat) (bits : List Bit) :
    (sentEvents echo i bits).length = 4 * bits.length := by
  induction bits generalizing i with
  | nil => rfl
  | cons b bs ih =>
    cases b <;> simp only [sentEvents, bitEnd, List.length_cons, List.length_append, List.length_nil, ih] <;> omega

theorem recvEvents_length (echo : Nat → Bit) (i : Nat) (bits : List Bit) :
    (recvEvents echo i bits).length = 5 * bits.length := by
  induction bits generalizing i with
  | nil => rfl
  | cons b bs ih => simp only [recvEvents, bitEnd, List.length_cons, List.length_append, List.length_nil, ih]; omega

theorem byteEvents_length (echo : Nat → Bit) (i : Nat) (x : Byte) (ack : Bit) :
    (byteEvents echo i x ack).length = 37 := by
  rw [byteEvents, List.length_append, sentEvents_length, recvEvents_length, msbFirst_length, List.length_singleton]

theorem bytesEvents_length (echo : Nat → Bit) (i : Nat) (data : List Byte) :
    (bytesEvents echo i data).length = 37 * data.length := by
  induction data generalizing i with
  | nil => rfl
  | cons x xs ih => rw [bytesEvents, List.length_append, byteEvents_length, ih, List.length_cons]; omega

theorem dataEvents_length (rxAck : Bool) (echo : Nat → Bit) (i : Nat) (data : List Byte) :
    (dataEvents rxAck echo i data).length = (if rxAck then 44 else 40) * data.length := by
  have hmaster : ∀ left, (masterBits rxAck left).length = if rxAck then 1 else 0 := by
    intro left; cases rxAck <;> rfl
  induction data generalizing i with
  | nil => rfl
  | cons x xs ih =>
    rw [dataEvents, List.length_append, List.length_append, recvEvents_length, sentEvents_length, msbFirst_length,
      hmaster, ih, List.length_cons]
    cases rxAck <;> simp only [Bool.false_eq_true, if_false, if_true] <;> omega

/-- A call that ends Ok emits as many events as the list it appends. -/
theorem emits_of_exec {i : Instr} {s : State} {sda scl : Latch} {rest : List Bit} {events : List Event} {v : Value}
    {n : Nat} (h : exec i s = .next ((s.afterLine sda scl rest events).complete v)) (hn : events.length = n) :
    s.emits i n :=
  ⟨_, h, by rw [← hn]; exact List.length_append⟩

/-! ## SDA while SCL is released (R158) -/

/-- Events that begin and end with both lines driven and change SDA only while SCL is driven, whatever follows them. -/
def ChangesWhileLow (events : List Event) : Prop :=
  ∀ more, sdaChanges .driven .driven (events ++ more) = sdaChanges .driven .driven more

theorem ChangesWhileLow.nil : ChangesWhileLow [] := fun _ => rfl

theorem ChangesWhileLow.append {es fs : List Event} (he : ChangesWhileLow es) (hf : ChangesWhileLow fs) :
    ChangesWhileLow (es ++ fs) := fun more => by rw [List.append_assoc, he, hf]

theorem sentEvents_changesWhileLow (echo : Nat → Bit) (i : Nat) (bits : List Bit) :
    ChangesWhileLow (sentEvents echo i bits) := by
  induction bits generalizing i with
  | nil => exact .nil
  | cons b bs ih =>
    have hbit : ChangesWhileLow (sentEvents echo i [b]) := by cases b <;> exact fun _ => rfl
    rw [sentEvents_cons]
    exact hbit.append (ih _)

theorem recvEvents_changesWhileLow (echo : Nat → Bit) (i : Nat) (bits : List Bit) :
    ChangesWhileLow (recvEvents echo i bits) := by
  induction bits generalizing i with
  | nil => exact .nil
  | cons b bs ih =>
    have hbit : ChangesWhileLow (recvEvents echo i [b]) := fun _ => rfl
    rw [recvEvents_cons]
    exact hbit.append (ih _)

theorem byteEvents_changesWhileLow (echo : Nat → Bit) (i : Nat) (x : Byte) (ack : Bit) :
    ChangesWhileLow (byteEvents echo i x ack) :=
  (sentEvents_changesWhileLow _ _ _).append (recvEvents_changesWhileLow _ _ _)

theorem bytesEvents_changesWhileLow (echo : Nat → Bit) (i : Nat) (data : List Byte) :
    ChangesWhileLow (bytesEvents echo i data) := by
  induction data generalizing i with
  | nil => exact .nil
  | cons x xs ih => exact (byteEvents_changesWhileLow _ _ _ _).append (ih _)

theorem dataEvents_changesWhileLow (rxAck : Bool) (echo : Nat → Bit) (i : Nat) (data : List Byte) :
    ChangesWhileLow (dataEvents rxAck echo i data) := by
  induction data generalizing i with
  | nil => exact .nil
  | cons x xs ih =>
    exact ((recvEvents_changesWhileLow _ _ _).append (sentEvents_changesWhileLow _ _ _)).append (ih _)

/-- From an idle bus, SDA falls at the START and rises at the STOP. -/
theorem sdaChanges_transaction {events : List Event} (h : ChangesWhileLow events) :
    sdaChanges .released .released (startEvents ++ events ++ stopEvents) = [.drive .sda, .release .sda true] := by
  rw [List.append_assoc]
  exact congrArg (Event.drive .sda :: ·) (h stopEvents)

end Sys2Proof.Machine

namespace Sys2Proof.Machine.I2cBus

/-! ## The statements, in a namespace of their own, since they are named after the operations -/

/-- Settles O39: without limits both calls run the same operation under the same gate. -/
theorem softwareTransport : Obligations.SoftwareTransport := by
  intro s a hsoft hread hwrite
  refine ⟨fun bytes => exec_congr rfl ?_, fun n => exec_congr rfl ?_⟩
  · simp only [operation, asUnit, M.bind_run, transWrite_softwareBus hsoft hwrite]
  · simp only [operation, M.bind_run, transRead_softwareBus hsoft hread]

/-- Settles O25: each call is its line primitive, over a fixed level, a held line, and in every environment. -/
theorem linePrimitives : Obligations.LinePrimitives := by
  intro s hs
  refine ⟨(exec_bus hs rfl rfl).trans (conclude_asUnit_ok (driveLine_sda s)),
    (exec_bus hs rfl rfl).trans (conclude_asUnit_ok (driveLine_scl s)), fun v rest hsenses => ⟨?_, ?_, ?_⟩,
    fun hnil hheld => ?_, fun hnil hheld => ⟨?_, ?_⟩, fun l => ?_, ?_⟩
  · exact (exec_bus hs rfl rfl).trans (conclude_asBit_ok (releaseLine_sda s v rest hsenses))
  · exact (exec_bus hs rfl rfl).trans (conclude_asBit_ok (releaseLine_scl_run s v rest hsenses))
  · exact (exec_bus hs rfl rfl).trans (conclude_asUnit_ok (pulseScl_next s v rest hsenses))
  · rw [← hnil]
    exact (exec_bus hs rfl rfl).trans (conclude_asBit_ok (releaseLine_sda_held hnil hheld))
  · rw [← hnil]
    exact (exec_bus hs rfl rfl).trans (conclude_asBit_ok (releaseLine_scl_held hnil hheld))
  · rw [← hnil]
    exact (exec_bus hs rfl rfl).trans (conclude_asUnit_ok (pulseScl_held hnil hheld))
  · obtain ⟨v, t, hrelease, hlatches⟩ := releaseLine_frame l s
    exact ⟨v, t, (exec_bus hs rfl rfl).trans (conclude_asBit_ok hrelease), hlatches⟩
  · obtain ⟨v, t, hpulse, hlatches⟩ := pulseScl_frame s
    exact ⟨v, t, (exec_bus hs rfl rfl).trans (conclude_asUnit_ok hpulse), hlatches⟩

/-- Settles O26, by what the wait does over fixed answers and how it ends in every environment. -/
theorem waitScl : Obligations.WaitScl := by
  intro s hs
  refine ⟨fun k rest xs hsenses hexp => ?_, fun k rest xs hsenses hexp => ?_, ?_⟩
  · exact (exec_bus hs rfl rfl).trans (conclude_asUnit_ok (waitScl_ok k s rest xs hsenses hexp))
  · exact (exec_bus hs rfl rfl).trans (conclude_asUnit_raised (waitScl_expires k s rest xs hsenses hexp))
  · rcases waitScl_outcome s with ⟨k, t, hwait, htrace⟩ | ⟨k, t, hwait, htrace⟩
    · obtain ⟨hscl, hsda⟩ := waitScl_latches.of_ok hwait
      exact ⟨t, hsda, hscl, waitScl_keeps.of_ok hwait,
        .inl ⟨(exec_bus hs rfl rfl).trans (conclude_asUnit_ok hwait), k, htrace⟩⟩
    · obtain ⟨hscl, hsda⟩ := waitScl_latches.of_error hwait
      exact ⟨t, hsda, hscl, waitScl_keeps.of_error hwait,
        .inr ⟨(exec_bus hs rfl rfl).trans (conclude_asUnit_raised hwait), k, htrace⟩⟩

/-- Settles O27: every run of the recovery, the run without an end, and the ends in every environment. -/
theorem busReset : Obligations.BusReset := by
  intro s hs
  refine ⟨fun senses expiries events stuck rest xs hrun hsenses hexp => ?_,
    fun senses expiries xs hlimit hheld hstart hsenses hexp => ?_, ?_⟩
  · exact (exec_bus hs rfl rfl).trans (conclude_asUnit_run (resetBus_run s hrun rest xs hsenses hexp))
  · exact (exec_bus hs rfl rfl).trans
      (conclude_asUnit_endless (resetBus_endless s hstart hlimit hheld xs hsenses hexp))
  · exact endsOrHangs_of (exec_bus hs rfl rfl) resetBus_keeps resetBus_stuck fun _ => resetBus_idle

/-- Settles O28: the ends in every environment, then the waits, the runs of the recovery, and those without an end. -/
theorem startStop : Obligations.StartStop := by
  intro s hs
  refine ⟨endsOrHangs_of (exec_bus hs rfl rfl) startCondition_keeps startCondition_stuck
      fun t => startCondition_driven s () t,
    endsOrHangs_of (exec_bus hs rfl rfl) stopCondition_keeps stopCondition_stuck fun _ => stopCondition_idle,
    fun j rest xs => ⟨fun hexp => ⟨fun hsenses => ?_, fun hsenses => ?_⟩,
      fun hexp => ⟨fun hsenses => ?_, fun hsenses => ?_⟩,
      fun senses expiries events stuck hrun => ⟨fun hsenses hexp => ?_, fun hstuck hsenses hexp => ?_,
        fun hstuck hsenses hexp => ?_, fun hstuck hsenses hexp => ?_⟩,
      fun hlimit hheld => ⟨fun hsenses => ?_, fun hsenses hexp => ?_,
        fun senses expiries hstart => ⟨fun hsenses hexp => ?_, fun hsenses hexp => ?_⟩⟩⟩⟩
  · exact (exec_bus hs rfl rfl).trans (conclude_asUnit_ok (startCondition_stretched j hsenses hexp))
  · exact (exec_bus hs rfl rfl).trans (conclude_asUnit_ok (stopCondition_stretched j hsenses hexp))
  · exact (exec_bus hs rfl rfl).trans (conclude_asUnit_raised (startCondition_expires j hsenses hexp))
  · exact (exec_bus hs rfl rfl).trans
      (conclude_asUnit_raised (stopCondition_waitError (waitScl_expires j s rest xs hsenses hexp)))
  · exact (exec_bus hs rfl rfl).trans (conclude_asUnit_run (stopCondition_recovers j hrun hsenses hexp))
  · exact (exec_bus hs rfl rfl).trans (conclude_asUnit_run (startCondition_stuckRecovery hrun hstuck hsenses hexp))
  · subst hstuck
    exact (exec_bus hs rfl rfl).trans (conclude_asUnit_ok (startCondition_recovers j hrun hsenses hexp))
  · subst hstuck
    exact (exec_bus hs rfl rfl).trans (conclude_asUnit_raised (startCondition_recoversExpires j hrun hsenses hexp))
  · exact (exec_bus hs rfl rfl).trans (conclude_asUnit_endless (startCondition_endless
      (releaseLine_sda_held hsenses hheld)
      (resetBus_endless (s.afterLine _ _ _ _) .now hlimit hheld s.env.expiries hsenses rfl)))
  · exact (exec_bus hs rfl rfl).trans (conclude_asUnit_endless (stopCondition_held j hlimit hheld hsenses hexp))
  · exact (exec_bus hs rfl rfl).trans (conclude_asUnit_endless (startCondition_endless
      (releaseLine_sda s false senses hsenses)
      (resetBus_endless (s.afterLine _ _ _ _) hstart hlimit hheld xs rfl hexp)))
  · refine (exec_bus hs rfl rfl).trans (conclude_asUnit_endless ?_)
    rw [stopCondition_low j s senses (expiries ++ xs) hsenses (by rw [hexp, List.append_assoc])]
    exact resetBus_endless (s.afterWait _ _ _ _ _) hstart hlimit hheld xs rfl rfl

/-- Settles O29: a bit is its data phase and the wait, over whose end the latches fall. -/
theorem writeReadBit : Obligations.WriteReadBit := by
  intro s j rest xs hs
  refine ⟨fun hexp => ⟨fun hsenses => ?_, fun u hsenses => ?_, fun u v hsenses => ?_⟩,
    fun hexp => ⟨fun hsenses => ?_, fun u hsenses => ⟨?_, ?_⟩⟩⟩
  · exact (exec_bus hs rfl rfl).trans (conclude_asUnit_ok (sendBit_stretched j (placeBit_zero s) hsenses hexp))
  · exact (exec_bus hs rfl rfl).trans (conclude_asUnit_ok (sendBit_stretched j (placeBit_one hsenses) rfl hexp))
  · exact (exec_bus hs rfl rfl).trans (conclude_asBit_ok (recvBit_stretched j hsenses hexp))
  · exact (exec_bus hs rfl rfl).trans (conclude_asUnit_raised (sendBit_expires j (placeBit_zero s) hsenses hexp))
  · exact (exec_bus hs rfl rfl).trans (conclude_asUnit_raised (sendBit_expires j (placeBit_one hsenses) rfl hexp))
  · exact (exec_bus hs rfl rfl).trans (conclude_asBit_raised (recvBit_expires j hsenses hexp))

/-- Settles O30: each row sends its byte, and an address row the byte of its address. -/
theorem bytes : Obligations.Bytes := by
  intro s echo rest hs
  refine ⟨fun x ack => exec_sendByte hs rfl rfl, fun x hsenses => ?_, fun a ack => ?_, fun a ack => ?_,
    fun ack => ⟨exec_sendByte hs rfl rfl, exec_sendByte hs rfl rfl, exec_sendByte hs rfl rfl, exec_sendByte hs rfl rfl⟩⟩
  · exact (exec_bus hs rfl rfl).trans (conclude_return_ok (recvByte_quiet echo 0 x s rest hsenses))
  · rw [← addressByte_write]
    exact exec_sendByte hs rfl rfl
  · rw [← addressByte_read]
    exact exec_sendByte hs rfl rfl

/-- Settles O32: every byte acknowledged, the address byte not, and a data byte not. -/
theorem busWrite : Obligations.BusWrite := by
  intro s echo a rest hs
  refine ⟨fun data hsenses => ?_, fun data hsenses => ?_, fun acked x unsent hsenses => ?_⟩
  · refine (exec_bus hs rfl rfl).trans (conclude_asUnit_ok ?_)
    simpa only [addr7_ofNat, bytesSenses, bytesEvents, List.append_assoc] using
      busWrite_quiet echo a.toNat data s rest (addr7_le a) (by
        simpa only [addr7_ofNat, bytesSenses, List.append_assoc] using hsenses)
  · refine (exec_bus hs rfl rfl).trans (conclude_asUnit_raised ?_)
    simpa only [addr7_ofNat] using
      busWrite_addressNack echo a.toNat data s rest (addr7_le a) (by
        simpa only [addr7_ofNat] using hsenses)
  · refine (exec_bus hs rfl rfl).trans (conclude_asUnit_raised ?_)
    simpa only [addr7_ofNat] using busWrite_dataNack echo a.toNat acked x unsent s rest (addr7_le a) (by
      simpa only [addr7_ofNat] using hsenses)

/-- Settles O33: the address byte acknowledged, and not. -/
theorem busRead : Obligations.BusRead := by
  intro s echo a rest hs
  refine ⟨fun data hsenses => ?_, fun count hsenses => ?_⟩
  · refine (exec_bus hs rfl rfl).trans (conclude_return_ok ?_)
    simpa only [addr7_ofNat] using
      busRead_quiet echo a.toNat data s rest (addr7_le a) (by
        simpa only [addr7_ofNat] using hsenses)
  · refine (exec_bus hs rfl rfl).trans (conclude_return_raised ?_)
    simpa only [addr7_ofNat] using
      busRead_addressNack echo a.toNat count s rest (addr7_le a) (by
        simpa only [addr7_ofNat] using hsenses)

/-- Settles O34: the events that each operation's own statement gives, counted. -/
theorem eventCounts : Obligations.EventCounts := by
  intro s echo rest hs
  obtain ⟨hwriteByte, hreadByte, -⟩ := bytes s echo rest hs
  obtain ⟨hreset, -⟩ := busReset s hs
  refine ⟨fun hsenses => ⟨?_, ?_⟩, fun b hsenses => ?_, fun b hsenses => ?_, fun x ack hsenses => ?_,
    fun x hsenses => ?_, fun a data hsenses => ?_, fun a data hsenses => ?_, fun v hsenses => ?_⟩
  · exact emits_of_exec ((exec_bus hs rfl rfl).trans (conclude_asUnit_ok (startCondition_quiet s rest hsenses))) rfl
  · exact emits_of_exec ((exec_bus hs rfl rfl).trans (conclude_asUnit_ok (stopCondition_quiet s rest hsenses))) rfl
  · exact emits_of_exec ((exec_bus hs rfl rfl).trans (conclude_asUnit_ok (sendBit_quiet echo 0 b s rest hsenses)))
      (sentEvents_length echo 0 [b])
  · exact emits_of_exec ((exec_bus hs rfl rfl).trans (conclude_asBit_ok (recvBit_quiet echo 0 b s rest hsenses)))
      (recvEvents_length echo 0 [b])
  · exact emits_of_exec (hwriteByte x ack hsenses) (byteEvents_length echo 0 x ack)
  · exact emits_of_exec (hreadByte x hsenses) (recvEvents_length echo 0 (msbFirst x))
  · obtain ⟨hwrite, -⟩ := busWrite s echo a rest hs
    refine emits_of_exec (hwrite data hsenses) ?_
    simp only [List.length_append, byteEvents_length, bytesEvents_length, startEvents, stopEvents, List.length_cons,
      List.length_nil]
    omega
  · obtain ⟨hread, -⟩ := busRead s echo a rest hs
    refine emits_of_exec (hread data hsenses) ?_
    simp only [List.length_append, byteEvents_length, dataEvents_length, startEvents, stopEvents, List.length_cons,
      List.length_nil]
    omega
  · -- the recovery whose first round finds SDA high
    have hfits : Recovery.Fits s.params ⟨v, [], List.replicate 9 true, 0⟩ :=
      ⟨by simp [roundsOfNine], rfl, fun m _ => by simp⟩
    have hexec := hreset _ _ _ _ rest s.env.expiries (.ends _ hfits) hsenses rfl
    exact ⟨_, hexec, List.length_append⟩

/-- Settles O35, for both transactions by what they keep, how they end early and where they leave the lines. -/
theorem busOutcomes : Obligations.BusOutcomes := by
  rintro s i hs (⟨a, data, ha, rfl⟩ | ⟨a, count, ha, rfl⟩)
  · exact transactionEnds_of (f := fun _ => .unit) (exec_bus hs rfl rfl) (busWrite_keeps a data)
      (busWrite_endsEarly (fun _ _ => .inl) nackStop_idle data ha) (busWrite_ensures_idle a data)
  · exact transactionEnds_of (exec_bus hs rfl rfl) (busRead_keeps a count)
      (busRead_endsEarly (fun _ _ => .inl) nackStop_idle count ha) (busRead_ensures_idle a count)

/-- Settles O36: between START and STOP every event list of a transaction changes SDA only while SCL is driven. -/
theorem busConditions : Obligations.BusConditions := by
  intro s echo a rest hs _ _
  obtain ⟨hwrite, hwriteNack, hdataNack⟩ := busWrite s echo a rest hs
  obtain ⟨hread, hreadNack⟩ := busRead s echo a rest hs
  have haddr (x : Byte) (ack : Bit) : ChangesWhileLow (byteEvents echo 0 x ack) :=
    byteEvents_changesWhileLow _ _ _ _
  refine ⟨fun data hsenses => ⟨_, _, hwrite data hsenses, rfl, ?_⟩,
    fun data hsenses => ⟨_, _, hwriteNack data hsenses, rfl, ?_⟩,
    fun acked x unsent hsenses => ⟨_, _, hdataNack acked x unsent hsenses, rfl, ?_⟩,
    fun data hsenses => ⟨_, _, hread data hsenses, rfl, ?_⟩,
    fun count hsenses => ⟨_, _, hreadNack count hsenses, rfl, ?_⟩⟩
  · rw [List.append_assoc startEvents]
    exact sdaChanges_transaction ((haddr _ _).append (bytesEvents_changesWhileLow _ _ _))
  · exact sdaChanges_transaction (haddr _ _)
  · rw [List.append_assoc startEvents, List.append_assoc startEvents]
    exact sdaChanges_transaction
      (((haddr _ _).append (bytesEvents_changesWhileLow _ _ _)).append (byteEvents_changesWhileLow _ _ _ _))
  · rw [List.append_assoc startEvents]
    exact sdaChanges_transaction ((haddr _ _).append (dataEvents_changesWhileLow _ _ _ _))
  · exact sdaChanges_transaction (haddr _ _)

end Sys2Proof.Machine.I2cBus
end

section
/-! SUPPORT. The statements of 42_transport: the session table and the sessions of the rows it does not list, the
session calls, the transactions of a native transport, and `detect`. -/

namespace Sys2Proof.Machine

variable {α β : Type}

/-! ## What the environment is asked (R20, R190, R193, R195) -/

/-- The backend opens or not: the next answer fixed, or a free one. -/
theorem drawOpens_answer (s : State) : ∃ ok : Bool, ∃ e : Env, drawOpens s = .ok ok (s.setEnv e) ∧
    e.mode = s.env.mode ∧ e.held = s.env.held ∧
    ∀ v rest, s.env.opens = v :: rest → ok = v ∧ e = { s.env with opens := rest } := by
  rw [drawOpens_run]
  cases s.env.opens with
  | nil => exact ⟨_, _, rfl, rfl, rfl, nofun⟩
  | cons v rest => exact ⟨_, _, rfl, rfl, rfl, by rintro _ _ ⟨⟩; exact ⟨rfl, rfl⟩⟩

/-- The device map: the next one fixed, or a free one. -/
theorem drawListing_answer (s : State) : ∃ map, ∃ e : Env, drawListing s = .ok map (s.setEnv e) ∧
    e.mode = s.env.mode ∧ e.held = s.env.held ∧
    ∀ m rest, s.env.listings = m :: rest → map = m ∧ e = { s.env with listings := rest } := by
  rw [drawListing_run]
  cases s.env.listings with
  | nil => exact ⟨_, _, rfl, rfl, rfl, nofun⟩
  | cons m rest => exact ⟨_, _, rfl, rfl, rfl, by rintro _ _ ⟨⟩; exact ⟨rfl, rfl⟩⟩

/-- The operation never ends early, changes nothing but the answers to come, and answers what `P` says. -/
def Draws (P : α → Prop) (x : M α) : Prop :=
  ∀ s, ∃ a, ∃ e : Env, x s = .ok a (s.setEnv e) ∧ P a ∧ e.mode = s.env.mode ∧ e.held = s.env.held

section Draws

variable {P : α → Prop} {Q : β → Prop}

theorem Draws.pure {a : α} (h : P a) : Draws P (Pure.pure a : M α) := fun s => ⟨a, s.env, rfl, h, rfl, rfl⟩

theorem Draws.bind {x : M β} {f : β → M α} (hx : Draws Q x) (hf : ∀ b, Q b → Draws P (f b)) :
    Draws P (x >>= f) := by
  intro s
  obtain ⟨b, e, hrun, hb, hmode, hheld⟩ := hx s
  obtain ⟨a, e', hrun', ha, hmode', hheld'⟩ := hf b hb (s.setEnv e)
  exact ⟨a, e', by rw [M.bind_run, hrun]; exact hrun', ha, hmode'.trans hmode, hheld'.trans hheld⟩

theorem Draws.endsEarly {x : M α} (h : Draws P x) (R : Stop → State → Prop) : EndsEarly R x := by
  intro s stop t hx
  obtain ⟨a, e, hrun, -⟩ := h s
  rw [hrun] at hx
  cases hx

end Draws

theorem nextDraw_draws : Draws (fun _ => True) nextDraw := fun s => ⟨_, _, nextDraw_run s, trivial, rfl, rfl⟩

/-- Filling up answers exactly n bytes (R190). -/
theorem fillBytes_draws (bytes : List Byte) (n : Nat) :
    Draws (fun out : List Byte => out.length = n) (fillBytes bytes n) := by
  induction n generalizing bytes with
  | zero => exact .pure rfl
  | succ n ih =>
    have hcons (b : Byte) (rest : List Byte) :
        Draws (fun out : List Byte => out.length = n + 1) (fillBytes rest n >>= fun out => pure (b :: out)) :=
      (ih rest).bind fun _ hout => .pure (congrArg (· + 1) hout)
    cases bytes with
    | cons b rest => exact hcons b rest
    | nil => exact nextDraw_draws.bind fun k _ => hcons (Config.dataByte k) []

/-- A read answer that is Ok carries n bytes. -/
def ReadAnswer.Carries (n : Nat) (r : ReadAnswer) : Prop := ∀ bytes, r = .ok bytes → bytes.length = n

theorem drawWrite_next {s : State} {r : WriteAnswer} {ws : List WriteAnswer} (h : s.env.writes = r :: ws) :
    drawWrite s = .ok r (s.setEnv { s.env with writes := ws }) := by
  simp only [drawWrite, M.bind_run, M.get_run, h, M.set_run, M.pure_run]

theorem drawWrite_draws : Draws (fun _ => True) drawWrite := by
  intro s
  cases h : s.env.writes with
  | cons r ws => exact ⟨r, _, drawWrite_next h, trivial, rfl, rfl⟩
  | nil =>
    rw [drawWrite, M.bind_run]
    simp only [M.get_run, h]
    refine nextDraw_draws.bind (fun k _ => ?_) s
    cases Config.writeFailure k <;> exact .pure trivial

theorem drawRead_next {s : State} {n : Nat} {r : ReadAnswer} {rs : List ReadAnswer} (h : s.env.reads = r :: rs)
    (hn : r.Carries n) : drawRead n s = .ok r (s.setEnv { s.env with reads := rs }) := by
  simp only [drawRead, M.bind_run, M.get_run, h, M.set_run]
  cases r with
  | failed why => rfl
  | ok bytes =>
    obtain rfl := hn bytes rfl
    simp only [M.bind_run, fillBytes_exact, M.pure_run]

theorem drawRead_draws (n : Nat) : Draws (ReadAnswer.Carries n) (drawRead n) := by
  have hfilled (bytes : List Byte) :
      Draws (ReadAnswer.Carries n) (fillBytes bytes n >>= fun out => pure (.ok out)) :=
    (fillBytes_draws bytes n).bind fun _ hout => .pure (by rintro _ ⟨⟩; exact hout)
  have hfailed (why : XferErr) : Draws (ReadAnswer.Carries n) (pure (.failed why) : M ReadAnswer) := .pure nofun
  intro s
  rw [drawRead, M.bind_run]
  cases h : s.env.reads with
  | cons r rs =>
    simp only [M.get_run, h, M.bind_run, M.set_run]
    cases r with
    | ok bytes => exact hfilled bytes (s.setEnv { s.env with reads := rs })
    | failed why => exact hfailed why (s.setEnv { s.env with reads := rs })
  | nil =>
    simp only [M.get_run, h]
    refine nextDraw_draws.bind (fun k _ => ?_) s
    cases Config.readFailure k with
    | none => exact hfilled []
    | some why => exact hfailed why

/-! ## What a call leaves of the session (R192) -/

/-- A call that answers a next state is allowed in its session, and its operation ended there, Ok or with an error. -/
theorem exec_next_cases {i : Instr} {s t : State} (h : exec i s = .next t) :
    sessionGate i s.session = true ∧
      ((∃ v u, operation i s s = .ok v u ∧ t = u.complete v) ∨
       ∃ e u, operation i s s = .error (.raised e) u ∧ t = u.takeError e) := by
  rw [exec_eq] at h
  rcases invoke_cases (sessionGate i) (operation i s) s with
    ⟨-, hinv⟩ | ⟨hgate, ⟨v, u, hop, hinv⟩ | ⟨e, u, hop, hinv⟩ | ⟨r, u, -, hinv⟩ | ⟨f, u, -, hinv⟩⟩ <;>
    rw [hinv] at h
  case inr.inl => exact ⟨hgate, .inl ⟨v, u, hop, (Host.Outcome.next.inj h).symm⟩⟩
  case inr.inr.inl => exact ⟨hgate, .inr ⟨e, u, hop, (Host.Outcome.next.inj h).symm⟩⟩
  all_goals cases h

/-- The session an operation leaves, by how it ends. -/
structure EndsInSession (x : M α) (s : State) (afterOk afterErr : Session) : Prop where
  ok : ∀ a t, x s = .ok a t → t.session = afterOk
  raised : ∀ e t, x s = .error (.raised e) t → t.session = afterErr

/-- The session is the same. -/
def SameSession (s t : State) : Prop := t.session = s.session

theorem SameSession.bind {x : M α} {f : α → M β} (hx : Keeps SameSession x) (hf : ∀ a, Keeps SameSession (f a)) :
    Keeps SameSession (x >>= f) :=
  Keeps.bind (R := SameSession) (fun _ _ _ h k => Eq.trans k h) hx hf

theorem SameSession.pure (a : α) : Keeps SameSession (Pure.pure a : M α) :=
  Keeps.pure (R := SameSession) (fun _ => rfl) a

theorem SameSession.raise (e : Err) : Keeps SameSession (Machine.raise e : M α) :=
  Keeps.raise (R := SameSession) (fun _ => rfl) e

theorem SameSession.setStream (bs : BitStream) : Keeps SameSession (modify fun t => t.setStream bs) :=
  Keeps.update _ fun _ => rfl

theorem Keeps.sameSession {x : M α} (h : Keeps FlashFrame x) : Keeps SameSession x :=
  h.mono fun _ _ => FlashFrame.session

/-- An operation that leaves what a flash operation leaves, and then answers a value. -/
theorem Keeps.sameSession_answer {x : M α} (h : Keeps FlashFrame x) (f : α → Value) :
    Keeps SameSession (x >>= fun a => Pure.pure (f a)) := SameSession.bind h.sameSession fun a => SameSession.pure (f a)

theorem Keeps.endsInSession {x : M α} (h : Keeps SameSession x) (s : State) :
    EndsInSession x s s.session s.session where
  ok _ _ hrun := h.of_ok hrun
  raised _ _ hrun := h.of_error hrun

section EndsInSession

variable {s : State} {v w : Session}

theorem EndsInSession.pure (a : α) (s : State) (w : Session) : EndsInSession (Pure.pure a : M α) s s.session w where
  ok _ _ hrun := by cases hrun; rfl
  raised _ _ hrun := by cases hrun

theorem EndsInSession.raise (e : Err) (s : State) (v : Session) :
    EndsInSession (Machine.raise e : M α) s v s.session where
  ok _ _ hrun := by cases hrun
  raised _ _ hrun := by cases hrun; rfl

theorem EndsInSession.setSession (s : State) (v w : Session) :
    EndsInSession (modify fun t => t.setSession v : M Unit) s v w where
  ok _ _ hrun := by cases hrun; rfl
  raised _ _ hrun := by cases hrun

theorem EndsInSession.bind {x : M α} {f : α → M β} (hf : ∀ a t, x s = .ok a t → EndsInSession (f a) t v w)
    (hx : ∀ e t, x s = .error (.raised e) t → t.session = w) : EndsInSession (x >>= f) s v w := by
  constructor <;> intro b t hrun <;> rw [M.bind_run] at hrun
  case ok =>
    cases hxs : x s with
    | ok a u => rw [hxs] at hrun; exact (hf a u hxs).ok b t hrun
    | error stop u => rw [hxs] at hrun; cases hrun
  case raised =>
    cases hxs : x s with
    | ok a u => rw [hxs] at hrun; exact (hf a u hxs).raised b t hrun
    | error stop u => rw [hxs] at hrun; cases hrun; exact hx b _ hxs

theorem EndsInSession.asUnit {x : M Unit} (h : EndsInSession x s v w) : EndsInSession (Machine.asUnit x) s v w :=
  .bind (fun a t hrun => h.ok a t hrun ▸ .pure _ t w) h.raised

/-- An operation that keeps the session and then, where it ends Ok, sets it. -/
theorem Keeps.endsInSession_set {x : M α} (h : Keeps SameSession x) (v : Session) (s : State) :
    EndsInSession (x >>= fun _ => modify fun t => t.setSession v) s v s.session :=
  .bind (fun _ t _ => .setSession t v s.session) fun _ _ hrun => h.of_error hrun

end EndsInSession

/-! ### The calls that change it -/

theorem openTransport_endsInSession (s : State) : EndsInSession openTransport s .initialized s.session := by
  refine .bind (fun opens t hrun => ?_) fun _ _ hrun => (drawOpens_keeps.of_error hrun).session
  rw [← (drawOpens_keeps.of_ok hrun).session]
  cases opens with
  | true => exact .setSession t _ _
  | false => exact .raise _ t _

/-- `enter_isp` up to its session (R213). -/
def checkIsp : M Unit := do
  catching isNoAckOrIo (regWrite8 regIspCtrl cmdByteEnterIsp) (return ())
  let v ← catching isNoAckOrIo (regRead8 regIspCtrl) (raise .enterIspFailed)
  whenever (!statusIsp v) (raise .enterIspFailed)

theorem enterIsp_eq : enterIsp = checkIsp >>= fun _ => modify fun t => t.setSession .ispActive := by
  simp only [enterIsp, checkIsp, bind_assoc]

theorem checkIsp_keeps : Keeps AccessFrame checkIsp :=
  AccessFrame.bind (AccessFrame.catching _ (regWrite8_keeps _ _) (AccessFrame.pure ())) fun _ =>
    AccessFrame.bind (AccessFrame.catching _ (regRead8_keeps _) (AccessFrame.raise _)) fun _ =>
    AccessFrame.whenever _ (AccessFrame.raise _)

theorem enterIsp_endsInSession (s : State) : EndsInSession enterIsp s .ispActive s.session := by
  rw [enterIsp_eq]
  exact checkIsp_keeps.flash.sameSession.endsInSession_set .ispActive s

/-- No error is raised; a refusal or a run without end is none. -/
def NothingRaised (stop : Stop) (_ : State) : Prop := ∀ e, stop ≠ .raised e

/-- Where every error is caught and the handler raises none, none is raised. -/
theorem catching_all_nothingRaised {x handler : M α} (h : EndsEarly NothingRaised handler) :
    EndsEarly NothingRaised (catching (fun _ => true) x handler) := by
  intro s stop t hrun
  rw [catching_run] at hrun
  cases hx : x s with
  | ok a u => rw [hx] at hrun; cases hrun
  | error st u =>
    rw [hx] at hrun
    cases st with
    | raised e => exact h u stop t hrun
    | refused r => cases hrun; exact nofun
    | stuck f => cases hrun; exact nofun

theorem exitIsp_nothingRaised : EndsEarly NothingRaised (asUnit exitIsp) :=
  ((catching_all_nothingRaised (EndsEarly.pure ())).bind fun _ => EndsEarly.update _).bind fun _ => EndsEarly.pure _

theorem exitIsp_endsInSession (s : State) : EndsInSession exitIsp s .initialized s.session :=
  (AccessFrame.catching _ (regWrite8_keeps _ _) (AccessFrame.pure ())).flash.sameSession.endsInSession_set _ s

/-! ### The calls that keep it -/

theorem recognise_sameSession (take : BitStream → Option BitStream) (meaning : State → BitStream → NibResult) :
    Keeps SameSession (recognise take meaning) := by
  refine Keeps.getBind fun s => ?_
  cases take s.stream <;> rfl

theorem valueResult_sameSession (r : Except Err Value) : Keeps SameSession (valueResult r) := by
  cases r with
  | ok v => exact SameSession.pure v
  | error e => exact SameSession.raise e

theorem testReg_sameSession (reg : Byte) (test : Byte → Bool) : Keeps SameSession (testReg reg test) :=
  (regRead8_keeps reg).flash.sameSession_answer fun v => .bool (test v)

theorem opnd_sameSession (form : OpndForm) (s : State) : Keeps SameSession (operation (.opnd form) s) := by
  cases form with
  | write n value =>
    exact (AccessFrame.bind (AccessFrame.require _ _) fun _ =>
      AccessFrame.bind (AccessFrame.whenever _ (regWrite_keeps _ _ _)) fun _ => AccessFrame.pure _).flash.sameSession
  | read n => exact Keeps.ite _ (SameSession.pure _) ((regRead_keeps _ _ _).flash.sameSession_answer _)

theorem regw_sameSession (a : IspAddr) (reg : Byte) (chunk : List Byte) (s : State) :
    Keeps SameSession (operation (.regw a reg chunk) s) :=
  (AccessFrame.bind (AccessFrame.require _ _) fun _ => AccessFrame.bind (AccessFrame.require _ _) fun _ =>
    AccessFrame.bind (transWrite_keeps _ _) fun _ => AccessFrame.pure _).flash.sameSession

theorem regr_sameSession (reg : Byte) (k : Nat) (seq : Bool) (s : State) :
    Keeps SameSession (operation (.regr reg k seq) s) :=
  (AccessFrame.bind (AccessFrame.require _ _) fun _ => AccessFrame.bind (AccessFrame.require _ _) fun _ =>
    AccessFrame.bind (transWrite_keeps _ _) fun _ => AccessFrame.bind (transRead_keeps _ _) fun _ =>
    AccessFrame.pure _).flash.sameSession

theorem gffHeader_sameSession (file : List Byte) (s : State) : Keeps SameSession (operation (.gffHeader file) s) := by
  rw [operation]
  cases headerPayload file with
  | error e => exact SameSession.raise e
  | ok payload => exact SameSession.bind (SameSession.setStream _) fun _ => SameSession.pure _

/-- The calls that change the session state: `init`, `deinit`, `enter_isp` and `exit_isp` (R192). -/
def changesSession : Instr → Bool
  | .init _ _ | .deinit | .enterIsp | .exitIsp => true
  | _ => false

theorem operation_sameSession {i : Instr} (h : changesSession i = false) (s : State) :
    Keeps SameSession (operation i s) := by
  cases i with
  | init | deinit | enterIsp | exitIsp => cases h
  | bsReadBit | decodeNibble | computeDecodedSize =>
    exact SameSession.bind (SameSession.setStream _) fun _ => SameSession.pure _
  | decode file => exact SameSession.bind (SameSession.setStream _) fun _ => valueResult_sameSession _
  | checkHeader file => exact valueResult_sameSession _
  | gffHeader file => exact gffHeader_sameSession file s
  | nib0 | nibF | nib1 | nib8 | nib2 | nib7 | nibC | nib9 | nib4 | nib5 | nibA | nibB | nib3 | nibD | nibE | nib6
  | nibError | nibZ6 | nibEndExhausted => exact recognise_sameSession _ _
  | pair n1 n2 => exact SameSession.pure _
  | drive l => exact (driveLine_keeps l).access.flash.sameSession_answer _
  | release l => exact (releaseLine_keeps l).access.flash.sameSession_answer _
  | waitScl => exact waitScl_keeps.access.flash.sameSession_answer _
  | busReset => exact resetBus_keeps.access.flash.sameSession_answer _
  | pulseScl => exact pulseScl_keeps.access.flash.sameSession_answer _
  | start => exact startCondition_keeps.access.flash.sameSession_answer _
  | stop => exact stopCondition_keeps.access.flash.sameSession_answer _
  | writeBit b => exact (sendBit_keeps b).access.flash.sameSession_answer _
  | readBit => exact recvBit_keeps.access.flash.sameSession_answer _
  | readByte => exact recvByte_keeps.access.flash.sameSession_answer _
  | writeByte | addrW | addrR | ispAddrWrite | ispAddrRead | ispAddrAiWrite | ispAddrAiRead =>
    exact (sendByte_keeps _).access.flash.sameSession_answer _
  | ack | nack => exact (sendMasterAck_keeps _).access.flash.sameSession_answer _
  | busWrite address data => exact (busWrite_keeps address data).access.flash.sameSession_answer _
  | busRead address count => exact (busRead_keeps address count).access.flash.sameSession_answer _
  | listDevices => exact drawListing_keeps.access.flash.sameSession_answer _
  | tWrite a bytes => exact (transWrite_keeps a bytes).flash.sameSession_answer _
  | tRead a n => exact (transRead_keeps a n).flash.sameSession_answer _
  | detect a => exact (detectDevice_keeps a).flash.sameSession_answer _
  | regw a reg chunk => exact regw_sameSession a reg chunk s
  | regr reg k seq => exact regr_sameSession reg k seq s
  | regWrite reg payload seq => exact (regWrite_keeps reg payload seq).flash.sameSession_answer _
  | regRead reg n seq => exact (regRead_keeps reg n seq).flash.sameSession_answer _
  | customInstruction => exact (customInstruction_keeps _ _ _ _ _).flash.sameSession_answer _
  | deviceCrc first last => exact (deviceCrc_keeps first last).flash.sameSession_answer _
  | poll => exact (pollReg_keeps _ _ _ _ _).flash.sameSession_answer _
  | ctrl | cmdEnterIsp | cmdCrc | cmdPageWrite | reboot => exact (regWrite8_keeps _ _).flash.sameSession_answer _
  | statIsp | statBusy | statCrcReady | ciPending => exact testReg_sameSession _ _
  | a24 r addr => exact (setAddr_keeps _ _).flash.sameSession_answer _
  | opnd form => exact opnd_sameSession form s
  | size lastIndex => exact Keeps.getBind fun t => (regWrite8_keeps _ _).flash.sameSession_answer (fun _ => .unit) t
  | erase => exact eraseFlash_keeps.flash.sameSession_answer _
  | hostCrc data => exact (computeHostCrc_keeps data).sameSession_answer _
  | program img => exact (programFlashImage_keeps img).sameSession_answer _
  | flashRead n => exact (readFlashImage_keeps n).sameSession_answer _

/-! ### Every call -/

theorem sessionAfter_of_keeping {i : Instr} (h : changesSession i = false) (v : Session) (ok : Bool) :
    sessionAfter i v ok = v := by
  cases i with
  | init | deinit | enterIsp | exitIsp => cases h
  | _ => rfl

/-- An operation that its session state allows ends in the session that R192's table gives it. -/
theorem operation_endsInSession (i : Instr) (s : State) (hgate : sessionGate i s.session = true) :
    EndsInSession (operation i s) s (sessionAfter i s.session true) (sessionAfter i s.session false) := by
  by_cases hchanges : changesSession i = false
  · rw [sessionAfter_of_keeping hchanges, sessionAfter_of_keeping hchanges]
    exact (operation_sameSession hchanges s).endsInSession s
  · cases i with
    | init => exact (closedSession_iff _).1 hgate ▸ (openTransport_endsInSession s).asUnit
    | enterIsp => exact (initializedSession_iff _).1 hgate ▸ (enterIsp_endsInSession s).asUnit
    | exitIsp =>
      exact ⟨(exitIsp_endsInSession s).asUnit.ok, fun e t hrun => (exitIsp_nothingRaised s _ t hrun e rfl).elim⟩
    | deinit => exact (EndsInSession.setSession s _ _).asUnit
    | _ => exact absurd rfl hchanges

/-- A call that answers a next state is allowed in its session, and ends in the one that R192's table gives it. -/
theorem exec_session {i : Instr} {s t : State} (h : exec i s = .next t) :
    sessionGate i s.session = true ∧ t.session = sessionAfter i s.session t.endedOk := by
  obtain ⟨hgate, hends⟩ := exec_next_cases h
  have hsession := operation_endsInSession i s hgate
  obtain ⟨v, u, hrun, rfl⟩ | ⟨e, u, hrun, rfl⟩ := hends
  · exact ⟨hgate, hsession.ok v u hrun⟩
  · exact ⟨hgate, hsession.raised e u hrun⟩

theorem changesSession_of_unlisted {i : Instr} (h : inSessionTable i = false) : changesSession i = false := by
  cases i with
  | init | deinit | enterIsp | exitIsp => cases h
  | _ => rfl

/-- Settles O10: every operation ends in the table's session, and `exit_isp` catches every error. -/
theorem sessionTable : Obligations.SessionTable := by
  refine ⟨fun i s _ => ⟨exec_closed, fun t => exec_session⟩, fun s t h => ?_⟩
  obtain ⟨-, ⟨v, u, -, rfl⟩ | ⟨e, u, hrun, rfl⟩⟩ := exec_next_cases h
  · rfl
  · exact (exitIsp_nothingRaised s _ u hrun e rfl).elim

/-- Settles O11: no row outside the table changes the session. -/
theorem unlistedSessions : Obligations.UnlistedSessions := by
  refine fun i s hi => ⟨exec_closed, fun t h => ?_⟩
  obtain ⟨hgate, hsession⟩ := exec_session h
  exact ⟨hgate, hsession.trans (sessionAfter_of_keeping (changesSession_of_unlisted hi) _ _)⟩

/-! ## `init`, `deinit` and `list_devices` (R193 to R195) -/

/-- `init` by whether the backend opens (R193). -/
theorem openTransport_of_draw {s t : State} {ok : Bool} (h : drawOpens s = .ok ok t) :
    openTransport s = if ok then .ok () (t.setSession .initialized) else .error (.raised .ioError) t := by
  rw [openTransport, M.bind_run, h]
  cases ok <;> rfl

/-- Settles O37: each call is refused by its gate, or ends as its one step does. -/
theorem sessionCalls : Obligations.SessionCalls := by
  intro s
  refine ⟨fun device settings => ⟨fun hs => exec_closed (i := .init device settings) ?_, fun hs => ?init⟩,
    fun hs => exec_closed (i := .deinit) (by rw [hs]; rfl),
    fun hs => exec_open (i := .deinit) ((openSession_iff _).2 hs), ?listing⟩
  · exact Bool.eq_false_iff.2 fun hgate => hs ((closedSession_iff _).1 hgate)
  case init =>
    obtain ⟨ok, e, hdraw, hmode, hheld, hfixed⟩ := drawOpens_answer s
    refine ⟨ok, e, hmode, hheld, hfixed, ?_⟩
    have hrun := openTransport_of_draw hdraw
    rw [exec_open (i := .init device settings) ((closedSession_iff _).2 hs)]
    cases ok with
    | true => exact conclude_asUnit_ok hrun
    | false => exact conclude_asUnit_raised hrun
  case listing =>
    obtain ⟨map, e, hdraw, hmode, hheld, hfixed⟩ := drawListing_answer s
    exact ⟨map, e, hmode, hheld, hfixed,
      (exec_open (i := .listDevices) rfl).trans (conclude_return_ok hdraw)⟩

/-! ## Transactions of a native transport (R190) -/

/-- A write's call ends with the answer it was given. -/
def State.endWrite (s : State) : WriteAnswer → State
  | .ok => s.complete .unit
  | .failed why => s.takeError (xferError why)

/-- A read's call ends with the answer it was given. -/
def State.endRead (s : State) : ReadAnswer → State
  | .ok bytes => s.complete (.bytes bytes)
  | .failed why => s.takeError (xferError why)

section Native

variable {s t : State} {a : Addr7} {bytes : List Byte} {n : Nat}

theorem transWrite_native (hnative : s.backend = .native) (hfits : s.maxWrite = 0 ∨ bytes.length ≤ s.maxWrite) :
    transWrite a bytes s = nativeWrite a bytes s := by
  simp only [transWrite, M.bind_run, M.get_run, fitsLimit, hfits, decide_true, require_true, hnative]

theorem transRead_native (hnative : s.backend = .native) (hfits : s.maxRead = 0 ∨ n ≤ s.maxRead) :
    transRead a n s = nativeRead a n s := by
  simp only [transRead, M.bind_run, M.get_run, fitsLimit, hfits, decide_true, require_true, hnative]

/-- The drawn outcome of a write is emitted, and is the call's result. -/
theorem exec_tWrite_drawn {r : WriteAnswer} (hs : s.session ≠ .closed) (hnative : s.backend = .native)
    (horacle : s.env.mode = .oracle) (hfits : s.maxWrite = 0 ∨ bytes.length ≤ s.maxWrite)
    (hdraw : drawWrite s = .ok r t) :
    exec (.tWrite a bytes) s = .next ((t.emit (.tWrite a bytes r)).endWrite r) := by
  have hanswer : answerWrite a bytes s = .ok r t := by
    simp only [answerWrite, M.bind_run, M.get_run, horacle, hdraw]
  refine (exec_bus hs rfl rfl).trans ?_
  cases r with
  | ok =>
    refine conclude_asUnit_ok ?_
    simp only [transWrite_native hnative hfits, nativeWrite, M.bind_run, hanswer, emit_run, M.pure_run]
  | failed why =>
    refine conclude_asUnit_raised ?_
    simp only [transWrite_native hnative hfits, nativeWrite, M.bind_run, hanswer, emit_run, raise_run]

/-- The drawn outcome of a read is emitted, and is the call's result. -/
theorem exec_tRead_drawn {r : ReadAnswer} (hs : s.session ≠ .closed) (hnative : s.backend = .native)
    (horacle : s.env.mode = .oracle) (hfits : s.maxRead = 0 ∨ n ≤ s.maxRead) (hdraw : drawRead n s = .ok r t) :
    exec (.tRead a n) s = .next ((t.emit (.tRead a n r)).endRead r) := by
  have hanswer : answerRead a n s = .ok r t := by
    simp only [answerRead, M.bind_run, M.get_run, horacle, hdraw]
  refine (exec_bus hs rfl rfl).trans ?_
  cases r with
  | ok bytes =>
    refine conclude_return_ok (f := .bytes) ?_
    simp only [transRead_native hnative hfits, nativeRead, M.bind_run, hanswer, emit_run, M.pure_run]
  | failed why =>
    refine conclude_return_raised (f := .bytes) ?_
    simp only [transRead_native hnative hfits, nativeRead, M.bind_run, hanswer, emit_run, raise_run]

end Native

/-- Settles O38: the outcome fixed, or drawn in every oracle environment, is emitted and is the result. -/
theorem nativeTransactions : Obligations.NativeTransactions := by
  intro s a hs hnative horacle
  refine ⟨fun bytes ws hfits => ⟨fun hnext => ?_, fun why hnext => ?_, ?_⟩,
    fun n rs hfits => ⟨fun bytes hlen hnext => ?_, fun why hnext => ?_, ?_⟩⟩
  · exact exec_tWrite_drawn hs hnative horacle hfits (drawWrite_next hnext)
  · exact exec_tWrite_drawn hs hnative horacle hfits (drawWrite_next hnext)
  · obtain ⟨r, e, hdraw, -, henv⟩ := drawWrite_draws s
    refine ⟨(s.setEnv e).emit (.tWrite a bytes r), r, (LineFrame.setEnv s e henv).trans (LineFrame.emit _ _),
      rfl, rfl, rfl, (exec_tWrite_drawn hs hnative horacle hfits hdraw).trans ?_⟩
    cases r <;> rfl
  · exact exec_tRead_drawn hs hnative horacle hfits (drawRead_next hnext (by rintro _ ⟨⟩; exact hlen))
  · exact exec_tRead_drawn hs hnative horacle hfits (drawRead_next hnext nofun)
  · obtain ⟨r, e, hdraw, hlen, henv⟩ := drawRead_draws n s
    refine ⟨(s.setEnv e).emit (.tRead a n r), r, (LineFrame.setEnv s e henv).trans (LineFrame.emit _ _),
      rfl, rfl, rfl, hlen, (exec_tRead_drawn hs hnative horacle hfits hdraw).trans ?_⟩
    cases r <;> rfl

/-! ## `detect` (R196) -/

/-- An error that is raised is a transport error. -/
def RaisesTransport (stop : Stop) (_ : State) : Prop := ∀ e, stop = .raised e → isTransportError e = true

theorem LinesStuck.raisesTransport {stop : Stop} {t : State} (h : LinesStuck stop t) : RaisesTransport stop t := by
  rintro e rfl
  obtain ⟨⟨⟩, -⟩ | ⟨⟨⟩, -⟩ | ⟨⟨⟩, -⟩ := h <;> rfl

theorem nackStop_raisesTransport (w : NackAt) : EndsEarly RaisesTransport (nackStop w) :=
  (stopCondition_stuck.mono fun _ _ => LinesStuck.raisesTransport).bind fun _ =>
    EndsEarly.raise (by rintro _ _ ⟨⟩; rfl)

theorem xferError_isTransportError (why : XferErr) : isTransportError (xferError why) = true := by
  cases why <;> rfl

/-- Asking the environment for a read's answer never ends early. -/
theorem answerRead_endsEarly (P : Stop → State → Prop) (a : Addr7) (n : Nat) : EndsEarly P (answerRead a n) :=
  EndsEarly.getBind fun s => by
    cases s.env.mode with
    | oracle => exact (drawRead_draws n).endsEarly P
    | reference => exact EndsEarly.ite _ (EndsEarly.bind (fun _ _ _ h => by cases h) fun _ => .pure _) (.pure _)

theorem nativeRead_raisesTransport (a : Addr7) (n : Nat) : EndsEarly RaisesTransport (nativeRead a n) :=
  (answerRead_endsEarly _ a n).bind fun r => (EndsEarly.update _).bind fun _ => by
    cases r with
    | ok bytes => exact .pure bytes
    | failed why => exact .raise (by rintro _ _ ⟨⟩; exact xferError_isTransportError why)

/-- A read raises transport errors only, on either backend. -/
theorem transRead_raisesTransport (a : Addr7) (n : Nat) : EndsEarly RaisesTransport (transRead a n) :=
  EndsEarly.getBind fun s => (EndsEarly.require fun _ _ => nofun).bind fun _ => by
    cases s.backend with
    | softwareBus =>
      exact busRead_endsEarly (fun _ _ => LinesStuck.raisesTransport) nackStop_raisesTransport n (addr7_le a)
    | native => exact nativeRead_raisesTransport a n

section Detect

variable {s t : State} {a : Addr7}

theorem detectDevice_of_ok {bytes : List Byte} (h : transRead a 1 s = .ok bytes t) :
    detectDevice a s = .ok true t := by
  simp only [detectDevice, catching_run, M.bind_run, h, M.pure_run]

theorem detectDevice_of_raised {e : Err} (h : transRead a 1 s = .error (.raised e) t) :
    detectDevice a s = .ok false t := by
  have hcaught : isTransportError e = true := transRead_raisesTransport a 1 s _ t h e rfl
  simp only [detectDevice, catching_run, M.bind_run, h, hcaught, if_true, M.pure_run]

/-- `detect` ends as its read does, with whether that is Ok. -/
theorem exec_detect (hs : s.session ≠ .closed) (h : exec (.tRead a 1) s = .next t) :
    exec (.detect a) s = .next (t.complete (.bool t.endedOk)) := by
  have hcall : exec (.tRead a 1) s = conclude ((do return .bytes (← transRead a 1) : M Value) s) :=
    exec_bus hs rfl rfl
  rw [hcall] at h
  refine (exec_bus hs rfl rfl).trans ?_
  cases hread : transRead a 1 s with
  | ok bytes u =>
    rw [conclude_return_ok hread] at h
    cases h
    exact conclude_return_ok (t := u) (detectDevice_of_ok hread)
  | error stop u =>
    cases stop with
    | raised e =>
      rw [conclude_return_raised hread] at h
      cases h
      exact conclude_return_ok (t := u) (detectDevice_of_raised hread)
    | refused | stuck =>
      rw [M.bind_run, hread] at h
      cases h

end Detect

/-- Settles O40: `detect` ends as its read, and a native read with the outcome fixed. -/
theorem detect : Obligations.Detect := by
  refine fun s a hs => ⟨fun t => exec_detect hs, fun r rs hnative horacle hnext hlen => ?_⟩
  have hread : exec (.tRead a 1) s = _ :=
    exec_tRead_drawn hs hnative horacle (by omega) (drawRead_next hnext hlen)
  rw [exec_detect hs hread]
  cases r <;> rfl

end Sys2Proof.Machine
end

section
/-! SUPPORT. The statements of 43_isp_engine: the CRCs, the scripts of register access, polling and the instructions,
ISP mode, and chunking on the reference device. -/

namespace Sys2Proof.Machine

theorem statusIsp_iff (v : Byte) : statusIsp v = true ↔ v &&& 0x80 ≠ 0 := decide_eq_true_iff

/-! ## Host CRC (R222) -/

/-- A step on the register with a byte added into it is the step of the byte's leading bit, with the byte's other bits
added one place further left. -/
theorem crcBit_xor (c x : Byte) : crcBit (c ^^^ x) = crcMessageBit c (x.getLsbD 7) ^^^ (x <<< 1) := by
  have htop (v : Byte) : v &&& 0x80 ≠ 0 ↔ v.getLsbD 7 = true := by rw [← statusIsp_bit, statusIsp_iff]
  simp only [crcBit, crcMessageBit, htop, BitVec.getLsbD_xor, BitVec.shiftLeft_xor_distrib]
  have hpoly (p : Byte) : c <<< 1 ^^^ x <<< 1 ^^^ p = c <<< 1 ^^^ p ^^^ x <<< 1 := by ac_rfl
  cases c.getLsbD 7 <;> cases x.getLsbD 7
  case false.false | true.true => rfl
  case false.true | true.false => exact hpoly 0x07

/-- A byte into the register is its bits into the register, most significant first. -/
theorem crcByte_eq_foldl (c x : Byte) : crcByte c x = (msbFirst x).foldl crcMessageBit c := by
  have hgone : x <<< 8 = 0 := BitVec.shiftLeft_eq_zero (by decide)
  simp only [crcByte, crcBit_xor, ← BitVec.shiftLeft_add, hgone]
  simp [msbFirst]

theorem crcFrom_eq_foldl (c : Byte) (data : List Byte) : crcFrom c data = (byteBits data).foldl crcMessageBit c := by
  induction data generalizing c with
  | nil => rfl
  | cons x xs ih => rw [byteBits_cons, List.foldl_append, ← crcByte_eq_foldl, ← ih]; rfl

theorem crcFrom_append (c : Byte) (a b : List Byte) : crcFrom c (a ++ b) = crcFrom (crcFrom c a) b :=
  List.foldl_append

/-- Zero bytes leave the register at 0. -/
theorem hostCrc_zeros (n : Nat) : hostCrc (List.replicate n 0x00) = 0 := by
  induction n with
  | zero => rfl
  | succ n ih => exact ih

/-! ## Calls along their scripts (R210, R211, R215, R218, R223) -/

/-- The state's own limits and parameters, with the error that `poll`'s caller gives (R223). -/
def State.pollSetting (s : State) (err : Err) : Setting := { s.setting with errors := fun _ => err }

theorem State.OnOracle.pollSetting_holds {s : State} (h : s.OnOracle) (err : Err) : (s.pollSetting err).Holds s :=
  ⟨h, rfl, rfl, rfl⟩

/-- A call whose operation ends with an error along its script. -/
theorem exec_endsAt {c : Setting} {i : Instr} {s : State} {script : List Act} {e : Err} {ws : List WriteAnswer}
    {rs : List ReadAnswer} {xs : List Bool} (hgate : sessionGate i s.session = true) (hc : c.Holds s)
    (hends : EndsAt c (operation i s) script e) (ha : s.Answers script ws rs xs) :
    exec i s = .next ((s.afterAnswers ws rs xs (eventsOf script)).takeError e) := by
  rw [exec_open hgate, hends s ws rs xs hc ha, conclude_raised]

/-- 0x4B only for sequential accesses of more than one byte (R210). -/
theorem accessAddr_eq (seq : Bool) (n : Nat) :
    accessAddr seq n = if seq = true ∧ 1 < n then (0x4B : Addr7) else 0x4A := by
  simp only [accessAddr, Bool.and_eq_true, decide_eq_true_eq]
  rfl

/-- The script that writes these byte lists one after the other. -/
def sentScript (a : Addr7) (sent : List (List Byte)) : List Act := sent.map fun bytes => .saw (.tWrite a bytes .ok)

section SentScript

variable (a : Addr7) (sent : List (List Byte))

@[simp] theorem eventsOf_sentScript : eventsOf (sentScript a sent) = sent.map fun bytes => .tWrite a bytes .ok := by
  induction sent with
  | nil => rfl
  | cons b bs ih => exact congrArg _ ih

@[simp] theorem writesOf_sentScript : writesOf (sentScript a sent) = List.replicate sent.length .ok := by
  induction sent with
  | nil => rfl
  | cons b bs ih => exact congrArg _ ih

@[simp] theorem readsOf_sentScript : readsOf (sentScript a sent) = [] := by
  induction sent with
  | nil => rfl
  | cons b bs ih => exact ih

@[simp] theorem expiriesOf_sentScript : expiriesOf (sentScript a sent) = [] := by
  induction sent with
  | nil => rfl
  | cons b bs ih => exact ih

end SentScript

theorem writeScript_eq_sentScript (maxWrite : Nat) (reg : Byte) (payload : List Byte) (seq : Bool) :
    writeScript maxWrite reg payload seq =
      sentScript (accessAddr seq payload.length) (writeTransactions maxWrite reg payload) := rfl

/-- A call that writes byte lists one after the other, where every write is answered Ok. -/
theorem exec_sent {i : Instr} {s : State} {a : Addr7} {sent : List (List Byte)} {v : Value} {ws : List WriteAnswer}
    (hgate : sessionGate i s.session = true) (ho : s.OnOracle)
    (hruns : Runs s.setting (operation i s) (sentScript a sent) v)
    (hw : s.env.writes = List.replicate sent.length .ok ++ ws) :
    exec i s = .next ((s.afterAnswers ws s.env.reads s.env.expiries
      (sent.map fun bytes => .tWrite a bytes .ok)).complete v) := by
  rw [exec_follows hgate ho hruns ⟨?_, ?_, ?_⟩, eventsOf_sentScript]
  · rw [writesOf_sentScript, hw]
  · rw [readsOf_sentScript, List.nil_append]
  · rw [expiriesOf_sentScript, List.nil_append]

/-- Such a call where the write after those done fails. -/
theorem exec_sent_cut {i : Instr} {s : State} {a : Addr7} {sent done later : List (List Byte)} {bytes : List Byte}
    {v : Value} {why : XferErr} {ws : List WriteAnswer} (hgate : sessionGate i s.session = true) (ho : s.OnOracle)
    (hruns : Runs s.setting (operation i s) (sentScript a sent) v) (hsplit : sent = done ++ bytes :: later)
    (hw : s.env.writes = List.replicate done.length .ok ++ .failed why :: ws) :
    exec i s = .next ((s.afterAnswers ws s.env.reads s.env.expiries
      ((done.map fun bytes => .tWrite a bytes .ok) ++ [.tWrite a bytes (.failed why)])).takeError (xferError why)) := by
  have hscript : sentScript a sent = sentScript a done ++ .saw (.tWrite a bytes .ok) :: sentScript a later :=
    hsplit ▸ List.map_append
  rw [exec_cut hgate ho hruns (.write _ _ a bytes why hscript) ⟨?_, ?_, ?_⟩, eventsOf_append, eventsOf_sentScript]
  · rfl
  · rw [writesOf_append, writesOf_sentScript, hw, List.append_assoc]; rfl
  · rw [readsOf_append, readsOf_sentScript]; rfl
  · rw [expiriesOf_append, expiriesOf_sentScript]; rfl

/-! ## One register byte (R104) -/

/-- A register byte and one data byte fit every limit of a transport that carries register writes (R191). -/
theorem pair_fits {s : State} (hw : s.maxWrite ≠ 1) (reg v : Byte) :
    s.maxWrite = 0 ∨ [reg, v].length ≤ s.maxWrite := by
  rw [List.length_cons, List.length_singleton]
  omega

/-- A register write that is not refused runs its chunks (R210). -/
theorem regWrite_eq_writeChunks {s : State} (hw : s.maxWrite ≠ 1) (reg : Byte) {payload : List Byte} (seq : Bool)
    (hne : payload ≠ []) :
    regWrite reg payload seq s = writeChunks (accessAddr seq payload.length) reg 0
      (chunks (writeChunkSize s.maxWrite payload.length) payload) s := by
  simp only [regWrite, M.bind_run, M.get_run, hne, hw, ne_eq, not_false_eq_true, decide_true, require_true]

/-- The chunk size of a register write is positive. -/
theorem writeChunkSize_pos {m n : Nat} (hm : m ≠ 1) (hn : 0 < n) : 0 < writeChunkSize m n := by
  unfold writeChunkSize
  split <;> omega

@[simp] theorem chunkReg_port (off : Nat) : chunkReg regData off = regData := if_pos rfl

theorem chunkReg_other {reg : Byte} (h : reg ≠ regData) (off : Nat) : chunkReg reg off = reg + BitVec.ofNat 8 off :=
  if_neg h

theorem chunkReg_zero (reg : Byte) : chunkReg reg 0 = reg := by
  by_cases h : reg = regData
  · rw [h, chunkReg_port]
  · rw [chunkReg_other h]
    exact BitVec.add_zero reg

/-- A register byte goes out in one write transaction, whatever max_write is (R210). -/
theorem regWrite8_eq_transWrite {s : State} (hw : s.maxWrite ≠ 1) (reg v : Byte) :
    regWrite8 reg v s = transWrite ispAddr [reg, v] s := by
  have hchunks : chunks (writeChunkSize s.maxWrite 1) [v] = [[v]] := by
    rw [chunks, List.length_singleton, chunksFuel, List.take_of_length_le (writeChunkSize_pos hw Nat.one_pos)]
    rfl
  have hchunk : writeChunks ispAddr reg 0 [[v]] s = transWrite ispAddr [reg, v] s := by
    rw [writeChunks, chunkReg_zero, M.bind_run]
    cases transWrite ispAddr [reg, v] s <;> rfl
  rw [← hchunk, ← hchunks]
  exact regWrite_eq_writeChunks hw reg false (List.cons_ne_nil v [])

/-! ## ISP mode (R213, R214) -/

section Answered

variable {s : State} {ws : List WriteAnswer} {rs : List ReadAnswer}

/-- Writing a register byte ends as the answer of its transaction. -/
theorem regWrite8_answered (ho : s.OnOracle) (reg v : Byte) {r : WriteAnswer} (hw : s.env.writes = r :: ws) :
    regWrite8 reg v s =
      let t := s.afterAnswers ws s.env.reads s.env.expiries [.tWrite ispAddr [reg, v] r]
      match r with
      | .ok => .ok () t
      | .failed why => .error (.raised (xferError why)) t := by
  rw [regWrite8_eq_transWrite ho.wide, transWrite_native ho.native (pair_fits ho.wide reg v)]
  exact nativeWrite_run ispAddr [reg, v] r s ws ho.oracle hw

/-- Reading a register byte, both transactions answered Ok. -/
theorem regRead8_answered (ho : s.OnOracle) (reg v : Byte) (hw : s.env.writes = .ok :: ws)
    (hr : s.env.reads = .ok [v] :: rs) :
    regRead8 reg s =
      .ok v (s.afterAnswers ws rs s.env.expiries [.tWrite ispAddr [reg] .ok, .tRead ispAddr 1 (.ok [v])]) :=
  (regRead8_runs (c := s.setting) ho.wide reg v).follows s ws rs _ ho.setting_holds ⟨hw, hr, rfl⟩

/-- The register byte's write fails. -/
theorem regRead8_writeFails (ho : s.OnOracle) (reg : Byte) {why : XferErr} (hw : s.env.writes = .failed why :: ws) :
    regRead8 reg s = .error (.raised (xferError why))
      (s.afterAnswers ws s.env.reads s.env.expiries [.tWrite ispAddr [reg] (.failed why)]) :=
  (regRead8_runs (c := s.setting) ho.wide reg 0).cut s ws _ _ _ _ ho.setting_holds
    (.write [] _ ispAddr [reg] why rfl) ⟨hw, rfl, rfl⟩

/-- The read after it fails. -/
theorem regRead8_readFails (ho : s.OnOracle) (reg : Byte) {why : XferErr} (hw : s.env.writes = .ok :: ws)
    (hr : s.env.reads = .failed why :: rs) :
    regRead8 reg s = .error (.raised (xferError why))
      (s.afterAnswers ws rs s.env.expiries [.tWrite ispAddr [reg] .ok, .tRead ispAddr 1 (.failed why)]) :=
  (regRead8_runs (c := s.setting) ho.wide reg 0).cut s ws rs _ _ _ ho.setting_holds
    (.read [_] _ ispAddr [0] why rfl) ⟨hw, hr, rfl⟩

end Answered

/-- `enter_isp` after its command: the read-back decides (R213). -/
def readBackIsp : M Unit := do
  let v ← catching isNoAckOrIo (regRead8 regIspCtrl) (raise .enterIspFailed)
  whenever (!statusIsp v) (raise .enterIspFailed)
  modify fun s => s.setSession .ispActive

theorem enterIsp_run (s : State) :
    enterIsp s = match catching isNoAckOrIo (regWrite8 regIspCtrl cmdByteEnterIsp) (return ()) s with
      | .ok _ t => readBackIsp t
      | .error e t => .error e t := by
  rw [enterIsp, M.bind_run, readBackIsp]
  cases catching isNoAckOrIo (regWrite8 regIspCtrl cmdByteEnterIsp) (return ()) s <;> rfl

section EnterIsp

variable {s : State} {ws : List WriteAnswer}

/-- The command's outcome does not matter unless it is BusStuck. -/
theorem enterIsp_afterCommand (ho : s.OnOracle) {r : WriteAnswer} (hr : r ≠ .failed .busStuck)
    (hw : s.env.writes = r :: ws) :
    enterIsp s = readBackIsp
      (s.afterAnswers ws s.env.reads s.env.expiries [.tWrite ispAddr [regIspCtrl, cmdByteEnterIsp] r]) := by
  rw [enterIsp_run, catching_run, regWrite8_answered ho _ _ hw]
  cases r with
  | ok => rfl
  | failed why =>
    cases why with
    | noAck | ioError => rfl
    | busStuck => exact absurd rfl hr

theorem enterIsp_commandBusStuck (ho : s.OnOracle) (hw : s.env.writes = .failed .busStuck :: ws) :
    enterIsp s = .error (.raised (.busStuck .backend)) (s.afterAnswers ws s.env.reads s.env.expiries
      [.tWrite ispAddr [regIspCtrl, cmdByteEnterIsp] (.failed .busStuck)]) := by
  rw [enterIsp_run, catching_run, regWrite8_answered ho _ _ hw]
  rfl

end EnterIsp

section ReadBack

variable {s t : State}

theorem readBackIsp_ok {v : Byte} (h : regRead8 regIspCtrl s = .ok v t) :
    readBackIsp s =
      if v &&& 0x80 ≠ 0 then .ok () (t.setSession .ispActive) else .error (.raised .enterIspFailed) t := by
  rw [readBackIsp, M.bind_run, catching_run, h]
  simp only [← statusIsp_iff]
  cases hv : statusIsp v <;> simp

theorem readBackIsp_raised {why : XferErr} (h : regRead8 regIspCtrl s = .error (.raised (xferError why)) t) :
    readBackIsp s = .error (.raised (if why = .busStuck then .busStuck .backend else .enterIspFailed)) t := by
  rw [readBackIsp, M.bind_run, catching_run, h]
  cases why <;> rfl

end ReadBack

/-! ### How the reboot write can end (R214) -/

/-- Asking the environment for a write's answer never ends early. -/
theorem answerWrite_endsEarly (P : Stop → State → Prop) (a : Addr7) (bytes : List Byte) :
    EndsEarly P (answerWrite a bytes) :=
  EndsEarly.getBind fun s => by
    cases s.env.mode with
    | oracle => exact drawWrite_draws.endsEarly P
    | reference => exact EndsEarly.ite _ (EndsEarly.bind (fun _ _ _ h => by cases h) fun _ => .pure _) (.pure _)

theorem nativeWrite_raised (a : Addr7) (bytes : List Byte) :
    EndsEarly (fun stop _ => ∃ e, stop = .raised e) (nativeWrite a bytes) :=
  (answerWrite_endsEarly _ a bytes).bind fun r => (EndsEarly.update _).bind fun _ => by
    cases r with
    | ok => exact .pure ()
    | failed why => exact .raise fun _ => ⟨_, rfl⟩

theorem BusFails.raised_or_endless {stop : Stop} {t : State} (h : BusFails stop t) :
    (∃ e, stop = .raised e) ∨ stop = .stuck .recoveryNeverEnds ∧ t.params.resetRoundLimit = none := by
  obtain (⟨hscl, -⟩ | ⟨hsda, -⟩ | hendless) | ⟨w, hnack⟩ := h
  · exact .inl ⟨_, hscl⟩
  · exact .inl ⟨_, hsda⟩
  · exact .inr hendless
  · exact .inl ⟨_, hnack⟩

section ExitIsp

variable {s t : State} {stop : Stop}

/-- A write that fits and ends early raises an error, unless a recovery of the software bus never ends. -/
theorem transWrite_early {a : Addr7} {bytes : List Byte} (hfits : s.maxWrite = 0 ∨ bytes.length ≤ s.maxWrite)
    (h : transWrite a bytes s = .error stop t) :
    (∃ e, stop = .raised e) ∨
      stop = .stuck .recoveryNeverEnds ∧ s.backend = .softwareBus ∧ s.params.resetRoundLimit = none := by
  cases hbackend : s.backend with
  | native => exact .inl (nativeWrite_raised a bytes s stop t ((transWrite_native hbackend hfits).symm.trans h))
  | softwareBus =>
    have hbus : busWrite a.toNat bytes s = .error stop t := by
      simpa only [transWrite, M.bind_run, M.get_run, fitsLimit, hfits, decide_true, require_true, hbackend] using h
    obtain hraised | ⟨hstop, hlimit⟩ := (busWrite_fails bytes (addr7_le a) s stop t hbus).raised_or_endless
    · exact .inl hraised
    · exact .inr ⟨hstop, rfl, ((busWrite_keeps a.toNat bytes).of_error hbus).params ▸ hlimit⟩

theorem exitIsp_run (s : State) :
    exitIsp s = match regWrite8 regReboot rebootByte s with
      | .ok _ t => .ok () (t.setSession .initialized)
      | .error (.raised _) t => .ok () (t.setSession .initialized)
      | .error stop t => .error stop t := by
  rw [exitIsp, M.bind_run, catching_run]
  rcases regWrite8 regReboot rebootByte s with _ | ⟨_ | _ | _⟩ <;> rfl

theorem exitIsp_answered (ho : s.OnOracle) {r : WriteAnswer} {ws : List WriteAnswer} (hw : s.env.writes = r :: ws) :
    exitIsp s = .ok () ((s.afterAnswers ws s.env.reads s.env.expiries [.tWrite 0x4A [0xEE, 0x02] r]).setSession
      .initialized) := by
  rw [exitIsp_run, regWrite8_answered ho _ _ hw]
  cases r <;> rfl

/-- `exit_isp` ends Ok, and its write stays within the frame of a register access; or it never ends. -/
theorem exitIsp_ends (hw : s.maxWrite ≠ 1) :
    (∃ t, exitIsp s = .error (.stuck .recoveryNeverEnds) t ∧ s.backend = .softwareBus ∧
      s.params.resetRoundLimit = none) ∨
    ∃ t, AccessFrame s t ∧ exitIsp s = .ok () (t.setSession .initialized) := by
  have hkeeps : Keeps AccessFrame (regWrite8 regReboot rebootByte) := regWrite8_keeps _ _
  cases hwrite : regWrite8 regReboot rebootByte s with
  | ok _ t => exact .inr ⟨t, hkeeps.of_ok hwrite, by rw [exitIsp_run, hwrite]⟩
  | error stop t =>
    have hearly := transWrite_early (pair_fits hw _ _) ((regWrite8_eq_transWrite hw _ _).symm.trans hwrite)
    obtain ⟨e, rfl⟩ | ⟨rfl, hbus⟩ := hearly
    · exact .inr ⟨t, hkeeps.of_error hwrite, by rw [exitIsp_run, hwrite]⟩
    · exact .inl ⟨t, by rw [exitIsp_run, hwrite], hbus⟩

end ExitIsp

/-! ## Chunks on the reference device (R212)

A register access of the device from its offset `off` on, without the pointer and in one piece: the accesses of the
chunks compose to it. -/

/-- The device with its register pointer at x. -/
def Device.pointTo (d : Device) (x : Byte) : Device := { d with pointer := x }

/-- What the bytes of a register write leave, but for the pointer: they go to the port, or to the registers from the
offset on. -/
def Device.writeFrom (p : Params) (reg : Byte) (off : Nat) (d : Device) (data : List Byte) : Device :=
  if reg = regData then { d with buffer := d.buffer ++ data } else d.writeRegs p (reg + BitVec.ofNat 8 off) data

/-- Byte k of a register read: a byte of the flash from the read position on, or a register from the offset on. -/
def Device.byteFrom (p : Params) (reg : Byte) (off : Nat) (d : Device) (k : Nat) : Byte :=
  if reg = regData then d.readFlash p (d.pos + k) else d.readReg (reg + BitVec.ofNat 8 (off + k))

/-- What a register read of n bytes leaves, but for the pointer. -/
def Device.advance (reg : Byte) (d : Device) (n : Nat) : Device :=
  { d with pos := if reg = regData then d.pos + n else d.pos }

/-- None of n bytes from an offset on reaches the port 0x70 from a register below it (assumption log 27). -/
def AvoidsPort (reg : Byte) (off n : Nat) : Prop :=
  reg = regData ∨ ∀ k, k < n → reg + BitVec.ofNat 8 (off + k) ≠ regData

theorem AvoidsPort.first {reg : Byte} {off m n : Nat} (h : AvoidsPort reg off (m + n)) : AvoidsPort reg off m :=
  h.imp_right fun h k hk => h k (by omega)

theorem AvoidsPort.rest {reg : Byte} {off m n : Nat} (h : AvoidsPort reg off (m + n)) : AvoidsPort reg (off + m) n :=
  h.imp_right fun h k hk => by rw [Nat.add_assoc]; exact h (m + k) (by omega)

/-- The register of a chunk that is not empty is not the port. -/
theorem AvoidsPort.chunkReg_ne {reg : Byte} {off n : Nat} (h : AvoidsPort reg off n) (hreg : reg ≠ regData)
    (hn : 0 < n) : chunkReg reg off ≠ regData := by
  rw [chunkReg_other hreg]
  exact h.resolve_left hreg 0 hn

theorem accessAddr_answers (seq : Bool) (n : Nat) : accessAddr seq n = 0x4A ∨ accessAddr seq n = 0x4B := by
  rw [accessAddr_eq]
  split
  · exact .inr rfl
  · exact .inl rfl

/-! ### Partitions (R210, R211) -/

section Partitions

variable {c : Nat}

theorem chunks_length (hc : 0 < c) (l : List Byte) : (chunks c l).length = pieceCount c l.length := by
  rw [chunks_eq hc, List.length_map, List.length_range]

theorem chunks_flatten (hc : 0 < c) (l : List Byte) : (chunks c l).flatten = l := by
  rw [chunks_eq hc, pieces_flatten hc]

theorem length_le_of_mem_chunks (hc : 0 < c) {l chunk : List Byte} (h : chunk ∈ chunks c l) : chunk.length ≤ c := by
  rw [chunks_eq hc, List.mem_map] at h
  obtain ⟨k, -, rfl⟩ := h
  exact piece_length_le c l k

theorem chunkSizesFuel_sum (hc : 0 < c) {fuel n : Nat} (h : n ≤ fuel) : (chunkSizesFuel c fuel n).sum = n := by
  induction fuel generalizing n with
  | zero => exact (Nat.le_zero.1 h).symm
  | succ fuel ih =>
    cases n with
    | zero => rfl
    | succ n =>
      rw [chunkSizesFuel, List.sum_cons, ih (by omega)]
      omega

theorem chunkSizesFuel_length (hc : 0 < c) {fuel n : Nat} (h : n ≤ fuel) :
    (chunkSizesFuel c fuel n).length = pieceCount c n := by
  induction fuel generalizing n with
  | zero => rw [Nat.le_zero.1 h, pieceCount_zero]; rfl
  | succ fuel ih =>
    cases n with
    | zero => rw [pieceCount_zero]; rfl
    | succ n => rw [chunkSizesFuel, List.length_cons, ih (by omega), ← pieceCount_step hc (Nat.succ_pos n)]

theorem bounds_of_mem_chunkSizesFuel (hc : 0 < c) {fuel n k : Nat} (h : k ∈ chunkSizesFuel c fuel n) :
    0 < k ∧ k ≤ c := by
  induction fuel generalizing n with
  | zero => cases h
  | succ fuel ih =>
    cases n with
    | zero => cases h
    | succ n =>
      obtain rfl | h := List.mem_cons.1 h
      · omega
      · exact ih h

theorem chunkSizes_sum (hc : 0 < c) (n : Nat) : (chunkSizes c n).sum = n := chunkSizesFuel_sum hc (Nat.le_refl n)

theorem chunkSizes_length (hc : 0 < c) (n : Nat) : (chunkSizes c n).length = pieceCount c n :=
  chunkSizesFuel_length hc (Nat.le_refl n)

theorem bounds_of_mem_chunkSizes (hc : 0 < c) {n k : Nat} (h : k ∈ chunkSizes c n) : 0 < k ∧ k ≤ c :=
  bounds_of_mem_chunkSizesFuel hc h

end Partitions

section Device

variable {p : Params} {reg : Byte}

/-! ### Writing -/

/-- Where the pointer stands does not matter to a custom instruction. -/
theorem Device.runInstruction_pointTo (d : Device) (x c : Byte) :
    (d.pointTo x).runInstruction p c = (d.runInstruction p c).pointTo x := by
  by_cases he : d.Asks c p.ctErase p.opErase
  · rw [Device.runInstruction_erase he]
    exact Device.runInstruction_erase (d := d.pointTo x) he
  by_cases hw : d.Asks c p.ctWrenWrsr p.opWrsr
  · rw [Device.runInstruction_writeStatus he hw]
    exact Device.runInstruction_writeStatus (d := d.pointTo x) he hw
  by_cases hr : d.Asks c p.ctRead p.opRead
  · rw [Device.runInstruction_read he hw hr]
    exact Device.runInstruction_read (d := d.pointTo x) he hw hr
  · rw [Device.runInstruction_other he hw hr]
    exact Device.runInstruction_other (d := d.pointTo x) he hw hr

/-- Nor to any register's write. -/
theorem Device.writeReg_pointTo (d : Device) (x r v : Byte) :
    (d.pointTo x).writeReg p r v = (d.writeReg p r v).pointTo x := by
  unfold Device.writeReg
  rw [Device.runInstruction_pointTo]
  split_ifs <;> rfl

theorem Device.writeRegs_pointTo (d : Device) (x r : Byte) (data : List Byte) :
    (d.pointTo x).writeRegs p r data = (d.writeRegs p r data).pointTo x := by
  induction data generalizing d r with
  | nil => rfl
  | cons v vs ih => rw [Device.writeRegs, Device.writeReg_pointTo, ih]; rfl

theorem Device.writeRegs_append (d : Device) (r : Byte) (xs ys : List Byte) :
    d.writeRegs p r (xs ++ ys) = (d.writeRegs p r xs).writeRegs p (r + BitVec.ofNat 8 xs.length) ys := by
  induction xs generalizing d r with
  | nil => rw [List.length_nil, List.nil_append, show r + BitVec.ofNat 8 0 = r from BitVec.add_zero r]; rfl
  | cons x xs ih => rw [List.cons_append, Device.writeRegs, ih, regAfter_succ]; rfl

@[simp] theorem Device.writeFrom_port (d : Device) (off : Nat) (data : List Byte) :
    d.writeFrom p regData off data = { d with buffer := d.buffer ++ data } := if_pos rfl

theorem Device.writeFrom_other (h : reg ≠ regData) (d : Device) (off : Nat) (data : List Byte) :
    d.writeFrom p reg off data = d.writeRegs p (chunkReg reg off) data := by
  rw [Device.writeFrom, if_neg h, chunkReg_other h]

/-- Two pieces written one after the other are written as one. -/
theorem Device.writeFrom_append (d : Device) (off : Nat) (xs ys : List Byte) :
    (d.writeFrom p reg off xs).writeFrom p reg (off + xs.length) ys = d.writeFrom p reg off (xs ++ ys) := by
  by_cases h : reg = regData
  · subst h
    simp only [Device.writeFrom_port, List.append_assoc]
  · simp only [Device.writeFrom_other h, Device.writeRegs_append, chunkReg_other h, BitVec.ofNat_add, BitVec.add_assoc]

theorem Device.writeFrom_nil (d : Device) (off : Nat) : d.writeFrom p reg off [] = d := by
  by_cases h : reg = regData
  · rw [h, Device.writeFrom_port, List.append_nil]
  · exact Device.writeFrom_other h d off []

theorem Device.writeFrom_pointTo (d : Device) (x : Byte) (off : Nat) (data : List Byte) :
    (d.pointTo x).writeFrom p reg off data = (d.writeFrom p reg off data).pointTo x := by
  by_cases h : reg = regData
  · subst h
    simp only [Device.writeFrom_port]
    rfl
  · rw [Device.writeFrom_other h, Device.writeFrom_other h, Device.writeRegs_pointTo]

/-- Bytes stored plainly are read back from their registers. -/
theorem Device.readReg_writeFrom {d : Device} (hd : d.canonical p = true) {data : List Byte} (hreg : reg ≠ regData)
    (hplain : storesPlainly reg data.length = true) {k : Nat} (hk : k < data.length) :
    some ((d.writeFrom p reg 0 data).readReg (reg + BitVec.ofNat 8 k)) = data[k]? := by
  rw [Device.writeFrom_other hreg, chunkReg_zero]
  exact Device.readReg_writeRegs_at hd (((storesPlainly_iff reg data.length).1 hplain).resolve_left hreg) hk

/-- The register byte alone sets the pointer. -/
theorem Device.receive_select (a : Addr7) (d : Device) (r : Byte) : d.receive p a [r] = d.pointTo r := by
  by_cases hport : r = regData
  · rw [hport, Device.receive_port, List.append_nil]
    rfl
  · exact Device.receive_regs p a d [] hport

/-- The write transaction of one chunk. -/
theorem Device.receive_chunk (a : Addr7) (d : Device) {off : Nat} {data : List Byte}
    (h : AvoidsPort reg off data.length) :
    ∃ x, d.receive p a (chunkReg reg off :: data) = (d.writeFrom p reg off data).pointTo x := by
  by_cases hport : reg = regData
  · subst hport
    rw [chunkReg_port, Device.receive_port, Device.writeFrom_port]
    exact ⟨regData, rfl⟩
  · cases data with
    | nil => exact ⟨_, by rw [Device.receive_select, Device.writeFrom_nil]⟩
    | cons v vs =>
      have hr : chunkReg reg off ≠ regData := h.chunkReg_ne hport (Nat.succ_pos _)
      refine ⟨pointerAfter a (chunkReg reg off) (v :: vs).length, ?_⟩
      rw [Device.receive_regs p a d _ hr, Device.writeFrom_other hport]
      exact Device.writeRegs_pointTo d _ _ _

/-! ### Reading -/

@[simp] theorem Device.byteFrom_port (d : Device) (off k : Nat) :
    d.byteFrom p regData off k = d.readFlash p (d.pos + k) := if_pos rfl

theorem Device.byteFrom_other (h : reg ≠ regData) (d : Device) (off k : Nat) :
    d.byteFrom p reg off k = d.readReg (reg + BitVec.ofNat 8 (off + k)) := if_neg h

@[simp] theorem Device.advance_port (d : Device) (n : Nat) : d.advance regData n = { d with pos := d.pos + n } := rfl

theorem Device.advance_other (h : reg ≠ regData) (d : Device) (n : Nat) : d.advance reg n = d := by
  rw [Device.advance, if_neg h]

theorem Device.advance_zero (d : Device) : d.advance reg 0 = d := by
  rw [Device.advance, Nat.add_zero, ite_self]

theorem Device.advance_advance (d : Device) (m n : Nat) : (d.advance reg m).advance reg n = d.advance reg (m + n) := by
  by_cases h : reg = regData
  · subst h
    simp only [Device.advance_port, Nat.add_assoc]
  · simp only [Device.advance_other h]

theorem Device.byteFrom_advance (d : Device) (off m k : Nat) :
    (d.advance reg m).byteFrom p reg (off + m) k = d.byteFrom p reg off (m + k) := by
  by_cases h : reg = regData
  · subst h
    simp only [Device.byteFrom_port, Device.advance_port, Nat.add_assoc]
    rfl
  · simp only [Device.byteFrom_other h, Device.advance_other h, Nat.add_assoc]

/-- The bytes of two pieces read one after the other are those of one. -/
theorem Device.bytesFrom_append (d : Device) (off m n : Nat) :
    (List.range m).map (d.byteFrom p reg off) ++ (List.range n).map ((d.advance reg m).byteFrom p reg (off + m)) =
      (List.range (m + n)).map (d.byteFrom p reg off) := by
  rw [List.range_add, List.map_append, List.map_map]
  exact congrArg _ (List.map_congr_left fun k _ => Device.byteFrom_advance d off m k)

/-- The read transaction of one chunk, after its register byte. -/
theorem Device.send_chunk (a : Addr7) (d : Device) {off n : Nat} (hn : 0 < n) (h : AvoidsPort reg off n) :
    ∃ x, (d.pointTo (chunkReg reg off)).send p a n =
      ((List.range n).map (d.byteFrom p reg off), (d.advance reg n).pointTo x) := by
  by_cases hport : reg = regData
  · subst hport
    rw [chunkReg_port, Device.send_port p a rfl]
    exact ⟨regData, rfl⟩
  · have hr : chunkReg reg off ≠ regData := h.chunkReg_ne hport hn
    refine ⟨pointerAfter a (chunkReg reg off) n, ?_⟩
    rw [Device.send_regs (d := d.pointTo (chunkReg reg off)) p a hr, Device.advance_other hport]
    refine congrArg (·, _) (List.map_congr_left fun k _ => ?_)
    rw [Device.byteFrom_other hport, BitVec.ofNat_add, ← BitVec.add_assoc, ← chunkReg_other hport]
    rfl

end Device

/-! ### Register accesses -/

/-- From s the operation answers v in `count` transactions and leaves the device d, but for the pointer. -/
def Accesses {α : Type} (s : State) (x : M α) (v : α) (count : Nat) (d : Device) : Prop :=
  ∃ events pointer, events.length = count ∧ x s = .ok v (s.afterAccess events (d.pointTo pointer))

theorem Accesses.pure {α : Type} (s : State) (v : α) : Accesses s (Pure.pure v) v 0 s.device :=
  ⟨[], s.device.pointer, rfl, congrArg _ s.afterAccess_self.symm⟩

theorem Accesses.bind {α β : Type} {s : State} {x : M α} {f : α → M β} {v : α} {w : β} {m n : Nat} {d e : Device}
    (hx : Accesses s x v m d)
    (hf : ∀ events pointer, Accesses (s.afterAccess events (d.pointTo pointer)) (f v) w n (e.pointTo pointer)) :
    Accesses s (x >>= f) w (m + n) e := by
  obtain ⟨events, pointer, hm, hrun⟩ := hx
  obtain ⟨events', pointer', hn, hrun'⟩ := hf events pointer
  refine ⟨events ++ events', pointer', by rw [List.length_append, hm, hn], ?_⟩
  rw [M.bind_run, hrun, ← State.afterAccess_afterAccess]
  exact hrun'

theorem Accesses.map {α β : Type} {s : State} {x : M α} {v : α} {n : Nat} {d : Device} (hx : Accesses s x v n d)
    (g : α → β) : Accesses s (do return g (← x)) (g v) n d :=
  hx.bind (f := fun v => Pure.pure (g v)) fun events pointer => .pure (s.afterAccess events (d.pointTo pointer)) (g v)

section Accesses

variable {s : State} {reg : Byte} {a : Addr7}

/-- The write transaction of one chunk (R210). -/
theorem transWrite_accesses (ho : s.OnReference) (ha : a = 0x4A ∨ a = 0x4B) {off : Nat} {data : List Byte}
    (hfits : s.maxWrite = 0 ∨ data.length + 1 ≤ s.maxWrite) (hport : AvoidsPort reg off data.length) :
    Accesses s (transWrite a (chunkReg reg off :: data)) () 1 (s.device.writeFrom s.params reg off data) := by
  obtain ⟨pointer, hdevice⟩ := Device.receive_chunk (p := s.params) a s.device hport
  exact ⟨_, pointer, rfl, hdevice ▸ transWrite_reference ho ha (chunkReg reg off :: data) hfits⟩

/-- The writes of a payload's chunks leave the device as one write of the payload would. -/
theorem writeChunks_accesses (ho : s.OnReference) (ha : a = 0x4A ∨ a = 0x4B) (off : Nat) (cs : List (List Byte))
    (hfits : ∀ c ∈ cs, s.maxWrite = 0 ∨ c.length + 1 ≤ s.maxWrite) (hport : AvoidsPort reg off cs.flatten.length) :
    Accesses s (writeChunks a reg off cs) () cs.length (s.device.writeFrom s.params reg off cs.flatten) := by
  induction cs generalizing s off with
  | nil =>
    rw [List.flatten_nil, Device.writeFrom_nil]
    exact .pure s ()
  | cons c cs ih =>
    obtain ⟨hfit, hfits⟩ := List.forall_mem_cons.1 hfits
    rw [List.flatten_cons, List.length_append] at hport
    rw [List.flatten_cons, ← Device.writeFrom_append, List.length_cons, Nat.add_comm]
    refine (transWrite_accesses ho ha hfit hport.first).bind fun events pointer => ?_
    rw [← Device.writeFrom_pointTo (s.device.writeFrom s.params reg off c)]
    exact ih (ho.after _ _) _ hfits hport.rest

/-- A read by what the device sends. -/
theorem transRead_sends (ho : s.OnReference) (ha : a = 0x4A ∨ a = 0x4B) {n : Nat}
    (hfits : s.maxRead = 0 ∨ n ≤ s.maxRead) {bytes : List Byte} {d : Device}
    (h : s.device.send s.params a n = (bytes, d)) :
    transRead a n s = .ok bytes (s.afterAccess [.tRead a n (.ok bytes)] d) := by
  rw [transRead_reference ho ha n hfits, h]

/-- The register byte of a chunk, and its read (R211). -/
def readChunk (a : Addr7) (reg : Byte) (off k : Nat) : M (List Byte) := do
  transWrite ispAddr [chunkReg reg off]
  transRead a k

theorem readChunks_cons (a : Addr7) (reg : Byte) (off k : Nat) (ks : List Nat) :
    readChunks a reg off (k :: ks) = do
      let bytes ← readChunk a reg off k
      return bytes ++ (← readChunks a reg (off + k) ks) := by
  simp only [readChunks, readChunk, bind_assoc]

/-- One chunk of a read (R211). -/
theorem readChunk_accesses (ho : s.OnReference) (ha : a = 0x4A ∨ a = 0x4B) {off k : Nat} (hk : 0 < k)
    (hfits : s.maxRead = 0 ∨ k ≤ s.maxRead) (hport : AvoidsPort reg off k) :
    Accesses s (readChunk a reg off k) ((List.range k).map (s.device.byteFrom s.params reg off)) 2
      (s.device.advance reg k) := by
  obtain ⟨pointer, hsend⟩ := Device.send_chunk (p := s.params) a s.device hk hport
  have hone : s.maxWrite = 0 ∨ [chunkReg reg off].length ≤ s.maxWrite := Nat.eq_zero_or_pos s.maxWrite
  have hselect := transWrite_reference (a := ispAddr) ho (.inl rfl) [chunkReg reg off] hone
  rw [Device.receive_select] at hselect
  refine ⟨[.tWrite ispAddr [chunkReg reg off] .ok] ++
    [.tRead a k (.ok ((List.range k).map (s.device.byteFrom s.params reg off)))], pointer, rfl, ?_⟩
  rw [readChunk, M.bind_run, hselect, ← State.afterAccess_afterAccess]
  exact transRead_sends (ho.after _ _) ha hfits hsend

/-- The reads of the chunks answer the bytes of one read and leave the device as it would. -/
theorem readChunks_accesses (ho : s.OnReference) (ha : a = 0x4A ∨ a = 0x4B) (off : Nat) (ks : List Nat)
    (hpos : ∀ k ∈ ks, 0 < k) (hfits : ∀ k ∈ ks, s.maxRead = 0 ∨ k ≤ s.maxRead) (hport : AvoidsPort reg off ks.sum) :
    Accesses s (readChunks a reg off ks) ((List.range ks.sum).map (s.device.byteFrom s.params reg off)) (2 * ks.length)
      (s.device.advance reg ks.sum) := by
  induction ks generalizing s off with
  | nil =>
    rw [List.sum_nil, Device.advance_zero]
    exact .pure s []
  | cons k ks ih =>
    obtain ⟨hk, hpos⟩ := List.forall_mem_cons.1 hpos
    obtain ⟨hfit, hfits⟩ := List.forall_mem_cons.1 hfits
    rw [List.sum_cons] at hport ⊢
    rw [readChunks_cons, ← Device.advance_advance, ← Device.bytesFrom_append, List.length_cons,
      show 2 * (ks.length + 1) = 2 + 2 * ks.length by omega]
    refine (readChunk_accesses ho ha hk hfit hport.first).bind fun events pointer => ?_
    exact (ih (ho.after _ _) _ hpos hfits hport.rest).map _

/-- The chunk size of a register read is positive. -/
theorem readChunkSize_pos {m n : Nat} (hn : 0 < n) : 0 < readChunkSize m n := by
  unfold readChunkSize
  split <;> omega

/-- The number of chunks of a register write (R212). -/
theorem pieceCount_writeChunkSize {m n : Nat} (hn : 0 < n) :
    pieceCount (writeChunkSize m n) n = if m = 0 then 1 else (n + m - 2) / (m - 1) := by
  unfold writeChunkSize
  split
  · exact pieceCount_self hn
  · rw [pieceCount, show n + (m - 1) - 1 = n + m - 2 by omega]

/-- The number of chunks of a register read (R212). -/
theorem pieceCount_readChunkSize {m n : Nat} (hn : 0 < n) :
    pieceCount (readChunkSize m n) n = if m = 0 then 1 else (n + m - 1) / m := by
  unfold readChunkSize
  split
  · exact pieceCount_self hn
  · rfl

/-- A register write, for every limit but 1 (R210). -/
theorem regWrite_accesses (ho : s.OnReference) (seq : Bool) {payload : List Byte} (hne : payload ≠ [])
    (hport : AvoidsPort reg 0 payload.length) :
    Accesses s (regWrite reg payload seq) ()
      (if s.maxWrite = 0 then 1 else (payload.length + s.maxWrite - 2) / (s.maxWrite - 1))
      (s.device.writeFrom s.params reg 0 payload) := by
  have hlen : 0 < payload.length := List.length_pos_iff.2 hne
  rw [← pieceCount_writeChunkSize hlen, Accesses, regWrite_eq_writeChunks ho.wide reg seq hne]
  have hsize := writeChunkSize_pos ho.wide hlen
  rw [← chunks_length hsize]
  have hflat := chunks_flatten hsize payload
  have hrun := writeChunks_accesses ho (accessAddr_answers seq payload.length) 0
    (chunks (writeChunkSize s.maxWrite payload.length) payload) (fun c hc => ?fits) (by rwa [hflat])
  case fits =>
    have hle := length_le_of_mem_chunks hsize hc
    unfold writeChunkSize at hle
    split at hle <;> omega
  rwa [hflat] at hrun

/-- A register read, for every limit (R211). -/
theorem regRead_accesses (ho : s.OnReference) (seq : Bool) {n : Nat} (hn : n ≠ 0) (hport : AvoidsPort reg 0 n) :
    Accesses s (regRead reg n seq) ((List.range n).map (s.device.byteFrom s.params reg 0))
      (2 * if s.maxRead = 0 then 1 else (n + s.maxRead - 1) / s.maxRead) (s.device.advance reg n) := by
  have hpos : 0 < n := Nat.pos_of_ne_zero hn
  have hskip : regRead reg n seq s =
      readChunks (accessAddr seq n) reg 0 (chunkSizes (readChunkSize s.maxRead n) n) s := by
    simp only [regRead, M.bind_run, M.get_run, hn, ne_eq, not_false_eq_true, decide_true, require_true]
  have hsize : 0 < readChunkSize s.maxRead n := readChunkSize_pos hpos
  rw [← pieceCount_readChunkSize hpos, ← chunkSizes_length hsize, Accesses, hskip]
  have hsum := chunkSizes_sum hsize n
  have hrun := readChunks_accesses ho (accessAddr_answers seq n) 0 (chunkSizes (readChunkSize s.maxRead n) n)
    (fun k hk => (bounds_of_mem_chunkSizes hsize hk).1) (fun k hk => ?fits) (by rwa [hsum])
  case fits =>
    have hle := (bounds_of_mem_chunkSizes hsize hk).2
    unfold readChunkSize at hle
    split at hle <;> omega
  rwa [hsum] at hrun

end Accesses

/-- A call whose operation is such a run. -/
theorem exec_accesses {α : Type} {i : Instr} {s : State} {x : M α} {f : α → Value} {v : α} {count : Nat} {d : Device}
    (hgate : sessionGate i s.session = true) (hop : operation i s = (do return f (← x) : M Value))
    (hx : Accesses s x v count d) :
    ∃ (t : State) (pointer : Byte), exec i s = .next (t.complete (f v)) ∧ t.device = d.pointTo pointer ∧
      t.trace.length = s.trace.length + count := by
  obtain ⟨events, pointer, hlen, hrun⟩ := hx
  refine ⟨s.afterAccess events (d.pointTo pointer), pointer, ?_, rfl, List.length_append.trans (hlen ▸ rfl)⟩
  rw [exec_open hgate, hop, conclude_return_ok hrun]

end Sys2Proof.Machine

namespace Sys2Proof.Machine.IspEngine

/-! ## The statements, in a namespace of their own, since they are named after the operations -/

/-- Settles O24: the register takes the message bits one by one. -/
theorem hostCrc : Obligations.HostCrc :=
  ⟨fun data s => ⟨crcFrom_eq_foldl 0 data, exec_open (i := .hostCrc data) rfl⟩, hostCrc_zeros, by decide +kernel, rfl,
    crcFrom_append⟩

/-- Settles O41: the call's script is its write transactions, which the first failing one cuts short. -/
theorem regWrite : Obligations.RegWrite := by
  intro s reg payload seq ws hs ho hne sent event
  have hgate : openSession s.session = true := (openSession_iff _).2 hs
  have hruns := (regWrite_runs (c := s.setting) ho.wide reg payload seq hne).asUnit
  rw [writeScript_eq_sentScript, accessAddr_eq] at hruns
  exact ⟨exec_sent (i := .regWrite reg payload seq) hgate ho hruns, fun done bytes later why =>
    exec_sent_cut (i := .regWrite reg payload seq) hgate ho hruns⟩

/-- Settles O42, by the script of the read. -/
theorem regRead : Obligations.RegRead := by
  intro s reg out seq ws rs xs hs ho hne
  have hgate : openSession s.session = true := (openSession_iff _).2 hs
  have hruns : Runs s.setting (operation (.regRead reg out.length seq) s) (readScript s.maxRead reg out seq)
      (.bytes out) := (regRead_runs (c := s.setting) ho.wide reg out seq hne).map Value.bytes
  exact ⟨exec_follows (i := .regRead reg out.length seq) hgate ho hruns,
    fun _ _ => exec_cut (i := .regRead reg out.length seq) hgate ho hruns⟩

/-- Settles O46: the poll's script does not expire, expires, or is cut short, with the caller's error at every site. -/
theorem poll : Obligations.Poll := by
  intro s site reg test timeout err p ws rs xs hs ho
  have hgate : openSession s.session = true := (openSession_iff _).2 hs
  have hc := ho.pollSetting_holds err
  have hruns (hp : p.Passes (pollAccepts test)) :
      Runs (s.pollSetting err) (operation (.poll site reg test timeout err) s) (pollScript site reg p) (.byte p.last) :=
    (pollReg_runs (c := s.pollSetting err) ho.wide site reg test timeout err rfl hp).map Value.byte
  refine ⟨fun hp ha => ?_, fun hp ha => ?_, fun script e hp hcut ha => ?_⟩
  · rw [exec_open (i := .poll site reg test timeout err) hgate, (hruns hp).follows s ws rs xs hc ha, conclude_ok]
  · exact exec_endsAt (i := .poll site reg test timeout err) hgate hc
      (pollReg_ends (c := s.pollSetting err) ho.wide site reg test timeout err hp).bind ha
  · rw [exec_open (i := .poll site reg test timeout err) hgate, (hruns hp).cut s ws rs xs script e hc hcut ha,
      conclude_raised]

/-- Settles O47: the instruction follows its script with no or some result bytes, or ends where its poll expires. -/
theorem customInstruction : Obligations.CustomInstruction := by
  intro s cmdType opcode writeN value ci ws rs xs hs ho hcmd hwrite hvalue
  have hgate : ispSession s.session = true := (ispSession_iff _).2 hs
  refine ⟨fun hci => ⟨?none, ?some⟩, ?expires⟩
  case none =>
    rintro script rfl ha
    exact exec_follows (i := .customInstruction cmdType opcode 0 writeN value) hgate ho
      ((instruction_runs (c := s.setting) ho.wide rfl hcmd hwrite hvalue hci).map Value.optNat) ha
  case some =>
    rintro script out hpos hlen rfl ha
    have hruns := customInstruction_runs (c := s.setting) ho.wide rfl (opcode := opcode) hcmd hwrite hvalue hci out hlen
    rw [if_neg (by omega)] at hruns
    exact exec_follows (i := .customInstruction cmdType opcode out.length writeN value) hgate ho
      (hruns.map Value.optNat) ha
  case expires =>
    rintro hci readN script hread rfl ha
    exact exec_endsAt (i := .customInstruction cmdType opcode readN writeN value) hgate ho.setting_holds
      (customInstruction_expires (c := s.setting) ho.wide hcmd hread hwrite hvalue hci).bind ha

/-- Settles O48: the device CRC follows its script, or ends where its poll expires. -/
theorem deviceCrc : Obligations.DeviceCrc := by
  intro s first last crc d ws rs xs hs ho hle hlast
  have hgate : ispSession s.session = true := (ispSession_iff _).2 hs
  refine ⟨fun hcrc ha => ?follows, ?expires⟩
  case follows =>
    exact exec_follows (i := .deviceCrc first last) hgate ho
      ((deviceCrc_runs (c := s.setting) ho.wide rfl hle hlast hcrc d).map Value.byte) ha
  case expires =>
    rintro hcrc script rfl ha
    exact exec_endsAt (i := .deviceCrc first last) hgate ho.setting_holds
      (deviceCrc_expires (c := s.setting) ho.wide hle hlast hcrc).bind ha

/-- Settles O44: the command's outcome is caught, and then the read-back decides. -/
theorem enterIsp : Obligations.EnterIsp := by
  intro s r ws hs ho command
  have hcall : exec .enterIsp s = conclude (asUnit Machine.enterIsp s) :=
    exec_open (i := .enterIsp) ((initializedSession_iff _).2 hs)
  rw [hcall]
  refine ⟨fun hr v rs hw hrd => ?set, fun hr why hw => ?writeFails, fun hr why rs hw hrd => ?readFails, ?busStuck⟩
  case set =>
    intro t
    have hread := (enterIsp_afterCommand ho hr hw).trans
      (readBackIsp_ok (regRead8_answered (ho.after _ _ _ [command]) regIspCtrl v rfl hrd))
    rw [State.afterAnswers_afterAnswers] at hread
    by_cases hv : v &&& 0x80 ≠ 0
    · rw [if_pos hv] at hread ⊢
      exact conclude_asUnit_ok hread
    · rw [if_neg hv] at hread ⊢
      exact conclude_asUnit_raised hread
  case writeFails =>
    have hread := (enterIsp_afterCommand ho hr hw).trans
      (readBackIsp_raised (regRead8_writeFails (ho.after _ _ _ [command]) regIspCtrl rfl))
    rw [State.afterAnswers_afterAnswers] at hread
    exact conclude_asUnit_raised hread
  case readFails =>
    have hread := (enterIsp_afterCommand ho hr hw).trans
      (readBackIsp_raised (regRead8_readFails (ho.after _ _ _ [command]) regIspCtrl rfl hrd))
    rw [State.afterAnswers_afterAnswers] at hread
    exact conclude_asUnit_raised hread
  case busStuck =>
    rintro rfl hw
    exact conclude_asUnit_raised (enterIsp_commandBusStuck ho hw)

/-- Settles O45: the write's error is caught, and only a recovery that never ends keeps it from ending Ok. -/
theorem exitIsp : Obligations.ExitIsp := by
  intro s hs hw
  have hcall : exec .exitIsp s = conclude (asUnit Machine.exitIsp s) :=
    exec_open (i := .exitIsp) ((ispSession_iff _).2 hs)
  rw [hcall]
  refine ⟨fun r ws ho hnext => conclude_asUnit_ok (exitIsp_answered ho hnext), ?_⟩
  obtain ⟨t, hrun, hendless⟩ | ⟨t, hframe, hrun⟩ := exitIsp_ends hw
  · exact .inl ⟨conclude_asUnit_endless ⟨t, hrun⟩, hendless⟩
  · refine .inr ⟨t.setSession .initialized, rfl, ?_, conclude_asUnit_ok hrun⟩
    rw [← hframe.session]
    exact hframe

/-- Settles O43: for every limit an access does what one transaction of all its bytes would. -/
theorem chunkingInvariance : Obligations.ChunkingInvariance := by
  intro s reg seq m hs ho hd
  have hgate : openSession s.session = true := (openSession_iff _).2 hs
  have havoids {n : Nat} (h : reg = 0x70 ∨ ∀ k, k < n → reg + BitVec.ofNat 8 k ≠ 0x70) : AvoidsPort reg 0 n :=
    h.imp_right fun h k hk => by rw [Nat.zero_add]; exact h k hk
  refine ⟨fun payload hm hne hport => ?write, fun n hn hport => ?read⟩
  case write =>
    have ho' : State.OnReference { s with maxWrite := m } := ⟨ho.native, ho.reference, hm⟩
    obtain ⟨t, x, ht, htdevice, htcount⟩ := exec_accesses (i := .regWrite reg payload seq) (f := fun _ => .unit)
      hgate rfl (regWrite_accesses ho seq hne (havoids hport))
    obtain ⟨u, y, hu, hudevice, hucount⟩ := exec_accesses (i := .regWrite reg payload seq) (f := fun _ => .unit)
      (s := { s with maxWrite := m }) hgate rfl (regWrite_accesses ho' seq hne (havoids hport))
    refine ⟨t, u, ht, hu, ?_, htcount, hucount, fun hreg => ?_, fun hreg hplain k hk => ?_⟩
    · rw [htdevice, hudevice]
      rfl
    · subst hreg
      rw [htdevice]
      rfl
    · rw [htdevice]
      exact Device.readReg_writeFrom hd hreg hplain hk
  case read =>
    have ho' : State.OnReference { s with maxRead := m } := ⟨ho.native, ho.reference, ho.wide⟩
    obtain ⟨t, x, ht, htdevice, htcount⟩ := exec_accesses (i := .regRead reg n seq) hgate rfl
      (regRead_accesses ho seq hn (havoids hport))
    obtain ⟨u, y, hu, hudevice, hucount⟩ := exec_accesses (i := .regRead reg n seq) (s := { s with maxRead := m })
      hgate rfl (regRead_accesses ho' seq hn (havoids hport))
    refine ⟨t, u, _, List.map_congr_left fun k _ => ?_, ht, hu, ?_, ?_, htcount, hucount⟩
    · rw [Device.byteFrom, Nat.zero_add]
      rfl
    · rw [htdevice]
      rfl
    · rw [htdevice, hudevice]
      rfl

end Sys2Proof.Machine.IspEngine
end

section
/-! SUPPORT. The scripts of 44_flash: pages, erase, program and read with their verification, and the failure policy. -/

namespace Sys2Proof.Machine

variable {α : Type}

/-! ## The pages of an image (R252) -/

theorem imagePage_length (img : List Byte) (k : Nat) : (imagePage img k).length = min 128 (img.length - 128 * k) := by
  rw [imagePage, List.length_take, List.length_drop]

/-- Page k is one of the pages where it begins inside the image. -/
theorem lt_pieceCount_page (n k : Nat) : k < pieceCount 128 n ↔ 128 * k < n := by
  unfold pieceCount
  omega

/-- Settles O52: an image's pages are its pieces of 128 bytes, and only the last page can be cut off by the image's
end. -/
theorem pagePartition : Obligations.PagePartition := by
  intro img
  refine ⟨chunks_eq (by decide) img, chunks_flatten (by decide) img, fun k hk => piece_length (by decide) img k hk,
    fun k hk => ?_⟩
  have hfirst : 128 * k < img.length := (lt_pieceCount_page _ _).1 (by omega)
  have hlast : ¬128 * (k + 1) < img.length := fun h => absurd ((lt_pieceCount_page _ _).2 h) (by omega)
  rw [imagePage_length]
  omega

/-! ## Operations that end in a verification (R257) -/

theorem State.setting_maxWrite (s : State) : s.setting.maxWrite = s.maxWrite := rfl

/-- An operation, the verification of its data, and the answer. -/
def verified (x : M α) (data : α → List Byte) (n : Nat) (answer : α → Value) : M Value := do
  let a ← x
  verifyFlash (data a) n
  return answer a

theorem program_eq_verified {img : List Byte} {s : State} (h : 1 ≤ img.length ∧ img.length ≤ s.params.chipSize) :
    operation (.program img) s s = verified (programFront img) (fun _ => img) img.length (fun _ => .unit) s := by
  rw [operation, asUnit, M.bind_run, programFlashImage_run img s h, ← M.bind_run, bind_assoc]
  rfl

theorem flashRead_eq_verified {n : Nat} {s : State} (h : 1 ≤ n ∧ n ≤ s.params.chipSize) :
    operation (.flashRead n) s s = verified (readFront s.params n) id n .bytes s := by
  rw [operation, M.bind_run, readFlashImage_run n s h, ← M.bind_run]
  simp only [bind_assoc, pure_bind]
  rfl

section Verified

variable {s : State} {x : M α} {a : α} {front : List Act} {data : α → List Byte} {n : Nat} {answer : α → Value}
  {crc : PollReads} {d : Byte} {ws : List WriteAnswer} {rs : List ReadAnswer} {xs : List Bool}

/-- The front along its script, and the verification along its own. -/
theorem verified_follows (hx : Runs s.setting x front a) (ho : s.OnOracle) (h1 : 1 ≤ n) (h2 : n ≤ s.params.chipSize)
    (hcrc : crc.Passes crcDone) (ha : s.Answers (front ++ verifyScript s.maxWrite n crc d) ws rs xs) :
    conclude (verified x data n answer s) =
      let t := { s.afterAnswers ws rs xs (eventsOf (front ++ verifyScript s.maxWrite n crc d)) with
        crc := hostCrc (data a) }
      .next (if hostCrc (data a) = d then t.complete (answer a) else t.takeError .verificationFailed) := by
  have hverify := verifyFlash_follows (c := s.setting) ho.wide rfl (data a) h1 (h2.trans (chipSize_le _)) hcrc d _ ws rs
    xs (ho.setting_holds.after _ _ _ (eventsOf front)) (State.Answers.after s _ ws rs xs _)
  rw [State.afterAnswers_afterAnswers, ← eventsOf_append, State.setting_maxWrite] at hverify
  rw [verified, M.bind_run, hx.follows s _ _ _ ho.setting_holds ha.first]
  by_cases h : hostCrc (data a) = d
  · rw [if_pos h] at hverify
    simp only [M.bind_run, M.pure_run, if_pos h]
    rw [hverify, conclude_ok]
  · rw [if_neg h] at hverify
    simp only [M.bind_run, if_neg h]
    rw [hverify, conclude_raised]

/-- A script cut short in the front leaves the CRC register; cut short in the verification, it holds the host CRC. -/
theorem verified_cut (hx : Runs s.setting x front a) (ho : s.OnOracle) (h1 : 1 ≤ n) (h2 : n ≤ s.params.chipSize)
    (hcrc : crc.Passes crcDone) {cut : List Act} {e : Err}
    (hcut : CutShort pollError (front ++ verifyScript s.maxWrite n crc d) cut e) (ha : s.Answers cut ws rs xs) :
    ∃ c, conclude (verified x data n answer s) =
        .next ({ s.afterAnswers ws rs xs (eventsOf cut) with crc := c }.takeError e) ∧
      (c = s.crc ∨ c = hostCrc (data a)) := by
  rw [verified, M.bind_run]
  obtain hfront | ⟨later, rfl, hverify⟩ := hcut.split
  · exact ⟨s.crc, by rw [hx.cut s ws rs xs cut e ho.setting_holds hfront ha]; rfl, .inl rfl⟩
  · refine ⟨hostCrc (data a), ?_, .inr rfl⟩
    have hend := verifyFlash_cut (c := s.setting) ho.wide rfl (data a) h1 (h2.trans (chipSize_le _)) hcrc d _ ws rs xs
      (ho.setting_holds.after _ _ _ (eventsOf front)) hverify (State.Answers.after s _ ws rs xs _)
    rw [State.afterAnswers_afterAnswers, ← eventsOf_append] at hend
    rw [hx.follows s _ _ _ ho.setting_holds ha.first]
    simp only [M.bind_run]
    rw [hend, conclude_raised]

end Verified

/-! ## The failure policy (R260, R284) -/

section Policy

variable {s : State} {i : Instr} {script cut : List Act} {e : Err} {ws : List WriteAnswer} {rs : List ReadAnswer}
  {xs : List Bool}

/-- The call ends with the error, and only a verification has changed the CRC register. -/
def EndsWithError (s : State) (i : Instr) (cut : List Act) (e : Err) (ws : List WriteAnswer) (rs : List ReadAnswer)
    (xs : List Bool) : Prop :=
  ∃ c, exec i s = .next ({ s.afterAnswers ws rs xs (eventsOf cut) with crc := c }.takeError e) ∧
    (c = s.crc ∨ (∃ img, i = .program img ∧ c = hostCrc img) ∨ ∃ n, i = .flashRead n)

/-- An operation without a verification leaves the CRC register. -/
theorem endsWithError_of_runs {v : Value} (hgate : sessionGate i s.session = true) (ho : s.OnOracle)
    (hruns : Runs s.setting (operation i s) script v) (hcut : CutShort pollError script cut e)
    (ha : s.Answers cut ws rs xs) : EndsWithError s i cut e ws rs xs :=
  ⟨s.crc, exec_cut hgate ho hruns hcut ha, .inl rfl⟩

end Policy

end Sys2Proof.Machine

namespace Sys2Proof.Machine.FlashController

/-! ## The statements, in a namespace of their own, since they are named after the operations -/

/-- Settles O53: the call follows the script of its three instructions. -/
theorem erase : Obligations.Erase := by
  intro s ci1 ci2 ci3 ws rs xs hs ho hci ha
  have hruns := eraseFlash_runs (c := s.setting) ho.wide rfl (hci ci1 (by simp)) (hci ci2 (by simp)) (hci ci3 (by simp))
  exact exec_follows (i := .erase) ((ispSession_iff _).2 hs) ho hruns.asUnit ha

/-- Settles O54: `program` follows its script up to the verification, which ends it. -/
theorem program : Obligations.Program := by
  rintro s img ci1 ci2 crc busy d ws rs xs script hs ho hpos hsize hci hbusy hcrc rfl ha
  rw [exec_open (i := .program img) ((ispSession_iff _).2 hs), program_eq_verified ⟨hpos, hsize⟩]
  exact verified_follows (programFront_runs (c := s.setting) ho.wide rfl rfl img (hci ci1 (by simp)) (hci ci2 (by simp))
    hbusy) ho hpos hsize hcrc ha

/-- Settles O55: `read` follows its script up to the verification of the bytes it has read. -/
theorem flashRead : Obligations.FlashRead := by
  rintro s out primed ci busy crc d ws rs xs script hs ho hpos hsize hprimed hci hbusy hcrc rfl ha
  rw [exec_open (i := .flashRead out.length) ((ispSession_iff _).2 hs), flashRead_eq_verified ⟨hpos, hsize⟩]
  exact verified_follows (a := out) (readFront_runs (c := s.setting) ho.wide rfl rfl out primed hprimed hci hbusy) ho
    hpos hsize hcrc ha

/-- Settles O56, by the script of each operation: `program` and `read` are cut short before or in the verification. -/
theorem failurePolicy : Obligations.FailurePolicy := by
  intro s i script cut e ws rs xs hs ho hruns hcut ha
  change EndsWithError s i cut e ws rs xs
  have hisp : ispSession s.session = true := (ispSession_iff _).2 hs
  cases i with
  | customInstruction cmdType opcode readN writeN value =>
    obtain ⟨hcmd, hread, hwrite, hvalue, ci, out, hci, rfl, rfl⟩ := hruns
    have hruns := customInstruction_runs (c := s.setting) ho.wide rfl (opcode := opcode) hcmd hwrite hvalue hci out
      hread
    exact endsWithError_of_runs (i := .customInstruction ..) hisp ho (hruns.map Value.optNat) hcut ha
  | deviceCrc first last =>
    obtain ⟨hle, hlast, crc, d, hcrc, rfl⟩ := hruns
    have hruns := deviceCrc_runs (c := s.setting) ho.wide rfl hle hlast hcrc d
    exact endsWithError_of_runs (i := .deviceCrc ..) hisp ho (hruns.map Value.byte) hcut ha
  | erase =>
    obtain ⟨ci1, ci2, ci3, h1, h2, h3, rfl⟩ := hruns
    have hruns := eraseFlash_runs (c := s.setting) ho.wide rfl h1 h2 h3
    exact endsWithError_of_runs (i := .erase) hisp ho hruns.asUnit hcut ha
  | program img =>
    obtain ⟨hpos, hsize, ci1, ci2, crc, busy, d, h1, h2, hcrc, hbusy, rfl⟩ := hruns
    obtain ⟨c, hend, hc⟩ := verified_cut (data := fun _ => img) (answer := fun _ => .unit)
      (programFront_runs (c := s.setting) ho.wide rfl rfl img h1 h2 hbusy) ho hpos hsize hcrc hcut ha
    rw [EndsWithError, exec_open (i := .program img) hisp, program_eq_verified ⟨hpos, hsize⟩]
    exact ⟨c, hend, hc.imp_right fun h => .inl ⟨img, rfl, h⟩⟩
  | flashRead n =>
    obtain ⟨hpos, hsize, out, primed, ci, busy, crc, d, rfl, hprimed, hci, hbusy, hcrc, rfl⟩ := hruns
    obtain ⟨c, hend, hc⟩ := verified_cut (data := id) (answer := .bytes)
      (readFront_runs (c := s.setting) ho.wide rfl rfl out primed hprimed hci hbusy) ho hpos hsize hcrc hcut ha
    rw [EndsWithError, exec_open (i := .flashRead out.length) hisp, flashRead_eq_verified ⟨hpos, hsize⟩]
    exact ⟨c, hend, hc.imp_right fun _ => .inr ⟨_, rfl⟩⟩
  | _ => exact hruns.elim

end Sys2Proof.Machine.FlashController
end

section
/-! SUPPORT. The progress calls of R259 in every environment: no operation below the flash controller makes one or ends
with VerificationFailed, and a read answers as many bytes as it was asked for. -/

namespace Sys2Proof.Machine

variable {α β : Type}

/-! ## Progress calls -/

/-- The progress calls made so far. -/
def State.progressMade (s : State) : List Event := s.trace.filter isProgress

/-- Where the operation ends Ok or with VerificationFailed it has made exactly these progress calls, and otherwise an
initial part of them. -/
structure Concludes (calls : List Event) (x : M α) : Prop where
  ok : ∀ s a t, x s = .ok a t → t.progressMade = s.progressMade ++ calls
  early : ∀ s stop t, x s = .error stop t → ∃ made, made <+: calls ∧ t.progressMade = s.progressMade ++ made ∧
    (stop = .raised .verificationFailed → made = calls)

/-- Such an operation that does not end with VerificationFailed. -/
structure Reports (calls : List Event) (x : M α) : Prop extends Concludes calls x where
  notFailed : EndsEarly (fun stop _ => stop ≠ .raised .verificationFailed) x

/-- The operation makes no progress call. -/
abbrev Silent (x : M α) : Prop := Reports [] x

section Reports

variable {calls later : List Event}

/-- An operation goes on only after the calls of its first part. -/
theorem Reports.concludes {x : M α} {f : α → M β} (hx : Reports calls x)
    (hf : ∀ s a t, x s = .ok a t → Concludes later (f a)) : Concludes (calls ++ later) (x >>= f) := by
  constructor <;> intro s r t h <;> rw [M.bind_run] at h <;> cases hrun : x s <;> rw [hrun] at h
  case ok.ok a u => rw [(hf s a u hrun).ok u r t h, hx.ok s a u hrun, List.append_assoc]
  case ok.error => cases h
  case early.ok a u =>
    obtain ⟨made, hmade, hseen, hall⟩ := (hf s a u hrun).early u r t h
    exact ⟨calls ++ made, (List.prefix_append_right_inj calls).2 hmade,
      by rw [hseen, hx.ok s a u hrun, List.append_assoc], fun hfailed => congrArg (calls ++ ·) (hall hfailed)⟩
  case early.error =>
    obtain ⟨rfl, rfl⟩ := EStateM.Result.error.inj h
    obtain ⟨made, hmade, hseen, -⟩ := hx.early s _ _ hrun
    exact ⟨made, hmade.trans (List.prefix_append calls later), hseen,
      fun hfailed => absurd hfailed (hx.notFailed s _ _ hrun)⟩

theorem Reports.bind {x : M α} {f : α → M β} (hx : Reports calls x)
    (hf : ∀ s a t, x s = .ok a t → Reports later (f a)) : Reports (calls ++ later) (x >>= f) where
  toConcludes := hx.concludes fun s a t hrun => (hf s a t hrun).toConcludes
  notFailed s stop t h := by
    rw [M.bind_run] at h
    cases hrun : x s with
    | ok a u => rw [hrun] at h; exact (hf s a u hrun).notFailed u stop t h
    | error stop u => rw [hrun] at h; cases h; exact hx.notFailed s _ _ hrun

theorem Silent.bind {x : M α} {f : α → M β} (hx : Silent x) (hf : ∀ a, Reports calls (f a)) :
    Reports calls (x >>= f) := Reports.bind hx fun _ a _ _ => hf a

theorem Reports.getBind {f : State → M α} (h : ∀ s, Reports calls (f s)) : Reports calls ((get : M State) >>= f) where
  ok s _ _ hrun := (h s).ok s _ _ hrun
  early s _ _ hrun := (h s).early s _ _ hrun
  notFailed s _ _ hrun := (h s).notFailed s _ _ hrun

theorem Reports.ite (c : Prop) [Decidable c] {x y : M α} (hx : Reports calls x) (hy : Reports calls y) :
    Reports calls (if c then x else y) := by
  split
  · exact hx
  · exact hy

/-- An operation that never ends early, and whose events are no progress calls. -/
theorem silent_of_trace {x : M α} (hends : EndsEarly (fun _ _ => False) x)
    (htrace : ∀ s, ∃ events, (endState (x s)).trace = s.trace ++ events ∧ events.filter isProgress = []) :
    Silent x where
  ok s a t hrun := by
    obtain ⟨events, htrace, hevents⟩ := htrace s
    rw [hrun] at htrace
    rw [State.progressMade, show t.trace = s.trace ++ events from htrace, List.filter_append, hevents]
    rfl
  early s stop t hrun := (hends s stop t hrun).elim
  notFailed s stop t hrun := (hends s stop t hrun).elim

theorem Reports.pure (a : α) : Silent (Pure.pure a : M α) :=
  silent_of_trace (.pure a) fun _ => ⟨[], (List.append_nil _).symm, rfl⟩

theorem Reports.throw {stop : Stop} (h : stop ≠ .raised .verificationFailed) : Silent (throw stop : M α) where
  ok _ _ _ hrun := by cases hrun
  early s _ t hrun := by
    cases hrun
    exact ⟨[], List.prefix_rfl, (List.append_nil _).symm, fun _ => rfl⟩
  notFailed _ _ _ hrun := by cases hrun; exact h

theorem Reports.raise {e : Err} (h : e ≠ .verificationFailed) : Silent (Machine.raise e : M α) :=
  Reports.throw fun hstop => h (Stop.raised.inj hstop)

theorem Reports.hang : Silent (Machine.hang : M α) := Reports.throw nofun

theorem Reports.require (ok : Bool) (r : Refusal) : Silent (Machine.require ok r) :=
  Reports.ite _ (Reports.pure ()) (Reports.throw nofun)

theorem Reports.whenever (c : Bool) {x : M Unit} (hx : Silent x) : Silent (Machine.whenever c x) :=
  Reports.ite _ hx (Reports.pure ())

theorem emit_silent {e : Event} (h : isProgress e = false) : Silent (emit e) :=
  silent_of_trace (.update _) fun _ => ⟨[e], rfl, by rw [List.filter_singleton, h]; rfl⟩

theorem progress_reports (first last current : Nat) :
    Reports [.progress first last current] (progress first last current) where
  ok s _ t hrun := by cases hrun; exact List.filter_append ..
  early _ _ _ hrun := by cases hrun
  notFailed _ _ _ hrun := by cases hrun

/-- Asking the environment for an answer emits nothing. -/
theorem Draws.silent {P : α → Prop} {x : M α} (h : Draws P x) : Silent x :=
  silent_of_trace (h.endsEarly _) fun s => by
    obtain ⟨a, e, hdraw, -⟩ := h s
    exact ⟨[], by rw [hdraw]; exact (List.append_nil _).symm, rfl⟩

end Reports

/-! ## The bus -/

theorem driveLine_silent (l : Line) : Silent (driveLine l) :=
  silent_of_trace (driveLine_ends _ l) fun s =>
    ⟨[.drive l], by rw [driveLine_run, endState, State.emit_trace, State.setLatch_trace], rfl⟩

theorem releaseLine_silent (l : Line) : Silent (releaseLine l) :=
  silent_of_trace (releaseLine_ends _ l) fun s => by
    obtain ⟨v, e, -, hrun⟩ := releaseLine_cases l s
    exact ⟨[.release l v], by rw [hrun, endState, State.emit_trace, State.setEnv_trace, State.setLatch_trace], rfl⟩

theorem releaseSdaHigh_silent : Silent releaseSdaHigh :=
  silent_of_trace (.update _) fun _ => ⟨[.release .sda true], rfl, rfl⟩

theorem drawExpired_silent : Silent drawExpired :=
  silent_of_trace (drawExpired_ends _) fun s => ⟨[], by
    rw [drawExpired_run]
    split <;> exact (List.append_nil _).symm, rfl⟩

theorem expireStretch_silent : Silent expireStretch := (emit_silent rfl).bind fun _ => .raise nofun

theorem waitSclLoop_silent (left : Nat) : Silent (waitSclLoop left) := by
  induction left with
  | zero => exact (releaseLine_silent .scl).bind fun _ => .ite _ (.pure ()) expireStretch_silent
  | succ left ih =>
    exact (releaseLine_silent .scl).bind fun _ => .ite _ (.pure ())
      (drawExpired_silent.bind fun _ => .ite _ expireStretch_silent ih)

theorem waitScl_silent : Silent waitScl := .getBind fun _ => waitSclLoop_silent _

theorem pulses_silent (n : Nat) : Silent (pulses n) := by
  induction n with
  | zero => exact .pure ()
  | succ n ih =>
    have hpulse : Silent pulseScl :=
      (driveLine_silent .scl).bind fun _ => (releaseLine_silent .scl).bind fun _ => .pure ()
    exact hpulse.bind fun _ => ih

theorem recoveryRounds_silent (left rounds : Nat) : Silent (recoveryRounds left rounds) := by
  induction left generalizing rounds with
  | zero => exact .hang
  | succ left ih =>
    exact (pulses_silent 9).bind fun _ => (releaseLine_silent .sda).bind fun _ => .ite _ (.pure ())
      (.getBind fun _ => .ite _ (.raise nofun) (ih _))

theorem recoverOnce_silent : Silent recoverOnce :=
  (releaseLine_silent .sda).bind fun _ => .getBind fun _ => (recoveryRounds_silent _ 0).bind fun _ =>
    (driveLine_silent .scl).bind fun _ => (driveLine_silent .sda).bind fun _ => waitScl_silent

theorem recover_silent (left : Nat) : Silent (recover left) := by
  induction left with
  | zero =>
    exact .getBind fun _ => (Reports.whenever _ .hang).bind fun _ => recoverOnce_silent.bind fun _ =>
      releaseSdaHigh_silent
  | succ left ih =>
    exact recoverOnce_silent.bind fun _ => (releaseLine_silent .sda).bind fun _ => .ite _ (.pure ()) ih

theorem resetBus_silent : Silent resetBus := .getBind fun _ => recover_silent _

theorem stopCondition_silent : Silent stopCondition :=
  waitScl_silent.bind fun _ => (releaseLine_silent .sda).bind fun _ => .ite _ (.pure ()) resetBus_silent

theorem startCondition_silent : Silent startCondition :=
  (releaseLine_silent .sda).bind fun _ => (Reports.whenever _ resetBus_silent).bind fun _ =>
    waitScl_silent.bind fun _ => (driveLine_silent .sda).bind fun _ => driveLine_silent .scl

theorem sendBit_silent (b : Bit) : Silent (sendBit b) := by
  have hplace : Silent (placeBit b) :=
    .ite _ ((releaseLine_silent .sda).bind fun _ => .pure ()) (driveLine_silent .sda)
  exact hplace.bind fun _ => waitScl_silent.bind fun _ => (driveLine_silent .scl).bind fun _ => driveLine_silent .sda

theorem recvBit_silent : Silent recvBit :=
  (releaseLine_silent .sda).bind fun _ => waitScl_silent.bind fun _ => (releaseLine_silent .sda).bind fun _ =>
    (driveLine_silent .scl).bind fun _ => (driveLine_silent .sda).bind fun _ => .pure _

theorem sendBits_silent (bits : List Bit) : Silent (sendBits bits) := by
  induction bits with
  | nil => exact .pure ()
  | cons b bs ih => exact (sendBit_silent b).bind fun _ => ih

theorem sendByte_silent (x : Byte) : Silent (sendByte x) := (sendBits_silent _).bind fun _ => recvBit_silent

theorem recvBits_silent (n : Nat) (v : Byte) : Silent (recvBits n v) := by
  induction n generalizing v with
  | zero => exact .pure v
  | succ n ih => exact recvBit_silent.bind fun _ => ih _

theorem nackStop_silent (w : NackAt) : Silent (nackStop w) := stopCondition_silent.bind fun _ => .raise nofun

theorem sendData_silent (j : Nat) (data : List Byte) : Silent (sendData j data) := by
  induction data generalizing j with
  | nil => exact .pure ()
  | cons b bs ih =>
    exact (sendByte_silent b).bind fun _ => (Reports.whenever _ (nackStop_silent _)).bind fun _ => ih _

theorem recvData_silent (n : Nat) : Silent (recvData n) := by
  induction n with
  | zero => exact .pure []
  | succ n ih =>
    have hack : Silent (sendMasterAck (masterAckBit n)) := .getBind fun _ => .whenever _ (sendBit_silent _)
    exact (recvBits_silent 8 0).bind fun _ => hack.bind fun _ => Silent.bind ih fun _ => .pure _

theorem busWrite_silent (address : Nat) (data : List Byte) : Silent (busWrite address data) :=
  (Reports.require _ _).bind fun _ => startCondition_silent.bind fun _ => (sendByte_silent _).bind fun _ =>
    (Reports.whenever _ (nackStop_silent _)).bind fun _ => (sendData_silent 0 data).bind fun _ => stopCondition_silent

theorem busRead_silent (address count : Nat) : Silent (busRead address count) :=
  (Reports.require _ _).bind fun _ => startCondition_silent.bind fun _ => (sendByte_silent _).bind fun _ =>
    (Reports.whenever _ (nackStop_silent _)).bind fun _ => (recvData_silent count).bind fun _ =>
    stopCondition_silent.bind fun _ => .pure _

/-! ## Transactions -/

theorem answerWrite_silent (a : Addr7) (bytes : List Byte) : Silent (answerWrite a bytes) :=
  silent_of_trace (answerWrite_endsEarly _ a bytes) fun s => ⟨[], by
    rw [List.append_nil, answerWrite, M.bind_run, M.get_run]
    cases hmode : s.env.mode with
    | oracle =>
      obtain ⟨r, e, hdraw, -⟩ := drawWrite_draws s
      simp only [hmode, hdraw]
      rfl
    | reference =>
      simp only [hmode, M.ite_run]
      split <;> rfl, rfl⟩

theorem answerRead_silent (a : Addr7) (n : Nat) : Silent (answerRead a n) :=
  silent_of_trace (answerRead_endsEarly _ a n) fun s => ⟨[], by
    rw [List.append_nil, answerRead, M.bind_run, M.get_run]
    cases hmode : s.env.mode with
    | oracle =>
      obtain ⟨r, e, hdraw, -⟩ := drawRead_draws n s
      simp only [hmode, hdraw]
      rfl
    | reference =>
      simp only [hmode, M.ite_run]
      split <;> rfl, rfl⟩

theorem xferError_ne_verificationFailed (why : XferErr) : xferError why ≠ .verificationFailed := by
  cases why <;> exact nofun

theorem nativeWrite_silent (a : Addr7) (bytes : List Byte) : Silent (nativeWrite a bytes) :=
  (answerWrite_silent a bytes).bind fun r => (emit_silent rfl).bind fun _ => by
    cases r with
    | ok => exact .pure ()
    | failed why => exact .raise (xferError_ne_verificationFailed why)

theorem nativeRead_silent (a : Addr7) (n : Nat) : Silent (nativeRead a n) :=
  (answerRead_silent a n).bind fun r => (emit_silent rfl).bind fun _ => by
    cases r with
    | ok bytes => exact .pure bytes
    | failed why => exact .raise (xferError_ne_verificationFailed why)

theorem transWrite_silent (a : Addr7) (bytes : List Byte) : Silent (transWrite a bytes) :=
  .getBind fun s => (Reports.require _ _).bind fun _ => by
    cases s.backend with
    | softwareBus => exact busWrite_silent _ bytes
    | native => exact nativeWrite_silent a bytes

theorem transRead_silent (a : Addr7) (n : Nat) : Silent (transRead a n) :=
  .getBind fun s => (Reports.require _ _).bind fun _ => by
    cases s.backend with
    | softwareBus => exact busRead_silent _ n
    | native => exact nativeRead_silent a n

/-! ## The engine -/

theorem writeChunks_silent (a : Addr7) (reg : Byte) (off : Nat) (cs : List (List Byte)) :
    Silent (writeChunks a reg off cs) := by
  induction cs generalizing off with
  | nil => exact .pure ()
  | cons c cs ih => exact (transWrite_silent a _).bind fun _ => ih _

theorem regWrite_silent (reg : Byte) (payload : List Byte) (seq : Bool) : Silent (regWrite reg payload seq) :=
  (Reports.require _ _).bind fun _ => .getBind fun _ => (Reports.require _ _).bind fun _ => writeChunks_silent _ _ _ _

theorem regWrite8_silent (reg v : Byte) : Silent (regWrite8 reg v) := regWrite_silent _ _ _

theorem setAddr_silent (reg : Byte) (a : Nat) : Silent (setAddr reg a) := regWrite_silent _ _ _

theorem readChunks_silent (a : Addr7) (reg : Byte) (off : Nat) (ks : List Nat) : Silent (readChunks a reg off ks) := by
  induction ks generalizing off with
  | nil => exact .pure []
  | cons k ks ih =>
    exact (transWrite_silent _ _).bind fun _ => (transRead_silent a k).bind fun _ => Silent.bind (ih _) fun _ => .pure _

theorem regRead_silent (reg : Byte) (n : Nat) (seq : Bool) : Silent (regRead reg n seq) :=
  (Reports.require _ _).bind fun _ => .getBind fun _ => readChunks_silent _ _ _ _

theorem regRead8_silent (reg : Byte) : Silent (regRead8 reg) := (regRead_silent _ _ _).bind fun _ => .pure _

/-- A poll whose caller gives another error than VerificationFailed. -/
theorem pollReg_silent (site : PollSite) (reg : Byte) (test : PollTest) (timeout : Timeout) {err : Err}
    (h : err ≠ .verificationFailed) : Silent (pollReg site reg test timeout err) := by
  have hexpire : Silent (expirePoll site err) := (emit_silent rfl).bind fun _ => .raise h
  have hloop (left : Nat) : Silent (pollLoop site reg test err left) := by
    induction left with
    | zero => exact (regRead8_silent reg).bind fun v => .ite _ (.pure v) hexpire
    | succ left ih =>
      exact (regRead8_silent reg).bind fun v => .ite _ (.pure v) (drawExpired_silent.bind fun _ => .ite _ hexpire ih)
  exact .getBind fun _ => hloop _

theorem waitNotBusy_silent : Silent waitNotBusy := (pollReg_silent _ _ _ _ (h := by nofun)).bind fun _ => .pure ()

theorem customInstruction_silent (cmdType : Nat) (opcode : Byte) (readN writeN value : Nat) :
    Silent (customInstruction cmdType opcode readN writeN value) :=
  (Reports.require _ _).bind fun _ => (Reports.require _ _).bind fun _ =>
    (Reports.whenever _ (regWrite_silent _ _ _)).bind fun _ => (regWrite8_silent _ _).bind fun _ =>
    (regWrite8_silent _ _).bind fun _ => .getBind fun _ => (pollReg_silent _ _ _ _ (h := by nofun)).bind fun _ =>
    .ite _ ((regRead_silent _ _ _).bind fun _ => .pure _) (.pure _)

theorem writeStatusRegister_silent (value : Nat) : Silent (writeStatusRegister value) :=
  .getBind fun _ => (customInstruction_silent _ _ _ _ _).bind fun _ => .pure ()

theorem deviceCrc_silent (first last : Nat) : Silent (deviceCrc first last) :=
  (Reports.require _ _).bind fun _ => (setAddr_silent _ _).bind fun _ => (setAddr_silent _ _).bind fun _ =>
    (regWrite8_silent _ _).bind fun _ => (pollReg_silent _ _ _ _ (h := by nofun)).bind fun _ => regRead8_silent _

theorem computeHostCrc_silent (data : List Byte) : Silent (computeHostCrc data) :=
  silent_of_trace (EndsEarly.bind (.update _) fun _ => EndsEarly.bind (.update _) fun _ => .getBind fun _ => .pure _)
    fun _ => ⟨[], (List.append_nil _).symm, rfl⟩

/-! ## How many bytes a read answers (R162, R190, R211) -/

/-- Where the operation ends Ok, `P` holds of its answer. -/
def Returns (P : α → Prop) (x : M α) : Prop := ∀ s a t, x s = .ok a t → P a

section Returns

variable {P : α → Prop} {Q : β → Prop}

theorem Returns.pure {a : α} (h : P a) : Returns P (Pure.pure a : M α) := by
  intro s b t hrun
  cases hrun
  exact h

theorem Returns.raise (e : Err) : Returns P (Machine.raise e : M α) := by
  intro s a t hrun
  cases hrun

theorem Returns.bind {x : M β} {f : β → M α} (hx : Returns Q x) (hf : ∀ b, Q b → Returns P (f b)) :
    Returns P (x >>= f) := by
  intro s a t h
  rw [M.bind_run] at h
  cases hrun : x s with
  | ok b u => rw [hrun] at h; exact hf b (hx s b u hrun) u a t h
  | error stop u => rw [hrun] at h; cases h

/-- The answer depends on the last part only. -/
theorem Returns.last {x : M β} {f : β → M α} (hf : ∀ b, Returns P (f b)) : Returns P (x >>= f) :=
  Returns.bind (Q := fun _ => True) (fun _ _ _ _ => trivial) fun b _ => hf b

end Returns

theorem recvData_returns (n : Nat) : Returns (fun out : List Byte => out.length = n) (recvData n) := by
  induction n with
  | zero => exact .pure rfl
  | succ n ih =>
    exact .last fun _ => .last fun _ => Returns.bind ih fun out hout => .pure (congrArg (· + 1) hout)

theorem busRead_returns (address count : Nat) :
    Returns (fun out : List Byte => out.length = count) (busRead address count) :=
  .last fun _ => .last fun _ => .last fun _ => .last fun _ => (recvData_returns count).bind fun _ hout =>
    .last fun _ => .pure hout

/-- The reference device sends as many bytes as are read. -/
theorem Device.send_length (p : Params) (a : Addr7) (d : Device) (k : Nat) : (d.send p a k).1.length = k := by
  unfold Device.send
  split
  · exact (List.length_map _).trans List.length_range
  · exact (List.length_map _).trans List.length_range

theorem answerRead_returns (a : Addr7) (n : Nat) : Returns (ReadAnswer.Carries n) (answerRead a n) := by
  refine .last fun s => ?_
  cases s.env.mode with
  | oracle =>
    intro t r u hrun
    obtain ⟨r', e, hdraw, hcarries, -⟩ := drawRead_draws n t
    cases hdraw.symm.trans hrun
    exact hcarries
  | reference =>
    intro t r u hrun
    simp only [M.ite_run] at hrun
    split at hrun
    · cases hrun
      rintro _ ⟨⟩
      exact Device.send_length ..
    · cases hrun
      exact nofun

theorem nativeRead_returns (a : Addr7) (n : Nat) :
    Returns (fun out : List Byte => out.length = n) (nativeRead a n) :=
  (answerRead_returns a n).bind fun r hr => .last fun _ => by
    cases r with
    | ok bytes => exact .pure (hr bytes rfl)
    | failed why => exact .raise _

theorem transRead_returns (a : Addr7) (n : Nat) : Returns (fun out : List Byte => out.length = n) (transRead a n) :=
  .last fun s => .last fun _ => by
    cases s.backend with
    | softwareBus => exact busRead_returns _ n
    | native => exact nativeRead_returns a n

theorem readChunks_returns (a : Addr7) (reg : Byte) (off : Nat) (ks : List Nat) :
    Returns (fun out : List Byte => out.length = ks.sum) (readChunks a reg off ks) := by
  induction ks generalizing off with
  | nil => exact .pure rfl
  | cons k ks ih =>
    exact .last fun _ => (transRead_returns a k).bind fun bytes hbytes => Returns.bind (ih _) fun rest hrest =>
      .pure (by rw [List.length_append, hbytes, hrest, List.sum_cons])

theorem regRead_returns (reg : Byte) (n : Nat) (seq : Bool) :
    Returns (fun out : List Byte => out.length = n) (regRead reg n seq) := by
  refine .last fun _ => .last fun s => ?_
  rcases Nat.eq_zero_or_pos n with rfl | hn
  · exact readChunks_returns _ reg 0 []
  · have hreturns := readChunks_returns (accessAddr seq n) reg 0 (chunkSizes (readChunkSize s.maxRead n) n)
    rwa [chunkSizes_sum (readChunkSize_pos hn)] at hreturns

/-! ## The flash controller (R259) -/

theorem eraseFlash_silent : Silent eraseFlash :=
  (writeStatusRegister_silent _).bind fun _ => .getBind fun _ => (customInstruction_silent _ _ _ _ _).bind fun _ =>
    writeStatusRegister_silent _

theorem writePage_silent (p : Nat) (page : List Byte) : Silent (writePage p page) :=
  waitNotBusy_silent.bind fun _ => .getBind fun _ => (regWrite8_silent _ _).bind fun _ =>
    (setAddr_silent _ _).bind fun _ => (regWrite_silent _ _ _).bind fun _ => regWrite8_silent _ _

/-- The progress calls before the pages or chunks, by their offsets from `first` on (R259). -/
def pageCalls (n first count : Nat) : List Event :=
  (List.range count).map fun p => .progress 0 n (first + 128 * p)

theorem pageCalls_succ (n first count : Nat) :
    pageCalls n first (count + 1) = [.progress 0 n first] ++ pageCalls n (first + 128) count := by
  rw [pageCalls, List.range_succ_eq_map, List.map_cons, List.map_map]
  refine congrArg (Event.progress 0 n first :: ·) (List.map_congr_left fun p _ => ?_)
  rw [Function.comp_apply, Nat.mul_succ, Nat.add_comm (128 * p), Nat.add_assoc]

theorem programPages_reports (n p : Nat) (pages : List (List Byte)) :
    Reports (pageCalls n (128 * p) pages.length) (programPages n p pages) := by
  induction pages generalizing p with
  | nil => exact .pure ()
  | cons page rest ih =>
    rw [List.length_cons, pageCalls_succ]
    exact (progress_reports 0 n _).bind fun _ _ _ _ =>
      (Reports.whenever _ (writePage_silent p page)).bind fun _ => ih (p + 1)

/-- A chunk's progress call shows how many bytes have been read before it: all chunks but the last are full. -/
theorem collectFlash_reports (n fuel left : Nat) (out : List Byte) (h : left ≤ fuel) :
    Reports (pageCalls n out.length (pieceCount 128 left)) (collectFlash n (chunkSizesFuel 128 fuel left) out) := by
  induction fuel generalizing left out with
  | zero =>
    obtain rfl : left = 0 := Nat.le_zero.1 h
    exact .pure out
  | succ fuel ih =>
    cases left with
    | zero => exact .pure out
    | succ left =>
      rw [pieceCount_step (by decide) (Nat.succ_pos left), pageCalls_succ]
      refine (progress_reports 0 n _).bind fun _ _ _ _ => ?_
      refine Reports.bind (regRead_silent regData _ true) fun s bytes t hrun => ?_
      have hbytes := regRead_returns _ _ _ s bytes t hrun
      have hrest := ih (left + 1 - 128) (out ++ bytes) (by omega)
      rw [List.length_append, hbytes] at hrest
      by_cases hfull : 128 ≤ left + 1
      · rwa [Nat.min_eq_left hfull] at hrest
      · rw [show left + 1 - 128 = 0 by omega] at hrest ⊢
        exact hrest

section Concludes

variable {calls : List Event}

/-- An operation whose first part makes no call. -/
theorem Silent.concludes {x : M α} {f : α → M β} (hx : Silent x) (hf : ∀ a, Concludes calls (f a)) :
    Concludes calls (x >>= f) := Reports.concludes hx fun _ a _ _ => hf a

theorem Concludes.getBind {f : State → M α} (h : ∀ s, Concludes calls (f s)) :
    Concludes calls ((get : M State) >>= f) where
  ok s _ _ hrun := (h s).ok s _ _ hrun
  early s _ _ hrun := (h s).early s _ _ hrun

/-- An answer after the operation. -/
theorem Concludes.answer {x : M α} (hx : Concludes calls x) (g : α → β) : Concludes calls (do return g (← x)) := by
  constructor <;> intro s r t h <;> rw [M.bind_run] at h <;> cases hrun : x s <;> rw [hrun] at h
  case ok.ok => cases h; exact hx.ok s _ _ hrun
  case ok.error => cases h
  case early.ok => cases h
  case early.error => cases h; exact hx.early s _ _ hrun

end Concludes

/-- The verdict comes after the last progress call (R257). -/
theorem verifyFlash_concludes (data : List Byte) (n : Nat) : Concludes [.progress 0 n n] (verifyFlash data n) := by
  have hverdict (h d : Byte) : Concludes [] (whenever (decide (h ≠ d)) (raise .verificationFailed)) := by
    cases decide (h ≠ d) with
    | false => exact (Reports.pure ()).toConcludes
    | true =>
      constructor <;> intro s r t hrun <;> cases hrun
      exact ⟨[], List.prefix_rfl, (List.append_nil _).symm, fun _ => rfl⟩
  exact (computeHostCrc_silent data).concludes fun h => (deviceCrc_silent 0 (n - 1)).concludes fun d =>
    (progress_reports 0 n n).concludes fun _ _ _ _ => hverdict h d

theorem progressCalls_eq (n : Nat) : progressCalls n = pageCalls n 0 (pieceCount 128 n) ++ [.progress 0 n n] := by
  simp only [progressCalls, pageCalls, Nat.zero_add]
  rfl

theorem programFlashImage_concludes (img : List Byte) :
    Concludes (progressCalls img.length) (programFlashImage img) := by
  have hpages := programPages_reports img.length 0 (chunks pageSize img)
  rw [chunks_length (by decide)] at hpages
  rw [progressCalls_eq]
  exact .getBind fun _ => (Reports.require _ _).concludes fun _ => (writeStatusRegister_silent _).concludes fun _ =>
    hpages.concludes fun _ _ _ _ => waitNotBusy_silent.concludes fun _ =>
    (writeStatusRegister_silent _).concludes fun _ => verifyFlash_concludes img img.length

theorem readFlashImage_concludes (n : Nat) : Concludes (progressCalls n) (readFlashImage n) := by
  have hchunks := collectFlash_reports n n n [] (Nat.le_refl n)
  rw [progressCalls_eq]
  exact .getBind fun _ => (Reports.require _ _).concludes fun _ =>
    (customInstruction_silent _ _ _ _ _).concludes fun _ => waitNotBusy_silent.concludes fun _ =>
    hchunks.concludes fun _ out _ _ => (verifyFlash_concludes out n).answer fun _ => out

/-- The progress calls of a call that answers a next state. -/
theorem Concludes.progress_of_exec {calls es : List Event} {i : Instr} {s t : State}
    (h : Concludes calls (operation i s)) (hexec : exec i s = .next t) (hes : t.trace = s.trace ++ es) :
    es.filter isProgress <+: calls ∧
      ((t.endedOk = true ∨ t.result = some (.err .verificationFailed)) → es.filter isProgress = calls) := by
  have hmade (made : List Event) (hseen : t.progressMade = s.progressMade ++ made) : es.filter isProgress = made := by
    rw [State.progressMade, hes, List.filter_append] at hseen
    exact List.append_cancel_left hseen
  obtain ⟨-, ⟨v, u, hrun, rfl⟩ | ⟨e, u, hrun, rfl⟩⟩ := exec_next_cases hexec
  · obtain rfl := hmade calls (h.ok s v u hrun)
    exact ⟨List.prefix_rfl, fun _ => rfl⟩
  · obtain ⟨made, hprefix, hseen, hall⟩ := h.early s _ u hrun
    obtain rfl := hmade made hseen
    refine ⟨hprefix, fun hend => hall ?_⟩
    obtain hok | hfailed := hend
    · cases hok
    · cases hfailed
      rfl

end Sys2Proof.Machine

namespace Sys2Proof.Machine.FlashController

/-- Settles O57: the controller's operations make their calls one by one, in every environment. -/
theorem progressCalls : Obligations.ProgressCalls := by
  intro s t es hes
  refine ⟨fun hexec => ?_, fun i n hi hexec => ?_⟩
  · have herase : Concludes [] (operation .erase s) := (eraseFlash_silent.toConcludes).answer fun _ => Value.unit
    exact List.prefix_nil.1 (herase.progress_of_exec hexec hes).1
  · obtain ⟨img, rfl, rfl⟩ | rfl := hi
    · exact ((programFlashImage_concludes img).answer fun _ => Value.unit).progress_of_exec (i := .program img) hexec
        hes
    · exact ((readFlashImage_concludes n).answer Value.bytes).progress_of_exec (i := .flashRead n) hexec hes

end Sys2Proof.Machine.FlashController
end

section
/-! SUPPORT. The round-trip law of R261 on the reference device: what each engine operation and each flash operation
achieves there, from what its device holds before. -/

namespace Sys2Proof.Machine

variable {α β : Type}

/-! ## Operations on the reference device -/

/-- An ISP session with the reference device, under these parameters. -/
structure State.Serves (p : Params) (s : State) : Prop where
  reference : s.OnReference
  params : s.params = p
  session : s.session = .ispActive

theorem State.Serves.after {p : Params} {s : State} (h : s.Serves p) (events : List Event) (d : Device) :
    (s.afterAccess events d).Serves p := ⟨h.reference.after events d, h.params, h.session⟩

/-- From every device of which `P` holds the operation ends Ok, and `Q` holds of its answer and the device it leaves. -/
def Achieves (p : Params) (P : Device → Prop) (x : M α) (Q : α → Device → Prop) : Prop :=
  ∀ s : State, s.Serves p → P s.device → ∃ a t, x s = .ok a t ∧ t.Serves p ∧ Q a t.device

/-- Where the register pointer stands does not matter. -/
def PointerBlind (P : Device → Prop) : Prop := ∀ d y, P d → P (d.pointTo y)

section Achieves

variable {p : Params} {P : Device → Prop} {Q : α → Device → Prop} {R : β → Device → Prop}

theorem Achieves.pure {a : α} (h : ∀ d, P d → Q a d) : Achieves p P (Pure.pure a : M α) Q :=
  fun s hs hp => ⟨a, s, rfl, hs, h _ hp⟩

theorem Achieves.bind {x : M α} {f : α → M β} (hx : Achieves p P x Q) (hf : ∀ a, Achieves p (Q a) (f a) R) :
    Achieves p P (x >>= f) R := by
  intro s hs hp
  obtain ⟨a, t, hrun, ht, hq⟩ := hx s hs hp
  obtain ⟨b, u, hrun', hu, hr⟩ := hf a t ht hq
  exact ⟨b, u, by rw [M.bind_run, hrun]; exact hrun', hu, hr⟩

theorem Achieves.getBind {f : State → M α} (h : ∀ s, s.Serves p → Achieves p P (f s) Q) :
    Achieves p P ((get : M State) >>= f) Q := fun s hs hp => h s hs s hs hp

theorem Achieves.conclude {x : M α} {Q' : α → Device → Prop} (hx : Achieves p P x Q) (h : ∀ a d, Q a d → Q' a d) :
    Achieves p P x Q' := by
  intro s hs hp
  obtain ⟨a, t, hrun, ht, hq⟩ := hx s hs hp
  exact ⟨a, t, hrun, ht, h a _ hq⟩

/-- What holds of the answers alone can be taken out of the precondition. -/
theorem Achieves.given {c : Prop} {x : M α} (hx : c → Achieves p P x Q) : Achieves p (fun d => c ∧ P d) x Q :=
  fun s hs ⟨hc, hp⟩ => hx hc s hs hp

theorem Achieves.require {ok : Bool} (r : Refusal) (h : ok = true) :
    Achieves p P (Machine.require ok r) fun _ => P := by
  subst h
  exact .pure fun _ hp => hp

/-- An update that leaves the device, the transport and the session. -/
theorem Achieves.update {f : State → State} (hserves : ∀ s, s.Serves p → (f s).Serves p)
    (hdevice : ∀ s, (f s).device = s.device) : Achieves p P (modify f : M PUnit) fun _ => P :=
  fun s hs hp => ⟨(), f s, rfl, hserves s hs, (hdevice s).symm ▸ hp⟩

theorem progress_achieves (first last current : Nat) : Achieves p P (progress first last current) fun _ => P :=
  .update (fun _ hs => ⟨⟨hs.reference.native, hs.reference.reference, hs.reference.wide⟩, hs.params, hs.session⟩)
    fun _ => rfl

/-- The host CRC works in its register only (R27). -/
theorem computeHostCrc_achieves (data : List Byte) :
    Achieves p P (computeHostCrc data) fun h d => h = hostCrc data ∧ P d :=
  fun s hs hp => ⟨hostCrc data, s.setCrc (hostCrc data), rfl,
    ⟨⟨hs.reference.native, hs.reference.reference, hs.reference.wide⟩, hs.params, hs.session⟩, rfl, hp⟩

/-! ## Register accesses -/

theorem regWrite_achieves (seq : Bool) {reg : Byte} {payload : List Byte} {Q : Device → Prop} (hne : payload ≠ [])
    (hport : AvoidsPort reg 0 payload.length)
    (h : ∀ d y, P d → Q ((d.writeFrom p reg 0 payload).pointTo y)) :
    Achieves p P (regWrite reg payload seq) fun _ => Q := by
  intro s hs hp
  obtain ⟨events, y, -, hrun⟩ := regWrite_accesses hs.reference seq hne hport
  rw [hs.params] at hrun
  exact ⟨(), _, hrun, hs.after _ _, h _ y hp⟩

theorem regRead_achieves (seq : Bool) {reg : Byte} {n : Nat} {Q : List Byte → Device → Prop} (hn : n ≠ 0)
    (hport : AvoidsPort reg 0 n)
    (h : ∀ d y, P d → Q ((List.range n).map (d.byteFrom p reg 0)) ((d.advance reg n).pointTo y)) :
    Achieves p P (regRead reg n seq) Q := by
  intro s hs hp
  obtain ⟨events, y, -, hrun⟩ := regRead_accesses hs.reference seq hn hport
  rw [hs.params] at hrun
  exact ⟨_, _, hrun, hs.after _ _, h _ y hp⟩

theorem avoidsPort_one {reg : Byte} (hreg : reg ≠ regData) : AvoidsPort reg 0 1 := by
  refine .inr fun k hk => ?_
  obtain rfl : k = 0 := by omega
  exact (BitVec.add_zero reg).symm ▸ hreg

/-- One byte written to a register other than the port. -/
theorem regWrite8_achieves {reg : Byte} (hreg : reg ≠ regData) (v : Byte) {Q : Device → Prop}
    (h : ∀ d y, P d → Q ((d.writeReg p reg v).pointTo y)) : Achieves p P (regWrite8 reg v) fun _ => Q := by
  refine regWrite_achieves false (List.cons_ne_nil v []) (avoidsPort_one hreg) fun d y hp => ?_
  rw [Device.writeFrom_other hreg, chunkReg_zero]
  exact h d y hp

/-- One byte read from a register other than the port. -/
theorem regRead8_achieves {reg : Byte} (hreg : reg ≠ regData) (hblind : PointerBlind P) :
    Achieves p P (regRead8 reg) fun v d => v = d.readReg reg ∧ P d := by
  refine Achieves.bind (Q := fun out d => out = [d.readReg reg] ∧ P d)
    (regRead_achieves false Nat.one_ne_zero (avoidsPort_one hreg) fun d y hp => ?_) fun out =>
      .pure fun d ⟨hout, hp⟩ => ⟨by rw [hout]; rfl, hp⟩
  rw [Device.advance_other hreg]
  refine ⟨?_, hblind d y hp⟩
  rw [List.range_one, List.map_singleton, Device.byteFrom_other hreg, show reg + BitVec.ofNat 8 (0 + 0) = reg from
    BitVec.add_zero reg]
  rfl

/-- A poll whose first read passes. -/
theorem pollReg_achieves (site : PollSite) {reg : Byte} (hreg : reg ≠ regData) {test : PollTest} (timeout : Timeout)
    (err : Err) (hblind : PointerBlind P) (hpass : ∀ d, P d → pollAccepts test (d.readReg reg) = true) :
    Achieves p P (pollReg site reg test timeout err) fun _ => P := by
  have hdecide (other : M Byte) (v : Byte) : Achieves p (fun d => v = d.readReg reg ∧ P d)
      (if pollAccepts test v then Pure.pure v else other) fun _ => P := by
    rintro s hs ⟨hv, hp⟩
    rw [hv, if_pos (hpass _ hp)]
    exact ⟨_, s, rfl, hs, hp⟩
  refine .getBind fun s _ => ?_
  cases s.waitBound timeout with
  | zero => exact (regRead8_achieves hreg hblind).bind (hdecide _)
  | succ left => exact (regRead8_achieves hreg hblind).bind (hdecide _)

end Achieves

/-! ## What the device holds -/

/-- The device is idle, with these bytes in its flash and these in its programming buffer. -/
structure Device.Ready (p : Params) (f : Nat → Byte) (buffer : List Byte) (d : Device) : Prop where
  canonical : d.canonical p = true
  idle : d.busy = false
  buffer : d.buffer = buffer
  flash : ∀ a, d.flash.read .flash a = f a

section Ready

variable {p : Params} {f : Nat → Byte} {buffer data : List Byte} {d : Device} {reg : Byte}

/-- The protection byte, the status bits and the positions do not matter. -/
theorem Device.Ready.congr {e : Device} (h : d.Ready p f buffer) (hregs : e.regs = d.regs) (hflash : e.flash = d.flash)
    (hidle : e.busy = d.busy) (hbuffer : e.buffer = d.buffer) : e.Ready p f buffer :=
  ⟨Device.canonical_of_eq h.canonical hregs hflash, hidle.trans h.idle, hbuffer.trans h.buffer, hflash ▸ h.flash⟩

theorem Device.Ready.pointTo (h : d.Ready p f buffer) (y : Byte) : (d.pointTo y).Ready p f buffer :=
  h.congr rfl rfl rfl rfl

theorem Device.Ready.storeReg (h : d.Ready p f buffer) (r v : Byte) : (d.storeReg r v).Ready p f buffer :=
  ⟨Device.canonical_storeReg h.canonical r v, h.idle, h.buffer, h.flash⟩

/-- Bytes stored plainly leave it ready. -/
theorem Device.Ready.store (h : d.Ready p f buffer) (hreg : reg ≠ regData)
    (hplain : storesPlainly reg data.length = true) : (d.writeFrom p reg 0 data).Ready p f buffer := by
  have hfields := Device.writeRegs_plain (p := p) (d := d) (((storesPlainly_iff reg _).1 hplain).resolve_left hreg)
  rw [Device.writeFrom_other hreg, chunkReg_zero]
  exact ⟨Device.canonical_writeRegs h.canonical reg data, (congrArg Device.busy hfields).trans h.idle,
    (congrArg Device.buffer hfields).trans h.buffer,
    fun a => (congrArg (fun e : Device => e.flash.read .flash a) hfields).trans (h.flash a)⟩

theorem avoidsPort_of_storesPlainly {n : Nat} (hplain : storesPlainly reg n = true) : AvoidsPort reg 0 n :=
  ((storesPlainly_iff reg n).1 hplain).imp_right fun hregs k hk => by
    obtain ⟨-, -, hport, -⟩ := hregs k hk
    rwa [Nat.zero_add]

/-- A value stored in registers reads back from them (R54). -/
theorem Device.readValue_stored (hd : d.canonical p = true) (hreg : reg ≠ regData)
    (hplain : storesPlainly reg data.length = true) :
    (d.writeFrom p reg 0 data).readValue reg data.length = beValue data := by
  refine congrArg beValue (List.ext_getElem? fun k => ?_)
  rw [List.getElem?_map]
  by_cases hk : k < data.length
  · rw [List.getElem?_range hk, ← Device.readReg_writeFrom hd hreg hplain hk]
    rfl
  · rw [List.getElem?_eq_none (by simpa using hk), List.getElem?_eq_none (by omega)]
    rfl

/-- Storing leaves the value of other registers. -/
theorem Device.readValue_store_other {r : Byte} {n : Nat} (hreg : reg ≠ regData)
    (hplain : storesPlainly reg data.length = true)
    (hother : ∀ i, i < n → ∀ k, k < data.length → r + BitVec.ofNat 8 i ≠ reg + BitVec.ofNat 8 k) :
    (d.writeFrom p reg 0 data).readValue r n = d.readValue r n := by
  rw [Device.writeFrom_other hreg, chunkReg_zero]
  exact congrArg beValue (List.map_congr_left fun i hi => Device.readReg_writeRegs_other
    (((storesPlainly_iff reg _).1 hplain).resolve_left hreg) (hother i (List.mem_range.1 hi)))

theorem Device.Ready.notBusy (h : d.Ready p f buffer) : pollAccepts testNotBusy (d.readReg regIspCtrl) = true := by
  rw [Device.readReg, if_pos rfl, Device.status, h.idle]
  cases d.ispMode <;> cases d.crcReady <;> decide

end Ready

section Operations

variable {p : Params} {f : Nat → Byte} {P : Device → Prop}

theorem waitNotBusy_achieves {buffer : List Byte} (hblind : PointerBlind P) (hready : ∀ d, P d → d.Ready p f buffer) :
    Achieves p P waitNotBusy fun _ => P :=
  (pollReg_achieves .busy (by decide) _ _ hblind fun d hp => (hready d hp).notBusy).bind fun _ => .pure fun _ hp => hp

end Operations

/-! ## Custom instructions -/

/-- The device is ready, and its operand registers hold this value of n bytes. -/
structure Device.Loaded (p : Params) (f : Nat → Byte) (buffer : List Byte) (n v : Nat) (d : Device) : Prop where
  ready : d.Ready p f buffer
  value : d.readValue regAddr n = v

section Instructions

variable {p : Params} {f : Nat → Byte} {buffer data : List Byte} {n v : Nat} {d : Device}

theorem Device.Loaded.pointTo (h : d.Loaded p f buffer n v) (y : Byte) : (d.pointTo y).Loaded p f buffer n v :=
  ⟨h.ready.pointTo y, h.value⟩

/-- Storing in registers after the operand registers, or before them, leaves their value. -/
theorem Device.Loaded.store {reg : Byte} (h : d.Loaded p f buffer n v) (hreg : reg ≠ regData)
    (hplain : storesPlainly reg data.length = true)
    (hother : ∀ i, i < n → ∀ k, k < data.length → regAddr + BitVec.ofNat 8 i ≠ reg + BitVec.ofNat 8 k) :
    (d.writeFrom p reg 0 data).Loaded p f buffer n v :=
  ⟨h.ready.store hreg hplain, (Device.readValue_store_other hreg hplain hother).trans h.value⟩

theorem operandRegs_plain (h : n ≤ 3) : storesPlainly regAddr n = true := by
  interval_cases n <;> decide

/-- The operand registers of a value (R92, R104). -/
theorem loadOperand_achieves (hn : 0 < n) (h3 : n ≤ 3) (hv : v < 2 ^ (8 * n)) :
    Achieves p (Device.Ready p f buffer) (regWrite regAddr (beBytes v n) true)
      fun _ => Device.Loaded p f buffer n v := by
  have hplain : storesPlainly regAddr (beBytes v n).length = true := by
    rw [beBytes_length]
    exact operandRegs_plain h3
  have hne : beBytes v n ≠ [] := List.ne_nil_of_length_pos (by rwa [beBytes_length])
  refine regWrite_achieves true hne (avoidsPort_of_storesPlainly hplain) fun d y hd => .pointTo ⟨?_, ?_⟩ y
  · exact hd.store (by decide) hplain
  · have hstored := Device.readValue_stored hd.canonical (by decide) hplain
    rwa [beBytes_length, beValue_beBytes v n hv] at hstored

/-- The operand and the opcode of an instruction stand in their registers. -/
structure Device.Armed (p : Params) (f : Nat → Byte) (n v : Nat) (opcode : Byte) (d : Device) : Prop
    extends d.Loaded p f [] n v where
  opcode : d.readReg regCiOpcode = opcode

theorem writeOpcode_achieves (opcode : Byte) (h3 : n ≤ 3) :
    Achieves p (Device.Loaded p f [] n v) (regWrite8 regCiOpcode opcode) fun _ => Device.Armed p f n v opcode := by
  have hplain : storesPlainly regCiOpcode [opcode].length = true := rfl
  refine regWrite_achieves false (List.cons_ne_nil opcode []) (avoidsPort_one (by decide)) fun d y hd => ⟨.pointTo
    (hd.store (by decide) hplain fun i hi k hk => ?_) y, ?_⟩
  · obtain rfl : k = 0 := Nat.lt_one_iff.1 hk
    have hi : i < 3 := hi.trans_le h3
    interval_cases i <;> decide
  · exact Option.some.inj (Device.readReg_writeFrom hd.ready.canonical (by decide) hplain (Nat.zero_lt_one))

theorem whenever_decide {c : Prop} [Decidable c] (h : c) (x : M Unit) : whenever (decide c) x = x := by
  rw [decide_eq_true h]
  rfl

/-- A custom instruction with an operand leaves what its control byte makes of the device (R215). -/
theorem customInstruction_achieves (cmdType : BitVec 3) (opcode : Byte) {readN writeN : Nat} {R : Device → Prop}
    (hread : readN ≤ 3) (hwrite : 0 < writeN) (h3 : writeN ≤ 3) (hv : v < 2 ^ (8 * writeN)) (hblind : PointerBlind R)
    (hrun : ∀ d : Device, d.Armed p f writeN v opcode →
      R (d.runInstruction p (controlByte cmdType (BitVec.ofNat 2 writeN) (BitVec.ofNat 2 readN)))) :
    Achieves p (Device.Ready p f []) (customInstruction cmdType.toNat opcode readN writeN v) fun _ => R := by
  have hcmd : cmdType.toNat ≤ 7 := Nat.le_of_lt_succ cmdType.isLt
  have hresult : AvoidsPort regRop 0 readN := by
    refine .inr fun k hk => ?_
    interval_cases readN <;> interval_cases k <;> decide
  rw [customInstruction, whenever_decide hwrite, BitVec.ofNat_toNat, BitVec.setWidth_eq]
  have hgo := ctrlGo_controlByte cmdType (BitVec.ofNat 2 writeN) (BitVec.ofNat 2 readN)
  generalize controlByte cmdType (BitVec.ofNat 2 writeN) (BitVec.ofNat 2 readN) = c at hrun hgo ⊢
  refine .bind (.require _ (decide_eq_true ⟨hcmd, hread, h3⟩)) fun _ => .bind (.require _ (decide_eq_true (.inr hv)))
    fun _ => .bind (loadOperand_achieves hwrite h3 hv) fun _ => .bind (writeOpcode_achieves opcode h3)
    fun _ => .bind (Q := fun _ d => R d ∧ d.readReg regCiCtrl = c &&& 0xFE) (regWrite8_achieves (by decide) c
    fun d y hd => ?starts) fun _ => .getBind fun s _ => .bind (pollReg_achieves .ci (by decide) _ _ ?blind ?passes)
    fun _ => ?result
  case starts =>
    obtain ⟨e, hstore, hcanon, -⟩ := Device.runInstruction_stores hd.ready.canonical c
    rw [Device.writeReg_go hgo]
    refine ⟨hblind _ y (hrun d hd), ?_⟩
    rw [hstore]
    exact Device.readReg_storeReg_same hcanon _ (by decide)
  case blind => exact fun d y hd => ⟨hblind d y hd.1, hd.2⟩
  case passes =>
    intro d hd
    rw [hd.2, ciDone_test]
    clear * -
    revert c
    decide
  case result =>
    by_cases h : readN > 0
    · rw [if_pos h]
      refine .bind (Q := fun _ => R) (regRead_achieves true (by omega) hresult fun d y hd => ?_) fun _ =>
        .pure fun _ hd => hd
      rw [Device.advance_other (by decide)]
      exact hblind d y hd.1
    · rw [if_neg h]
      exact .pure fun _ hd => hd.1

/-- A write-status-register instruction leaves the device ready (R104). -/
theorem writeStatusRegister_achieves (hdistinct : ¬(p.ctErase = p.ctWrenWrsr ∧ p.opErase = p.opWrsr)) {value : Nat}
    (hvalue : value < 256) :
    Achieves p (Device.Ready p f []) (writeStatusRegister value) fun _ => Device.Ready p f [] := by
  refine .getBind fun s hs => ?_
  rw [hs.params]
  refine .bind (customInstruction_achieves p.ctWrenWrsr p.opWrsr (by omega) Nat.one_pos (by omega) hvalue
    (fun d y hd => hd.pointTo y) fun d hd => ?_) fun _ => .pure fun _ hd => hd
  obtain ⟨hcmd, -, -⟩ := ctrlFields_controlByte p.ctWrenWrsr (BitVec.ofNat 2 1) (BitVec.ofNat 2 0)
  rw [Device.runInstruction_writeStatus (fun h => hdistinct ⟨h.1.symm.trans hcmd, h.2.symm.trans hd.opcode⟩)
    ⟨hcmd, hd.opcode⟩]
  refine .storeReg ?_ _ _
  exact hd.ready.congr rfl rfl rfl rfl

/-- The priming read instruction sets the read position to 0 (R255). -/
theorem primeRead_achieves (herase : ¬(p.ctErase = p.ctRead ∧ p.opErase = p.opRead))
    (hwrsr : ¬(p.ctWrenWrsr = p.ctRead ∧ p.opWrsr = p.opRead)) :
    Achieves p (Device.Ready p f []) (customInstruction p.ctRead.toNat p.opRead 3 3 0)
      fun _ d => d.Ready p f [] ∧ d.pos = 0 := by
  refine customInstruction_achieves p.ctRead p.opRead (by omega) (by omega) (by omega) (by omega)
    (fun d y hd => ⟨hd.1.pointTo y, hd.2⟩) fun d hd => ?_
  obtain ⟨hcmd, -, -⟩ := ctrlFields_controlByte p.ctRead (BitVec.ofNat 2 3) (BitVec.ofNat 2 3)
  rw [Device.runInstruction_read (fun h => herase ⟨h.1.symm.trans hcmd, h.2.symm.trans hd.opcode⟩)
    (fun h => hwrsr ⟨h.1.symm.trans hcmd, h.2.symm.trans hd.opcode⟩) ⟨hcmd, hd.opcode⟩]
  refine ⟨.storeReg (.storeReg (.storeReg (.storeReg ?_ _ _) _ _) _ _) _ _, hd.value⟩
  exact hd.ready.congr rfl rfl rfl rfl

end Instructions

/-! ## The verification (R257) -/

/-- These bytes stand from address 0 on. -/
def Shows (f : Nat → Byte) (img : List Byte) : Prop := ∀ a, a < img.length → some (f a) = img[a]?

section Verification

variable {p : Params} {f : Nat → Byte} {img : List Byte} {d : Device}

/-- The flash bytes of a range inside the image are the image's. -/
theorem Device.Ready.readFlashRange {buffer : List Byte} (hd : d.Ready p f buffer) (himg : Shows f img)
    (hsize : img.length ≤ p.chipSize) {a n : Nat} (hn : a + n ≤ img.length) :
    d.readFlashRange p a n = (img.drop a).take n := by
  refine List.ext_getElem? fun k => ?_
  rw [Device.readFlashRange, List.getElem?_map]
  by_cases hk : k < n
  · rw [List.getElem?_range hk, List.getElem?_take_of_lt hk, List.getElem?_drop, ← himg _ (by omega), Option.map_some,
      Device.readFlash, if_pos (by omega), hd.flash]
  · rw [List.getElem?_eq_none (by simpa using hk), List.getElem?_eq_none (by simp; omega)]
    rfl

/-- The device CRC is that of the image, and stands in its register. -/
structure Device.HasCrc (p : Params) (f : Nat → Byte) (img : List Byte) (d : Device) : Prop where
  ready : d.Ready p f []
  finished : d.crcReady = true
  result : d.readReg regCrcResult = hostCrc img

theorem Device.HasCrc.pointTo (h : d.HasCrc p f img) (y : Byte) : (d.pointTo y).HasCrc p f img :=
  ⟨h.ready.pointTo y, h.finished, h.result⟩

/-- The CRC command on the range of the image. -/
theorem Device.hasCrc_runCrc (hd : d.Loaded p f [] 3 0) (hlast : d.readValue regCrcEnd 3 = img.length - 1)
    (himg : Shows f img) (hpos : 1 ≤ img.length) (hsize : img.length ≤ p.chipSize) : (d.runCrc p).HasCrc p f img := by
  have hrange : d.readFlashRange p 0 (img.length - 1 + 1 - 0) = img := by
    rw [hd.ready.readFlashRange himg hsize (by omega), List.drop_zero, List.take_of_length_le (by omega)]
  refine ⟨(hd.ready.storeReg regCrcResult _).congr rfl rfl rfl rfl, rfl, ?_⟩
  rw [Device.readReg_stored_same hd.ready.canonical (e := d.runCrc p) rfl (by decide), hd.value, hlast, hrange]

theorem Device.HasCrc.passes (hd : d.HasCrc p f img) : pollAccepts testCrcReady (d.readReg regIspCtrl) = true := by
  rw [Device.readReg, if_pos rfl, Device.status, hd.finished]
  cases d.ispMode <;> cases d.busy <;> decide

theorem deviceCrc_achieves (himg : Shows f img) (hpos : 1 ≤ img.length) (hsize : img.length ≤ p.chipSize) :
    Achieves p (Device.Ready p f []) (deviceCrc 0 (img.length - 1))
      fun v d => v = hostCrc img ∧ d.Ready p f [] := by
  have hchip := chipSize_le p
  have hlast : img.length - 1 < 2 ^ (8 * 3) := by omega
  have hlen : (beBytes (img.length - 1) 3).length = 3 := beBytes_length _ _
  have hplain : storesPlainly regCrcEnd (beBytes (img.length - 1) 3).length = true := by rw [hlen]; decide
  refine .bind (.require _ (decide_eq_true ⟨Nat.zero_le _, hlast⟩)) fun _ =>
    .bind (loadOperand_achieves (n := 3) (by omega) (by omega) (by omega)) fun _ =>
    .bind (Q := fun _ d => d.Loaded p f [] 3 0 ∧ d.readValue regCrcEnd 3 = img.length - 1)
      (regWrite_achieves true (List.ne_nil_of_length_pos (by omega)) (avoidsPort_of_storesPlainly hplain)
        fun d y hd => ⟨.pointTo (hd.store (by decide) hplain fun i hi k hk => ?_) y, ?_⟩) fun _ =>
    .bind (Q := fun _ => Device.HasCrc p f img) (regWrite8_achieves (by decide) _ fun d y hd =>
      (Device.hasCrc_runCrc hd.1 hd.2 himg hpos hsize).pointTo y) fun _ =>
    .bind (pollReg_achieves .crc (by decide) _ _ (fun d y hd => hd.pointTo y) fun d hd => hd.passes) fun _ => ?_
  · rw [hlen] at hk
    interval_cases i <;> interval_cases k <;> decide
  · have hstored := Device.readValue_stored hd.ready.canonical (by decide) hplain
    rwa [hlen, beValue_beBytes _ _ hlast] at hstored
  · exact (regRead8_achieves (by decide) fun d y hd => hd.pointTo y).conclude fun v d hd =>
      ⟨hd.1.trans hd.2.result, hd.2.ready⟩

theorem verifyFlash_achieves (himg : Shows f img) (hpos : 1 ≤ img.length) (hsize : img.length ≤ p.chipSize) :
    Achieves p (Device.Ready p f []) (verifyFlash img img.length) fun _ => Device.Ready p f [] := by
  refine .bind (computeHostCrc_achieves img) fun host => .given fun hhost =>
    .bind (deviceCrc_achieves himg hpos hsize) fun crc => .given fun hcrc => .bind (progress_achieves _ _ _) fun _ => ?_
  rw [hhost, hcrc]
  simp only [ne_eq, not_true_eq_false, decide_false]
  exact .pure fun _ hd => hd

end Verification

/-! ## Programming the pages (R251 to R254) -/

/-- The flash once the image is written up to address k. -/
def written (f : Nat → Byte) (img : List Byte) (k : Nat) (x : Nat) : Byte := if x < k then img[x]?.getD (f x) else f x

section Pages

variable {p : Params} {f g : Nat → Byte} {img page : List Byte} {d : Device} {base k : Nat}

/-- What one page brings to an address: its byte there, and nothing to change outside it. -/
def pageByte (page : List Byte) (base x : Nat) : Byte := if base ≤ x then page[x - base]?.getD 0xFF else 0xFF

/-- Onto an erased range, programming the next page writes the image on (D34). -/
theorem written_succ (herased : ∀ a, a < img.length → f a = 0xFF) (k x : Nat) :
    written f img (128 * (k + 1)) x = written f img (128 * k) x &&& pageByte (imagePage img k) (128 * k) x := by
  unfold written pageByte imagePage
  by_cases hbefore : x < 128 * k
  · rw [if_pos (by omega), if_pos hbefore, if_neg (by omega)]
    exact BitVec.and_allOnes.symm
  rw [if_neg hbefore, if_pos (Nat.le_of_not_lt hbefore)]
  by_cases hpage : x < 128 * (k + 1)
  · rw [if_pos hpage, List.getElem?_take_of_lt (by omega), List.getElem?_drop, Nat.add_sub_cancel' (by omega)]
    by_cases himg : x < img.length
    · rw [List.getElem?_eq_getElem himg, herased x himg]
      exact (BitVec.allOnes_and ..).symm
    · rw [List.getElem?_eq_none (by omega)]
      exact BitVec.and_allOnes.symm
  · rw [if_neg hpage, List.getElem?_eq_none (by simp; omega)]
    exact BitVec.and_allOnes.symm

/-- The page write (R37, D34). -/
theorem Device.Loaded.runPageWrite (hd : d.Loaded p g page 3 base) (hfits : base + page.length ≤ p.chipSize) :
    (d.runPageWrite p).Ready p (fun x => g x &&& pageByte page base x) [] := by
  obtain ⟨-, hflash, -, -⟩ := (Device.canonical_iff p d).1 hd.ready.canonical
  refine ⟨Device.canonical_runPageWrite hd.ready.canonical, hd.ready.idle, rfl, fun x => ?_⟩
  rw [Device.runPageWrite, hd.value, hd.ready.buffer, pageByte, ← hd.ready.flash]
  by_cases hbase : base ≤ x
  · rw [if_pos hbase]
    obtain ⟨j, rfl⟩ := Nat.exists_eq_add_of_le hbase
    rw [Nat.add_sub_cancel_left]
    by_cases hchip : base + j < p.chipSize
    · exact read_programFlash_inside p d.flash base page j hflash hchip
    · rw [List.getElem?_eq_none (by omega)]
      exact (read_programFlash_outside p d.flash base page (.inr (by omega))).trans BitVec.and_allOnes.symm
  · rw [if_neg hbase]
    exact (read_programFlash_outside p d.flash base page (.inl (by omega))).trans BitVec.and_allOnes.symm

theorem writePage_achieves (hne : page ≠ []) (hfits : 128 * k + page.length ≤ p.chipSize) :
    Achieves p (Device.Ready p g []) (writePage k page)
      fun _ => Device.Ready p (fun x => g x &&& pageByte page (128 * k) x) [] := by
  have hchip := chipSize_le p
  have hpos := List.length_pos_of_ne_nil hne
  refine .bind (waitNotBusy_achieves (fun d y hd => hd.pointTo y) fun d hd => hd) fun _ => .getBind fun s _ =>
    .bind (Q := fun _ => Device.Ready p g []) (regWrite_achieves false (List.cons_ne_nil _ _)
      (avoidsPort_one (by decide)) fun d y hd => (hd.store (by decide) ?size).pointTo y) fun _ =>
    .bind (loadOperand_achieves (n := 3) (by omega) (by omega) ?address) fun _ =>
    .bind (Q := fun _ d => d.Loaded p g page 3 (128 * k)) (regWrite_achieves true hne (.inl rfl)
      fun d y hd => .pointTo ?_ y) fun _ =>
    regWrite8_achieves (by decide) _ fun d y hd => (hd.runPageWrite hfits).pointTo y
  case size => rfl
  case address => change 128 * k < 2 ^ 24; omega
  rw [Device.writeFrom_port, hd.ready.buffer, List.nil_append]
  exact ⟨⟨Device.canonical_of_eq hd.ready.canonical rfl rfl, hd.ready.idle, rfl, hd.ready.flash⟩, hd.value⟩

/-- A blank page changes no address. -/
theorem pageByte_of_blank (h : isBlankPage page = true) (base x : Nat) : pageByte page base x = 0xFF := by
  have hall : ∀ b ∈ page, b = 0xFF := fun b hb => of_decide_eq_true (List.all_eq_true.1 h b hb)
  unfold pageByte
  split
  · cases hb : page[x - base]? with
    | none => rfl
    | some b => exact hall b (List.mem_of_getElem? hb)
  · rfl

/-- One page, skipped where it is blank (R258). -/
theorem page_achieves (herased : ∀ a, a < img.length → f a = 0xFF) (hsize : img.length ≤ p.chipSize)
    (hk : 128 * k < img.length) :
    Achieves p (Device.Ready p (written f img (128 * k)) [])
      (whenever (!isBlankPage (imagePage img k)) (writePage k (imagePage img k)))
      fun _ => Device.Ready p (written f img (128 * (k + 1))) [] := by
  have hlen := imagePage_length img k
  rw [show written f img (128 * (k + 1)) = fun x =>
    written f img (128 * k) x &&& pageByte (imagePage img k) (128 * k) x from funext (written_succ herased k)]
  cases hblank : isBlankPage (imagePage img k) with
  | false => exact writePage_achieves (List.ne_nil_of_length_pos (by omega)) (by omega)
  | true =>
    refine .pure fun d hd => ?_
    simp only [pageByte_of_blank hblank]
    convert hd using 2
    exact BitVec.and_allOnes

theorem programPages_achieves (herased : ∀ a, a < img.length → f a = 0xFF) (hsize : img.length ≤ p.chipSize) (n : Nat)
    {m j : Nat} (h : ∀ i, i < m → 128 * (j + i) < img.length) :
    Achieves p (Device.Ready p (written f img (128 * j)) [])
      (programPages n j (((List.range m).map (fun k => j + k)).map (imagePage img)))
      fun _ => Device.Ready p (written f img (128 * (j + m))) [] := by
  induction m generalizing j with
  | zero => exact .pure fun _ hd => hd
  | succ m ih =>
    have hnext (i : Nat) (hi : i < m) : 128 * (j + 1 + i) < img.length := by
      have := h (i + 1) (by omega)
      omega
    rw [range_cons, List.map_cons, programPages, show j + (m + 1) = j + 1 + m by omega]
    exact .bind (progress_achieves _ _ _) fun _ => .bind (page_achieves herased hsize (h 0 (by omega))) fun _ =>
      ih hnext

end Pages

/-! ## The whole operations -/

section Whole

variable {p : Params} {f : Nat → Byte} {img : List Byte} {d : Device}

/-- The whole image written shows the image, and leaves what stands after it. -/
theorem written_all : Shows (written f img (128 * pieceCount 128 img.length)) img ∧
    ∀ x, img.length ≤ x → written f img (128 * pieceCount 128 img.length) x = f x := by
  have hlast := lt_pieceCount_page img.length (pieceCount 128 img.length)
  refine ⟨fun a ha => ?_, fun x hx => ?_⟩
  · rw [written, if_pos (by omega), List.getElem?_eq_getElem ha, Option.getD_some]
  · rw [written, List.getElem?_eq_none hx]
    exact ite_self _

theorem programFlashImage_achieves (hdistinct : ¬(p.ctErase = p.ctWrenWrsr ∧ p.opErase = p.opWrsr))
    (herased : ∀ a, a < img.length → f a = 0xFF) (hpos : 1 ≤ img.length) (hsize : img.length ≤ p.chipSize) :
    Achieves p (Device.Ready p f []) (programFlashImage img)
      fun _ => Device.Ready p (written f img (128 * pieceCount 128 img.length)) [] := by
  have hpages := programPages_achieves herased hsize img.length (m := pieceCount 128 img.length) (j := 0) fun i hi => by
    rw [Nat.zero_add]
    exact (lt_pieceCount_page _ _).1 hi
  rw [range_shift_zero, Nat.zero_add] at hpages
  refine .getBind fun s hs => .bind (.require _ (decide_eq_true ⟨hpos, hs.params ▸ hsize⟩)) fun _ =>
    .bind (writeStatusRegister_achieves hdistinct (by decide)) fun _ =>
    .bind (chunks_eq (n := 128) (by decide) img ▸ hpages) fun _ =>
    .bind (waitNotBusy_achieves (fun d y hd => hd.pointTo y) fun _ hd => hd) fun _ =>
    .bind (writeStatusRegister_achieves hdistinct (by decide)) fun _ => verifyFlash_achieves written_all.1 hpos hsize

/-- The chunks read from the port join the bytes already read (R255). -/
theorem collectFlash_achieves (himg : Shows f img) (hsize : img.length ≤ p.chipSize) (n : Nat) (ks : List Nat)
    {done : Nat} (hks : ∀ k ∈ ks, k ≠ 0) (hsum : done + ks.sum = img.length) :
    Achieves p (fun d => d.Ready p f [] ∧ d.pos = done) (collectFlash n ks (img.take done))
      fun out d => out = img ∧ d.Ready p f [] := by
  induction ks generalizing done with
  | nil => exact .pure fun d hd => ⟨List.take_of_length_le (by simpa using hsum.ge), hd.1⟩
  | cons k ks ih =>
    rw [List.sum_cons, ← Nat.add_assoc] at hsum
    refine .bind (progress_achieves _ _ _) fun _ =>
      .bind (Q := fun bytes d => bytes = (img.drop done).take k ∧ d.Ready p f [] ∧ d.pos = done + k)
        (regRead_achieves true (hks k List.mem_cons_self) (.inl rfl) fun d y hd => ?_) fun bytes =>
      .given fun hbytes => ?_
    · obtain ⟨hready, hdone⟩ := hd
      refine ⟨?_, .pointTo ?_ y, ?_⟩
      · rw [← hready.readFlashRange himg hsize (by omega), Device.readFlashRange, ← hdone]
        exact List.map_congr_left fun i _ => Device.byteFrom_port d 0 i
      · exact hready.congr rfl rfl rfl rfl
      · exact congrArg (· + k) hdone
    · rw [hbytes, ← List.take_add]
      exact ih (fun k' hk' => hks k' (List.mem_cons_of_mem k hk')) hsum

theorem readFlashImage_achieves (herase : ¬(p.ctErase = p.ctRead ∧ p.opErase = p.opRead))
    (hwrsr : ¬(p.ctWrenWrsr = p.ctRead ∧ p.opWrsr = p.opRead)) (himg : Shows f img) (hpos : 1 ≤ img.length)
    (hsize : img.length ≤ p.chipSize) :
    Achieves p (Device.Ready p f []) (readFlashImage img.length) fun out _ => out = img := by
  refine .getBind fun s hs => ?_
  rw [hs.params]
  refine .bind (.require _ (decide_eq_true ⟨hpos, hsize⟩)) fun _ => .bind (primeRead_achieves herase hwrsr) fun _ =>
    .bind (waitNotBusy_achieves (fun d y hd => ⟨hd.1.pointTo y, hd.2⟩) fun d hd => hd.1) fun _ =>
    .bind (collectFlash_achieves himg hsize img.length _ (done := 0)
      (fun k hk => (bounds_of_mem_chunkSizes (by decide) hk).1.ne') ?_) fun out => .given fun hout => ?_
  · rw [chunkSizes_sum (by decide), Nat.zero_add]
  · rw [hout]
    exact .bind (verifyFlash_achieves himg hpos hsize) fun _ => .pure fun _ _ => rfl

end Whole

end Sys2Proof.Machine

namespace Sys2Proof.Machine.FlashController

/-- Settles O60: the image is written page by page onto erased bytes, and read back from the flash it then stands in. -/
theorem programThenRead : Obligations.ProgramThenRead := by
  intro s img hs ho hdistinct hcanon hidle hbuffer hpos hsize herased
  have hserves : s.Serves s.params := ⟨ho, rfl, hs⟩
  have hready : s.device.Ready s.params (s.device.flash.read .flash) [] := ⟨hcanon, hidle, hbuffer, fun _ => rfl⟩
  obtain ⟨himg, hafter⟩ := written_all (f := s.device.flash.read .flash) (img := img)
  obtain ⟨_, t, hprogram, ht, hflash⟩ :=
    programFlashImage_achieves hdistinct.eraseWrsr herased hpos hsize s hserves hready
  have hnext : (t.complete .unit).Serves s.params :=
    ⟨⟨ht.reference.native, ht.reference.reference, ht.reference.wide⟩, ht.params, ht.session⟩
  obtain ⟨out, u, hread, -, rfl⟩ :=
    readFlashImage_achieves hdistinct.eraseRead hdistinct.wrsrRead himg hpos hsize (t.complete .unit) hnext hflash
  refine ⟨t, u, ?_, ?_, ht.session, fun a ha => ?_, fun a ha => ?_⟩
  · rw [exec_open (i := .program out) ((ispSession_iff _).2 hs)]
    exact conclude_asUnit_ok hprogram
  · rw [exec_open (i := .flashRead out.length) ((ispSession_iff _).2 hnext.session), operation, M.bind_run, hread]
    rfl
  · rw [hflash.flash]
    exact himg a ha
  · rw [hflash.flash]
    exact hafter a ha

end Sys2Proof.Machine.FlashController
end

section
/-! SUPPORT. The statements of 60_exceptions: every operation is followed once for the errors it can raise and the
refusals it can make (R280 to R293), and each condition of R293 is traced to the step that refuses. -/

namespace Sys2Proof.Machine

variable {α β : Type}

/-! ## Early ends, by kind -/

/-- How an operation may end early: with an error of one kind, with a refusal that the state it leaves allows, or in a
run without end (R281, R290, R294). -/
def StopsBy (raises : Err → Prop) (refuses : Refusal → State → Prop) : Stop → State → Prop
  | .raised e, _ => raises e
  | .refused r, t => refuses r t
  | .stuck _, _ => True

section Rules

variable {P : Stop → State → Prop} {E : Err → Prop} {C : Refusal → State → Prop}

/-- What stands after a precondition runs only where it is met. -/
theorem EndsEarly.requireBind {ok : Bool} {r : Refusal} {f : Unit → M β} (hr : ok = false → ∀ t, P (.refused r) t)
    (hf : ok = true → EndsEarly P (f ())) : EndsEarly P (Machine.require ok r >>= f) := by
  cases ok with
  | true => exact hf rfl
  | false =>
    intro s stop t h
    cases h
    exact hr rfl _

theorem EndsEarly.wheneverTrue {c : Bool} {x : M Unit} (h : c = true → EndsEarly P x) :
    EndsEarly P (Machine.whenever c x) := by
  cases c with
  | true => exact h rfl
  | false => exact EndsEarly.pure ()

theorem EndsEarly.answer {x : M α} (h : EndsEarly P x) (f : α → β) : EndsEarly P (x >>= fun a => Pure.pure (f a)) :=
  h.bind fun _ => .pure _

/-- A refusal is judged by the constants of the state that the operation began in. -/
theorem EndsEarly.getBind_constant {f : State → M β} (hk : Keeps Constant ((get : M State) >>= f))
    (hf : ∀ s, EndsEarly (StopsBy E fun r t => Constant s t → C r t) (f s)) :
    EndsEarly (StopsBy E C) ((get : M State) >>= f) := by
  intro s stop t h
  have hend := hf s s stop t h
  cases stop with
  | raised e => exact hend
  | refused r => exact hend (hk.of_error h)
  | stuck f => trivial

/-- Of the errors that are caught none is left; the others, the refusals and the runs without end pass (R282). -/
theorem EndsEarly.catching {E' : Err → Prop} {p : Err → Bool} {x handler : M α} (hx : EndsEarly (StopsBy E' C) x)
    (hh : EndsEarly (StopsBy E C) handler) (hp : ∀ e, E' e → p e = false → E e) :
    EndsEarly (StopsBy E C) (Machine.catching p x handler) := by
  intro s stop t h
  rw [catching_run] at h
  cases hrun : x s with
  | ok a u => rw [hrun] at h; cases h
  | error st u =>
    have hend := hx s st u hrun
    rw [hrun] at h
    cases st with
    | refused r => cases h; exact hend
    | stuck f => cases h; exact hend
    | raised e =>
      cases hcaught : p e with
      | true => exact hh u stop t (by simpa only [hcaught, if_true] using h)
      | false =>
        simp only [hcaught, Bool.false_eq_true, if_false] at h
        cases h
        exact hp e hend hcaught

theorem Keeps.constant {x : M α} (h : Keeps FlashFrame x) : Keeps Constant x := h.mono fun _ _ => FlashFrame.toConstant

end Rules

/-! ## How each operation can end early

The errors are those that `E` takes in, the refusals those that `C` allows; each operation says what it needs of
the two. -/

/-- The host CRC never ends early. -/
theorem computeHostCrc_endsEarly (P : Stop → State → Prop) (data : List Byte) : EndsEarly P (computeHostCrc data) :=
  EndsEarly.bind (.update _) fun _ => EndsEarly.bind (.update _) fun _ => .getBind fun _ => .pure _

/-- One byte fits every limit. -/
theorem fitsLimit_one (limit : Nat) : fitsLimit limit 1 = true := by
  rw [fitsLimit, decide_eq_true_eq]
  omega

section Stops

variable {E : Err → Prop} {C : Refusal → State → Prop} (transport : ∀ e, isTransportError e = true → E e)

include transport

/-! ### Transactions -/

theorem LinesStuck.stops {stop : Stop} {t : State} (h : LinesStuck stop t) : StopsBy E C stop t := by
  obtain ⟨rfl, -⟩ | ⟨rfl, -⟩ | ⟨rfl, -⟩ := h
  · exact transport _ rfl
  · exact transport _ rfl
  · trivial

theorem EndsEarly.linesStop {x : M α} (h : EndsEarly LinesStuck x) : EndsEarly (StopsBy E C) x :=
  h.mono fun _ _ => LinesStuck.stops transport

theorem EndsEarly.sclStop {x : M α} (h : EndsEarly SclStuck x) : EndsEarly (StopsBy E C) x :=
  (h.mono fun _ _ => Or.inl : EndsEarly LinesStuck x).linesStop transport

theorem nackStop_stops (w : NackAt) : EndsEarly (StopsBy E C) (nackStop w) :=
  (stopCondition_stuck.linesStop transport).bind fun _ => .raise fun _ => transport _ rfl

theorem busWrite_stops {address : Nat} (data : List Byte) (range : 127 < address → ∀ t, C .addressRange t) :
    EndsEarly (StopsBy E C) (busWrite address data) := by
  by_cases h : address ≤ 127
  · exact busWrite_endsEarly (fun _ _ => LinesStuck.stops transport) (nackStop_stops transport) data h
  · exact .requireBind (fun _ => range (Nat.lt_of_not_le h)) fun hok => absurd (of_decide_eq_true hok) h

theorem busRead_stops {address : Nat} (count : Nat) (range : 127 < address → ∀ t, C .addressRange t) :
    EndsEarly (StopsBy E C) (busRead address count) := by
  by_cases h : address ≤ 127
  · exact busRead_endsEarly (fun _ _ => LinesStuck.stops transport) (nackStop_stops transport) count h
  · exact .requireBind (fun _ => range (Nat.lt_of_not_le h)) fun hok => absurd (of_decide_eq_true hok) h

theorem nativeWrite_stops (a : Addr7) (bytes : List Byte) : EndsEarly (StopsBy E C) (nativeWrite a bytes) :=
  (answerWrite_endsEarly _ a bytes).bind fun r => (EndsEarly.update _).bind fun _ => by
    cases r with
    | ok => exact .pure ()
    | failed why => exact .raise fun _ => transport _ (xferError_isTransportError why)

theorem nativeRead_stops (a : Addr7) (n : Nat) : EndsEarly (StopsBy E C) (nativeRead a n) :=
  (answerRead_endsEarly _ a n).bind fun r => (EndsEarly.update _).bind fun _ => by
    cases r with
    | ok bytes => exact .pure bytes
    | failed why => exact .raise fun _ => transport _ (xferError_isTransportError why)

theorem transWrite_stops (a : Addr7) {bytes : List Byte}
    (long : ∀ t, fitsLimit t.maxWrite bytes.length = false → C .tooLong t) :
    EndsEarly (StopsBy E C) (transWrite a bytes) :=
  .getBind_constant (transWrite_keeps a bytes).flash.constant fun s =>
    .requireBind (fun h t hc => long t (hc.maxWrite ▸ h)) fun _ => by
      cases s.backend with
      | softwareBus => exact busWrite_stops transport bytes fun h => absurd (addr7_le a) (Nat.not_le_of_lt h)
      | native => exact nativeWrite_stops transport a bytes

theorem transRead_stops (a : Addr7) {n : Nat} (long : ∀ t, fitsLimit t.maxRead n = false → C .tooLong t) :
    EndsEarly (StopsBy E C) (transRead a n) :=
  .getBind_constant (transRead_keeps a n).flash.constant fun s =>
    .requireBind (fun h t hc => long t (hc.maxRead ▸ h)) fun _ => by
      cases s.backend with
      | softwareBus => exact busRead_stops transport n fun h => absurd (addr7_le a) (Nat.not_le_of_lt h)
      | native => exact nativeRead_stops transport a n

/-- A register byte on its own, or one byte read, is never too long. -/
theorem writeOne_stops (a : Addr7) (b : Byte) : EndsEarly (StopsBy E C) (transWrite a [b]) :=
  transWrite_stops transport a fun _ h => absurd (fitsLimit_one _) (Bool.eq_false_iff.1 h)

theorem readOne_stops (a : Addr7) : EndsEarly (StopsBy E C) (transRead a 1) :=
  transRead_stops transport a fun _ h => absurd (fitsLimit_one _) (Bool.eq_false_iff.1 h)

/-! ### Register reads and polls (R211, R223) -/

theorem readChunks_stops (a : Addr7) (reg : Byte) (off : Nat) {ks : List Nat}
    (long : ∀ k ∈ ks, ∀ t, fitsLimit t.maxRead k = false → C .tooLong t) :
    EndsEarly (StopsBy E C) (readChunks a reg off ks) := by
  induction ks generalizing off with
  | nil => exact .pure []
  | cons k ks ih =>
    exact (writeOne_stops transport _ _).bind fun _ =>
      (transRead_stops transport a (long k (List.mem_cons_self ..))).bind fun _ =>
      (ih _ fun j hj => long j (List.mem_cons_of_mem k hj)).answer _

/-- A register read is refused for no bytes only: its chunks fit the limit. -/
theorem regRead_stops (reg : Byte) {n : Nat} (seq : Bool) (empty : n = 0 → ∀ t, C .emptyRead t) :
    EndsEarly (StopsBy E C) (regRead reg n seq) := by
  refine .requireBind (fun h => empty (by simpa using h)) fun hn =>
    .getBind_constant (Keeps.getBind fun s => readChunks_keeps _ _ _ _ s).flash.constant fun s =>
      readChunks_stops transport _ _ _ fun k hk t hlong hc => absurd ?_ (Bool.eq_false_iff.1 hlong)
  rw [fitsLimit, decide_eq_true_eq, hc.maxRead, Classical.or_iff_not_imp_left]
  intro hlimited
  rw [readChunkSize, if_neg hlimited] at hk
  exact (bounds_of_mem_chunkSizes (Nat.pos_of_ne_zero hlimited) hk).2

theorem regRead8_stops (reg : Byte) : EndsEarly (StopsBy E C) (regRead8 reg) :=
  (regRead_stops transport reg false nofun).answer _

/-- A poll raises what its reads raise, and the error its caller gives it. -/
theorem pollReg_stops (site : PollSite) (reg : Byte) (test : PollTest) (timeout : Timeout) {err : Err} (herr : E err) :
    EndsEarly (StopsBy E C) (pollReg site reg test timeout err) := by
  have hexpire : EndsEarly (StopsBy E C) (expirePoll site err) :=
    (EndsEarly.update _).bind fun _ => .raise fun _ => herr
  have hloop (left : Nat) : EndsEarly (StopsBy E C) (pollLoop site reg test err left) := by
    induction left with
    | zero => exact (regRead8_stops transport reg).bind fun v => .ite _ (.pure v) hexpire
    | succ left ih =>
      exact (regRead8_stops transport reg).bind fun v => .ite _ (.pure v)
        ((drawExpired_ends _).bind fun _ => .ite _ hexpire ih)
  exact .getBind fun _ => hloop _

theorem waitNotBusy_stops : EndsEarly (StopsBy E C) waitNotBusy :=
  (pollReg_stops transport _ _ _ _ (transport _ rfl)).answer _

theorem testReg_stops (reg : Byte) (test : Byte → Bool) : EndsEarly (StopsBy E C) (testReg reg test) :=
  (regRead8_stops transport reg).answer _

theorem collectFlash_stops (n : Nat) {ks : List Nat} (hpos : ∀ k ∈ ks, 0 < k) (out : List Byte) :
    EndsEarly (StopsBy E C) (collectFlash n ks out) := by
  induction ks generalizing out with
  | nil => exact .pure out
  | cons k ks ih =>
    have hk : k ≠ 0 := (hpos k (List.mem_cons_self ..)).ne'
    exact (EndsEarly.update _).bind fun _ => (regRead_stops transport _ _ fun h => absurd h hk).bind fun _ =>
      ih (fun j hj => hpos j (List.mem_cons_of_mem k hj)) _

/-! ### Register writes (R210) -/

theorem writeChunks_stops (a : Addr7) (reg : Byte) (off : Nat) {cs : List (List Byte)}
    (long : ∀ c ∈ cs, ∀ t, fitsLimit t.maxWrite (c.length + 1) = false → C .tooLong t) :
    EndsEarly (StopsBy E C) (writeChunks a reg off cs) := by
  induction cs generalizing off with
  | nil => exact .pure ()
  | cons c cs ih =>
    exact (transWrite_stops transport a (bytes := _ :: c) (long c (List.mem_cons_self ..))).bind fun _ =>
      ih _ fun d hd => long d (List.mem_cons_of_mem c hd)

variable (small : ∀ t, t.maxWrite = 1 → C .transportTooSmall t)

include small

/-- A register write is refused for no bytes, or on a transport too small for it: elsewhere its chunks fit the limit. -/
theorem regWrite_stops (reg : Byte) {payload : List Byte} (seq : Bool) (empty : payload = [] → ∀ t, C .emptyPayload t) :
    EndsEarly (StopsBy E C) (regWrite reg payload seq) := by
  refine .requireBind (fun h => empty (by simpa using h)) fun _ =>
    .getBind_constant (Keeps.getBind fun s =>
      AccessFrame.bind (AccessFrame.require _ _) (fun _ => writeChunks_keeps _ _ _ _) s).flash.constant fun s =>
    .requireBind (fun h t hc => small t (hc.maxWrite.trans (by simpa using h))) fun hwide =>
      writeChunks_stops transport _ _ _ fun c hmem t hlong hc => absurd ?_ (Bool.eq_false_iff.1 hlong)
  rw [fitsLimit, decide_eq_true_eq, hc.maxWrite, Classical.or_iff_not_imp_left]
  intro hlimited
  have hwide : s.maxWrite ≠ 1 := of_decide_eq_true hwide
  rw [writeChunkSize, if_neg hlimited] at hmem
  have := length_le_of_mem_chunks (by omega) hmem
  omega

theorem regWrite8_stops (reg v : Byte) : EndsEarly (StopsBy E C) (regWrite8 reg v) :=
  regWrite_stops transport small reg false nofun

theorem writeValue_stops (reg : Byte) {n : Nat} (value : Nat) (hn : 0 < n) :
    EndsEarly (StopsBy E C) (regWrite reg (beBytes value n) true) :=
  regWrite_stops transport small reg true fun h =>
    absurd h (List.ne_nil_of_length_pos (by rwa [beBytes_length]))

theorem setAddr_stops (reg : Byte) (a : Nat) : EndsEarly (StopsBy E C) (setAddr reg a) :=
  writeValue_stops transport small reg a (by decide)

/-! ### Device CRC and custom instructions (R215, R218) -/

theorem deviceCrc_stops {first last : Nat} (range : ¬(first ≤ last ∧ last < 2 ^ 24) → ∀ t, C .crcRange t) :
    EndsEarly (StopsBy E C) (deviceCrc first last) :=
  .requireBind (fun h => range (of_decide_eq_false h)) fun _ => (setAddr_stops transport small _ _).bind fun _ =>
    (setAddr_stops transport small _ _).bind fun _ => (regWrite8_stops transport small _ _).bind fun _ =>
    (pollReg_stops transport _ _ _ _ (transport _ rfl)).bind fun _ => regRead8_stops transport _

variable (timeout : E .customInstructionTimeout)

include timeout

theorem customInstruction_stops {cmdType readN writeN value : Nat} (opcode : Byte)
    (field : ¬(cmdType ≤ 7 ∧ readN ≤ 3 ∧ writeN ≤ 3) → ∀ t, C .fieldRange t)
    (operand : operandFits writeN value = false → ∀ t, C .operandRange t) :
    EndsEarly (StopsBy E C) (customInstruction cmdType opcode readN writeN value) := by
  have hanswer : EndsEarly (StopsBy E C)
      (if readN > 0 then do return some (beValue (← regRead regRop readN true)) else return none) := by
    split
    · exact (regRead_stops transport _ _ fun h => by omega).answer _
    · exact .pure _
  exact .requireBind (fun h => field (of_decide_eq_false h)) fun _ => .requireBind operand fun _ =>
    (EndsEarly.wheneverTrue fun h => writeValue_stops transport small _ _ (of_decide_eq_true h)).bind fun _ =>
    (regWrite8_stops transport small _ _).bind fun _ => (regWrite8_stops transport small _ _).bind fun _ =>
    .getBind fun _ => (pollReg_stops transport _ _ _ _ timeout).bind fun _ => hanswer

/-- An instruction of the parameters' own command types has no field out of range. -/
theorem ownInstruction_stops (cmdType : BitVec 3) (opcode : Byte) {readN writeN value : Nat} (hread : readN ≤ 3)
    (hwrite : writeN ≤ 3) (hfits : operandFits writeN value = true) :
    EndsEarly (StopsBy E C) (customInstruction cmdType.toNat opcode readN writeN value) :=
  customInstruction_stops transport small timeout opcode
    (fun h => absurd ⟨Nat.le_of_lt_succ cmdType.isLt, hread, hwrite⟩ h) fun h => absurd hfits (Bool.eq_false_iff.1 h)

theorem writeStatusRegister_stops {value : Nat} (hfits : operandFits 1 value = true) :
    EndsEarly (StopsBy E C) (writeStatusRegister value) :=
  .getBind fun _ => (ownInstruction_stops transport small timeout _ _ (by decide) (by decide) hfits).answer _

/-! ### The flash controller -/

theorem eraseFlash_stops : EndsEarly (StopsBy E C) eraseFlash :=
  (writeStatusRegister_stops transport small timeout rfl).bind fun _ => .getBind fun _ =>
    (ownInstruction_stops transport small timeout _ _ (by decide) (by decide) rfl).bind fun _ =>
    writeStatusRegister_stops transport small timeout rfl

omit timeout in
/-- A page that is not blank is not empty. -/
theorem programPages_stops (n p : Nat) (pages : List (List Byte)) :
    EndsEarly (StopsBy E C) (programPages n p pages) := by
  induction pages generalizing p with
  | nil => exact .pure ()
  | cons page rest ih =>
    have hpage (h : (!isBlankPage page) = true) : EndsEarly (StopsBy E C) (writePage p page) :=
      (waitNotBusy_stops transport).bind fun _ => .getBind fun _ => (regWrite8_stops transport small _ _).bind fun _ =>
        (setAddr_stops transport small _ _).bind fun _ =>
        (regWrite_stops transport small _ _ (by rintro rfl; cases h)).bind fun _ => regWrite8_stops transport small _ _
    exact (EndsEarly.update _).bind fun _ => (EndsEarly.wheneverTrue hpage).bind fun _ => ih _

variable (failed : E .verificationFailed)

include failed

omit timeout in
theorem verifyFlash_stops (data : List Byte) {n : Nat} (hn : n ≤ 2 ^ 24) :
    EndsEarly (StopsBy E C) (verifyFlash data n) :=
  (computeHostCrc_endsEarly _ data).bind fun _ =>
  (deviceCrc_stops transport small fun h => absurd ⟨Nat.zero_le _, by omega⟩ h).bind fun _ =>
  (EndsEarly.update _).bind fun _ => .whenever _ (.raise fun _ => failed)

theorem programFlashImage_stops (img : List Byte)
    (image : ∀ t, ¬(1 ≤ img.length ∧ img.length ≤ t.params.chipSize) → C .imageSize t) :
    EndsEarly (StopsBy E C) (programFlashImage img) :=
  .getBind_constant (programFlashImage_keeps img).constant fun s =>
    .requireBind (fun h t hc => image t (hc.params ▸ of_decide_eq_false h)) fun h =>
    have small' := fun t ht (_ : Constant s t) => small t ht
    (writeStatusRegister_stops transport small' timeout rfl).bind fun _ =>
    (programPages_stops transport small' _ _ _).bind fun _ => (waitNotBusy_stops transport).bind fun _ =>
    (writeStatusRegister_stops transport small' timeout rfl).bind fun _ =>
    verifyFlash_stops transport small' failed img ((of_decide_eq_true h).2.trans (chipSize_le _))

theorem readFlashImage_stops (n : Nat) (size : ∀ t, ¬(1 ≤ n ∧ n ≤ t.params.chipSize) → C .readSize t) :
    EndsEarly (StopsBy E C) (readFlashImage n) :=
  .getBind_constant (readFlashImage_keeps n).constant fun s =>
    .requireBind (fun h t hc => size t (hc.params ▸ of_decide_eq_false h)) fun h =>
    have small' := fun t ht (_ : Constant s t) => small t ht
    (ownInstruction_stops transport small' timeout _ _ (by decide) (by decide) rfl).bind fun _ =>
    (waitNotBusy_stops transport).bind fun _ =>
    (collectFlash_stops transport n (fun _ hk => (bounds_of_mem_chunkSizes (by decide) hk).1) []).bind fun out =>
    (verifyFlash_stops transport small' failed out ((of_decide_eq_true h).2.trans (chipSize_le _))).answer _

end Stops

/-! ### Where errors are caught (R282), and the operations that use no transport -/

section Caught

variable {E : Err → Prop} {C : Refusal → State → Prop}

theorem exitIsp_stops (small : ∀ t, t.maxWrite = 1 → C .transportTooSmall t) : EndsEarly (StopsBy E C) exitIsp :=
  ((regWrite8_stops (E := fun _ => True) (fun _ _ => trivial) small _ _).catching (.pure ()) fun _ _ => nofun).bind
    fun _ => .update _

theorem detectDevice_stops (a : Addr7) : EndsEarly (StopsBy E C) (detectDevice a) :=
  ((readOne_stops (E := fun e => isTransportError e = true) (fun _ h => h) a).answer _).catching (.pure false)
    fun _ htransport hpass => absurd htransport (Bool.eq_false_iff.1 hpass)

/-- A transport error that `enter_isp` does not catch is a stuck bus. -/
theorem busStuck_of_notCaught {e : Err} (htransport : isTransportError e = true) (hpass : isNoAckOrIo e = false) :
    ∃ w, e = .busStuck w := by
  cases e with
  | busStuck w => exact ⟨w, rfl⟩
  | noAck | ioError => cases hpass
  | _ => cases htransport

theorem enterIsp_stops (small : ∀ t, t.maxWrite = 1 → C .transportTooSmall t) (notEntered : E .enterIspFailed)
    (stuck : ∀ w, E (.busStuck w)) : EndsEarly (StopsBy E C) enterIsp := by
  have hpass (e : Err) (htransport : isTransportError e = true) (h : isNoAckOrIo e = false) : E e := by
    obtain ⟨w, rfl⟩ := busStuck_of_notCaught htransport h
    exact stuck w
  have hraise {γ : Type} : EndsEarly (StopsBy E C) (raise .enterIspFailed : M γ) := .raise fun _ => notEntered
  exact ((regWrite8_stops (fun _ h => h) small _ _).catching (.pure ()) hpass).bind fun _ =>
    ((regRead8_stops (fun _ h => h) _).catching hraise hpass).bind fun _ =>
    (EndsEarly.whenever _ hraise).bind fun _ => .update _

theorem openTransport_stops (io : E .ioError) : EndsEarly (StopsBy E C) openTransport := by
  have hdraw : EndsEarly (StopsBy E C) drawOpens := by
    intro s stop t h
    obtain ⟨ok, e, hrun, -⟩ := drawOpens_answer s
    rw [hrun] at h
    cases h
  exact hdraw.bind fun _ => .ite _ (.update _) (.raise fun _ => io)

theorem drawListing_stops : EndsEarly (StopsBy E C) drawListing := by
  intro s stop t h
  obtain ⟨map, e, hrun, -⟩ := drawListing_answer s
  rw [hrun] at h
  cases h

/-! ### GffCodec -/

theorem recognise_stops (take : BitStream → Option BitStream) (meaning : State → BitStream → NibResult) :
    EndsEarly (StopsBy E C) (recognise take meaning) :=
  .getBind fun s => by
    cases take s.stream with
    | none => exact .pure _
    | some bs => exact EndsEarly.bind (fun _ _ _ h => by cases h) fun _ => .pure _

theorem valueResult_stops {r : Except Err Value} (h : ∀ e, r = .error e → E e) :
    EndsEarly (StopsBy E C) (valueResult r) := by
  cases r with
  | ok v => exact .pure v
  | error e => exact .raise fun _ => h e rfl

theorem headerPayload_error {file : List Byte} {e : Err} (h : headerPayload file = .error e) :
    e = .signatureMismatch ∨ e = .tooSmall := by
  rw [headerPayload] at h
  split at h
  · exact .inr (Except.error.inj h).symm
  · split at h
    · exact .inl (Except.error.inj h).symm
    · cases h

theorem gffDecode_error {rule : Z6Rule} {file : List Byte} {e : Err} (h : gffDecode rule file = .error e) :
    e = .decodeError ∨ e = .signatureMismatch ∨ e = .tooSmall := by
  cases hheader : headerPayload file with
  | ok payload => exact .inl (gffDecode_payload_error hheader h)
  | error e' =>
    rw [gffDecode_of_header_error hheader] at h
    exact .inr (Except.error.inj h ▸ headerPayload_error hheader)

theorem except_map_error {γ δ ε : Type} {f : γ → δ} {r : Except ε γ} {e : ε} (h : r.map f = .error e) :
    r = .error e := by
  cases r with
  | ok a => cases h
  | error e' => exact congrArg _ (Except.error.inj h)

end Caught

/-! ## Every call -/

/-- The errors of an instruction (R280, R282): all but those of the operations that `ErrorKinds` names stay free. -/
def MayRaise : Instr → Err → Prop
  | .exitIsp, _ | .detect _, _ => False
  | .enterIsp, e => e = .enterIspFailed ∨ ∃ w, e = .busStuck w
  | .regWrite _ _ _, e | .regRead _ _ _, e | .deviceCrc _ _, e => isTransportError e = true
  | .customInstruction _ _ _ _ _, e | .erase, e => isTransportError e = true ∨ e = .customInstructionTimeout
  | .program _, e | .flashRead _, e =>
    isTransportError e = true ∨ e = .customInstructionTimeout ∨ e = .verificationFailed
  | .decode _, e => e = .decodeError ∨ e = .signatureMismatch ∨ e = .tooSmall
  | .checkHeader _, e => e = .signatureMismatch ∨ e = .tooSmall
  | _, _ => True

/-- A refusal that an operation may make from s: one of R293's conditions holds for it, and not the session's, which its
gate has checked. -/
def MayRefuse (i : Instr) (s : State) (r : Refusal) (t : State) : Prop :=
  Constant s t → r ≠ .sessionState ∧ refusalCondition r i s = true

theorem mayRefuse_tooSmall {i : Instr} (h : writesRegister i = true) {s : State} :
    ∀ t, t.maxWrite = 1 → MayRefuse i s .transportTooSmall t :=
  fun t ht hc => ⟨nofun, by rw [refusalCondition, h, ← hc.maxWrite, ht]; rfl⟩

theorem fitsLimit_false {limit n : Nat} (h : fitsLimit limit n = false) : limit ≠ 0 ∧ limit < n := by
  have := of_decide_eq_false h
  omega

theorem operandFits_false {n value : Nat} (h : operandFits n value = false) : 0 < n ∧ 2 ^ (8 * n) ≤ value := by
  have := of_decide_eq_false h
  omega

theorem opndOperation_stops (form : OpndForm) (s : State) :
    EndsEarly (StopsBy (fun _ => True) (MayRefuse (.opnd form) s)) (operation (.opnd form) s) := by
  cases form with
  | write n value =>
    have hwrites (h : 0 < n.toNat) : writesRegister (.opnd (.write n value)) = true :=
      decide_eq_true (by rintro rfl; exact absurd h (by decide))
    exact .requireBind (fun h t _ => by
        obtain ⟨hn, hvalue⟩ := operandFits_false h
        exact ⟨nofun, decide_eq_true ⟨of_decide_eq_true (hwrites hn), hvalue⟩⟩) fun _ =>
      (EndsEarly.wheneverTrue fun h =>
        writeValue_stops (fun _ _ => trivial) (mayRefuse_tooSmall (hwrites (of_decide_eq_true h))) _ _
          (of_decide_eq_true h)).answer _
  | read n =>
    rw [operation]
    split
    · exact .pure _
    · exact (regRead_stops (fun _ _ => trivial) _ _ fun h => absurd h ‹_›).answer _

theorem regwOperation_stops (a : IspAddr) (reg : Byte) (chunk : List Byte) (s : State) :
    EndsEarly (StopsBy (fun _ => True) (MayRefuse (.regw a reg chunk) s)) (operation (.regw a reg chunk) s) :=
  .requireBind (fun h _ _ => ⟨nofun, decide_eq_true (by simpa using h)⟩) fun _ =>
    .requireBind (fun h _ _ => ⟨nofun, decide_eq_true (by simpa using h)⟩) fun _ =>
    (transWrite_stops (fun _ _ => trivial) a.addr fun t h hc =>
      ⟨nofun, decide_eq_true (hc.maxWrite ▸ fitsLimit_false h)⟩).answer _

theorem regrOperation_stops (reg : Byte) (k : Nat) (seq : Bool) (s : State) :
    EndsEarly (StopsBy (fun _ => True) (MayRefuse (.regr reg k seq) s)) (operation (.regr reg k seq) s) :=
  .requireBind (fun h _ _ => ⟨nofun, decide_eq_true (by simpa using h)⟩) fun _ =>
    .requireBind (fun h _ _ => ⟨nofun, decide_eq_true (fitsLimit_false h)⟩) fun _ =>
    (writeOne_stops (fun _ _ => trivial) _ _).bind fun _ => (transRead_stops (fun _ _ => trivial) _ fun t h hc =>
      ⟨nofun, decide_eq_true (hc.maxRead ▸ fitsLimit_false h)⟩).answer _

theorem gffHeaderOperation_stops (file : List Byte) (s : State) :
    EndsEarly (StopsBy (fun _ => True) (MayRefuse (.gffHeader file) s)) (operation (.gffHeader file) s) := by
  rw [operation]
  cases headerPayload file with
  | error e => exact .raise fun _ => trivial
  | ok payload => exact (EndsEarly.update _).answer _

/-- Every operation raises the errors of its kind only, and refuses only for a reason whose condition holds. -/
theorem operation_stops (i : Instr) (s : State) : EndsEarly (StopsBy (MayRaise i) (MayRefuse i s)) (operation i s) := by
  cases i with
  | bsReadBit | decodeNibble | computeDecodedSize | deinit => exact (EndsEarly.update _).answer _
  | checkHeader file => exact valueResult_stops fun e h => headerPayload_error (except_map_error h)
  | decode file =>
    exact (EndsEarly.update _).bind fun _ => valueResult_stops fun e h => gffDecode_error (except_map_error h)
  | drive l => exact (driveLine_ends _ l).answer _
  | release l => exact (releaseLine_ends _ l).answer _
  | waitScl => exact (waitScl_stuck.linesStop (fun _ _ => trivial)).answer _
  | busReset => exact (resetBus_stuck.linesStop (fun _ _ => trivial)).answer _
  | pulseScl => exact (pulseScl_ends _).answer _
  | start => exact (startCondition_stuck.linesStop (fun _ _ => trivial)).answer _
  | stop => exact (stopCondition_stuck.linesStop (fun _ _ => trivial)).answer _
  | writeBit b => exact ((sendBit_ends b).sclStop (fun _ _ => trivial)).answer _
  | readBit => exact (recvBit_ends.sclStop (fun _ _ => trivial)).answer _
  | readByte => exact (recvByte_ends.sclStop (fun _ _ => trivial)).answer _
  | writeByte | addrW | addrR | ispAddrWrite | ispAddrRead | ispAddrAiWrite | ispAddrAiRead =>
    exact ((sendByte_ends _).sclStop (fun _ _ => trivial)).answer _
  | ack | nack => exact ((sendMasterAck_ends _).sclStop (fun _ _ => trivial)).answer _
  | busWrite address data =>
    exact (busWrite_stops (fun _ _ => trivial) data fun h _ _ => ⟨nofun, decide_eq_true h⟩).answer _
  | busRead address count =>
    exact (busRead_stops (fun _ _ => trivial) count fun h _ _ => ⟨nofun, decide_eq_true h⟩).answer _
  | tWrite a bytes =>
    exact (transWrite_stops (fun _ _ => trivial) a fun t h hc =>
      ⟨nofun, decide_eq_true (hc.maxWrite ▸ fitsLimit_false h)⟩).answer _
  | tRead a n =>
    exact (transRead_stops (fun _ _ => trivial) a fun t h hc =>
      ⟨nofun, decide_eq_true (hc.maxRead ▸ fitsLimit_false h)⟩).answer _
  | init => exact (openTransport_stops trivial).answer _
  | listDevices => exact drawListing_stops.answer _
  | detect a => exact (detectDevice_stops a).answer _
  | regWrite reg payload seq =>
    exact (regWrite_stops (fun _ h => h) (mayRefuse_tooSmall (i := .regWrite reg payload seq) rfl) reg seq fun h _ _ =>
      ⟨nofun, decide_eq_true h⟩).answer _
  | regRead reg n seq =>
    exact (regRead_stops (fun _ h => h) reg seq fun h _ _ => ⟨nofun, decide_eq_true h⟩).answer _
  | enterIsp =>
    exact (enterIsp_stops (mayRefuse_tooSmall rfl) (.inl rfl) fun w => .inr ⟨w, rfl⟩).answer _
  | exitIsp => exact (exitIsp_stops (mayRefuse_tooSmall rfl)).answer _
  | customInstruction cmdType opcode readN writeN value =>
    exact (customInstruction_stops (fun _ h => .inl h)
      (mayRefuse_tooSmall (i := .customInstruction cmdType opcode readN writeN value) rfl) (.inr rfl) opcode
      (fun h _ _ => ⟨nofun, decide_eq_true (by omega)⟩)
      fun h _ _ => ⟨nofun, decide_eq_true (operandFits_false h)⟩).answer _
  | deviceCrc first last =>
    exact (deviceCrc_stops (fun _ h => h) (mayRefuse_tooSmall (i := .deviceCrc first last) rfl) fun h _ _ =>
      ⟨nofun, decide_eq_true (by omega)⟩).answer _
  | hostCrc data => exact (computeHostCrc_endsEarly _ data).answer _
  | poll site reg test timeout err => exact (pollReg_stops (fun _ _ => trivial) site reg test timeout trivial).answer _
  | erase => exact (eraseFlash_stops (fun _ h => .inl h) (mayRefuse_tooSmall rfl) (.inr rfl)).answer _
  | program img =>
    exact (programFlashImage_stops (fun _ h => .inl h) (mayRefuse_tooSmall (i := .program img) rfl)
      (.inr (.inl rfl)) (.inr (.inr rfl)) img fun t h hc =>
      ⟨nofun, decide_eq_true (by rw [← hc.params]; omega)⟩).answer _
  | flashRead n =>
    exact (readFlashImage_stops (fun _ h => .inl h) (mayRefuse_tooSmall (i := .flashRead n) rfl)
      (.inr (.inl rfl)) (.inr (.inr rfl)) n fun t h hc =>
      ⟨nofun, decide_eq_true (by rw [← hc.params]; omega)⟩).answer _
  | ctrl | cmdEnterIsp | cmdCrc | cmdPageWrite | reboot =>
    exact (regWrite8_stops (fun _ _ => trivial) (mayRefuse_tooSmall rfl) _ _).answer _
  | statIsp | statBusy | statCrcReady | ciPending => exact testReg_stops (fun _ _ => trivial) _ _
  | a24 r addr => exact (setAddr_stops (fun _ _ => trivial) (mayRefuse_tooSmall rfl) _ _).answer _
  | opnd form => exact opndOperation_stops form s
  | size lastIndex =>
    exact .getBind fun _ => (regWrite8_stops (fun _ _ => trivial) (mayRefuse_tooSmall rfl) _ _).answer _
  | regw a reg chunk => exact regwOperation_stops a reg chunk s
  | regr reg k seq => exact regrOperation_stops reg k seq s
  | gffHeader file => exact gffHeaderOperation_stops file s
  | nib0 | nibF | nib1 | nib8 | nib2 | nib7 | nibC | nib9 | nib4 | nib5 | nibA | nibB | nib3 | nibD | nibE | nib6
  | nibError | nibZ6 | nibEndExhausted => exact recognise_stops _ _
  | pair n1 n2 => exact .pure _

/-- The error a call ends with is one its instruction may raise. -/
theorem exec_mayRaise {i : Instr} {s t : State} {e : Err} (hresult : t.result = some (.err e))
    (h : exec i s = .next t) : MayRaise i e := by
  obtain ⟨-, ⟨v, u, -, rfl⟩ | ⟨e', u, hrun, rfl⟩⟩ := exec_next_cases h
  · cases hresult
  · cases hresult
    exact operation_stops i s s _ u hrun

/-- Settles O14: each clause is the instruction's row of the errors it may raise. -/
theorem errorKinds : Obligations.ErrorKinds := fun _ _ _ hresult =>
  ⟨exec_mayRaise hresult, fun _ => exec_mayRaise hresult, exec_mayRaise hresult,
    fun _ _ _ => exec_mayRaise hresult, fun _ _ _ => exec_mayRaise hresult, fun _ _ _ _ _ => exec_mayRaise hresult,
    fun _ _ => exec_mayRaise hresult, exec_mayRaise hresult, fun _ => exec_mayRaise hresult,
    fun _ => exec_mayRaise hresult, fun _ => exec_mayRaise hresult, fun _ => exec_mayRaise hresult⟩

/-- A refused call has a reason whose condition holds. -/
theorem condition_of_refused {i : Instr} {s : State} {r : Refusal} (h : exec i s = .refused r) :
    refusalCondition r i s = true := by
  rw [exec_eq] at h
  rcases invoke_cases (sessionGate i) (operation i s) s with
    ⟨hgate, hinv⟩ | ⟨-, ⟨v, u, -, hinv⟩ | ⟨e, u, -, hinv⟩ | ⟨r', u, hrun, hinv⟩ | ⟨f, u, -, hinv⟩⟩ <;>
    rw [hinv] at h <;> cases h
  · rw [refusalCondition, hgate]; rfl
  · exact (operation_stops i s s _ u hrun ((operation_keeps i s).of_error hrun).toConstant).2

/-! ## Where a condition holds (R293) -/

/-- The operation is refused from this state. -/
def Refuses (x : M α) (s : State) : Prop := ∃ r t, x s = .error (.refused r) t

section Refuses

variable {s : State}

theorem Refuses.require {ok : Bool} (h : ok = false) (r : Refusal) : Refuses (Machine.require ok r) s :=
  ⟨r, s, by rw [h, require_false]⟩

theorem Refuses.bind {x : M α} (h : Refuses x s) (f : α → M β) : Refuses (x >>= f) s := by
  obtain ⟨r, t, hrun⟩ := h
  exact ⟨r, t, by rw [M.bind_run, hrun]⟩

theorem Refuses.get {f : State → M β} (h : Refuses (f s) s) : Refuses ((MonadState.get : M State) >>= f) s := h

/-- A precondition keeps a refusal that follows it: where it is not met, it refuses itself. -/
theorem Refuses.pastRequire {f : Unit → M β} (h : Refuses (f ()) s) (ok : Bool) (r : Refusal) :
    Refuses (Machine.require ok r >>= f) s := by
  cases ok with
  | true => exact h
  | false => exact (Refuses.require rfl r).bind f

theorem Refuses.catching {x : M α} (h : Refuses x s) (p : Err → Bool) (handler : M α) :
    Refuses (Machine.catching p x handler) s := by
  obtain ⟨r, t, hrun⟩ := h
  exact ⟨r, t, by rw [catching_run, hrun]⟩

/-! ### A transport too small for a register write (R191, R210) -/

theorem regWrite_refuses (h : s.maxWrite = 1) (reg : Byte) (payload : List Byte) (seq : Bool) :
    Refuses (regWrite reg payload seq) s :=
  ((Refuses.require (decide_eq_false (not_not.2 h)) .transportTooSmall).bind _).get.pastRequire _ _

theorem customInstruction_refuses (h : s.maxWrite = 1) (cmdType : Nat) (opcode : Byte) (readN writeN value : Nat) :
    Refuses (customInstruction cmdType opcode readN writeN value) s := by
  refine Refuses.pastRequire (Refuses.pastRequire ?_ _ _) _ _
  by_cases hwrite : writeN > 0
  · rw [whenever_decide hwrite]
    exact (regWrite_refuses h _ _ _).bind _
  · rw [decide_eq_false hwrite]
    exact (regWrite_refuses h _ _ _ : Refuses (regWrite8 regCiOpcode opcode) s).bind _

theorem writeStatusRegister_refuses (h : s.maxWrite = 1) (value : Nat) : Refuses (writeStatusRegister value) s :=
  ((customInstruction_refuses h _ _ _ _ _).bind _).get

/-- A field that is not zero counts bytes. -/
theorem toNat_pos_of_ne_zero {w : Nat} {n : BitVec w} (h : n ≠ 0) : 0 < n.toNat :=
  Nat.pos_of_ne_zero fun h0 => h (BitVec.eq_of_toNat_eq (h0.trans BitVec.toNat_zero.symm))

theorem operation_refuses_tooSmall {i : Instr} (hwrites : writesRegister i = true) (h : s.maxWrite = 1) :
    Refuses (operation i s) s := by
  cases i with
  | regWrite | ctrl | cmdEnterIsp | cmdCrc | cmdPageWrite | reboot | a24 => exact (regWrite_refuses h _ _ _).bind _
  | enterIsp | exitIsp => exact (((regWrite_refuses h _ _ _).catching _ _).bind _).bind _
  | customInstruction => exact (customInstruction_refuses h _ _ _ _ _).bind _
  | deviceCrc => exact (((regWrite_refuses h _ _ _).bind _).pastRequire _ _).bind _
  | erase => exact ((writeStatusRegister_refuses h _).bind _).bind _
  | program => exact ((((writeStatusRegister_refuses h _).bind _).pastRequire _ _).get).bind _
  | flashRead => exact ((((customInstruction_refuses h _ _ _ _ _).bind _).pastRequire _ _).get).bind _
  | size => exact ((regWrite_refuses h _ _ _).bind _).get
  | regw => exact ((Refuses.require (decide_eq_false (not_not.2 h)) _).bind _).pastRequire _ _
  | opnd form =>
    cases form with
    | read => cases hwrites
    | write n value =>
      have hpos : n.toNat > 0 := toNat_pos_of_ne_zero (of_decide_eq_true hwrites)
      refine Refuses.pastRequire ?_ _ _
      rw [whenever_decide hpos]
      exact (regWrite_refuses h _ _ _).bind _
  | _ => cases hwrites

/-! ### A transaction longer than its limit (R190) -/

theorem fitsLimit_eq_false {limit n : Nat} (h : limit ≠ 0 ∧ limit < n) : fitsLimit limit n = false :=
  decide_eq_false (by omega)

theorem transWrite_refuses {bytes : List Byte} (h : s.maxWrite ≠ 0 ∧ s.maxWrite < bytes.length) (a : Addr7) :
    Refuses (transWrite a bytes) s := ((Refuses.require (fitsLimit_eq_false h) .tooLong).bind _).get

theorem transRead_refuses {n : Nat} (h : s.maxRead ≠ 0 ∧ s.maxRead < n) (a : Addr7) : Refuses (transRead a n) s :=
  ((Refuses.require (fitsLimit_eq_false h) .tooLong).bind _).get

theorem operation_refuses_tooLong {i : Instr} (h : refusalCondition .tooLong i s = true) :
    Refuses (operation i s) s := by
  cases i with
  | tWrite a bytes => exact (transWrite_refuses (of_decide_eq_true h) a).bind _
  | tRead a n => exact (transRead_refuses (of_decide_eq_true h) a).bind _
  | regw a reg chunk =>
    have hwrite : Refuses (transWrite a.addr (reg :: chunk)) s :=
      transWrite_refuses (bytes := reg :: chunk) (of_decide_eq_true h) a.addr
    exact ((hwrite.bind _).pastRequire _ _).pastRequire _ _
  | regr reg k seq =>
    exact ((Refuses.require (fitsLimit_eq_false (of_decide_eq_true h)) _).bind _).pastRequire _ _
  | _ => cases h

/-! ### Operands out of range (R161, R162, R210, R211, R215, R218, R262) -/

theorem operandFits_eq_false {n value : Nat} (h : 0 < n ∧ 2 ^ (8 * n) ≤ value) : operandFits n value = false :=
  decide_eq_false (by omega)

theorem operation_refuses_addressRange {i : Instr} (h : refusalCondition .addressRange i s = true) :
    Refuses (operation i s) s := by
  cases i with
  | busWrite | busRead =>
    exact ((Refuses.require (decide_eq_false (Nat.not_le_of_lt (of_decide_eq_true h))) _).bind _).bind _
  | _ => cases h

theorem operation_refuses_emptyPayload {i : Instr} (h : refusalCondition .emptyPayload i s = true) :
    Refuses (operation i s) s := by
  cases i with
  | regWrite => exact ((Refuses.require (decide_eq_false (not_not.2 (of_decide_eq_true h))) _).bind _).bind _
  | regw => exact (Refuses.require (decide_eq_false (not_not.2 (of_decide_eq_true h))) _).bind _
  | _ => cases h

theorem operation_refuses_emptyRead {i : Instr} (h : refusalCondition .emptyRead i s = true) :
    Refuses (operation i s) s := by
  cases i with
  | regRead => exact ((Refuses.require (decide_eq_false (not_not.2 (of_decide_eq_true h))) _).bind _).bind _
  | regr => exact (Refuses.require (decide_eq_false (not_not.2 (of_decide_eq_true h))) _).bind _
  | _ => cases h

theorem operation_refuses_fieldRange {i : Instr} (h : refusalCondition .fieldRange i s = true) :
    Refuses (operation i s) s := by
  cases i with
  | customInstruction =>
    have hrange := of_decide_eq_true h
    exact ((Refuses.require (decide_eq_false (by omega)) _).bind _).bind _
  | _ => cases h

theorem operation_refuses_operandRange {i : Instr} (h : refusalCondition .operandRange i s = true) :
    Refuses (operation i s) s := by
  cases i with
  | customInstruction =>
    exact (((Refuses.require (operandFits_eq_false (of_decide_eq_true h)) _).bind _).pastRequire _ _).bind _
  | opnd form =>
    cases form with
    | read => cases h
    | write n value =>
      obtain ⟨hn, hvalue⟩ := of_decide_eq_true h
      exact (Refuses.require (operandFits_eq_false ⟨toNat_pos_of_ne_zero hn, hvalue⟩) _).bind _
  | _ => cases h

theorem operation_refuses_crcRange {i : Instr} (h : refusalCondition .crcRange i s = true) :
    Refuses (operation i s) s := by
  cases i with
  | deviceCrc =>
    have hrange := of_decide_eq_true h
    exact ((Refuses.require (decide_eq_false (by omega)) _).bind _).bind _
  | _ => cases h

theorem operation_refuses_imageSize {i : Instr} (h : refusalCondition .imageSize i s = true) :
    Refuses (operation i s) s := by
  cases i with
  | program =>
    have hsize := of_decide_eq_true h
    exact (((Refuses.require (decide_eq_false (by omega)) _).bind _).get).bind _
  | _ => cases h

theorem operation_refuses_readSize {i : Instr} (h : refusalCondition .readSize i s = true) :
    Refuses (operation i s) s := by
  cases i with
  | flashRead =>
    have hsize := of_decide_eq_true h
    exact (((Refuses.require (decide_eq_false (by omega)) _).bind _).get).bind _
  | _ => cases h

/-! ### Every reason -/

/-- Where one of R293's conditions other than the session's holds, the operation is refused. -/
theorem operation_refuses {r : Refusal} {i : Instr} (hr : r ≠ .sessionState) (h : refusalCondition r i s = true) :
    Refuses (operation i s) s := by
  cases r with
  | addressRange => exact operation_refuses_addressRange h
  | tooLong => exact operation_refuses_tooLong h
  | transportTooSmall =>
    obtain ⟨hwrites, hsmall⟩ := Bool.and_eq_true_iff.1 h
    exact operation_refuses_tooSmall hwrites (of_decide_eq_true hsmall)
  | emptyPayload => exact operation_refuses_emptyPayload h
  | emptyRead => exact operation_refuses_emptyRead h
  | fieldRange => exact operation_refuses_fieldRange h
  | operandRange => exact operation_refuses_operandRange h
  | crcRange => exact operation_refuses_crcRange h
  | imageSize => exact operation_refuses_imageSize h
  | readSize => exact operation_refuses_readSize h
  | sessionState => exact absurd rfl hr
  | undecodable | notModelled => cases h

/-- Where one of R293's conditions holds, the call is refused: by its gate, or by its operation. -/
theorem refused_of_condition {r : Refusal} {i : Instr} (h : refusalCondition r i s = true) :
    ∃ r', exec i s = .refused r' := by
  cases hgate : sessionGate i s.session with
  | false => exact ⟨_, exec_closed hgate⟩
  | true =>
    have hr : r ≠ .sessionState := by
      rintro rfl
      rw [refusalCondition, hgate] at h
      cases h
    obtain ⟨r', t, hrun⟩ := operation_refuses hr h
    exact ⟨r', by rw [exec_open hgate, hrun, conclude_refused]⟩

end Refuses

/-- Every call of every instruction is refused exactly where one of R293's conditions holds, for such a reason. -/
theorem refusals (i : Instr) (s : State) :
    ((∃ r, exec i s = .refused r) ↔ ∃ r, refusalCondition r i s = true) ∧
      ∀ r, exec i s = .refused r → refusalCondition r i s = true :=
  ⟨⟨fun ⟨r, h⟩ => ⟨r, condition_of_refused h⟩, fun ⟨_, h⟩ => refused_of_condition h⟩, fun _ => condition_of_refused⟩

/-- Settles O12: the conditions are those of every call. -/
theorem operationRefusals : Obligations.OperationRefusals := fun i s _ _ => refusals i s

/-- Settles O13: the encoding rows meet the same conditions. -/
theorem rowRefusals : Obligations.RowRefusals := fun i s _ => refusals i s

end Sys2Proof.Machine
end
